-- ==== Sys2Proof/Word.lean ====
section
/-! DEFINITION. The words of the machine (R1, R12), lists kept by key, and the exact values of the number formats. -/

namespace Sys2Proof

/-- A register value or a 64-bit operand. -/
abbrev Word := BitVec 64
/-- The smallest addressable unit of every memory. -/
abbrev Byte := BitVec 8
/-- A virtual address, R12. -/
abbrev Addr := BitVec 56
/-- One bit per lane of a warp. -/
abbrev Mask := BitVec 32

/-- Things by number, ascending, one entry each: registers by index, cores, workgroups, warps. -/
abbrev Table (α : Type) := List (Nat × α)

/-- An exact value of a number format (R72): (−1)^neg × mag × 2^exp, an infinity, or a NaN, signalling or quiet (R74). -/
inductive FVal where
  | fin (neg : Bool) (mag : Nat) (exp : Int)
  | inf (neg : Bool)
  | nan (signalling : Bool)
  deriving DecidableEq, Repr

end Sys2Proof
end

