-- ==== Sys2Proof/Syntax.lean ====
section
/-! DEFINITION. The instructions and events of the Chroam K6 (spec/opcode_table.json): one constructor of `Instr` per
row. An instruction row's arguments are the fields of its word (R48–R63), with register fields as names (R24, R55);
an event row's arguments say which agent acts and what the outside world sends. -/

namespace Sys2Proof

/-- Execution scopes, R48 bits 30:29. -/
inductive Scope where
  | lane | warp | set | block
  deriving DecidableEq, Repr

/-- The width suffixes of the width families, R57. -/
inductive Width where
  | w64 | w32 | w16 | w8
  deriving DecidableEq, Repr

/-- The registers that a 7-bit register field names, R24 and R55. -/
inductive Reg where
  | v (n : Fin 64) | s (n : Fin 48) | k (n : Fin 8)
  | zr | lid | wid | emask | tile | tseq | rcnt | tag
  deriving DecidableEq, Repr

/-- One instruction stream: a warp's main stream, or one of its splits (R189). -/
structure Who where
  core  : Nat
  slot  : Nat
  warp  : Nat
  split : Option Nat
  deriving DecidableEq, Repr

/-- The operations of the atomics, R261. -/
inductive AtOp where
  | add | min | max | maxu | and | or | xor | xch | cas | fadd
  deriving DecidableEq, Repr

/-- What a flit carries (R287, R403): a row, a remote arrival, or a task record for the intake window of `ctx`; or another
chip's access through the peer aperture to a byte p[37:0] of this module's device memory: a read, a write, or an atomic of n
bytes with its operand and the one after it. -/
inductive PeerMsg where
  | row (ctx : Nat) (addr : Nat) (data : List Byte)
  | arrival (ctx : Nat) (addr : Nat)
  | record (ctx : Nat) (data : List Byte)
  | read (chip : Nat) (addr : BitVec 38) (len : Nat)
  | write (addr : BitVec 38) (data : List Byte)
  | atomic (chip : Nat) (op : AtOp) (n : Nat) (addr : BitVec 38) (b b1 : Word)
  deriving DecidableEq, Repr

/-- One constructor per row of spec/opcode_table.json: the instructions, the events of the module, then the rows that the outside world
sends. -/
inductive Instr where
  /-- NOP (R111). Takes one issue chance; at set or block scope it is a pure rendezvous at the latch. -/
  | nop (w : Bool) (sc : Scope)
  /-- BR (R112). Sets the warp's or split's PC to the target given by a 21-bit word offset. -/
  | br (w : Bool) (o : BitVec 21)
  /-- BRZ (R112). Branches when the scalar source is zero. -/
  | brz (w : Bool) (d : Reg) (o : BitVec 14)
  /-- BRNZ (R112). Branches when the scalar source is nonzero. -/
  | brnz (w : Bool) (d : Reg) (o : BitVec 14)
  /-- CALL (R113). Writes the return address to S47 and branches by a 21-bit word offset. -/
  | call (w : Bool) (o : BitVec 21)
  /-- CALLX (R114). Writes the return address to S47 and jumps to the address in a scalar source. -/
  | callx (w : Bool) (a : Reg)
  /-- JX (R114). Jumps to the address in a scalar source. -/
  | jx (w : Bool) (a : Reg)
  /-- CKEY (R177). Snapshots a per-lane key and mode as the pending key of the class unit. -/
  | ckey (w : Bool) (a : Reg) (i : BitVec 7)
  /-- CLASS (R180). Pushes a class-stack level from the pending key and begins the first class or the concurrent splits. -/
  | klass (w : Bool) (d : Reg) (o : BitVec 14)
  /-- CNEXT (R181). Begins the next class of the top level or pops it and restores the outer mask. -/
  | cnext (w : Bool)
  /-- CBRK (R182). Makes the current class leave n class loops and runs the CNEXT action of the emptied level. -/
  | cbrk (w : Bool) (i : BitVec 7)
  /-- RDFL (R183). Reads the V register of the lowest active lane into a scalar. -/
  | rdfl (w : Bool) (d : Reg) (a : Reg)
  /-- EXIT (R115). Exits the active lanes or the whole warp, leaving sets and freeing the partition slot. -/
  | exit (w : Bool) (sc : Scope)
  /-- YIELD (R116). Moves the warp to the end of its partition's issue ring. -/
  | yield (w : Bool)
  /-- TRAP (R363). Raises cause 0x1F with TADDR holding n. -/
  | trap (w : Bool) (i : BitVec 7)
  /-- BKPT (R364). Halts the warp when a debugger is attached, otherwise raises cause 0x20. -/
  | bkpt (w : Bool) (i : BitVec 7)
  /-- WIN (R117). Sets the warp's register window base to b times 16. -/
  | win (w : Bool) (i : BitVec 7)
  /-- SETS (R118). Chooses the warp's current set. -/
  | sets (w : Bool) (i : BitVec 7)
  /-- LDL (R119). Loads an 8-byte literal through the instruction cache into a scalar. -/
  | ldl (w : Bool) (d : Reg) (o : BitVec 14)
  /-- LDLW (R119). Loads a 4-byte literal, zero-extended, into a scalar. -/
  | ldlw (w : Bool) (d : Reg) (o : BitVec 14)
  /-- SYSR (R121). Reads a system register into a scalar. -/
  | sysr (w : Bool) (d : Reg) (i : BitVec 7)
  /-- SYSW (R121). Writes a scalar to a system register that has no row of its own. -/
  | sysw (w : Bool) (a : Reg) (i : BitVec 7)
  /-- ICINV (R127). Starts invalidating instruction-cache lines over a range on both dies after the warp's stores are performed. -/
  | icinv (w : Bool) (a : Reg) (b : Reg)
  /-- GOV (R124). Sets the warp's governor budget and clears its count. -/
  | gov (w : Bool) (a : Reg)
  /-- QSYNC (R125). Ends the deterministic quantum and parks until its commit completes. -/
  | qsync (w : Bool)
  /-- TSPAWN (R347). Reads and checks a task record and starts its enqueue after earlier stores are performed. -/
  | tspawn (w : Bool) (a : Reg) (b : Reg)
  /-- TSUCC (R348). Checks a successor block and starts its decrement after earlier stores are performed. -/
  | tsucc (w : Bool) (a : Reg) (b : Reg)
  /-- CPOL (R126). Sets the cache policy of the warp's later core-path accesses. -/
  | cpol (w : Bool) (i : BitVec 7)
  /-- ERET (R365). Returns from the trap handler, restoring mask and depth and resuming suspended splits or members. -/
  | eret (w : Bool) (i : BitVec 7)
  /-- MBANK_QUERY (R319). Returns the bank residency entry of a bank. -/
  | mbankQuery (w : Bool) (d : Reg) (a : Reg)
  /-- MBANK_PIN (R319). Pins a bank, or sets HELD on a loading or gradient bank. -/
  | mbankPin (w : Bool) (d : Reg) (a : Reg)
  /-- MBANK_UNPIN (R319). Unpins a bank, or clears HELD. -/
  | mbankUnpin (w : Bool) (d : Reg) (a : Reg)
  /-- MBANK_RELEASE (R319). Makes a resident bank EMPTY. -/
  | mbankRelease (w : Bool) (d : Reg) (a : Reg)
  /-- COLL (R404). Reads a collective descriptor and issues a collective operation to the collective engine. -/
  | coll (w : Bool) (sc : Scope) (i : BitVec 7) (a : Reg) (b : Reg)
  /-- MSTORE (R322). Drains accumulator rows or a bank's gradient tile into a scratchpad tensor, with optional amax and clear. -/
  | mstore (w : Bool) (sc : Scope) (i : BitVec 7) (a : Reg) (b : Reg)
  /-- ADD (R142). Adds sub-elements modulo 2^w. -/
  | add (w : Bool) (sc : Scope) (t : Width) (d : Reg) (a : Reg) (b : Reg)
  /-- SUB (R142). Subtracts sub-elements modulo 2^w. -/
  | sub (w : Bool) (sc : Scope) (t : Width) (d : Reg) (a : Reg) (b : Reg)
  /-- MUL (R142). Multiplies sub-elements, keeping the low half. -/
  | mul (w : Bool) (sc : Scope) (t : Width) (d : Reg) (a : Reg) (b : Reg)
  /-- MIN (R142). Signed minimum of sub-elements. -/
  | min (w : Bool) (sc : Scope) (t : Width) (d : Reg) (a : Reg) (b : Reg)
  /-- MAX (R142). Signed maximum of sub-elements. -/
  | max (w : Bool) (sc : Scope) (t : Width) (d : Reg) (a : Reg) (b : Reg)
  /-- MINU (R142). Unsigned minimum of sub-elements. -/
  | minu (w : Bool) (sc : Scope) (t : Width) (d : Reg) (a : Reg) (b : Reg)
  /-- MAXU (R142). Unsigned maximum of sub-elements. -/
  | maxu (w : Bool) (sc : Scope) (t : Width) (d : Reg) (a : Reg) (b : Reg)
  /-- ADDS (R142). Signed saturating add of sub-elements. -/
  | adds (w : Bool) (sc : Scope) (t : Width) (d : Reg) (a : Reg) (b : Reg)
  /-- ADDSU (R142). Unsigned saturating add of sub-elements. -/
  | addsu (w : Bool) (sc : Scope) (t : Width) (d : Reg) (a : Reg) (b : Reg)
  /-- SUBS (R142). Signed saturating subtract of sub-elements. -/
  | subs (w : Bool) (sc : Scope) (t : Width) (d : Reg) (a : Reg) (b : Reg)
  /-- SHL (R142). Shifts sub-elements left. -/
  | shl (w : Bool) (sc : Scope) (t : Width) (d : Reg) (a : Reg) (b : Reg)
  /-- SHR (R142). Shifts sub-elements right logically. -/
  | shr (w : Bool) (sc : Scope) (t : Width) (d : Reg) (a : Reg) (b : Reg)
  /-- SRA (R142). Shifts sub-elements right arithmetically. -/
  | sra (w : Bool) (sc : Scope) (t : Width) (d : Reg) (a : Reg) (b : Reg)
  /-- CEQ (R142). Writes all ones where sub-elements are equal. -/
  | ceq (w : Bool) (sc : Scope) (t : Width) (d : Reg) (a : Reg) (b : Reg)
  /-- CLT (R142). Writes all ones where signed x < y. -/
  | clt (w : Bool) (sc : Scope) (t : Width) (d : Reg) (a : Reg) (b : Reg)
  /-- CLTU (R142). Writes all ones where unsigned x < y. -/
  | cltu (w : Bool) (sc : Scope) (t : Width) (d : Reg) (a : Reg) (b : Reg)
  /-- AND (R143). Bitwise and of 64 bits. -/
  | and (w : Bool) (sc : Scope) (d : Reg) (a : Reg) (b : Reg)
  /-- OR (R143). Bitwise or of 64 bits. -/
  | or (w : Bool) (sc : Scope) (d : Reg) (a : Reg) (b : Reg)
  /-- XOR (R143). Bitwise exclusive or of 64 bits. -/
  | xor (w : Bool) (sc : Scope) (d : Reg) (a : Reg) (b : Reg)
  /-- ANDN (R143). A and not B. -/
  | andn (w : Bool) (sc : Scope) (d : Reg) (a : Reg) (b : Reg)
  /-- MOV (R144). Copies A into D. -/
  | mov (w : Bool) (sc : Scope) (d : Reg) (a : Reg)
  /-- BSEL (R145). Selects bits of A or B by the old D as mask. -/
  | bsel (w : Bool) (sc : Scope) (d : Reg) (a : Reg) (b : Reg)
  /-- MULH_64 (R146). High half of the signed 128-bit product. -/
  | mulh64 (w : Bool) (sc : Scope) (d : Reg) (a : Reg) (b : Reg)
  /-- MULHU_64 (R146). High half of the unsigned 128-bit product. -/
  | mulhu64 (w : Bool) (sc : Scope) (d : Reg) (a : Reg) (b : Reg)
  /-- MULH_32 (R146). High halves of signed 32-bit products. -/
  | mulh32 (w : Bool) (sc : Scope) (d : Reg) (a : Reg) (b : Reg)
  /-- MULHU_32 (R146). High halves of unsigned 32-bit products. -/
  | mulhu32 (w : Bool) (sc : Scope) (d : Reg) (a : Reg) (b : Reg)
  /-- MAD_32 (R147). Multiply-accumulates 32-bit sub-elements into D. -/
  | mad32 (w : Bool) (sc : Scope) (d : Reg) (a : Reg) (b : Reg)
  /-- MAD_64 (R147). Multiply-accumulates 64 bits into D. -/
  | mad64 (w : Bool) (sc : Scope) (d : Reg) (a : Reg) (b : Reg)
  /-- POPC (R148). Counts the 1 bits of A. -/
  | popc (w : Bool) (sc : Scope) (d : Reg) (a : Reg)
  /-- CLZ (R148). Counts leading zeros of A. -/
  | clz (w : Bool) (sc : Scope) (d : Reg) (a : Reg)
  /-- BREV (R148). Reverses the 64 bits of A. -/
  | brev (w : Bool) (sc : Scope) (d : Reg) (a : Reg)
  /-- BFX (R149). Extracts a bit field of A under a control word. -/
  | bfx (w : Bool) (sc : Scope) (d : Reg) (a : Reg) (b : Reg)
  /-- BFI (R149). Inserts low bits of A into a field of D. -/
  | bfi (w : Bool) (sc : Scope) (d : Reg) (a : Reg) (b : Reg)
  /-- SHUFB (R150). Builds each result byte from a 16-byte table of A and old D. -/
  | shufb (w : Bool) (sc : Scope) (d : Reg) (a : Reg) (b : Reg)
  /-- FADD_F32 (R154). FP32 addition per sub-element. -/
  | faddF32 (w : Bool) (sc : Scope) (d : Reg) (a : Reg) (b : Reg)
  /-- FADD_BF16 (R154). BF16 addition per sub-element. -/
  | faddBf16 (w : Bool) (sc : Scope) (d : Reg) (a : Reg) (b : Reg)
  /-- FADD_F16 (R154). FP16 addition per sub-element. -/
  | faddF16 (w : Bool) (sc : Scope) (d : Reg) (a : Reg) (b : Reg)
  /-- FSUB_F32 (R154). FP32 subtraction per sub-element. -/
  | fsubF32 (w : Bool) (sc : Scope) (d : Reg) (a : Reg) (b : Reg)
  /-- FSUB_BF16 (R154). BF16 subtraction per sub-element. -/
  | fsubBf16 (w : Bool) (sc : Scope) (d : Reg) (a : Reg) (b : Reg)
  /-- FSUB_F16 (R154). FP16 subtraction per sub-element. -/
  | fsubF16 (w : Bool) (sc : Scope) (d : Reg) (a : Reg) (b : Reg)
  /-- FMUL_F32 (R154). FP32 multiplication per sub-element. -/
  | fmulF32 (w : Bool) (sc : Scope) (d : Reg) (a : Reg) (b : Reg)
  /-- FMUL_BF16 (R154). BF16 multiplication per sub-element. -/
  | fmulBf16 (w : Bool) (sc : Scope) (d : Reg) (a : Reg) (b : Reg)
  /-- FMUL_F16 (R154). FP16 multiplication per sub-element. -/
  | fmulF16 (w : Bool) (sc : Scope) (d : Reg) (a : Reg) (b : Reg)
  /-- FFMA_F32 (R154). FP32 fused multiply-add into D. -/
  | ffmaF32 (w : Bool) (sc : Scope) (d : Reg) (a : Reg) (b : Reg)
  /-- FFMA_BF16 (R154). BF16 fused multiply-add into D. -/
  | ffmaBf16 (w : Bool) (sc : Scope) (d : Reg) (a : Reg) (b : Reg)
  /-- FFMA_F16 (R154). FP16 fused multiply-add into D. -/
  | ffmaF16 (w : Bool) (sc : Scope) (d : Reg) (a : Reg) (b : Reg)
  /-- FMIN_F32 (R156). FP32 minimum per sub-element. -/
  | fminF32 (w : Bool) (sc : Scope) (d : Reg) (a : Reg) (b : Reg)
  /-- FMIN_BF16 (R156). BF16 minimum per sub-element. -/
  | fminBf16 (w : Bool) (sc : Scope) (d : Reg) (a : Reg) (b : Reg)
  /-- FMIN_F16 (R156). FP16 minimum per sub-element. -/
  | fminF16 (w : Bool) (sc : Scope) (d : Reg) (a : Reg) (b : Reg)
  /-- FMAX_F32 (R156). FP32 maximum per sub-element. -/
  | fmaxF32 (w : Bool) (sc : Scope) (d : Reg) (a : Reg) (b : Reg)
  /-- FMAX_BF16 (R156). BF16 maximum per sub-element. -/
  | fmaxBf16 (w : Bool) (sc : Scope) (d : Reg) (a : Reg) (b : Reg)
  /-- FMAX_F16 (R156). FP16 maximum per sub-element. -/
  | fmaxF16 (w : Bool) (sc : Scope) (d : Reg) (a : Reg) (b : Reg)
  /-- FCEQ_F32 (R157). FP32 equality mask. -/
  | fceqF32 (w : Bool) (sc : Scope) (d : Reg) (a : Reg) (b : Reg)
  /-- FCEQ_BF16 (R157). BF16 equality mask. -/
  | fceqBf16 (w : Bool) (sc : Scope) (d : Reg) (a : Reg) (b : Reg)
  /-- FCEQ_F16 (R157). FP16 equality mask. -/
  | fceqF16 (w : Bool) (sc : Scope) (d : Reg) (a : Reg) (b : Reg)
  /-- FCLT_F32 (R157). FP32 less-than mask. -/
  | fcltF32 (w : Bool) (sc : Scope) (d : Reg) (a : Reg) (b : Reg)
  /-- FCLT_BF16 (R157). BF16 less-than mask. -/
  | fcltBf16 (w : Bool) (sc : Scope) (d : Reg) (a : Reg) (b : Reg)
  /-- FCLT_F16 (R157). FP16 less-than mask. -/
  | fcltF16 (w : Bool) (sc : Scope) (d : Reg) (a : Reg) (b : Reg)
  /-- FCLE_F32 (R157). FP32 less-or-equal mask. -/
  | fcleF32 (w : Bool) (sc : Scope) (d : Reg) (a : Reg) (b : Reg)
  /-- FCLE_BF16 (R157). BF16 less-or-equal mask. -/
  | fcleBf16 (w : Bool) (sc : Scope) (d : Reg) (a : Reg) (b : Reg)
  /-- FCLE_F16 (R157). FP16 less-or-equal mask. -/
  | fcleF16 (w : Bool) (sc : Scope) (d : Reg) (a : Reg) (b : Reg)
  /-- FSCL (R158). Scales FP32 halves by a power of two. -/
  | fscl (w : Bool) (sc : Scope) (d : Reg) (a : Reg) (i : BitVec 7)
  /-- FFRC (R158). Computes the FP32 fractional part. -/
  | ffrc (w : Bool) (sc : Scope) (d : Reg) (a : Reg) (i : BitVec 7)
  /-- FRND (R158). Rounds FP32 halves to integral values in a chosen mode. -/
  | frnd (w : Bool) (sc : Scope) (d : Reg) (a : Reg) (i : BitVec 7)
  /-- FDOT2 (R159). Paired BF16 dot product accumulated into FP32 under the chunk rule. -/
  | fdot2 (w : Bool) (sc : Scope) (d : Reg) (a : Reg) (b : Reg)
  /-- CVT (R160). Converts elements between a pair of types with optional saturation. -/
  | cvt (w : Bool) (sc : Scope) (d : Reg) (a : Reg) (x : Bool) (c : BitVec 6)
  /-- CVTSR (R162). Converts with stochastic rounding using one random draw per lane. -/
  | cvtsr (w : Bool) (sc : Scope) (d : Reg) (a : Reg) (c : BitVec 6)
  /-- RAND (R163). Makes one random draw per active lane or for the warp. -/
  | rand (w : Bool) (sc : Scope) (d : Reg)
  /-- RSEED (R164). Sets the warp's seed and clears every lane's counter. -/
  | rseed (w : Bool) (a : Reg)
  /-- RCP (R165). Correctly rounded reciprocal of FP32 halves. -/
  | rcp (w : Bool) (sc : Scope) (d : Reg) (a : Reg)
  /-- RSQ (R165). Correctly rounded reciprocal square root. -/
  | rsq (w : Bool) (sc : Scope) (d : Reg) (a : Reg)
  /-- SQRT (R165). Correctly rounded square root. -/
  | sqrt (w : Bool) (sc : Scope) (d : Reg) (a : Reg)
  /-- EXP2 (R165). Correctly rounded 2^x. -/
  | exp2 (w : Bool) (sc : Scope) (d : Reg) (a : Reg)
  /-- LOG2 (R165). Correctly rounded log2 x. -/
  | log2 (w : Bool) (sc : Scope) (d : Reg) (a : Reg)
  /-- SINT (R165). Correctly rounded sin(2 pi x). -/
  | sint (w : Bool) (sc : Scope) (d : Reg) (a : Reg)
  /-- COST (R165). Correctly rounded cos(2 pi x). -/
  | cost (w : Bool) (sc : Scope) (d : Reg) (a : Reg)
  /-- TANH (R165). Correctly rounded tanh x. -/
  | tanh (w : Bool) (sc : Scope) (d : Reg) (a : Reg)
  /-- SIGM (R165). Correctly rounded logistic sigmoid. -/
  | sigm (w : Bool) (sc : Scope) (d : Reg) (a : Reg)
  /-- LD (R244). Loads from device, host or peer memory or the scratchpad window. -/
  | ld (w : Bool) (sc : Scope) (t : Width) (d : Reg) (a : Reg) (b : Reg)
  /-- ST (R244). Stores to device, host or peer memory or the scratchpad window. -/
  | st (w : Bool) (sc : Scope) (t : Width) (d : Reg) (a : Reg) (b : Reg)
  /-- LDS (R218). Loads from the workgroup's scratchpad by offset. -/
  | lds (w : Bool) (sc : Scope) (t : Width) (d : Reg) (a : Reg) (b : Reg)
  /-- STS (R218). Stores to the workgroup's scratchpad by offset. -/
  | sts (w : Bool) (sc : Scope) (t : Width) (d : Reg) (a : Reg) (b : Reg)
  /-- LDP_64 (R243). Loads 8 bytes of each lane's private memory. -/
  | ldp64 (w : Bool) (d : Reg) (a : Reg) (b : Reg)
  /-- LDP_32 (R243). Loads 4 bytes of each lane's private memory. -/
  | ldp32 (w : Bool) (d : Reg) (a : Reg) (b : Reg)
  /-- STP_64 (R243). Stores 8 bytes to each lane's private memory. -/
  | stp64 (w : Bool) (d : Reg) (a : Reg) (b : Reg)
  /-- STP_32 (R243). Stores 4 bytes to each lane's private memory. -/
  | stp32 (w : Bool) (d : Reg) (a : Reg) (b : Reg)
  /-- PFTCH (R245). Hints a first-level cache fill of a line. -/
  | pftch (w : Bool) (sc : Scope) (a : Reg) (b : Reg)
  /-- FENCE (R257). Waits until the issuer's earlier core-path accesses are performed at a memory scope. -/
  | fence (w : Bool) (sc : Scope) (i : BitVec 7)
  /-- XFENCE (R258). Block-wide fence that waits for every access on the named paths. -/
  | xfence (w : Bool) (i : BitVec 7)
  /-- CFLUSH (R246). Writes back dirty first-level lines over a range. -/
  | cflush (w : Bool) (sc : Scope) (a : Reg) (b : Reg)
  /-- CINV (R246). Writes back and invalidates first-level lines over a range. -/
  | cinv (w : Bool) (sc : Scope) (a : Reg) (b : Reg)
  /-- CDEMOTE (R220). Starts demoting the replacement priority of lines over a range. -/
  | cdemote (w : Bool) (a : Reg) (b : Reg)
  /-- LEASE (R239). Records an L2 lease over a range and returns its handle or 0. -/
  | lease (w : Bool) (sc : Scope) (d : Reg) (a : Reg) (b : Reg)
  /-- LREL (R240). Releases an L2 lease handle. -/
  | lrel (w : Bool) (sc : Scope) (a : Reg)
  /-- PGX (R235). Changes a page's coherence state and owner, holding accesses, flushing lines and shooting down. -/
  | pgx (w : Bool) (a : Reg) (b : Reg)
  /-- ATADD_64 (R261). Atomic 64-bit add. -/
  | atadd64 (w : Bool) (sc : Scope) (d : Reg) (a : Reg) (b : Reg)
  /-- ATADD_32 (R261). Atomic 32-bit add. -/
  | atadd32 (w : Bool) (sc : Scope) (d : Reg) (a : Reg) (b : Reg)
  /-- ATMIN_64 (R261). Atomic signed 64-bit minimum. -/
  | atmin64 (w : Bool) (sc : Scope) (d : Reg) (a : Reg) (b : Reg)
  /-- ATMIN_32 (R261). Atomic signed 32-bit minimum. -/
  | atmin32 (w : Bool) (sc : Scope) (d : Reg) (a : Reg) (b : Reg)
  /-- ATMAX_64 (R261). Atomic signed 64-bit maximum. -/
  | atmax64 (w : Bool) (sc : Scope) (d : Reg) (a : Reg) (b : Reg)
  /-- ATMAX_32 (R261). Atomic signed 32-bit maximum. -/
  | atmax32 (w : Bool) (sc : Scope) (d : Reg) (a : Reg) (b : Reg)
  /-- ATMAXU_64 (R261). Atomic unsigned 64-bit maximum. -/
  | atmaxu64 (w : Bool) (sc : Scope) (d : Reg) (a : Reg) (b : Reg)
  /-- ATMAXU_32 (R261). Atomic unsigned 32-bit maximum. -/
  | atmaxu32 (w : Bool) (sc : Scope) (d : Reg) (a : Reg) (b : Reg)
  /-- ATAND_64 (R261). Atomic 64-bit and. -/
  | atand64 (w : Bool) (sc : Scope) (d : Reg) (a : Reg) (b : Reg)
  /-- ATOR_64 (R261). Atomic 64-bit or. -/
  | ator64 (w : Bool) (sc : Scope) (d : Reg) (a : Reg) (b : Reg)
  /-- ATXOR_64 (R261). Atomic 64-bit exclusive or. -/
  | atxor64 (w : Bool) (sc : Scope) (d : Reg) (a : Reg) (b : Reg)
  /-- ATXCH_64 (R261). Atomic 64-bit exchange. -/
  | atxch64 (w : Bool) (sc : Scope) (d : Reg) (a : Reg) (b : Reg)
  /-- ATXCH_32 (R261). Atomic 32-bit exchange. -/
  | atxch32 (w : Bool) (sc : Scope) (d : Reg) (a : Reg) (b : Reg)
  /-- ATCAS_64 (R261). Atomic 64-bit compare-and-swap with the new value in B+1. -/
  | atcas64 (w : Bool) (sc : Scope) (d : Reg) (a : Reg) (b : Reg)
  /-- ATCAS_32 (R261). Atomic 32-bit compare-and-swap. -/
  | atcas32 (w : Bool) (sc : Scope) (d : Reg) (a : Reg) (b : Reg)
  /-- ATFADD_F32 (R261). Atomic FP32 add. -/
  | atfaddF32 (w : Bool) (sc : Scope) (d : Reg) (a : Reg) (b : Reg)
  /-- XPERM (R168). Permutes sub-elements across the warp by per-lane selectors. -/
  | xperm (w : Bool) (t : Width) (d : Reg) (a : Reg) (b : Reg)
  /-- XSWZ (R169). Moves whole lane values by a fixed swizzle pattern. -/
  | xswz (w : Bool) (d : Reg) (a : Reg) (i : BitVec 7)
  /-- XSUM_F32 (R170). FP32 sum across active lanes in a fixed tree. -/
  | xsumF32 (w : Bool) (d : Reg) (a : Reg)
  /-- XSUM_64 (R171). 64-bit integer sum across active lanes. -/
  | xsum64 (w : Bool) (d : Reg) (a : Reg)
  /-- XMAX_F32 (R170). FP32 maximum across active lanes in a fixed tree. -/
  | xmaxF32 (w : Bool) (d : Reg) (a : Reg)
  /-- XSCAN_32 (R171). Inclusive 32-bit prefix sum over active lanes. -/
  | xscan32 (w : Bool) (d : Reg) (a : Reg)
  /-- VOTE (R173). Ballot, any, all, uniform or count over active lanes into a scalar. -/
  | vote (w : Bool) (d : Reg) (a : Reg) (i : BitVec 7)
  /-- XBCAST (R172). Broadcasts one lane's value to every active lane. -/
  | xbcast (w : Bool) (d : Reg) (a : Reg) (b : Reg)
  /-- TKINS_2 (R174). Inserts a candidate into a two-entry top list. -/
  | tkins2 (w : Bool) (d : Reg) (a : Reg) (b : Reg)
  /-- TKINS_4 (R174). Inserts a candidate into a four-entry top list. -/
  | tkins4 (w : Bool) (d : Reg) (a : Reg) (b : Reg)
  /-- TKINS_8 (R174). Inserts a candidate into an eight-entry top list. -/
  | tkins8 (w : Bool) (d : Reg) (a : Reg) (b : Reg)
  /-- CPY (R283). Issues a tile copy between two tensor identifiers with optional conversion. -/
  | cpy (w : Bool) (sc : Scope) (i : BitVec 7) (a : Reg) (b : Reg)
  /-- CPYG (R286). Issues a gather of rows by an index list. -/
  | cpyg (w : Bool) (sc : Scope) (i : BitVec 7) (a : Reg) (b : Reg)
  /-- CPYX (R287). Issues a forward of a tile to a peer, with optional remote arrival and task spawn. -/
  | cpyx (w : Bool) (sc : Scope) (i : BitVec 7) (a : Reg) (b : Reg)
  /-- CPYC (R288). Cancels the accepted copies attached to a barrier register. -/
  | cpyc (w : Bool) (sc : Scope) (i : BitVec 7)
  /-- BINIT (R278). Initialises a barrier register's expected count and clears its records. -/
  | binit (w : Bool) (sc : Scope) (i : BitVec 7) (a : Reg)
  /-- BARV (R279). Makes one arrival at a barrier register. -/
  | barv (w : Bool) (sc : Scope) (i : BitVec 7)
  /-- BWAIT (R280). Waits for a barrier phase flip and delivers a held engine fault. -/
  | bwait (w : Bool) (i : BitVec 7)
  /-- BTEST (R281). Returns the state of a barrier register. -/
  | btest (w : Bool) (d : Reg) (i : BitVec 7)
  /-- CHAIN (R294). Reads a chain descriptor and constants and issues a flume chain. -/
  | chain (w : Bool) (sc : Scope) (i : BitVec 7) (a : Reg) (b : Reg)
  /-- TDEF (R273). Loads a 64-byte tensor descriptor into an identifier slot. -/
  | tdef (w : Bool) (sc : Scope) (i : BitVec 7) (a : Reg)
  /-- MLOAD (R318). Issues a load of a weight tile into a bank under a key. -/
  | mload (w : Bool) (sc : Scope) (i : BitVec 7) (a : Reg) (b : Reg)
  /-- MMA (R320). Issues a matrix multiply of set-wide A rows against routed banks into accumulator rows. -/
  | mma (w : Bool) (sc : Scope) (i : BitVec 7) (a : Reg) (b : Reg)
  /-- MGRAD (R321). Issues per-bank gradient accumulation into the gradient area. -/
  | mgrad (w : Bool) (sc : Scope) (i : BitVec 7) (a : Reg) (b : Reg)
  /-- MCLOSE (R323). Closes the current matrix batch and returns its number. -/
  | mclose (w : Bool) (sc : Scope) (d : Reg)
  /-- MWAIT (R324). Waits for a matrix batch and delivers its fault records. -/
  | mwait (w : Bool) (sc : Scope) (a : Reg)
  /-- MBATON_TAKE (R311). Takes the baton or waits in the waiting set until granted. -/
  | mbatonTake (w : Bool) (sc : Scope) (d : Reg)
  /-- MBATON_PASS (R311). Passes the baton to the next waiting group in rotation order. -/
  | mbatonPass (w : Bool) (sc : Scope) (d : Reg)
  /-- MBATON_QUERY (R311). Returns the baton query word. -/
  | mbatonQuery (w : Bool) (sc : Scope) (d : Reg)
  /-- IDIV_32 (R391). Signed 32-bit division of sub-elements. -/
  | idiv32 (w : Bool) (sc : Scope) (d : Reg) (a : Reg) (b : Reg)
  /-- IDIV_64 (R391). Signed 64-bit division. -/
  | idiv64 (w : Bool) (sc : Scope) (d : Reg) (a : Reg) (b : Reg)
  /-- IREM_32 (R391). Signed 32-bit remainder of sub-elements. -/
  | irem32 (w : Bool) (sc : Scope) (d : Reg) (a : Reg) (b : Reg)
  /-- IREM_64 (R391). Signed 64-bit remainder. -/
  | irem64 (w : Bool) (sc : Scope) (d : Reg) (a : Reg) (b : Reg)
  /-- FDIV_F32 (R392). Correctly rounded FP32 division. -/
  | fdivF32 (w : Bool) (sc : Scope) (d : Reg) (a : Reg) (b : Reg)
  /-- MICROCODED_INSTRUCTION (R66). Executes a patch-loaded instruction of opcodes 0xF5-0xFF, or traps when its entry is empty. -/
  | microcoded (word : BitVec 32)
  /-- RESULT_RETURN (R98). A variable-latency result returns to its register, releasing wait marks. -/
  | resultReturn (who : Who) (n : Nat)
  /-- STORE_PERFORMED (R252). A store, atomic or write-back is performed at a memory scope, releasing waits on it. -/
  | storePerformed (n : Nat)
  /-- GOVERNOR_TRAP (R108). The warp's governor count reaches its budget and the warp takes cause 0x1C. -/
  | governorTrap (who : Who)
  /-- L1_READ_LEASE_EXPIRY (R232). A first-level read lease on a coherent line ends after 65,536 cycles. -/
  | l1ReadLeaseExpiry (core : Nat) (line : Nat)
  /-- ENGINE_BANK_PRIORITY (R202). An engine scratchpad request that has waited 16 cycles takes its banks. -/
  | engineBankPriority (core : Nat)
  /-- CDEMOTE_WALK (R220). The background walk of a CDEMOTE demotes the lines present when it reaches them. -/
  | cdemoteWalk (core : Nat)
  /-- ICINV_COMPLETE (R127). Both dies acknowledge the invalidation and the warp becomes ready. -/
  | icinvComplete (who : Who)
  /-- PGX_COMPLETE (R235). A page-state change completes and the held accesses are released under the new state. -/
  | pgxComplete (n : Nat)
  /-- SHOOTDOWN_COMPLETE (R230). Every access through the removed translations has retired and BUSY clears. -/
  | shootdownComplete
  /-- PAGE_FAULT_SERVICE (R236). The control processors serve a demand page fault from the page pool and retry the access. -/
  | pageFaultService (n : Nat)
  /-- QUANTUM_EXPIRY (R265). A warp's retired-instruction count reaches QUANTUM and its quantum ends. -/
  | quantumExpiry (who : Who)
  /-- COMMIT_BUFFER_FULL (R265). A warp's commit buffer reaches 512 entries and its quantum ends. -/
  | commitBufferFull (who : Who)
  /-- DETERMINISTIC_COMMIT (R265). Once every live warp's quantum has ended, the round commits stores, arrivals and engine commands in fixed order. -/
  | deterministicCommit (core : Nat) (slot : Nat)
  /-- ENGINE_COMMAND_ACCEPT (R274). A waiting engine command obtains its queue place and scoreboard entries and is accepted. -/
  | engineCommandAccept (core : Nat) (n : Nat)
  /-- SCOREBOARD_ENTRY_RELEASE (R211). A command finishes with a region and its scoreboard entry is released, letting stalled accesses proceed. -/
  | scoreboardEntryRelease (core : Nat) (n : Nat)
  /-- COPY_COMPLETE (R283). A copy or gather completes, stops at a fault or is cancelled, and arrives at its barrier register. -/
  | copyComplete (core : Nat) (n : Nat)
  /-- CPYX_COMPLETE (R287). A forward's rows, remote arrival and record are performed at system scope and it arrives locally. -/
  | cpyxComplete (core : Nat) (n : Nat) (peer : Option (BitVec 8))
  /-- CHAIN_COMPLETE (R294). A flume chain finishes its outputs, performs amax and sum steps and arrives. -/
  | chainComplete (core : Nat) (n : Nat)
  /-- MLOAD_COMPLETE (R306). A bank load completes or fails and updates the residency entry. -/
  | mloadComplete (core : Nat)
  /-- MMA_COMPLETE (R320). A matrix multiply finishes accumulating its rows. -/
  | mmaComplete (core : Nat)
  /-- MGRAD_COMPLETE (R321). A gradient accumulation finishes. -/
  | mgradComplete (core : Nat)
  /-- MSTORE_COMPLETE (R322). A drain finishes its writes, amax atomic and clear. -/
  | mstoreComplete (core : Nat)
  /-- BFLOOR_WRITE_COMPLETE (R303). Old-share commands complete and new bytes are zeroed, so the share change completes. -/
  | bfloorWriteComplete
  /-- TRANSLATION_COMPLETE (R382). The translator writes the image or refuses and writes the status word and event. -/
  | translationComplete
  /-- MICROCODE_PATCH_COMPLETE (R390). Patch verification ends, installing or refusing it and posting event 7. -/
  | microcodePatchComplete
  /-- ATTESTATION_COMPLETE (R410). The signed attestation report is ready. -/
  | attestationComplete
  /-- SHADOW_PREEMPT (R342). A shadow-slot task is pre-empted and returned to the head of its pond level. -/
  | shadowPreempt (core : Nat) (k : Nat)
  /-- SHADOW_CANCEL (R342). A shadow-slot task is cancelled and discarded. -/
  | shadowCancel (core : Nat) (k : Nat)
  /-- PREEMPT_SAVE (R360). After accepted commands complete, the workgroup's state is written to a save frame and re-queued. -/
  | preemptSave (core : Nat) (slot : Nat)
  /-- PREEMPT_FLUSH (R345). After matrix and collective commands complete, the workgroup is discarded and its record re-enqueued. -/
  | preemptFlush (core : Nat) (slot : Nat)
  /-- WORKGROUP_RESUME (R362). A saved workgroup is read back from its frame and resumes on a core of its die. -/
  | workgroupResume (die : Nat)
  /-- CORE_HALT_COMPLETE (R367). Accepted engine commands finish and CHALTED sets. -/
  | coreHaltComplete (core : Nat)
  /-- BREAKPOINT_HIT (R368). A fetch matches an armed address breakpoint and the warp halts. -/
  | breakpointHit (who : Who)
  /-- INTAKE_POST (R397). A 64-byte posted write to an intake window is taken into the intake queue or discarded. -/
  | intakePost (ctx : Nat) (off : Nat) (data : List Byte)
  /-- INTAKE_QUEUE_DRAIN (R397). A record in a context's intake queue is enqueued into a pond. -/
  | intakeQueueDrain (ctx : Nat)
  /-- COLL_CONTRIBUTION (R406). A member's collective contribution arrives and is matched by tag and digest. -/
  | collContribution (core : Nat) (n : Nat) (rank : Nat) (tag : BitVec 32) (digest : BitVec 32) (vals : List FVal)
  /-- COLL_COMPLETE (R406). A member's collective has read SRC and performed its DST writes and arrives. -/
  | collComplete (core : Nat) (n : Nat)
  /-- COLL_MEMBER_LEFT (R406). A member leaves the domain and the others' collectives deliver a fault. -/
  | collMemberLeft (chip : Nat)
  /-- TASK_PLACEMENT (R335). A pond checks an entry's header and places it into a free shadow slot, starting the headrace. -/
  | taskPlacement (die : Nat)
  /-- LOCAL_QUEUE_TAKE (R336). A core whose shadow slot came free takes from its local queue or the pond. -/
  | localQueueTake (core : Nat)
  /-- STEAL (R336). An idle core steals an entry from another local queue of its die. -/
  | steal (core : Nat)
  /-- POND_AGING_EXPIRY (R335). The oldest entry of a level has waited 65,536 cycles and blocks lower levels. -/
  | pondAgingExpiry (die : Nat) (level : Nat)
  /-- DEFERRED_ENQUEUE (R334). An enqueue that waited for pond room proceeds. -/
  | deferredEnqueue
  /-- TASK_DISPATCH (R338). A staged shadow task's warps start once staging is complete and partitions have room. -/
  | taskDispatch (core : Nat)
  /-- STAGING_ABORT (R341). A refused or unserved staging fault aborts the task before dispatch. -/
  | stagingAbort (core : Nat) (slot : Nat)
  /-- JOIN_NODE (R332). The pond takes a join record, which completes at once and decrements its successor. -/
  | joinNode (die : Nat)
  /-- COND_NODE (R332). The pond reads a condition word and enqueues one of two records. -/
  | condNode (die : Nat)
  /-- LOOP_NODE (R332). The pond evaluates a loop record as a cond node. -/
  | loopNode (die : Nat)
  /-- TASK_COMPLETE (R343). After the workgroup ends and its writes are performed, leases end, resources free and the successor is decremented. -/
  | taskComplete (core : Nat) (slot : Nat)
  /-- TSPAWN_ENQUEUE (R347). After earlier stores are performed, the spawned record is enqueued with its TSEQ. -/
  | tspawnEnqueue (who : Who)
  /-- TSUCC_DECREMENT (R348). After earlier stores are performed, the successor block is decremented. -/
  | tsuccDecrement (who : Who)
  /-- ILLEGAL_INSTRUCTION (R67). A fetched word with an unassigned opcode, a nonzero fixed field, an illegal scope or an unlisted operand code raises its decode trap with no effect. -/
  | illegalInstruction (word : BitVec 32)
  /-- INSTRUCTION_FETCH_FAULT (R52). The fetch of the next word takes a not-present, permission or integrity fault and traps with TPC holding the fetch address. -/
  | instructionFetchFault (who : Who)
  /-- RESET (R409). Reset clears the array state and the boot ROM verifies the firmware image. -/
  | reset
  /-- SHOOT (R230). A write to SHOOT starts a shootdown of a page or a context. -/
  | shoot (v : Word)
  /-- PFREPLY (R236). The host's reply resolves or refuses a host-assisted page fault. -/
  | pfreply (v : Word)
  /-- BFLOOR (R303). A write to BFLOOR starts changing a context's bin-floor share. -/
  | bfloor (v : Word)
  /-- XLATE (R381). A write to XLATE starts a Storun translation request. -/
  | xlate (v : Word)
  /-- MCLOAD (R390). A write to MCLOAD starts verifying and installing a microcode patch. -/
  | mcload (v : Word)
  /-- PATCH (R390). A management-window write to PATCH starts verifying a patch by the host route. -/
  | patch (v : Word)
  /-- ATTCTL (R410). A write of 1 to ATTCTL starts signing an attestation report. -/
  | attctl (v : Word)
  /-- SVRAISE (R411). A confirmed write raises the security-version counter and empties older patches. -/
  | svraise (v : Word)
  /-- PWR (R402). A write to PWR sets the module power cap that clocks are lowered to meet. -/
  | pwr (v : Word)
  /-- PREEMPT_REQUEST (R345). A pre-emption request chooses drain, save or flush for a running workgroup. -/
  | preemptRequest (ctx : Nat) (v : Word)
  /-- PDECIDE (R388). The host chooses the pre-emption option in host-assisted mode. -/
  | pdecide (v : Word)
  /-- HALT_CORE (R367). Debug command 1 stops issue on every warp of a core. -/
  | haltCore (core : Nat)
  /-- RESUME_CORE (R367). Debug command 2 resumes a halted core and releases held commands. -/
  | resumeCore (core : Nat)
  /-- HALT_WARP (R367). Debug command 3 halts one warp with all its splits. -/
  | haltWarp (core : Nat) (slot : Nat) (warp : Nat)
  /-- RESUME_WARP (R368). Debug command 4 resumes a halted warp, executing the halted word unchecked. -/
  | resumeWarp (core : Nat) (slot : Nat) (warp : Nat)
  /-- STEP_SPLIT (R368). Debug command 5 executes one word of the selected split and halts again. -/
  | stepSplit (core : Nat) (slot : Nat) (warp : Nat) (split : Nat)
  /-- INJECT (R369). Debug command 6 executes the word in DBGDATA in a halted warp under a given mask. -/
  | inject (core : Nat) (slot : Nat) (warp : Nat) (v : Word)
  /-- DBGDATA (R366). A write to DBGDATA sets the selected register of a halted warp. -/
  | dbgdata (core : Nat) (slot : Nat) (warp : Nat) (reg : Word) (v : Word)
  /-- HOST_WRITE (R401). A host link write to BAR 2 is performed at device memory scope in link order. -/
  | hostWrite (link : Nat) (off : Nat) (data : List Byte)
  /-- HOST_READ (R401). A host read through BAR 2 completes after the link's earlier writes. -/
  | hostRead (link : Nat) (off : Nat) (len : Nat)
  /-- MGMT_WINDOW_WRITE (R400). A management-window write to a register that has no row of its own. -/
  | mgmtWindowWrite (off : Nat) (v : Word)
  /-- PEER_FLIT (R403). A flit arrives on a peer port carrying rows, a remote arrival or a task record. -/
  | peerFlit (msg : PeerMsg)
  /-- LINK_TRAINING (R396). A host link trains, retrains at another width or drops, changing which link carries host-aperture traffic. -/
  | linkTraining (link : Nat) (width : Nat)
  /-- CLOCK_LOWERING (R402). The module lowers or restores its clocks to keep its measured draw within the power cap. -/
  | clockLowering (level : Nat)
  /-- EXPERT_LOCATION_TABLE_UPKEEP (R407). In firmware mode the control processors move an expert and rewrite its table entry with a raised VERSION. -/
  | expertLocationTableUpkeep (expert : Nat) (chip : Nat) (core : Nat)
  deriving DecidableEq, Repr

end Sys2Proof
end

