-- ==== Sys2Proof/WellFormed.lean ====
section
/-! DEFINITION. When an `Instr` is one instruction word: its scope is one that the row's scope bits can hold
(spec/opcode_table.json), and a microcoded word has an opcode of 0xF5–0xFF (R66). An event row has no word. -/

namespace Sys2Proof

/-- A row whose scope field is bit 29 alone, with bit 30 zero. -/
def Scope.laneOrWarp : Scope → Bool
  | .lane => true | .warp => true | .set => false | .block => false

/-- A row whose scope field is bit 29 alone, with bit 30 one (MMA and MGRAD). -/
def Scope.setOrBlock : Scope → Bool
  | .lane => false | .warp => false | .set => true | .block => true

/-- The instruction is one that a word of its row holds. -/
def WellFormed : Instr → Bool
  | .nop _ _ => true
  | .br _ _ => true
  | .brz _ _ _ => true
  | .brnz _ _ _ => true
  | .call _ _ => true
  | .callx _ _ => true
  | .jx _ _ => true
  | .ckey _ _ _ => true
  | .klass _ _ _ => true
  | .cnext _ => true
  | .cbrk _ _ => true
  | .rdfl _ _ _ => true
  | .exit _ sc => sc.laneOrWarp
  | .yield _ => true
  | .trap _ _ => true
  | .bkpt _ _ => true
  | .win _ _ => true
  | .sets _ _ => true
  | .ldl _ _ _ => true
  | .ldlw _ _ _ => true
  | .sysr _ _ _ => true
  | .sysw _ _ _ => true
  | .icinv _ _ _ => true
  | .gov _ _ => true
  | .qsync _ => true
  | .tspawn _ _ _ => true
  | .tsucc _ _ _ => true
  | .cpol _ _ => true
  | .eret _ _ => true
  | .mbankQuery _ _ _ => true
  | .mbankPin _ _ _ => true
  | .mbankUnpin _ _ _ => true
  | .mbankRelease _ _ _ => true
  | .coll _ _ _ _ _ => true
  | .mstore _ _ _ _ _ => true
  | .add _ sc _ _ _ _ => sc.laneOrWarp
  | .sub _ sc _ _ _ _ => sc.laneOrWarp
  | .mul _ sc _ _ _ _ => sc.laneOrWarp
  | .min _ sc _ _ _ _ => sc.laneOrWarp
  | .max _ sc _ _ _ _ => sc.laneOrWarp
  | .minu _ sc _ _ _ _ => sc.laneOrWarp
  | .maxu _ sc _ _ _ _ => sc.laneOrWarp
  | .adds _ sc _ _ _ _ => sc.laneOrWarp
  | .addsu _ sc _ _ _ _ => sc.laneOrWarp
  | .subs _ sc _ _ _ _ => sc.laneOrWarp
  | .shl _ sc _ _ _ _ => sc.laneOrWarp
  | .shr _ sc _ _ _ _ => sc.laneOrWarp
  | .sra _ sc _ _ _ _ => sc.laneOrWarp
  | .ceq _ sc _ _ _ _ => sc.laneOrWarp
  | .clt _ sc _ _ _ _ => sc.laneOrWarp
  | .cltu _ sc _ _ _ _ => sc.laneOrWarp
  | .and _ sc _ _ _ => sc.laneOrWarp
  | .or _ sc _ _ _ => sc.laneOrWarp
  | .xor _ sc _ _ _ => sc.laneOrWarp
  | .andn _ sc _ _ _ => sc.laneOrWarp
  | .mov _ sc _ _ => sc.laneOrWarp
  | .bsel _ sc _ _ _ => sc.laneOrWarp
  | .mulh64 _ sc _ _ _ => sc.laneOrWarp
  | .mulhu64 _ sc _ _ _ => sc.laneOrWarp
  | .mulh32 _ sc _ _ _ => sc.laneOrWarp
  | .mulhu32 _ sc _ _ _ => sc.laneOrWarp
  | .mad32 _ sc _ _ _ => sc.laneOrWarp
  | .mad64 _ sc _ _ _ => sc.laneOrWarp
  | .popc _ sc _ _ => sc.laneOrWarp
  | .clz _ sc _ _ => sc.laneOrWarp
  | .brev _ sc _ _ => sc.laneOrWarp
  | .bfx _ sc _ _ _ => sc.laneOrWarp
  | .bfi _ sc _ _ _ => sc.laneOrWarp
  | .shufb _ sc _ _ _ => sc.laneOrWarp
  | .faddF32 _ sc _ _ _ => sc.laneOrWarp
  | .faddBf16 _ sc _ _ _ => sc.laneOrWarp
  | .faddF16 _ sc _ _ _ => sc.laneOrWarp
  | .fsubF32 _ sc _ _ _ => sc.laneOrWarp
  | .fsubBf16 _ sc _ _ _ => sc.laneOrWarp
  | .fsubF16 _ sc _ _ _ => sc.laneOrWarp
  | .fmulF32 _ sc _ _ _ => sc.laneOrWarp
  | .fmulBf16 _ sc _ _ _ => sc.laneOrWarp
  | .fmulF16 _ sc _ _ _ => sc.laneOrWarp
  | .ffmaF32 _ sc _ _ _ => sc.laneOrWarp
  | .ffmaBf16 _ sc _ _ _ => sc.laneOrWarp
  | .ffmaF16 _ sc _ _ _ => sc.laneOrWarp
  | .fminF32 _ sc _ _ _ => sc.laneOrWarp
  | .fminBf16 _ sc _ _ _ => sc.laneOrWarp
  | .fminF16 _ sc _ _ _ => sc.laneOrWarp
  | .fmaxF32 _ sc _ _ _ => sc.laneOrWarp
  | .fmaxBf16 _ sc _ _ _ => sc.laneOrWarp
  | .fmaxF16 _ sc _ _ _ => sc.laneOrWarp
  | .fceqF32 _ sc _ _ _ => sc.laneOrWarp
  | .fceqBf16 _ sc _ _ _ => sc.laneOrWarp
  | .fceqF16 _ sc _ _ _ => sc.laneOrWarp
  | .fcltF32 _ sc _ _ _ => sc.laneOrWarp
  | .fcltBf16 _ sc _ _ _ => sc.laneOrWarp
  | .fcltF16 _ sc _ _ _ => sc.laneOrWarp
  | .fcleF32 _ sc _ _ _ => sc.laneOrWarp
  | .fcleBf16 _ sc _ _ _ => sc.laneOrWarp
  | .fcleF16 _ sc _ _ _ => sc.laneOrWarp
  | .fscl _ sc _ _ _ => sc.laneOrWarp
  | .ffrc _ sc _ _ _ => sc.laneOrWarp
  | .frnd _ sc _ _ _ => sc.laneOrWarp
  | .fdot2 _ sc _ _ _ => sc.laneOrWarp
  | .cvt _ sc _ _ _ _ => sc.laneOrWarp
  | .cvtsr _ sc _ _ _ => sc.laneOrWarp
  | .rand _ sc _ => sc.laneOrWarp
  | .rseed _ _ => true
  | .rcp _ sc _ _ => sc.laneOrWarp
  | .rsq _ sc _ _ => sc.laneOrWarp
  | .sqrt _ sc _ _ => sc.laneOrWarp
  | .exp2 _ sc _ _ => sc.laneOrWarp
  | .log2 _ sc _ _ => sc.laneOrWarp
  | .sint _ sc _ _ => sc.laneOrWarp
  | .cost _ sc _ _ => sc.laneOrWarp
  | .tanh _ sc _ _ => sc.laneOrWarp
  | .sigm _ sc _ _ => sc.laneOrWarp
  | .ld _ _ _ _ _ _ => true
  | .st _ _ _ _ _ _ => true
  | .lds _ _ _ _ _ _ => true
  | .sts _ _ _ _ _ _ => true
  | .ldp64 _ _ _ _ => true
  | .ldp32 _ _ _ _ => true
  | .stp64 _ _ _ _ => true
  | .stp32 _ _ _ _ => true
  | .pftch _ sc _ _ => sc.laneOrWarp
  | .fence _ _ _ => true
  | .xfence _ _ => true
  | .cflush _ _ _ _ => true
  | .cinv _ _ _ _ => true
  | .cdemote _ _ _ => true
  | .lease _ _ _ _ _ => true
  | .lrel _ _ _ => true
  | .pgx _ _ _ => true
  | .atadd64 _ _ _ _ _ => true
  | .atadd32 _ _ _ _ _ => true
  | .atmin64 _ _ _ _ _ => true
  | .atmin32 _ _ _ _ _ => true
  | .atmax64 _ _ _ _ _ => true
  | .atmax32 _ _ _ _ _ => true
  | .atmaxu64 _ _ _ _ _ => true
  | .atmaxu32 _ _ _ _ _ => true
  | .atand64 _ _ _ _ _ => true
  | .ator64 _ _ _ _ _ => true
  | .atxor64 _ _ _ _ _ => true
  | .atxch64 _ _ _ _ _ => true
  | .atxch32 _ _ _ _ _ => true
  | .atcas64 _ _ _ _ _ => true
  | .atcas32 _ _ _ _ _ => true
  | .atfaddF32 _ _ _ _ _ => true
  | .xperm _ _ _ _ _ => true
  | .xswz _ _ _ _ => true
  | .xsumF32 _ _ _ => true
  | .xsum64 _ _ _ => true
  | .xmaxF32 _ _ _ => true
  | .xscan32 _ _ _ => true
  | .vote _ _ _ _ => true
  | .xbcast _ _ _ _ => true
  | .tkins2 _ _ _ _ => true
  | .tkins4 _ _ _ _ => true
  | .tkins8 _ _ _ _ => true
  | .cpy _ _ _ _ _ => true
  | .cpyg _ _ _ _ _ => true
  | .cpyx _ _ _ _ _ => true
  | .cpyc _ _ _ => true
  | .binit _ _ _ _ => true
  | .barv _ _ _ => true
  | .bwait _ _ => true
  | .btest _ _ _ => true
  | .chain _ _ _ _ _ => true
  | .tdef _ _ _ _ => true
  | .mload _ _ _ _ _ => true
  | .mma _ sc _ _ _ => sc.setOrBlock
  | .mgrad _ sc _ _ _ => sc.setOrBlock
  | .mclose _ _ _ => true
  | .mwait _ _ _ => true
  | .mbatonTake _ _ _ => true
  | .mbatonPass _ _ _ => true
  | .mbatonQuery _ _ _ => true
  | .idiv32 _ sc _ _ _ => sc.laneOrWarp
  | .idiv64 _ sc _ _ _ => sc.laneOrWarp
  | .irem32 _ sc _ _ _ => sc.laneOrWarp
  | .irem64 _ sc _ _ _ => sc.laneOrWarp
  | .fdivF32 _ sc _ _ _ => sc.laneOrWarp
  | .microcoded word => decide (0xF5 ≤ (word.extractLsb' 21 8).toNat)
  | .reset => false
  | .resultReturn _ _ => false
  | .storePerformed _ => false
  | .governorTrap _ => false
  | .l1ReadLeaseExpiry _ _ => false
  | .engineBankPriority _ => false
  | .cdemoteWalk _ => false
  | .icinvComplete _ => false
  | .pgxComplete _ => false
  | .shoot _ => false
  | .shootdownComplete => false
  | .pageFaultService _ => false
  | .pfreply _ => false
  | .quantumExpiry _ => false
  | .commitBufferFull _ => false
  | .deterministicCommit _ _ => false
  | .engineCommandAccept _ _ => false
  | .scoreboardEntryRelease _ _ => false
  | .copyComplete _ _ => false
  | .cpyxComplete _ _ _ => false
  | .chainComplete _ _ => false
  | .mloadComplete _ => false
  | .mmaComplete _ => false
  | .mgradComplete _ => false
  | .mstoreComplete _ => false
  | .bfloor _ => false
  | .bfloorWriteComplete => false
  | .xlate _ => false
  | .translationComplete => false
  | .mcload _ => false
  | .patch _ => false
  | .microcodePatchComplete => false
  | .attctl _ => false
  | .attestationComplete => false
  | .svraise _ => false
  | .pwr _ => false
  | .preemptRequest _ _ => false
  | .shadowPreempt _ _ => false
  | .shadowCancel _ _ => false
  | .pdecide _ => false
  | .preemptSave _ _ => false
  | .preemptFlush _ _ => false
  | .workgroupResume _ => false
  | .haltCore _ => false
  | .coreHaltComplete _ => false
  | .resumeCore _ => false
  | .haltWarp _ _ _ => false
  | .resumeWarp _ _ _ => false
  | .stepSplit _ _ _ _ => false
  | .inject _ _ _ _ => false
  | .dbgdata _ _ _ _ _ => false
  | .breakpointHit _ => false
  | .intakePost _ _ _ => false
  | .intakeQueueDrain _ => false
  | .hostWrite _ _ _ => false
  | .hostRead _ _ _ => false
  | .mgmtWindowWrite _ _ => false
  | .peerFlit _ => false
  | .collContribution _ _ _ _ _ _ => false
  | .collComplete _ _ => false
  | .collMemberLeft _ => false
  | .taskPlacement _ => false
  | .localQueueTake _ => false
  | .steal _ => false
  | .pondAgingExpiry _ _ => false
  | .deferredEnqueue => false
  | .taskDispatch _ => false
  | .stagingAbort _ _ => false
  | .joinNode _ => false
  | .condNode _ => false
  | .loopNode _ => false
  | .taskComplete _ _ => false
  | .tspawnEnqueue _ => false
  | .tsuccDecrement _ => false
  | .illegalInstruction _ => false
  | .instructionFetchFault _ => false
  | .linkTraining _ _ => false
  | .clockLowering _ => false
  | .expertLocationTableUpkeep _ _ _ => false

end Sys2Proof
end

