-- ==== Sys2Proof/Decode.lean ====
section
/-! DEFINITION. Instruction words (R48, R51–R66): fields, the decoder, total on any bytes and rejecting by name, and the
encoder, from the same rows of spec/opcode_table.json. -/

namespace Sys2Proof

/-! ### Fields of a word (R48, R51) -/

def fieldW (x : BitVec 32) : Bool := x.getLsbD 31
def fieldSC (x : BitVec 32) : BitVec 2 := x.extractLsb' 29 2
def fieldOP (x : BitVec 32) : BitVec 8 := x.extractLsb' 21 8
def fieldD (x : BitVec 32) : BitVec 7 := x.extractLsb' 14 7
def fieldA (x : BitVec 32) : BitVec 7 := x.extractLsb' 7 7
def fieldB (x : BitVec 32) : BitVec 7 := x.extractLsb' 0 7

/-- word := W:SC:OP:D:A:B (R51). -/
def mkWord (w : Bool) (sc : BitVec 2) (op : BitVec 8) (d a b : BitVec 7) : BitVec 32 :=
  BitVec.ofBool w ++ sc ++ op ++ d ++ a ++ b

/-- Bits 30:29 of a scope, R48. -/
def Scope.enc : Scope → BitVec 2
  | .lane => 0 | .warp => 1 | .set => 2 | .block => 3

def Scope.dec (x : BitVec 2) : Scope :=
  if x = 0 then .lane else if x = 1 then .warp else if x = 2 then .set else .block

/-- Opcode offset of a width suffix, R57. -/
def Width.enc : Width → BitVec 2
  | .w64 => 0 | .w32 => 1 | .w16 => 2 | .w8 => 3

def Width.dec (x : BitVec 2) : Width :=
  if x = 0 then .w64 else if x = 1 then .w32 else if x = 2 then .w16 else .w8

/-- The field value of a register name, R24. -/
def Reg.enc : Reg → BitVec 7
  | .v n => BitVec.ofNat 7 n.val
  | .s n => BitVec.ofNat 7 (64 + n.val)
  | .k n => BitVec.ofNat 7 (112 + n.val)
  | .zr => 120 | .lid => 121 | .wid => 122 | .emask => 123
  | .tile => 124 | .tseq => 125 | .rcnt => 126 | .tag => 127

/-- The register that a field value names, R24 and R55. -/
def Reg.dec (x : BitVec 7) : Reg :=
  if h : x.toNat < 64 then .v ⟨x.toNat, h⟩
  else if h : x.toNat < 112 then .s ⟨x.toNat - 64, by omega⟩
  else if h : x.toNat < 120 then .k ⟨x.toNat - 112, by omega⟩
  else if x = 120 then .zr else if x = 121 then .lid else if x = 122 then .wid else if x = 123 then .emask
  else if x = 124 then .tile else if x = 125 then .tseq else if x = 126 then .rcnt else .tag

/-! ### The map (R58–R65): scopes and fixed positions of each opcode -/

/-- The legal execution scopes of an opcode (R58–R63). -/
def legalScopes (op : BitVec 8) : List Scope :=
  let n := op.toNat
  if n = 0x00 then [.lane, .warp, .set, .block]
  else if n = 0x0C then [.lane, .warp]
  else if n = 0x1E then [.warp, .set, .block]
  else if n = 0x1F then [.warp, .set]
  else if n < 0x20 then [.warp]
  else if n = 0x94 then [.warp]
  else if n < 0xA0 then [.lane, .warp]
  else if n < 0xB0 then [.lane, .warp, .set, .block]
  else if n < 0xB4 then [.lane]
  else if n = 0xB4 then [.lane, .warp]
  else if n = 0xB6 then [.block]
  else if n = 0xB9 ∨ n = 0xBC then [.warp]
  else if n < 0xC0 then [.warp, .set, .block]
  else if n < 0xD0 then [.lane, .warp, .set, .block]
  else if n = 0xD9 then [.warp]
  else if n < 0xE0 then [.lane]
  else if n = 0xE6 ∨ n = 0xE7 then [.warp]
  else if n = 0xEB ∨ n = 0xEC then [.set, .block]
  else if n < 0xF0 then [.warp, .set, .block]
  else [.lane, .warp]

/-- The opcode has no instruction (R65). -/
def unassigned (op : BitVec 8) : Bool :=
  let n := op.toNat
  n == 0x9E || n == 0x9F || n == 0xBD || n == 0xBE || n == 0xBF || n == 0xDE || n == 0xDF

/-- The value a position must hold where its opcode leaves it unused (R53, the Fixed columns of R58–R63), for opcodes
below 0xF5: D, A and B. -/
def fixedFields (op : BitVec 8) : Option (BitVec 7) × Option (BitVec 7) × Option (BitVec 7) :=
  let n := op.toNat
  if n = 0x00 ∨ n = 0x09 ∨ n = 0x0C ∨ n = 0x0D ∨ n = 0x18 then (some 0, some 0, some 0)
  else if n = 0x0A ∨ n = 0x0E ∨ n = 0x0F ∨ n = 0x10 ∨ n = 0x11 ∨ n = 0x1B ∨ n = 0x1C ∨ n = 0xB5 ∨ n = 0xB6
      ∨ n = 0xE3 ∨ n = 0xE5 ∨ n = 0xE6 then (some 0, some 0, none)
  else if n = 0x05 ∨ n = 0x06 ∨ n = 0x17 ∨ n = 0x94 ∨ n = 0xBB ∨ n = 0xEE then (some 120, none, some 120)
  else if n = 0x07 ∨ n = 0x15 ∨ n = 0x16 ∨ n = 0x19 ∨ n = 0x1A ∨ n = 0xB4 ∨ n = 0xB7 ∨ n = 0xB8 ∨ n = 0xB9
      ∨ n = 0xBC then (some 120, none, none)
  else if n = 0x0B ∨ n = 0x64 ∨ n = 0x6C ∨ n = 0x6D ∨ n = 0x6E ∨ (0x95 ≤ n ∧ n ≤ 0x9D) ∨ (0xD5 ≤ n ∧ n ≤ 0xD8)
      ∨ n = 0xE4 ∨ n = 0xE9 then (none, none, some 120)
  else if n = 0x14 ∨ n = 0xE7 ∨ n = 0xEF then (none, some 120, none)
  else if n = 0x93 ∨ n = 0xED then (none, some 120, some 120)
  else (none, none, none)

/-- Every fixed position of the word holds its value (R53). -/
def fixedOk (x : BitVec 32) : Bool :=
  let f := fixedFields (fieldOP x)
  (f.1.isNone || f.1 == some (fieldD x)) && (f.2.1.isNone || f.2.1 == some (fieldA x))
    && (f.2.2.isNone || f.2.2 == some (fieldB x))

/-- Rows of opcodes 0x00–0x1F. -/
def decodeControl (w : Bool) (sc : BitVec 2) (op : BitVec 8) (d a b : BitVec 7) : Option Instr :=
  if op = 0x00#8 ∧ d = 0 ∧ a = 0 ∧ b = 0 then some (.nop w (Scope.dec sc))
  else if op = 0x01#8 ∧ sc = 1 then some (.br w (d ++ a ++ b))
  else if op = 0x02#8 ∧ sc = 1 then some (.brz w (Reg.dec d) (a ++ b))
  else if op = 0x03#8 ∧ sc = 1 then some (.brnz w (Reg.dec d) (a ++ b))
  else if op = 0x04#8 ∧ sc = 1 then some (.call w (d ++ a ++ b))
  else if op = 0x05#8 ∧ sc = 1 ∧ d = 120 ∧ b = 120 then some (.callx w (Reg.dec a))
  else if op = 0x06#8 ∧ sc = 1 ∧ d = 120 ∧ b = 120 then some (.jx w (Reg.dec a))
  else if op = 0x07#8 ∧ sc = 1 ∧ d = 120 then some (.ckey w (Reg.dec a) b)
  else if op = 0x08#8 ∧ sc = 1 then some (.klass w (Reg.dec d) (a ++ b))
  else if op = 0x09#8 ∧ sc = 1 ∧ d = 0 ∧ a = 0 ∧ b = 0 then some (.cnext w)
  else if op = 0x0A#8 ∧ sc = 1 ∧ d = 0 ∧ a = 0 then some (.cbrk w b)
  else if op = 0x0B#8 ∧ sc = 1 ∧ b = 120 then some (.rdfl w (Reg.dec d) (Reg.dec a))
  else if op = 0x0C#8 ∧ sc.getLsbD 1 = false ∧ d = 0 ∧ a = 0 ∧ b = 0 then some (.exit w (Scope.dec sc))
  else if op = 0x0D#8 ∧ sc = 1 ∧ d = 0 ∧ a = 0 ∧ b = 0 then some (.yield w)
  else if op = 0x0E#8 ∧ sc = 1 ∧ d = 0 ∧ a = 0 then some (.trap w b)
  else if op = 0x0F#8 ∧ sc = 1 ∧ d = 0 ∧ a = 0 then some (.bkpt w b)
  else if op = 0x10#8 ∧ sc = 1 ∧ d = 0 ∧ a = 0 then some (.win w b)
  else if op = 0x11#8 ∧ sc = 1 ∧ d = 0 ∧ a = 0 then some (.sets w b)
  else if op = 0x12#8 ∧ sc = 1 then some (.ldl w (Reg.dec d) (a ++ b))
  else if op = 0x13#8 ∧ sc = 1 then some (.ldlw w (Reg.dec d) (a ++ b))
  else if op = 0x14#8 ∧ sc = 1 ∧ a = 120 then some (.sysr w (Reg.dec d) b)
  else if op = 0x15#8 ∧ sc = 1 ∧ d = 120 then some (.sysw w (Reg.dec a) b)
  else if op = 0x16#8 ∧ sc = 1 ∧ d = 120 then some (.icinv w (Reg.dec a) (Reg.dec b))
  else if op = 0x17#8 ∧ sc = 1 ∧ d = 120 ∧ b = 120 then some (.gov w (Reg.dec a))
  else if op = 0x18#8 ∧ sc = 1 ∧ d = 0 ∧ a = 0 ∧ b = 0 then some (.qsync w)
  else if op = 0x19#8 ∧ sc = 1 ∧ d = 120 then some (.tspawn w (Reg.dec a) (Reg.dec b))
  else if op = 0x1A#8 ∧ sc = 1 ∧ d = 120 then some (.tsucc w (Reg.dec a) (Reg.dec b))
  else if op = 0x1B#8 ∧ sc = 1 ∧ d = 0 ∧ a = 0 then some (.cpol w b)
  else if op = 0x1C#8 ∧ sc = 1 ∧ d = 0 ∧ a = 0 then some (.eret w b)
  else if op = 0x1D#8 ∧ sc = 1 ∧ b = 0 then some (.mbankQuery w (Reg.dec d) (Reg.dec a))
  else if op = 0x1D#8 ∧ sc = 1 ∧ b = 1 then some (.mbankPin w (Reg.dec d) (Reg.dec a))
  else if op = 0x1D#8 ∧ sc = 1 ∧ b = 2 then some (.mbankUnpin w (Reg.dec d) (Reg.dec a))
  else if op = 0x1D#8 ∧ sc = 1 ∧ b = 3 then some (.mbankRelease w (Reg.dec d) (Reg.dec a))
  else if op = 0x1E#8 then some (.coll w (Scope.dec sc) d (Reg.dec a) (Reg.dec b))
  else if op = 0x1F#8 then some (.mstore w (Scope.dec sc) d (Reg.dec a) (Reg.dec b))
  else none

/-- Rows of opcodes 0x20–0x3F. -/
def decodeInteger0 (w : Bool) (sc : BitVec 2) (op : BitVec 8) (d a b : BitVec 7) : Option Instr :=
  if op.extractLsb' 2 6 = 0x08#6 ∧ sc.getLsbD 1 = false then some (.add w (Scope.dec sc) (Width.dec (op.extractLsb' 0 2)) (Reg.dec d) (Reg.dec a) (Reg.dec b))
  else if op.extractLsb' 2 6 = 0x09#6 ∧ sc.getLsbD 1 = false then some (.sub w (Scope.dec sc) (Width.dec (op.extractLsb' 0 2)) (Reg.dec d) (Reg.dec a) (Reg.dec b))
  else if op.extractLsb' 2 6 = 0x0A#6 ∧ sc.getLsbD 1 = false then some (.mul w (Scope.dec sc) (Width.dec (op.extractLsb' 0 2)) (Reg.dec d) (Reg.dec a) (Reg.dec b))
  else if op.extractLsb' 2 6 = 0x0B#6 ∧ sc.getLsbD 1 = false then some (.min w (Scope.dec sc) (Width.dec (op.extractLsb' 0 2)) (Reg.dec d) (Reg.dec a) (Reg.dec b))
  else if op.extractLsb' 2 6 = 0x0C#6 ∧ sc.getLsbD 1 = false then some (.max w (Scope.dec sc) (Width.dec (op.extractLsb' 0 2)) (Reg.dec d) (Reg.dec a) (Reg.dec b))
  else if op.extractLsb' 2 6 = 0x0D#6 ∧ sc.getLsbD 1 = false then some (.minu w (Scope.dec sc) (Width.dec (op.extractLsb' 0 2)) (Reg.dec d) (Reg.dec a) (Reg.dec b))
  else if op.extractLsb' 2 6 = 0x0E#6 ∧ sc.getLsbD 1 = false then some (.maxu w (Scope.dec sc) (Width.dec (op.extractLsb' 0 2)) (Reg.dec d) (Reg.dec a) (Reg.dec b))
  else if op.extractLsb' 2 6 = 0x0F#6 ∧ sc.getLsbD 1 = false then some (.adds w (Scope.dec sc) (Width.dec (op.extractLsb' 0 2)) (Reg.dec d) (Reg.dec a) (Reg.dec b))
  else none

/-- Rows of opcodes 0x40–0x5F. -/
def decodeInteger1 (w : Bool) (sc : BitVec 2) (op : BitVec 8) (d a b : BitVec 7) : Option Instr :=
  if op.extractLsb' 2 6 = 0x10#6 ∧ sc.getLsbD 1 = false then some (.addsu w (Scope.dec sc) (Width.dec (op.extractLsb' 0 2)) (Reg.dec d) (Reg.dec a) (Reg.dec b))
  else if op.extractLsb' 2 6 = 0x11#6 ∧ sc.getLsbD 1 = false then some (.subs w (Scope.dec sc) (Width.dec (op.extractLsb' 0 2)) (Reg.dec d) (Reg.dec a) (Reg.dec b))
  else if op.extractLsb' 2 6 = 0x12#6 ∧ sc.getLsbD 1 = false then some (.shl w (Scope.dec sc) (Width.dec (op.extractLsb' 0 2)) (Reg.dec d) (Reg.dec a) (Reg.dec b))
  else if op.extractLsb' 2 6 = 0x13#6 ∧ sc.getLsbD 1 = false then some (.shr w (Scope.dec sc) (Width.dec (op.extractLsb' 0 2)) (Reg.dec d) (Reg.dec a) (Reg.dec b))
  else if op.extractLsb' 2 6 = 0x14#6 ∧ sc.getLsbD 1 = false then some (.sra w (Scope.dec sc) (Width.dec (op.extractLsb' 0 2)) (Reg.dec d) (Reg.dec a) (Reg.dec b))
  else if op.extractLsb' 2 6 = 0x15#6 ∧ sc.getLsbD 1 = false then some (.ceq w (Scope.dec sc) (Width.dec (op.extractLsb' 0 2)) (Reg.dec d) (Reg.dec a) (Reg.dec b))
  else if op.extractLsb' 2 6 = 0x16#6 ∧ sc.getLsbD 1 = false then some (.clt w (Scope.dec sc) (Width.dec (op.extractLsb' 0 2)) (Reg.dec d) (Reg.dec a) (Reg.dec b))
  else if op.extractLsb' 2 6 = 0x17#6 ∧ sc.getLsbD 1 = false then some (.cltu w (Scope.dec sc) (Width.dec (op.extractLsb' 0 2)) (Reg.dec d) (Reg.dec a) (Reg.dec b))
  else none

/-- Rows of opcodes 0x60–0x7F. -/
def decodeLogic (w : Bool) (sc : BitVec 2) (op : BitVec 8) (d a b : BitVec 7) : Option Instr :=
  if op = 0x60#8 ∧ sc.getLsbD 1 = false then some (.and w (Scope.dec sc) (Reg.dec d) (Reg.dec a) (Reg.dec b))
  else if op = 0x61#8 ∧ sc.getLsbD 1 = false then some (.or w (Scope.dec sc) (Reg.dec d) (Reg.dec a) (Reg.dec b))
  else if op = 0x62#8 ∧ sc.getLsbD 1 = false then some (.xor w (Scope.dec sc) (Reg.dec d) (Reg.dec a) (Reg.dec b))
  else if op = 0x63#8 ∧ sc.getLsbD 1 = false then some (.andn w (Scope.dec sc) (Reg.dec d) (Reg.dec a) (Reg.dec b))
  else if op = 0x64#8 ∧ sc.getLsbD 1 = false ∧ b = 120 then some (.mov w (Scope.dec sc) (Reg.dec d) (Reg.dec a))
  else if op = 0x65#8 ∧ sc.getLsbD 1 = false then some (.bsel w (Scope.dec sc) (Reg.dec d) (Reg.dec a) (Reg.dec b))
  else if op = 0x66#8 ∧ sc.getLsbD 1 = false then some (.mulh64 w (Scope.dec sc) (Reg.dec d) (Reg.dec a) (Reg.dec b))
  else if op = 0x67#8 ∧ sc.getLsbD 1 = false then some (.mulhu64 w (Scope.dec sc) (Reg.dec d) (Reg.dec a) (Reg.dec b))
  else if op = 0x68#8 ∧ sc.getLsbD 1 = false then some (.mulh32 w (Scope.dec sc) (Reg.dec d) (Reg.dec a) (Reg.dec b))
  else if op = 0x69#8 ∧ sc.getLsbD 1 = false then some (.mulhu32 w (Scope.dec sc) (Reg.dec d) (Reg.dec a) (Reg.dec b))
  else if op = 0x6A#8 ∧ sc.getLsbD 1 = false then some (.mad32 w (Scope.dec sc) (Reg.dec d) (Reg.dec a) (Reg.dec b))
  else if op = 0x6B#8 ∧ sc.getLsbD 1 = false then some (.mad64 w (Scope.dec sc) (Reg.dec d) (Reg.dec a) (Reg.dec b))
  else if op = 0x6C#8 ∧ sc.getLsbD 1 = false ∧ b = 120 then some (.popc w (Scope.dec sc) (Reg.dec d) (Reg.dec a))
  else if op = 0x6D#8 ∧ sc.getLsbD 1 = false ∧ b = 120 then some (.clz w (Scope.dec sc) (Reg.dec d) (Reg.dec a))
  else if op = 0x6E#8 ∧ sc.getLsbD 1 = false ∧ b = 120 then some (.brev w (Scope.dec sc) (Reg.dec d) (Reg.dec a))
  else if op = 0x6F#8 ∧ sc.getLsbD 1 = false then some (.bfx w (Scope.dec sc) (Reg.dec d) (Reg.dec a) (Reg.dec b))
  else if op = 0x70#8 ∧ sc.getLsbD 1 = false then some (.bfi w (Scope.dec sc) (Reg.dec d) (Reg.dec a) (Reg.dec b))
  else if op = 0x71#8 ∧ sc.getLsbD 1 = false then some (.shufb w (Scope.dec sc) (Reg.dec d) (Reg.dec a) (Reg.dec b))
  else if op = 0x72#8 ∧ sc.getLsbD 1 = false then some (.faddF32 w (Scope.dec sc) (Reg.dec d) (Reg.dec a) (Reg.dec b))
  else if op = 0x73#8 ∧ sc.getLsbD 1 = false then some (.faddBf16 w (Scope.dec sc) (Reg.dec d) (Reg.dec a) (Reg.dec b))
  else if op = 0x74#8 ∧ sc.getLsbD 1 = false then some (.faddF16 w (Scope.dec sc) (Reg.dec d) (Reg.dec a) (Reg.dec b))
  else if op = 0x75#8 ∧ sc.getLsbD 1 = false then some (.fsubF32 w (Scope.dec sc) (Reg.dec d) (Reg.dec a) (Reg.dec b))
  else if op = 0x76#8 ∧ sc.getLsbD 1 = false then some (.fsubBf16 w (Scope.dec sc) (Reg.dec d) (Reg.dec a) (Reg.dec b))
  else if op = 0x77#8 ∧ sc.getLsbD 1 = false then some (.fsubF16 w (Scope.dec sc) (Reg.dec d) (Reg.dec a) (Reg.dec b))
  else if op = 0x78#8 ∧ sc.getLsbD 1 = false then some (.fmulF32 w (Scope.dec sc) (Reg.dec d) (Reg.dec a) (Reg.dec b))
  else if op = 0x79#8 ∧ sc.getLsbD 1 = false then some (.fmulBf16 w (Scope.dec sc) (Reg.dec d) (Reg.dec a) (Reg.dec b))
  else if op = 0x7A#8 ∧ sc.getLsbD 1 = false then some (.fmulF16 w (Scope.dec sc) (Reg.dec d) (Reg.dec a) (Reg.dec b))
  else if op = 0x7B#8 ∧ sc.getLsbD 1 = false then some (.ffmaF32 w (Scope.dec sc) (Reg.dec d) (Reg.dec a) (Reg.dec b))
  else if op = 0x7C#8 ∧ sc.getLsbD 1 = false then some (.ffmaBf16 w (Scope.dec sc) (Reg.dec d) (Reg.dec a) (Reg.dec b))
  else if op = 0x7D#8 ∧ sc.getLsbD 1 = false then some (.ffmaF16 w (Scope.dec sc) (Reg.dec d) (Reg.dec a) (Reg.dec b))
  else if op = 0x7E#8 ∧ sc.getLsbD 1 = false then some (.fminF32 w (Scope.dec sc) (Reg.dec d) (Reg.dec a) (Reg.dec b))
  else if op = 0x7F#8 ∧ sc.getLsbD 1 = false then some (.fminBf16 w (Scope.dec sc) (Reg.dec d) (Reg.dec a) (Reg.dec b))
  else none

/-- Rows of opcodes 0x80–0x9F. -/
def decodeFloat (w : Bool) (sc : BitVec 2) (op : BitVec 8) (d a b : BitVec 7) : Option Instr :=
  if op = 0x80#8 ∧ sc.getLsbD 1 = false then some (.fminF16 w (Scope.dec sc) (Reg.dec d) (Reg.dec a) (Reg.dec b))
  else if op = 0x81#8 ∧ sc.getLsbD 1 = false then some (.fmaxF32 w (Scope.dec sc) (Reg.dec d) (Reg.dec a) (Reg.dec b))
  else if op = 0x82#8 ∧ sc.getLsbD 1 = false then some (.fmaxBf16 w (Scope.dec sc) (Reg.dec d) (Reg.dec a) (Reg.dec b))
  else if op = 0x83#8 ∧ sc.getLsbD 1 = false then some (.fmaxF16 w (Scope.dec sc) (Reg.dec d) (Reg.dec a) (Reg.dec b))
  else if op = 0x84#8 ∧ sc.getLsbD 1 = false then some (.fceqF32 w (Scope.dec sc) (Reg.dec d) (Reg.dec a) (Reg.dec b))
  else if op = 0x85#8 ∧ sc.getLsbD 1 = false then some (.fceqBf16 w (Scope.dec sc) (Reg.dec d) (Reg.dec a) (Reg.dec b))
  else if op = 0x86#8 ∧ sc.getLsbD 1 = false then some (.fceqF16 w (Scope.dec sc) (Reg.dec d) (Reg.dec a) (Reg.dec b))
  else if op = 0x87#8 ∧ sc.getLsbD 1 = false then some (.fcltF32 w (Scope.dec sc) (Reg.dec d) (Reg.dec a) (Reg.dec b))
  else if op = 0x88#8 ∧ sc.getLsbD 1 = false then some (.fcltBf16 w (Scope.dec sc) (Reg.dec d) (Reg.dec a) (Reg.dec b))
  else if op = 0x89#8 ∧ sc.getLsbD 1 = false then some (.fcltF16 w (Scope.dec sc) (Reg.dec d) (Reg.dec a) (Reg.dec b))
  else if op = 0x8A#8 ∧ sc.getLsbD 1 = false then some (.fcleF32 w (Scope.dec sc) (Reg.dec d) (Reg.dec a) (Reg.dec b))
  else if op = 0x8B#8 ∧ sc.getLsbD 1 = false then some (.fcleBf16 w (Scope.dec sc) (Reg.dec d) (Reg.dec a) (Reg.dec b))
  else if op = 0x8C#8 ∧ sc.getLsbD 1 = false then some (.fcleF16 w (Scope.dec sc) (Reg.dec d) (Reg.dec a) (Reg.dec b))
  else if op = 0x8D#8 ∧ sc.getLsbD 1 = false then some (.fscl w (Scope.dec sc) (Reg.dec d) (Reg.dec a) b)
  else if op = 0x8E#8 ∧ sc.getLsbD 1 = false then some (.ffrc w (Scope.dec sc) (Reg.dec d) (Reg.dec a) b)
  else if op = 0x8F#8 ∧ sc.getLsbD 1 = false then some (.frnd w (Scope.dec sc) (Reg.dec d) (Reg.dec a) b)
  else if op = 0x90#8 ∧ sc.getLsbD 1 = false then some (.fdot2 w (Scope.dec sc) (Reg.dec d) (Reg.dec a) (Reg.dec b))
  else if op = 0x91#8 ∧ sc.getLsbD 1 = false then some (.cvt w (Scope.dec sc) (Reg.dec d) (Reg.dec a) (b.getLsbD 6) (b.extractLsb' 0 6))
  else if op = 0x92#8 ∧ sc.getLsbD 1 = false ∧ b.getLsbD 6 = false then some (.cvtsr w (Scope.dec sc) (Reg.dec d) (Reg.dec a) (b.extractLsb' 0 6))
  else if op = 0x93#8 ∧ sc.getLsbD 1 = false ∧ a = 120 ∧ b = 120 then some (.rand w (Scope.dec sc) (Reg.dec d))
  else if op = 0x94#8 ∧ sc = 1 ∧ d = 120 ∧ b = 120 then some (.rseed w (Reg.dec a))
  else if op = 0x95#8 ∧ sc.getLsbD 1 = false ∧ b = 120 then some (.rcp w (Scope.dec sc) (Reg.dec d) (Reg.dec a))
  else if op = 0x96#8 ∧ sc.getLsbD 1 = false ∧ b = 120 then some (.rsq w (Scope.dec sc) (Reg.dec d) (Reg.dec a))
  else if op = 0x97#8 ∧ sc.getLsbD 1 = false ∧ b = 120 then some (.sqrt w (Scope.dec sc) (Reg.dec d) (Reg.dec a))
  else if op = 0x98#8 ∧ sc.getLsbD 1 = false ∧ b = 120 then some (.exp2 w (Scope.dec sc) (Reg.dec d) (Reg.dec a))
  else if op = 0x99#8 ∧ sc.getLsbD 1 = false ∧ b = 120 then some (.log2 w (Scope.dec sc) (Reg.dec d) (Reg.dec a))
  else if op = 0x9A#8 ∧ sc.getLsbD 1 = false ∧ b = 120 then some (.sint w (Scope.dec sc) (Reg.dec d) (Reg.dec a))
  else if op = 0x9B#8 ∧ sc.getLsbD 1 = false ∧ b = 120 then some (.cost w (Scope.dec sc) (Reg.dec d) (Reg.dec a))
  else if op = 0x9C#8 ∧ sc.getLsbD 1 = false ∧ b = 120 then some (.tanh w (Scope.dec sc) (Reg.dec d) (Reg.dec a))
  else if op = 0x9D#8 ∧ sc.getLsbD 1 = false ∧ b = 120 then some (.sigm w (Scope.dec sc) (Reg.dec d) (Reg.dec a))
  else none

/-- Rows of opcodes 0xA0–0xBF. -/
def decodeMemory (w : Bool) (sc : BitVec 2) (op : BitVec 8) (d a b : BitVec 7) : Option Instr :=
  if op.extractLsb' 2 6 = 0x28#6 then some (.ld w (Scope.dec sc) (Width.dec (op.extractLsb' 0 2)) (Reg.dec d) (Reg.dec a) (Reg.dec b))
  else if op.extractLsb' 2 6 = 0x29#6 then some (.st w (Scope.dec sc) (Width.dec (op.extractLsb' 0 2)) (Reg.dec d) (Reg.dec a) (Reg.dec b))
  else if op.extractLsb' 2 6 = 0x2A#6 then some (.lds w (Scope.dec sc) (Width.dec (op.extractLsb' 0 2)) (Reg.dec d) (Reg.dec a) (Reg.dec b))
  else if op.extractLsb' 2 6 = 0x2B#6 then some (.sts w (Scope.dec sc) (Width.dec (op.extractLsb' 0 2)) (Reg.dec d) (Reg.dec a) (Reg.dec b))
  else if op = 0xB0#8 ∧ sc = 0 then some (.ldp64 w (Reg.dec d) (Reg.dec a) (Reg.dec b))
  else if op = 0xB1#8 ∧ sc = 0 then some (.ldp32 w (Reg.dec d) (Reg.dec a) (Reg.dec b))
  else if op = 0xB2#8 ∧ sc = 0 then some (.stp64 w (Reg.dec d) (Reg.dec a) (Reg.dec b))
  else if op = 0xB3#8 ∧ sc = 0 then some (.stp32 w (Reg.dec d) (Reg.dec a) (Reg.dec b))
  else if op = 0xB4#8 ∧ sc.getLsbD 1 = false ∧ d = 120 then some (.pftch w (Scope.dec sc) (Reg.dec a) (Reg.dec b))
  else if op = 0xB5#8 ∧ d = 0 ∧ a = 0 then some (.fence w (Scope.dec sc) b)
  else if op = 0xB6#8 ∧ sc = 3 ∧ d = 0 ∧ a = 0 then some (.xfence w b)
  else if op = 0xB7#8 ∧ d = 120 then some (.cflush w (Scope.dec sc) (Reg.dec a) (Reg.dec b))
  else if op = 0xB8#8 ∧ d = 120 then some (.cinv w (Scope.dec sc) (Reg.dec a) (Reg.dec b))
  else if op = 0xB9#8 ∧ sc = 1 ∧ d = 120 then some (.cdemote w (Reg.dec a) (Reg.dec b))
  else if op = 0xBA#8 then some (.lease w (Scope.dec sc) (Reg.dec d) (Reg.dec a) (Reg.dec b))
  else if op = 0xBB#8 ∧ d = 120 ∧ b = 120 then some (.lrel w (Scope.dec sc) (Reg.dec a))
  else if op = 0xBC#8 ∧ sc = 1 ∧ d = 120 then some (.pgx w (Reg.dec a) (Reg.dec b))
  else none

/-- Rows of opcodes 0xC0–0xDF. -/
def decodeLanes (w : Bool) (sc : BitVec 2) (op : BitVec 8) (d a b : BitVec 7) : Option Instr :=
  if op = 0xC0#8 then some (.atadd64 w (Scope.dec sc) (Reg.dec d) (Reg.dec a) (Reg.dec b))
  else if op = 0xC1#8 then some (.atadd32 w (Scope.dec sc) (Reg.dec d) (Reg.dec a) (Reg.dec b))
  else if op = 0xC2#8 then some (.atmin64 w (Scope.dec sc) (Reg.dec d) (Reg.dec a) (Reg.dec b))
  else if op = 0xC3#8 then some (.atmin32 w (Scope.dec sc) (Reg.dec d) (Reg.dec a) (Reg.dec b))
  else if op = 0xC4#8 then some (.atmax64 w (Scope.dec sc) (Reg.dec d) (Reg.dec a) (Reg.dec b))
  else if op = 0xC5#8 then some (.atmax32 w (Scope.dec sc) (Reg.dec d) (Reg.dec a) (Reg.dec b))
  else if op = 0xC6#8 then some (.atmaxu64 w (Scope.dec sc) (Reg.dec d) (Reg.dec a) (Reg.dec b))
  else if op = 0xC7#8 then some (.atmaxu32 w (Scope.dec sc) (Reg.dec d) (Reg.dec a) (Reg.dec b))
  else if op = 0xC8#8 then some (.atand64 w (Scope.dec sc) (Reg.dec d) (Reg.dec a) (Reg.dec b))
  else if op = 0xC9#8 then some (.ator64 w (Scope.dec sc) (Reg.dec d) (Reg.dec a) (Reg.dec b))
  else if op = 0xCA#8 then some (.atxor64 w (Scope.dec sc) (Reg.dec d) (Reg.dec a) (Reg.dec b))
  else if op = 0xCB#8 then some (.atxch64 w (Scope.dec sc) (Reg.dec d) (Reg.dec a) (Reg.dec b))
  else if op = 0xCC#8 then some (.atxch32 w (Scope.dec sc) (Reg.dec d) (Reg.dec a) (Reg.dec b))
  else if op = 0xCD#8 then some (.atcas64 w (Scope.dec sc) (Reg.dec d) (Reg.dec a) (Reg.dec b))
  else if op = 0xCE#8 then some (.atcas32 w (Scope.dec sc) (Reg.dec d) (Reg.dec a) (Reg.dec b))
  else if op = 0xCF#8 then some (.atfaddF32 w (Scope.dec sc) (Reg.dec d) (Reg.dec a) (Reg.dec b))
  else if op.extractLsb' 2 6 = 0x34#6 ∧ sc = 0 then some (.xperm w (Width.dec (op.extractLsb' 0 2)) (Reg.dec d) (Reg.dec a) (Reg.dec b))
  else if op = 0xD4#8 ∧ sc = 0 then some (.xswz w (Reg.dec d) (Reg.dec a) b)
  else if op = 0xD5#8 ∧ sc = 0 ∧ b = 120 then some (.xsumF32 w (Reg.dec d) (Reg.dec a))
  else if op = 0xD6#8 ∧ sc = 0 ∧ b = 120 then some (.xsum64 w (Reg.dec d) (Reg.dec a))
  else if op = 0xD7#8 ∧ sc = 0 ∧ b = 120 then some (.xmaxF32 w (Reg.dec d) (Reg.dec a))
  else if op = 0xD8#8 ∧ sc = 0 ∧ b = 120 then some (.xscan32 w (Reg.dec d) (Reg.dec a))
  else if op = 0xD9#8 ∧ sc = 1 then some (.vote w (Reg.dec d) (Reg.dec a) b)
  else if op = 0xDA#8 ∧ sc = 0 then some (.xbcast w (Reg.dec d) (Reg.dec a) (Reg.dec b))
  else if op = 0xDB#8 ∧ sc = 0 then some (.tkins2 w (Reg.dec d) (Reg.dec a) (Reg.dec b))
  else if op = 0xDC#8 ∧ sc = 0 then some (.tkins4 w (Reg.dec d) (Reg.dec a) (Reg.dec b))
  else if op = 0xDD#8 ∧ sc = 0 then some (.tkins8 w (Reg.dec d) (Reg.dec a) (Reg.dec b))
  else none

/-- Rows of opcodes 0xE0–0xFF. -/
def decodeEngine (w : Bool) (sc : BitVec 2) (op : BitVec 8) (d a b : BitVec 7) : Option Instr :=
  if op = 0xE0#8 then some (.cpy w (Scope.dec sc) d (Reg.dec a) (Reg.dec b))
  else if op = 0xE1#8 then some (.cpyg w (Scope.dec sc) d (Reg.dec a) (Reg.dec b))
  else if op = 0xE2#8 then some (.cpyx w (Scope.dec sc) d (Reg.dec a) (Reg.dec b))
  else if op = 0xE3#8 ∧ d = 0 ∧ a = 0 then some (.cpyc w (Scope.dec sc) b)
  else if op = 0xE4#8 ∧ b = 120 then some (.binit w (Scope.dec sc) d (Reg.dec a))
  else if op = 0xE5#8 ∧ d = 0 ∧ a = 0 then some (.barv w (Scope.dec sc) b)
  else if op = 0xE6#8 ∧ sc = 1 ∧ d = 0 ∧ a = 0 then some (.bwait w b)
  else if op = 0xE7#8 ∧ sc = 1 ∧ a = 120 then some (.btest w (Reg.dec d) b)
  else if op = 0xE8#8 then some (.chain w (Scope.dec sc) d (Reg.dec a) (Reg.dec b))
  else if op = 0xE9#8 ∧ b = 120 then some (.tdef w (Scope.dec sc) d (Reg.dec a))
  else if op = 0xEA#8 then some (.mload w (Scope.dec sc) d (Reg.dec a) (Reg.dec b))
  else if op = 0xEB#8 ∧ sc.getLsbD 1 = true then some (.mma w (Scope.dec sc) d (Reg.dec a) (Reg.dec b))
  else if op = 0xEC#8 ∧ sc.getLsbD 1 = true then some (.mgrad w (Scope.dec sc) d (Reg.dec a) (Reg.dec b))
  else if op = 0xED#8 ∧ a = 120 ∧ b = 120 then some (.mclose w (Scope.dec sc) (Reg.dec d))
  else if op = 0xEE#8 ∧ d = 120 ∧ b = 120 then some (.mwait w (Scope.dec sc) (Reg.dec a))
  else if op = 0xEF#8 ∧ a = 120 ∧ b = 0 then some (.mbatonTake w (Scope.dec sc) (Reg.dec d))
  else if op = 0xEF#8 ∧ a = 120 ∧ b = 1 then some (.mbatonPass w (Scope.dec sc) (Reg.dec d))
  else if op = 0xEF#8 ∧ a = 120 ∧ b = 2 then some (.mbatonQuery w (Scope.dec sc) (Reg.dec d))
  else if op = 0xF0#8 ∧ sc.getLsbD 1 = false then some (.idiv32 w (Scope.dec sc) (Reg.dec d) (Reg.dec a) (Reg.dec b))
  else if op = 0xF1#8 ∧ sc.getLsbD 1 = false then some (.idiv64 w (Scope.dec sc) (Reg.dec d) (Reg.dec a) (Reg.dec b))
  else if op = 0xF2#8 ∧ sc.getLsbD 1 = false then some (.irem32 w (Scope.dec sc) (Reg.dec d) (Reg.dec a) (Reg.dec b))
  else if op = 0xF3#8 ∧ sc.getLsbD 1 = false then some (.irem64 w (Scope.dec sc) (Reg.dec d) (Reg.dec a) (Reg.dec b))
  else if op = 0xF4#8 ∧ sc.getLsbD 1 = false then some (.fdivF32 w (Scope.dec sc) (Reg.dec d) (Reg.dec a) (Reg.dec b))
  else none

/-- The instruction of a word of opcodes 0x00–0xF4, from its fields. -/
def decodeFields (w : Bool) (sc : BitVec 2) (op : BitVec 8) (d a b : BitVec 7) : Option Instr :=
  let g := op.extractLsb' 5 3
  if g = 0 then decodeControl w sc op d a b
  else if g = 1 then decodeInteger0 w sc op d a b
  else if g = 2 then decodeInteger1 w sc op d a b
  else if g = 3 then decodeLogic w sc op d a b
  else if g = 4 then decodeFloat w sc op d a b
  else if g = 5 then decodeMemory w sc op d a b
  else if g = 6 then decodeLanes w sc op d a b
  else decodeEngine w sc op d a b

/-- Why a word is no instruction: R65, R53, and what R67 finds later (a scope or an operand code no row holds). -/
inductive Reject where
  /-- Fewer than four bytes were given. -/
  | truncated
  /-- The opcode is unassigned (R65). -/
  | unassignedOpcode
  /-- A position that must hold a fixed value holds another (R53). -/
  | fixedPosition
  /-- The scope bits name a scope outside the opcode's set (R50). -/
  | illegalScope
  /-- An operand code that no row lists (R54). -/
  | operandCode
  deriving DecidableEq, Repr

/-- What the decoder answers. -/
inductive Decoded where
  | instr (i : Instr)
  | reject (r : Reject)
  deriving DecidableEq, Repr

/-- The decoder: a word is an instruction of the map or is rejected by name. A word of opcodes 0xF5–0xFF is a
microcoded instruction whatever its fields hold (R66). -/
def decode (x : BitVec 32) : Decoded :=
  if 0xF5 ≤ (fieldOP x).toNat then .instr (.microcoded x)
  else
    match decodeFields (fieldW x) (fieldSC x) (fieldOP x) (fieldD x) (fieldA x) (fieldB x) with
    | some i => .instr i
    | none =>
      if unassigned (fieldOP x) then .reject .unassignedOpcode
      else if !fixedOk x then .reject .fixedPosition
      else if !(legalScopes (fieldOP x)).contains (Scope.dec (fieldSC x)) then .reject .illegalScope
      else .reject .operandCode

/-- The 32-bit word of four bytes, the first at the lowest address (R1, R48). -/
def wordOfBytes (b0 b1 b2 b3 : Byte) : BitVec 32 := b3 ++ b2 ++ b1 ++ b0

/-- Decoding a run of bytes: the instruction and the rest. -/
def decodeBytes : List Byte → Decoded × List Byte
  | b0 :: b1 :: b2 :: b3 :: rest => (decode (wordOfBytes b0 b1 b2 b3), rest)
  | bs => (.reject .truncated, bs)

/-- The four bytes of a word in memory order (R48). -/
def bytesOfWord (x : BitVec 32) : List Byte :=
  [x.extractLsb' 0 8, x.extractLsb' 8 8, x.extractLsb' 16 8, x.extractLsb' 24 8]

/-- The instruction that the decoder reads from the bits of an opcode-table row, as the host numbers them. -/
def decodeTableWord (nbits w : Nat) : Option Instr :=
  if nbits ≤ 32 then
    match (decodeBytes (bytesOfWord (BitVec.ofNat 32 (w % 2 ^ nbits)))).1 with
    | .instr i => some i
    | .reject _ => none
  else none

/-! ### The encoder -/

/-- The word of an instruction (R51). An event has no word; 0 stands for it. -/
def encode : Instr → BitVec 32
  | .nop w sc => mkWord w sc.enc 0x00 0 0 0
  | .br w o => mkWord w 1 0x01 (o.extractLsb' 14 7) (o.extractLsb' 7 7) (o.extractLsb' 0 7)
  | .brz w d o => mkWord w 1 0x02 d.enc (o.extractLsb' 7 7) (o.extractLsb' 0 7)
  | .brnz w d o => mkWord w 1 0x03 d.enc (o.extractLsb' 7 7) (o.extractLsb' 0 7)
  | .call w o => mkWord w 1 0x04 (o.extractLsb' 14 7) (o.extractLsb' 7 7) (o.extractLsb' 0 7)
  | .callx w a => mkWord w 1 0x05 120 a.enc 120
  | .jx w a => mkWord w 1 0x06 120 a.enc 120
  | .ckey w a i => mkWord w 1 0x07 120 a.enc i
  | .klass w d o => mkWord w 1 0x08 d.enc (o.extractLsb' 7 7) (o.extractLsb' 0 7)
  | .cnext w => mkWord w 1 0x09 0 0 0
  | .cbrk w i => mkWord w 1 0x0A 0 0 i
  | .rdfl w d a => mkWord w 1 0x0B d.enc a.enc 120
  | .exit w sc => mkWord w sc.enc 0x0C 0 0 0
  | .yield w => mkWord w 1 0x0D 0 0 0
  | .trap w i => mkWord w 1 0x0E 0 0 i
  | .bkpt w i => mkWord w 1 0x0F 0 0 i
  | .win w i => mkWord w 1 0x10 0 0 i
  | .sets w i => mkWord w 1 0x11 0 0 i
  | .ldl w d o => mkWord w 1 0x12 d.enc (o.extractLsb' 7 7) (o.extractLsb' 0 7)
  | .ldlw w d o => mkWord w 1 0x13 d.enc (o.extractLsb' 7 7) (o.extractLsb' 0 7)
  | .sysr w d i => mkWord w 1 0x14 d.enc 120 i
  | .sysw w a i => mkWord w 1 0x15 120 a.enc i
  | .icinv w a b => mkWord w 1 0x16 120 a.enc b.enc
  | .gov w a => mkWord w 1 0x17 120 a.enc 120
  | .qsync w => mkWord w 1 0x18 0 0 0
  | .tspawn w a b => mkWord w 1 0x19 120 a.enc b.enc
  | .tsucc w a b => mkWord w 1 0x1A 120 a.enc b.enc
  | .cpol w i => mkWord w 1 0x1B 0 0 i
  | .eret w i => mkWord w 1 0x1C 0 0 i
  | .mbankQuery w d a => mkWord w 1 0x1D d.enc a.enc 0
  | .mbankPin w d a => mkWord w 1 0x1D d.enc a.enc 1
  | .mbankUnpin w d a => mkWord w 1 0x1D d.enc a.enc 2
  | .mbankRelease w d a => mkWord w 1 0x1D d.enc a.enc 3
  | .coll w sc i a b => mkWord w sc.enc 0x1E i a.enc b.enc
  | .mstore w sc i a b => mkWord w sc.enc 0x1F i a.enc b.enc
  | .add w sc t d a b => mkWord w sc.enc (0x08#6 ++ t.enc) d.enc a.enc b.enc
  | .sub w sc t d a b => mkWord w sc.enc (0x09#6 ++ t.enc) d.enc a.enc b.enc
  | .mul w sc t d a b => mkWord w sc.enc (0x0A#6 ++ t.enc) d.enc a.enc b.enc
  | .min w sc t d a b => mkWord w sc.enc (0x0B#6 ++ t.enc) d.enc a.enc b.enc
  | .max w sc t d a b => mkWord w sc.enc (0x0C#6 ++ t.enc) d.enc a.enc b.enc
  | .minu w sc t d a b => mkWord w sc.enc (0x0D#6 ++ t.enc) d.enc a.enc b.enc
  | .maxu w sc t d a b => mkWord w sc.enc (0x0E#6 ++ t.enc) d.enc a.enc b.enc
  | .adds w sc t d a b => mkWord w sc.enc (0x0F#6 ++ t.enc) d.enc a.enc b.enc
  | .addsu w sc t d a b => mkWord w sc.enc (0x10#6 ++ t.enc) d.enc a.enc b.enc
  | .subs w sc t d a b => mkWord w sc.enc (0x11#6 ++ t.enc) d.enc a.enc b.enc
  | .shl w sc t d a b => mkWord w sc.enc (0x12#6 ++ t.enc) d.enc a.enc b.enc
  | .shr w sc t d a b => mkWord w sc.enc (0x13#6 ++ t.enc) d.enc a.enc b.enc
  | .sra w sc t d a b => mkWord w sc.enc (0x14#6 ++ t.enc) d.enc a.enc b.enc
  | .ceq w sc t d a b => mkWord w sc.enc (0x15#6 ++ t.enc) d.enc a.enc b.enc
  | .clt w sc t d a b => mkWord w sc.enc (0x16#6 ++ t.enc) d.enc a.enc b.enc
  | .cltu w sc t d a b => mkWord w sc.enc (0x17#6 ++ t.enc) d.enc a.enc b.enc
  | .and w sc d a b => mkWord w sc.enc 0x60 d.enc a.enc b.enc
  | .or w sc d a b => mkWord w sc.enc 0x61 d.enc a.enc b.enc
  | .xor w sc d a b => mkWord w sc.enc 0x62 d.enc a.enc b.enc
  | .andn w sc d a b => mkWord w sc.enc 0x63 d.enc a.enc b.enc
  | .mov w sc d a => mkWord w sc.enc 0x64 d.enc a.enc 120
  | .bsel w sc d a b => mkWord w sc.enc 0x65 d.enc a.enc b.enc
  | .mulh64 w sc d a b => mkWord w sc.enc 0x66 d.enc a.enc b.enc
  | .mulhu64 w sc d a b => mkWord w sc.enc 0x67 d.enc a.enc b.enc
  | .mulh32 w sc d a b => mkWord w sc.enc 0x68 d.enc a.enc b.enc
  | .mulhu32 w sc d a b => mkWord w sc.enc 0x69 d.enc a.enc b.enc
  | .mad32 w sc d a b => mkWord w sc.enc 0x6A d.enc a.enc b.enc
  | .mad64 w sc d a b => mkWord w sc.enc 0x6B d.enc a.enc b.enc
  | .popc w sc d a => mkWord w sc.enc 0x6C d.enc a.enc 120
  | .clz w sc d a => mkWord w sc.enc 0x6D d.enc a.enc 120
  | .brev w sc d a => mkWord w sc.enc 0x6E d.enc a.enc 120
  | .bfx w sc d a b => mkWord w sc.enc 0x6F d.enc a.enc b.enc
  | .bfi w sc d a b => mkWord w sc.enc 0x70 d.enc a.enc b.enc
  | .shufb w sc d a b => mkWord w sc.enc 0x71 d.enc a.enc b.enc
  | .faddF32 w sc d a b => mkWord w sc.enc 0x72 d.enc a.enc b.enc
  | .faddBf16 w sc d a b => mkWord w sc.enc 0x73 d.enc a.enc b.enc
  | .faddF16 w sc d a b => mkWord w sc.enc 0x74 d.enc a.enc b.enc
  | .fsubF32 w sc d a b => mkWord w sc.enc 0x75 d.enc a.enc b.enc
  | .fsubBf16 w sc d a b => mkWord w sc.enc 0x76 d.enc a.enc b.enc
  | .fsubF16 w sc d a b => mkWord w sc.enc 0x77 d.enc a.enc b.enc
  | .fmulF32 w sc d a b => mkWord w sc.enc 0x78 d.enc a.enc b.enc
  | .fmulBf16 w sc d a b => mkWord w sc.enc 0x79 d.enc a.enc b.enc
  | .fmulF16 w sc d a b => mkWord w sc.enc 0x7A d.enc a.enc b.enc
  | .ffmaF32 w sc d a b => mkWord w sc.enc 0x7B d.enc a.enc b.enc
  | .ffmaBf16 w sc d a b => mkWord w sc.enc 0x7C d.enc a.enc b.enc
  | .ffmaF16 w sc d a b => mkWord w sc.enc 0x7D d.enc a.enc b.enc
  | .fminF32 w sc d a b => mkWord w sc.enc 0x7E d.enc a.enc b.enc
  | .fminBf16 w sc d a b => mkWord w sc.enc 0x7F d.enc a.enc b.enc
  | .fminF16 w sc d a b => mkWord w sc.enc 0x80 d.enc a.enc b.enc
  | .fmaxF32 w sc d a b => mkWord w sc.enc 0x81 d.enc a.enc b.enc
  | .fmaxBf16 w sc d a b => mkWord w sc.enc 0x82 d.enc a.enc b.enc
  | .fmaxF16 w sc d a b => mkWord w sc.enc 0x83 d.enc a.enc b.enc
  | .fceqF32 w sc d a b => mkWord w sc.enc 0x84 d.enc a.enc b.enc
  | .fceqBf16 w sc d a b => mkWord w sc.enc 0x85 d.enc a.enc b.enc
  | .fceqF16 w sc d a b => mkWord w sc.enc 0x86 d.enc a.enc b.enc
  | .fcltF32 w sc d a b => mkWord w sc.enc 0x87 d.enc a.enc b.enc
  | .fcltBf16 w sc d a b => mkWord w sc.enc 0x88 d.enc a.enc b.enc
  | .fcltF16 w sc d a b => mkWord w sc.enc 0x89 d.enc a.enc b.enc
  | .fcleF32 w sc d a b => mkWord w sc.enc 0x8A d.enc a.enc b.enc
  | .fcleBf16 w sc d a b => mkWord w sc.enc 0x8B d.enc a.enc b.enc
  | .fcleF16 w sc d a b => mkWord w sc.enc 0x8C d.enc a.enc b.enc
  | .fscl w sc d a i => mkWord w sc.enc 0x8D d.enc a.enc i
  | .ffrc w sc d a i => mkWord w sc.enc 0x8E d.enc a.enc i
  | .frnd w sc d a i => mkWord w sc.enc 0x8F d.enc a.enc i
  | .fdot2 w sc d a b => mkWord w sc.enc 0x90 d.enc a.enc b.enc
  | .cvt w sc d a x c => mkWord w sc.enc 0x91 d.enc a.enc (BitVec.ofBool x ++ c)
  | .cvtsr w sc d a c => mkWord w sc.enc 0x92 d.enc a.enc (BitVec.ofBool false ++ c)
  | .rand w sc d => mkWord w sc.enc 0x93 d.enc 120 120
  | .rseed w a => mkWord w 1 0x94 120 a.enc 120
  | .rcp w sc d a => mkWord w sc.enc 0x95 d.enc a.enc 120
  | .rsq w sc d a => mkWord w sc.enc 0x96 d.enc a.enc 120
  | .sqrt w sc d a => mkWord w sc.enc 0x97 d.enc a.enc 120
  | .exp2 w sc d a => mkWord w sc.enc 0x98 d.enc a.enc 120
  | .log2 w sc d a => mkWord w sc.enc 0x99 d.enc a.enc 120
  | .sint w sc d a => mkWord w sc.enc 0x9A d.enc a.enc 120
  | .cost w sc d a => mkWord w sc.enc 0x9B d.enc a.enc 120
  | .tanh w sc d a => mkWord w sc.enc 0x9C d.enc a.enc 120
  | .sigm w sc d a => mkWord w sc.enc 0x9D d.enc a.enc 120
  | .ld w sc t d a b => mkWord w sc.enc (0x28#6 ++ t.enc) d.enc a.enc b.enc
  | .st w sc t d a b => mkWord w sc.enc (0x29#6 ++ t.enc) d.enc a.enc b.enc
  | .lds w sc t d a b => mkWord w sc.enc (0x2A#6 ++ t.enc) d.enc a.enc b.enc
  | .sts w sc t d a b => mkWord w sc.enc (0x2B#6 ++ t.enc) d.enc a.enc b.enc
  | .ldp64 w d a b => mkWord w 0 0xB0 d.enc a.enc b.enc
  | .ldp32 w d a b => mkWord w 0 0xB1 d.enc a.enc b.enc
  | .stp64 w d a b => mkWord w 0 0xB2 d.enc a.enc b.enc
  | .stp32 w d a b => mkWord w 0 0xB3 d.enc a.enc b.enc
  | .pftch w sc a b => mkWord w sc.enc 0xB4 120 a.enc b.enc
  | .fence w sc i => mkWord w sc.enc 0xB5 0 0 i
  | .xfence w i => mkWord w 3 0xB6 0 0 i
  | .cflush w sc a b => mkWord w sc.enc 0xB7 120 a.enc b.enc
  | .cinv w sc a b => mkWord w sc.enc 0xB8 120 a.enc b.enc
  | .cdemote w a b => mkWord w 1 0xB9 120 a.enc b.enc
  | .lease w sc d a b => mkWord w sc.enc 0xBA d.enc a.enc b.enc
  | .lrel w sc a => mkWord w sc.enc 0xBB 120 a.enc 120
  | .pgx w a b => mkWord w 1 0xBC 120 a.enc b.enc
  | .atadd64 w sc d a b => mkWord w sc.enc 0xC0 d.enc a.enc b.enc
  | .atadd32 w sc d a b => mkWord w sc.enc 0xC1 d.enc a.enc b.enc
  | .atmin64 w sc d a b => mkWord w sc.enc 0xC2 d.enc a.enc b.enc
  | .atmin32 w sc d a b => mkWord w sc.enc 0xC3 d.enc a.enc b.enc
  | .atmax64 w sc d a b => mkWord w sc.enc 0xC4 d.enc a.enc b.enc
  | .atmax32 w sc d a b => mkWord w sc.enc 0xC5 d.enc a.enc b.enc
  | .atmaxu64 w sc d a b => mkWord w sc.enc 0xC6 d.enc a.enc b.enc
  | .atmaxu32 w sc d a b => mkWord w sc.enc 0xC7 d.enc a.enc b.enc
  | .atand64 w sc d a b => mkWord w sc.enc 0xC8 d.enc a.enc b.enc
  | .ator64 w sc d a b => mkWord w sc.enc 0xC9 d.enc a.enc b.enc
  | .atxor64 w sc d a b => mkWord w sc.enc 0xCA d.enc a.enc b.enc
  | .atxch64 w sc d a b => mkWord w sc.enc 0xCB d.enc a.enc b.enc
  | .atxch32 w sc d a b => mkWord w sc.enc 0xCC d.enc a.enc b.enc
  | .atcas64 w sc d a b => mkWord w sc.enc 0xCD d.enc a.enc b.enc
  | .atcas32 w sc d a b => mkWord w sc.enc 0xCE d.enc a.enc b.enc
  | .atfaddF32 w sc d a b => mkWord w sc.enc 0xCF d.enc a.enc b.enc
  | .xperm w t d a b => mkWord w 0 (0x34#6 ++ t.enc) d.enc a.enc b.enc
  | .xswz w d a i => mkWord w 0 0xD4 d.enc a.enc i
  | .xsumF32 w d a => mkWord w 0 0xD5 d.enc a.enc 120
  | .xsum64 w d a => mkWord w 0 0xD6 d.enc a.enc 120
  | .xmaxF32 w d a => mkWord w 0 0xD7 d.enc a.enc 120
  | .xscan32 w d a => mkWord w 0 0xD8 d.enc a.enc 120
  | .vote w d a i => mkWord w 1 0xD9 d.enc a.enc i
  | .xbcast w d a b => mkWord w 0 0xDA d.enc a.enc b.enc
  | .tkins2 w d a b => mkWord w 0 0xDB d.enc a.enc b.enc
  | .tkins4 w d a b => mkWord w 0 0xDC d.enc a.enc b.enc
  | .tkins8 w d a b => mkWord w 0 0xDD d.enc a.enc b.enc
  | .cpy w sc i a b => mkWord w sc.enc 0xE0 i a.enc b.enc
  | .cpyg w sc i a b => mkWord w sc.enc 0xE1 i a.enc b.enc
  | .cpyx w sc i a b => mkWord w sc.enc 0xE2 i a.enc b.enc
  | .cpyc w sc i => mkWord w sc.enc 0xE3 0 0 i
  | .binit w sc i a => mkWord w sc.enc 0xE4 i a.enc 120
  | .barv w sc i => mkWord w sc.enc 0xE5 0 0 i
  | .bwait w i => mkWord w 1 0xE6 0 0 i
  | .btest w d i => mkWord w 1 0xE7 d.enc 120 i
  | .chain w sc i a b => mkWord w sc.enc 0xE8 i a.enc b.enc
  | .tdef w sc i a => mkWord w sc.enc 0xE9 i a.enc 120
  | .mload w sc i a b => mkWord w sc.enc 0xEA i a.enc b.enc
  | .mma w sc i a b => mkWord w sc.enc 0xEB i a.enc b.enc
  | .mgrad w sc i a b => mkWord w sc.enc 0xEC i a.enc b.enc
  | .mclose w sc d => mkWord w sc.enc 0xED d.enc 120 120
  | .mwait w sc a => mkWord w sc.enc 0xEE 120 a.enc 120
  | .mbatonTake w sc d => mkWord w sc.enc 0xEF d.enc 120 0
  | .mbatonPass w sc d => mkWord w sc.enc 0xEF d.enc 120 1
  | .mbatonQuery w sc d => mkWord w sc.enc 0xEF d.enc 120 2
  | .idiv32 w sc d a b => mkWord w sc.enc 0xF0 d.enc a.enc b.enc
  | .idiv64 w sc d a b => mkWord w sc.enc 0xF1 d.enc a.enc b.enc
  | .irem32 w sc d a b => mkWord w sc.enc 0xF2 d.enc a.enc b.enc
  | .irem64 w sc d a b => mkWord w sc.enc 0xF3 d.enc a.enc b.enc
  | .fdivF32 w sc d a b => mkWord w sc.enc 0xF4 d.enc a.enc b.enc
  | .microcoded word => word
  | .reset => 0
  | .resultReturn _ _ => 0
  | .storePerformed _ => 0
  | .governorTrap _ => 0
  | .l1ReadLeaseExpiry _ _ => 0
  | .engineBankPriority _ => 0
  | .cdemoteWalk _ => 0
  | .icinvComplete _ => 0
  | .pgxComplete _ => 0
  | .shoot _ => 0
  | .shootdownComplete => 0
  | .pageFaultService _ => 0
  | .pfreply _ => 0
  | .quantumExpiry _ => 0
  | .commitBufferFull _ => 0
  | .deterministicCommit _ _ => 0
  | .engineCommandAccept _ _ => 0
  | .scoreboardEntryRelease _ _ => 0
  | .copyComplete _ _ => 0
  | .cpyxComplete _ _ _ => 0
  | .chainComplete _ _ => 0
  | .mloadComplete _ => 0
  | .mmaComplete _ => 0
  | .mgradComplete _ => 0
  | .mstoreComplete _ => 0
  | .bfloor _ => 0
  | .bfloorWriteComplete => 0
  | .xlate _ => 0
  | .translationComplete => 0
  | .mcload _ => 0
  | .patch _ => 0
  | .microcodePatchComplete => 0
  | .attctl _ => 0
  | .attestationComplete => 0
  | .svraise _ => 0
  | .pwr _ => 0
  | .preemptRequest _ _ => 0
  | .shadowPreempt _ _ => 0
  | .shadowCancel _ _ => 0
  | .pdecide _ => 0
  | .preemptSave _ _ => 0
  | .preemptFlush _ _ => 0
  | .workgroupResume _ => 0
  | .haltCore _ => 0
  | .coreHaltComplete _ => 0
  | .resumeCore _ => 0
  | .haltWarp _ _ _ => 0
  | .resumeWarp _ _ _ => 0
  | .stepSplit _ _ _ _ => 0
  | .inject _ _ _ _ => 0
  | .dbgdata _ _ _ _ _ => 0
  | .breakpointHit _ => 0
  | .intakePost _ _ _ => 0
  | .intakeQueueDrain _ => 0
  | .hostWrite _ _ _ => 0
  | .hostRead _ _ _ => 0
  | .mgmtWindowWrite _ _ => 0
  | .peerFlit _ => 0
  | .collContribution _ _ _ _ _ _ => 0
  | .collComplete _ _ => 0
  | .collMemberLeft _ => 0
  | .taskPlacement _ => 0
  | .localQueueTake _ => 0
  | .steal _ => 0
  | .pondAgingExpiry _ _ => 0
  | .deferredEnqueue => 0
  | .taskDispatch _ => 0
  | .stagingAbort _ _ => 0
  | .joinNode _ => 0
  | .condNode _ => 0
  | .loopNode _ => 0
  | .taskComplete _ _ => 0
  | .tspawnEnqueue _ => 0
  | .tsuccDecrement _ => 0
  | .illegalInstruction _ => 0
  | .instructionFetchFault _ => 0
  | .linkTraining _ _ => 0
  | .clockLowering _ => 0
  | .expertLocationTableUpkeep _ _ _ => 0

end Sys2Proof
end

