-- ==== Sys2Proof/Config.lean ====
section
/-! DEFINITION. What the module fixes (R8–R12, R198) and the free values: opaque, so that no proof can see one. A free
value of the first group is applied to the state's counter `free`, which the step that uses it advances (log entry 5). -/

namespace Sys2Proof.Config

/-- Cores of the module and per die, R8, R9. -/
abbrev cores : Nat := 160
abbrev coresPerDie : Nat := 80
/-- Resident warps of one partition, R95. -/
abbrev warpsPerPartition : Nat := 8
/-- Register blocks of one partition bank, R128. -/
abbrev blocksPerBank : Nat := 64
/-- Copies, chains, scoreboard entries and local-queue entries of a core, R209, R274, R336. -/
abbrev copyQueue : Nat := 128
abbrev chainQueue : Nat := 16
abbrev scoreboardEntries : Nat := 128
abbrev localQueue : Nat := 64
/-- Entries of a pond and of an intake queue, R334, R397. -/
abbrev pondEntries : Nat := 8192
abbrev intakeEntries : Nat := 256
/-- Cycles of a read lease and of pond aging, R232, R335. -/
abbrev leaseCycles : Nat := 65536
abbrev agingCycles : Nat := 65536
/-- Ends of device memory and the apertures, R221. -/
abbrev deviceEnd : Nat := 0xC000000000
abbrev hostBase : Nat := 0x800000000000
abbrev peerBase : Nat := 0xC00000000000
abbrev physEnd : Nat := 0x1000000000000
/-- The scratchpad window, R201. -/
abbrev windowBase : Nat := 0x00FFFFFF00000000
/-- Scratchpad bytes of a split code, R198. -/
def scratchOf (split : Nat) : Nat := (256 + 128 * split) * 1024
/-- First-level ways of a split code, R198. -/
def waysOf (split : Nat) : Nat := 24 - 4 * split
/-- ISAVER and FEAT0, R13, R14. -/
abbrev isaver : Word := 0x00060601
abbrev feat0 : Word := 0x3FFFF

/-- A choice between two named outcomes (R5): the n-th. -/
opaque freeBool : Nat → Bool
/-- Whether an engine sees a byte that a core-path store has written and that is not yet performed (R256): the n-th
read, at an address. -/
opaque engineSees : Nat → Nat → Bool
/-- The result of a microcoded instruction loaded by a patch, whose BODY is Ulimet's own encoding (R389): the n-th,
on its old D, A and B. -/
opaque microResult : Nat → Word → Word → Word → Word
/-- A byte of a save frame that no rule defines for software (R361): of the n-th save, at an offset. -/
opaque frameByte : Nat → Nat → Byte
/-- The module's mean draw in watts (R400): the n-th reading. -/
opaque draw : Nat → BitVec 12
/-- A firmware choice, the n-th, among alternatives that no rule orders (R5). -/
opaque freeNat : Nat → Nat

/-- Where system software placed a context's private area (R241). -/
opaque privArea : Nat → Nat
/-- Whether a write-back of a first-level line carries the whole line, or the bytes that stores wrote. -/
opaque wholeLine : Bool
/-- The inner cause delivered when peer traffic is refused because CHIP is not valid (R399). -/
opaque peerRefusal : BitVec 8
/-- The firmware image passes the key and signature checks of the boot ROM (R409 steps 1 and 2). -/
opaque firmwareSigned : Bool
/-- The security version of the firmware image (R409). -/
opaque firmwareVersion : Nat
/-- The signature of a microcode patch verifies under the firmware key (R389). -/
opaque patchSigned : List Byte → Bool
/-- The running firmware's image (R410). -/
opaque firmware : List Byte
/-- The module serial number, eight bytes (R410). -/
opaque serial : List Byte
/-- The identity key's signature over a report, 96 bytes (R410). -/
opaque attest : List Byte → List Byte
/-- A correctly rounded special function, where the enclosure of Machine/Sfu.lean did not decide it (never met: R88's
values are never halfway). Arguments: the function's number and the operand's bits. -/
opaque special : Nat → BitVec 32 → BitVec 32

end Sys2Proof.Config
end

