-- ==== Sys2Proof/Machine/State.lean ====
section
/-! DEFINITION. The state of the Chroam K6 as plain data: streams, warps, workgroups, cores, dies, contexts, the module,
and what an agent has under way. Every structure's `init` is what it holds before anything is placed in it; the
values at dispatch (R94, R137) are set by the dispatch (Machine/Place.lean). -/

namespace Sys2Proof.Machine

/-- A memory: (address, byte) pairs, addresses rising, no entry equal to what an unlisted address reads as (log entry 2): 0. -/
abbrev Memory := List Host.Cell

/-- Device memory in the same form; what its unlisted addresses read as holds the empty expert location table of reset (log entry 2). -/
abbrev DevMemory := List Host.Cell

/-- Where a byte of data lies: a workgroup's scratchpad, or a physical address (R221, R399), with `wb` set where the
page is software-managed or core-private (R207). -/
inductive Loc where
  | scratch (off : Nat)
  | phys (pa : Nat) (wb : Bool)
  deriving DecidableEq, Repr

def Loc.isPhys : Loc → Bool
  | .scratch _ => false
  | .phys _ _ => true

/-! ### A stream -/

/-- The register that a variable-latency result goes to (R98): a physical lane register, TAG, an S or K register, the
split's copy of Sd, or none. -/
inductive Dst where
  | lane (i : Nat) | tag | s (n : Nat) | k (n : Nat) | none
  deriving DecidableEq, Repr

/-- An outstanding result (R98, R100): its value by lane (lane 0 for a scalar), and the conditions it reports (R153). The
results of one instruction have one number in their warp, and return together; `peer` marks a load over a peer link (R399). -/
structure OutRes where
  num   : Nat
  dst   : Dst
  vals  : List (Nat × Word)
  flags : BitVec 5
  peer  : Bool := false
  deriving DecidableEq, Repr

/-- A fault of an engine command (R275, R282): inner cause, address, completed prefix, and the walk's fields (R226). -/
structure EngFault where
  cause : BitVec 8
  addr  : Word
  done  : Nat
  malf  : Bool
  level : Nat
  deriving DecidableEq, Repr

/-- A held fault record (R282, R313): the command's PC and opcode, and its fault. -/
structure EngRec where
  pc     : Addr
  opcode : BitVec 8
  fault  : EngFault
  deriving DecidableEq, Repr

/-- Why a stream is not ready (R97 and the rules of the words that wait). A `mark` is the wait mark of the word, which an
event completes. -/
inductive Wait where
  /-- no wait -/
  | none
  /-- parked at latch g of its workgroup (R104): 0–3 a set, 4 the block -/
  | latch (g : Nat)
  /-- BWAIT on barrier register b (R280); and released by a flip, with the record and MORE that it delivers (R282) -/
  | barrier (b : Nat)
  | bret (r : Option (EngRec × Bool))
  /-- MBATON TAKE of group g of the workgroup (R311) -/
  | baton (g : Nat)
  /-- MWAIT on a batch (R324) -/
  | batch (n : Nat)
  /-- a scratchpad access that overlaps scoreboard entries (R212); for a store, read entries too -/
  | scoreboard (lo hi : Nat) (store : Bool)
  /-- an engine command that waits for acceptance (R274) -/
  | accept
  /-- ICINV, until both dies acknowledge (R127) -/
  | icinv (a n : Word) (mark : Bool)
  /-- SYSW to BFLOOR, until the share write of this number completes (R303) -/
  | bfloor (mark : Bool) (op : Nat)
  /-- FENCE at memory scope m (R257); in deterministic mode first the commit of its round -/
  | fence (m : Nat)
  | fenceCommit (m : Nat)
  /-- XFENCE over a path mask (R258), with the engine commands accepted before it fired -/
  | xfence (paths : Nat) (cmds : List Nat)
  /-- TSPAWN, until earlier stores are performed and a pond has room (R347) -/
  | tspawn (record : List Byte) (addr : Word) (isLocal : Bool) (mark : Bool)
  /-- TSUCC, until earlier stores are performed (R348) -/
  | tsucc (addr : Word) (d : Nat) (mark : Bool)
  /-- page-fault service of an address (R236) -/
  | pageFault (va : Word)
  /-- an access held by PGX (R235) -/
  | pgx (va : Word)
  /-- the commit of the quantum's round, which applies the word (R266), or completes a QSYNC (R125) -/
  | commit
  | qsync (mark : Bool)
  deriving DecidableEq, Repr

/-- The trap frame of R354: return PC, execution mask, class-stack depth; and the latch whose members are suspended
while the handler runs (R106). -/
structure Frame where
  pc    : Addr
  mask  : Mask
  depth : Nat
  latch : Option Nat
  deriving DecidableEq, Repr

/-- An instruction stream: the warp's own, or a split's (R189). -/
structure Stream where
  pc      : Addr
  emask   : Mask
  k       : Table Word
  out     : List OutRes
  marked  : Bool            -- parked by a wait mark until `out` is empty (R99)
  wait    : Wait
  refused : Option Word     -- an address whose page's service was refused: an access to the page faults (R236)
  held    : Option (BitVec 32) -- while `wait` is a wait of a fetched word: that word
  frame   : Option Frame    -- it runs its trap handler (R354)
  skipBp  : Bool            -- it halted at a breakpoint: its next word executes without a check for one (R368)
  deriving DecidableEq, Repr

def Stream.init : Stream :=
  { pc := 0, emask := 0, k := [], out := [], marked := false, wait := .none, refused := none, held := none, frame := none,
    skipBp := false }

/-- A concurrent split (R189): number, position of its class in class order, stream, copy of Sd. -/
structure Split where
  num : Nat
  ord : Nat
  st  : Stream
  sd  : Word
  deriving DecidableEq, Repr

/-! ### A warp -/

/-- A snapshot of CKEY (R176, R177). -/
structure KeySnap where
  lanes : Mask
  keys  : Table Word
  mode  : BitVec 4
  deriving DecidableEq, Repr

/-- A class-stack entry (R176). `serial` holds the K registers as CLASS found them, where a concurrent loop runs its
classes one at a time (R189, R194). -/
structure ClassEntry where
  m      : Mask
  p      : Mask
  a      : Mask
  keys   : Table Word
  body   : Addr
  cn     : Addr
  sd     : Reg
  mode   : BitVec 4
  c      : Mask
  serial : Option (Table Word)
  deriving DecidableEq, Repr

/-- The split state of R190: K0–K7 as CLASS found them, the classes started, and the final copies of the class that is
last in class order among those ended. -/
structure ConcState where
  k0      : Table Word
  started : Nat
  lastOrd : Nat
  lastK   : Table Word
  lastSd  : Word
  deriving DecidableEq, Repr

/-- The trap registers, R353. -/
structure TrapRegs where
  tcause : Word
  tpc    : Word
  taddr  : Word
  tlanes : Word
  tinfo  : Word
  deriving DecidableEq, Repr

def TrapRegs.init : TrapRegs := { tcause := 0, tpc := 0, taddr := 0, tlanes := 0, tinfo := 0 }

/-- One lane's atomic (R261): where, the operand and the operand after it, and the lane. -/
structure AtLane where
  lane : Nat
  loc  : Loc
  b    : Word
  b1   : Word
  deriving DecidableEq, Repr

/-- The engine commands of R274. -/
inductive EngKind where
  | cpy | cpyg | cpyx | chain | mload | mma | mgrad | mstore | coll
  deriving DecidableEq, Repr

/-- A present row of a matrix command (R314, R316): its number, its lane, its 64-bit registers and TAG as the latch
fired, the bank it goes to, the MLOAD under way there at acceptance, and whether that MLOAD failed. -/
structure MatRow where
  row    : Nat
  warp   : Nat
  lane   : Nat
  regs   : List Word
  tag    : BitVec 16
  bank   : Option Nat
  load   : Option Nat
  failed : Bool
  deriving DecidableEq, Repr

/-- An engine command (R274): what it was issued with, the descriptors it took when it was accepted (R269), and how
far it has come. -/
structure EngOp where
  id     : Nat
  kind   : EngKind
  who    : Who
  scope  : Scope
  ctx    : Nat
  pc     : Addr
  word   : BitVec 32
  imm    : Nat                 -- the immediate or barrier register
  a      : Word
  b      : Word
  latch  : Option Nat          -- the latch to release when it is accepted
  group  : Option Nat          -- the set or block of the command (R309)
  src    : List Byte           -- tensor descriptors taken at acceptance
  dst    : List Byte
  idx    : List Byte
  aux    : List Byte           -- forward, chain or collective descriptor
  record : List Byte           -- the task record of a CPYX, the member table of a COLL
  consts : Table Word          -- the constants of a chain (R294)
  count  : Nat                 -- rows of the members of a matrix command (R314)
  rows   : List MatRow
  scales : List Nat            -- A's scale codes by row × 128 + k (R315)
  batch  : Nat
  share  : Nat × Nat           -- the bin-floor share it uses (R303): base and bytes
  pos    : Nat                 -- elements or rows done
  row    : List FVal           -- chain: the values of the row being quantised
  blocks : Nat                 -- chain: blocks started (R83)
  amaxs  : Table (BitVec 32)   -- chain: the amax of each amax step; MSTORE: under 0; CPYG: under 0 the row's index
  sums   : Table (BitVec 32)   -- chain: the sum of each sum step, and the values of its chunk in progress
  parts  : Table (List FVal)
  got    : Table (List FVal)   -- collective: contributions by rank (R406)
  fault  : Option EngFault
  pins   : List (Nat × Nat)    -- lines of the leases it names (R240)
  cancelled : Bool
  paused : Option Word         -- waiting for page-fault service of an address (R236)
  refused : Option Word
  pageCtx : Nat                -- the context of that address: another's in a forward to this module (R287)
  deriving DecidableEq, Repr

/-- An entry of a warp's commit buffer (R265, R266), with the PC and word that a fault at the commit names. -/
inductive BufEffect where
  | store (pol : BitVec 2) (lanes : List (Loc × Nat × Word))
  | atomic (op : AtOp) (pol : BitVec 2) (n : Nat) (lanes : List AtLane) (dst : Option Dst) (block : Bool)
  | barv (b : Nat)
  | binit (b : Nat) (v : Word)
  | tdef (t : Nat) (a : Word)
  | engine (op : EngOp)
  | cpyc (b : Nat)
  | mclose (d : Reg) (sc : Scope)
  | tspawn (record : List Byte) (addr : Word) (isLocal : Bool)
  | tsucc (addr : Word) (d : Nat)
  /-- a store or an atomic of set or block scope: its address and operands, checked as the commit applies it (R266);
  `scratch` for STS -/
  | lateStore (scratch : Bool) (pol : BitVec 2) (n : Nat) (addr v : Word)
  | lateAtomic (op : AtOp) (pol : BitVec 2) (n : Nat) (addr b b1 : Word) (dst : Option Dst)
  deriving DecidableEq, Repr

/-- `before` marks an access translated before the shootdown under way (R230). -/
structure BufEntry where
  who    : Who
  pc     : Addr
  word   : BitVec 32
  latch  : Option Nat
  before : Bool
  effect : BufEffect
  deriving DecidableEq, Repr

/-- A warp (R93, R94, R137). -/
structure Warp where
  present  : Bool           -- it has been started at dispatch
  live     : Mask           -- launched lanes that have not exited
  launched : Mask
  main     : Stream
  splits   : List Split     -- ascending number; nonempty while a concurrent body runs
  lastSplit : Nat
  conc     : Option ConcState
  pending  : Option KeySnap
  stack    : List ClassEntry -- top first
  window   : Nat            -- the b of WIN: the base is b × 16
  curSet   : Option Nat
  cpol     : BitVec 2
  budget   : BitVec 16
  gcount   : Nat
  fflags   : BitVec 5
  s        : Table Word
  v        : Table Word     -- by register × 32 + lane
  tag      : Table (BitVec 16)
  seed     : Word
  ctr      : Table Word
  seen     : BitVec 16
  trap     : TrapRegs
  rcnt     : Word
  stop     : Nat            -- DBGCTL.STOP (R366): 0 running, else halted
  step     : Option Nat     -- the split that a step runs (R368)
  suspended : Bool          -- while a set member's handler runs (R106)
  qcount   : Nat            -- words counted in the quantum (R265)
  qended   : Bool
  buf      : List BufEntry
  deriving DecidableEq, Repr

def Warp.init : Warp :=
  { present := false, live := 0, launched := 0, main := .init, splits := [], lastSplit := 0, conc := none,
    pending := none, stack := [], window := 0, curSet := none, cpol := 1, budget := 0, gcount := 0, fflags := 0,
    s := [], v := [], tag := [], seed := 0, ctr := [], seen := 0, trap := .init, rcnt := 0, stop := 0, step := none,
    suspended := false, qcount := 0, qended := false, buf := [] }

/-! ### A workgroup -/

/-- The fields of a code header (R41). -/
structure Header where
  warps    : Nat
  lanes    : Nat
  regs     : Nat          -- lane registers allotted, a multiple of 16
  split    : Nat
  det      : Bool
  scratch  : Nat
  priv     : Nat          -- private bytes per lane
  governor : BitVec 16
  rights   : BitVec 32
  sets     : List (BitVec 32)
  trap     : BitVec 32    -- signed offset of the handler; 0 for none
  estimate : BitVec 32
  deriving DecidableEq, Repr

def Header.init : Header :=
  { warps := 0, lanes := 0, regs := 0, split := 0, det := false, scratch := 0, priv := 0, governor := 0, rights := 0,
    sets := [], trap := 0, estimate := 0 }

/-- An entry of a working-set declaration (R339). -/
structure WsEntry where
  source : Nat
  low    : Bool
  lease  : Bool
  length : Nat
  dest   : Nat
  deriving DecidableEq, Repr

/-- A barrier register (R276), with the records of the phase in progress and of the completed phase (R282). -/
structure Barrier where
  exp    : BitVec 16
  cnt    : BitVec 16
  phase  : Bool
  init   : Bool
  pend   : Nat
  prec   : Option EngRec
  pmore  : Bool
  crec   : Option EngRec
  more   : Bool
  taken  : Bool           -- a BWAIT has taken `crec`
  deriving DecidableEq, Repr

def Barrier.reset : Barrier :=
  { exp := 0, cnt := 0, phase := false, init := false, pend := 0, prec := none, pmore := false, crec := none,
    more := false, taken := false }

/-- A rendezvous latch (R105): the address, the word's instruction, whether its effect goes into the commit buffer in
deterministic mode (R266), the members parked; whether it is firing, what its word waits for, and whether its members are
suspended. -/
structure Latch where
  addr    : Addr
  instr   : Instr
  eager   : Bool
  parked  : Mask
  firing  : Bool
  wait    : Wait
  suspended : Bool
  deriving DecidableEq, Repr

/-- A matrix batch (R312): number, closed, the commands not yet complete, its records, its missed rows by warp × 32 +
lane, complete; `marked` once MISS stands in their TAGs, and `stood` the rows in whose TAGs it stood already then (R136). -/
structure Batch where
  num     : Nat
  closed  : Bool
  running : Nat
  recs    : List EngRec
  missed  : List Nat
  done    : Bool
  marked  : Bool
  stood   : List Nat := []
  deriving DecidableEq, Repr

/-- Where a workgroup stands (R337, R338, R343, R345). -/
inductive WgPhase where
  /-- in a shadow slot, being staged -/
  | staging
  /-- in a shadow slot, staged -/
  | staged
  | running
  /-- its last warp has exited; its commands may still run (R115) -/
  | ended
  /-- aborting (R356): as `ended`, and its successor is not decremented -/
  | aborted
  deriving DecidableEq, Repr

/-- How a running workgroup is being taken off its core (R345): the option, and the context of the request. -/
inductive PreOpt where
  | drain | save | flush
  deriving DecidableEq, Repr

/-- A scoreboard entry (R209). -/
structure SbEntry where
  op    : Nat            -- the command's number
  slot  : Nat
  floor : Bool           -- bin floor; else the workgroup's scratchpad
  list  : Bool           -- an index list (R286)
  write : Bool
  lo    : Nat
  hi    : Nat
  deriving DecidableEq, Repr

/-- Where a resident workgroup's tasks come from and what it holds (R93). -/
structure Wg where
  phase    : WgPhase
  ctx      : Nat
  record   : List Byte
  addr     : Word          -- the record's address, 0 for a host post (R333)
  tseq     : Word
  entry    : Addr
  hdr      : Header
  sys      : Bool          -- privileged (R64)
  check    : Bool          -- checked mode (R101)
  det      : Bool          -- deterministic (R264)
  qlog     : Nat
  shadow   : Nat           -- its shadow slot, 0 or 1, while it is in one (R337)
  farea    : Word          -- FAREA as it stood at placement (R359)
  ws       : List WsEntry  -- working-set entries (R339)
  warps    : Table Warp
  scratch  : Memory
  saveNo   : Nat           -- which list of save frames it uses: SAVEA as it stood at placement (R359; log entry 57)
  priv     : Table Nat     -- where each warp's private region begins in device memory (R241)
  tensors  : Table (List Byte)
  tensorAt : Table Word    -- the address that each tensor slot was loaded from (R273)
  bars     : Table Barrier
  arrivals : List (Nat × Option EngRec) -- deterministic mode: engine arrivals of the round (R265)
  entering : Bool          -- the commit under way lets fired latches put their words into the commit buffers (R266)
  firing   : Bool          -- steps 1–3 of the commit under way are done, and latches fire (R266)
  latches  : Table (Option Latch)
  batches  : List Batch    -- ascending number, those not yet awaited
  lateMiss : List Nat      -- rows of batches that completed and were awaited in this cycle: MISS at its end (R136)
  closedTo : Nat           -- highest closed batch number
  awaited  : Nat
  leases   : Table (List (Nat × Nat)) -- handle to physical line ranges [first, end) in lines (R238)
  spawned  : Nat
  started  : Bool          -- an instruction of it has issued (R342)
  began    : Nat           -- cycle of dispatch
  earlier  : Nat           -- cycles run before the last save
  staged   : Nat           -- bytes staged of the entry being staged (R341)
  stageEnt : Nat
  stageFault : Option EngFault
  stagePaused : Option Word
  preempt  : Option PreOpt
  withdrawn : List EngOp   -- commands withdrawn by a save (R360)
  accRows  : List Nat      -- accumulator rows written since the last TAKE (R302)
  accSaved : Table (List (BitVec 32)) -- rows kept by a save, until the baton is granted (R302)
  batonWait : Bool         -- no warp issues until the baton is granted again (R310)
  touched  : List Nat      -- lines of software-managed, core-private and private memory the task stored to (R242, R343)
  deriving DecidableEq, Repr

def Wg.init : Wg :=
  { phase := .staging, ctx := 0, record := [], addr := 0, tseq := 0, entry := 0, hdr := .init, sys := false, check := false,
    det := false, qlog := 12, shadow := 0, farea := 0, ws := [], warps := [], scratch := [], saveNo := 0, priv := [], tensors := [],
    tensorAt := [],
    bars := [], arrivals := [], entering := false, firing := false, latches := [], batches := [], lateMiss := [], closedTo := 0, awaited := 0, leases := [],
    spawned := 0, started := false, began := 0,
    earlier := 0, staged := 0, stageEnt := 0, stageFault := none, stagePaused := none, preempt := none,
    withdrawn := [], accRows := [], accSaved := [], batonWait := false, touched := [] }

/-! ### A core -/

/-- A first-level line (R204, R205, R232): its physical line number and the context whose aperture it lies in, priority,
recency, the cycle its read lease ends, and for a page that writes back its data, the bytes that stores wrote, and its sectors
whose check did not match as they were filled (R408). -/
structure L1Line where
  line  : Nat
  ctx   : Nat
  prio  : BitVec 2
  used  : Nat
  lease : Option Nat
  data  : Option (List Byte)
  dirty : BitVec 128
  bad   : BitVec 4 := 0
  deriving DecidableEq, Repr

/-- A translation held in a TLB (R228): context, level of the leaf, page number at that level, the entry. -/
structure TlbEnt where
  ctx   : Nat
  level : Nat
  page  : Nat
  pte   : Word
  deriving DecidableEq, Repr

/-- States of a bank, R305. -/
inductive BankState where
  | empty | loading | resident | pinned | grad
  deriving DecidableEq, Repr

/-- A bank residency entry (R305), and the physical page ranges of its source (R308). -/
structure Bank where
  ctx   : Nat
  stale : Bool
  held  : Bool
  wcls  : BitVec 2
  state : BankState
  key   : BitVec 12
  src   : List (Nat × Nat)   -- virtual byte ranges of a device or lease source
  load  : Nat                -- number of the latest accepted MLOAD
  deriving DecidableEq, Repr

def Bank.reset : Bank :=
  { ctx := 0, stale := false, held := false, wcls := 3, state := .empty, key := 0xFFF, src := [], load := 0 }

/-- A group that can hold the baton (R309): workgroup slot and g. -/
structure Group where
  slot : Nat
  g    : Nat
  deriving DecidableEq, Repr

/-- A pond or local-queue entry (R334): level, cycle at which it became the oldest of its level, context, record and
TSEQ; or a saved workgroup, by its number. -/
structure PondEnt where
  level  : Nat
  oldest : Option Nat
  aged   : Bool
  ctx    : Nat
  record : List Byte
  addr   : Word            -- the record's address, 0 for a host post (R333)
  tseq   : Word
  saved  : Option Nat
  checked : Option (Header × List WsEntry) -- what the check before placement read (R335)
  deriving DecidableEq, Repr

/-- A core (R10). -/
structure Core where
  split   : Nat
  ring    : Table Nat          -- by partition: ring position after the warp that issued last (R95)
  wgs     : Table (Option Wg)
  shadow  : List Nat           -- workgroup slots of shadow-slot tasks, in order of entry (R337)
  l1      : List L1Line
  tlb     : List TlbEnt
  ops     : List EngOp         -- accepted commands, in order of acceptance
  waiting : List EngOp         -- commands that wait for acceptance (R274)
  sb      : List SbEntry
  acc     : Table (List (BitVec 32)) -- accumulator rows
  accOld  : List (Nat × Table (List (BitVec 32))) -- the rows as commands below a number still see them (R302, R306)
  weights : Table (List FVal)  -- rows of weights, by bank × 128 + k
  banks   : Table Bank
  floor   : Memory             -- bin floor units 0–91
  grad    : Table (List (BitVec 32)) -- gradient rows, by bank × 128 + k
  baton   : Option Group
  batonCtx : Option Nat
  waiters : List Group
  localQ  : List PondEnt
  demotes : List (Nat × Nat × Nat)  -- CDEMOTE walks: context, start, end
  bankReq : Nat                -- cycles that the oldest engine bank request has waited (R202)
  halting : Bool
  halted  : Bool               -- CHALTED (R367)
  attach  : Bool
  deriving DecidableEq, Repr

def Core.init : Core :=
  { split := 0, ring := [], wgs := [], shadow := [], l1 := [], tlb := [], ops := [], waiting := [], sb := [], acc := [],
    accOld := [], weights := [], banks := [], floor := [], grad := [], baton := none, batonCtx := none, waiters := [], localQ := [],
    demotes := [], bankReq := 0, halting := false, halted := false, attach := false }

/-! ### A context -/

/-- A pre-emption request (R359). -/
structure PreReq where
  busy : Bool
  opt  : Nat
  val  : Word
  /-- the workgroup slot of its target as it was made -/
  slot : Nat
  /-- waiting for the host's choice (R388) -/
  ask  : Bool
  deriving DecidableEq, Repr

/-- A context's controls and windows (R303, R359, R381, R397–R399). -/
structure Ctx where
  ctl      : Word
  ptroot   : Word
  root     : Word            -- the PTROOT that walks use: a write takes effect after a shootdown of every page (R359, log entry 15)
  farea    : Word
  savea    : Word
  saveNo   : Nat             -- writes of SAVEA so far
  saveOld  : Table Word      -- the heads of the lists that those writes replaced, by number (R359; log entry 57)
  pre      : PreReq
  evq      : Word
  hostbase : Word
  xlate    : Word
  shareBase : Nat
  shareSize : Nat
  intake   : List (List Byte)
  posts    : Word            -- intake count (R331)
  evw      : Word
  evr      : Word
  evlost   : Word
  deriving DecidableEq, Repr

def Ctx.init : Ctx :=
  { ctl := 0xC00, ptroot := 0, root := 0, farea := 0, savea := 0, saveNo := 0, saveOld := [],
    pre := { busy := false, opt := 0, val := 0, slot := 0, ask := false },
    evq := 0, hostbase := 0, xlate := 0, shareBase := 0, shareSize := 0, intake := [], posts := 0, evw := 0, evr := 0,
    evlost := 0 }

/-! ### The module -/

/-- A store, atomic or write-back issued and not yet performed at the memory scope of its location (R252): its stream,
the bytes as they stood before it, whether it is performed at device memory scope (a link's, R399), and whether it is a
first-level write-back. -/
structure Pend where
  who   : Who
  ctx   : Nat
  pa    : Nat
  old   : List Byte
  atDev : Bool
  wb    : Bool
  deriving DecidableEq, Repr

/-- A word held by the instruction cache of a die (R69). -/
structure IcWord where
  die : Nat
  ctx : Nat
  va  : Nat
  pa  : Nat
  val : BitVec 32
  deriving DecidableEq, Repr

/-- An L2 line of a die's table (R206): priority and recency. -/
structure L2Line where
  prio : BitVec 2
  used : Nat
  deriving DecidableEq, Repr

/-- A page-fault service under way (R236): context, page address, whether the host has been asked, whether the pond waits for it,
and whether the host has resolved it and the shootdown is still to be made (R230). -/
structure PfReq where
  ctx  : Nat
  va   : Nat
  host : Bool
  pond : Bool
  answered : Bool := false
  deriving DecidableEq, Repr

/-- A PGX under way (R235). -/
structure PgxOp where
  who   : Who
  ctx   : Nat
  va    : Nat
  level : Nat
  pteAt : Nat
  state : BitVec 2
  owner : BitVec 8
  deriving DecidableEq, Repr

/-- A shootdown under way (R230): context, virtual range, and how many of the writes under way, from the oldest on, were
translated before it. -/
structure ShootOp where
  ctx  : Nat
  lo   : Nat
  hi   : Nat
  all  : Bool
  pend : Nat
  deriving DecidableEq, Repr

/-- A microcode entry that a patch filled (R389). -/
structure MicroEnt where
  svn    : Nat
  fmt    : Nat
  scopes : BitVec 4
  fixed  : BitVec 3
  bytes  : List Byte    -- the whole patch
  deriving DecidableEq, Repr

/-- A saved workgroup (R360, R361): its frame, the number of its save, and its state. -/
structure SavedWg where
  id    : Nat
  frame : Nat
  wg    : Wg
  die   : Nat
  baton : Option Nat
  waits : List Nat
  deriving DecidableEq, Repr

/-- An enqueue that waits for pond room (R334): the die that rule 3 of R334 gives, none for a host post; `ent.record`
is empty where the record at `ent.addr` is still to be read (R330). -/
structure Deferred where
  die : Option Nat
  ent : PondEnt
  deriving DecidableEq, Repr

/-- A placed task that a refusal names (R333): its core, slot and fault area. -/
structure Origin where
  core  : Nat
  slot  : Nat
  farea : Word
  deriving DecidableEq, Repr

/-- A completed task whose resources are freed and whose successor block is still to be decremented (R343). -/
structure Final where
  ctx    : Nat
  record : List Byte
  at_    : Origin
  tseq   : Word
  entry  : Addr
  deriving DecidableEq, Repr

/-- A steal request under way (R336): the time that the die's steal clock stamped on it, and its place among its victims. -/
structure StealReq where
  stamp : Nat
  tried : Nat
  deriving DecidableEq, Repr

/-- A translation under way (R381): its context, where its request lies, and the request once it has been read. -/
structure XlateOp where
  ctx  : Nat
  addr : Nat
  req  : Option (List Byte)
  deriving DecidableEq, Repr

/-- A patch or MCLOAD verification (R390): BUSY, RES and ADDR of one route, and the context that event 7 goes to. -/
structure McRoute where
  busy : Bool
  res  : Nat
  addr : Nat
  ctx  : Nat
  deriving DecidableEq, Repr

/-- What leaves for a peer (R287, R403, R406): a flit's message, the bytes that another chip's read or atomic asked for, or
this member's contribution to a collective. -/
inductive OutMsg where
  | peer (m : PeerMsg)
  | answer (data : List Byte)
  | coll (tag digest : BitVec 32) (rank : Nat) (vals : List FVal)
  deriving DecidableEq, Repr

/-- What executes next, for the model's step (log entry 4): a row of the table as an event; an issue chance of a partition; a
cycle of the main clock; some elements of an accepted engine command; bytes that the host or a peer writes to its own
memory; a corrupted sector; a host read of BAR 0. -/
inductive Turn where
  | event (i : Instr)
  | issue (core part : Nat)
  | tick
  | progress (core n count : Nat)
  | hostMem (addr : Nat) (data : List Byte)
  | peerMem (addr : Nat) (data : List Byte)
  | corrupt (addr : Nat) (crc : BitVec 16)
  | corruptCore (core : Nat) (slot : Option Nat) (sector : Nat) (crc : BitVec 16)
  | barRead (off : Nat)
  deriving DecidableEq, Repr

/-- How the word at hand executes (R104, R369): issued by its stream, the single execution of a latch, or injected by
the debugger under a mask. -/
inductive Mode where
  | issue | fire | inject (mask : Mask)
  deriving DecidableEq, Repr

/-- The stream that an instruction acts for, and how. -/
structure Cursor where
  who  : Who
  mode : Mode
  deriving DecidableEq, Repr

/-- The module (R8). -/
structure State where
  cur      : Cursor
  turns    : List Turn
  free     : Nat
  inject   : Option (Who × BitVec 32 × Mask)
  injectNo : Option Word            -- a page whose service was refused to the injected word (R236, R369)
  cycle    : Nat
  cores    : Table Core
  ctxs     : Table Ctx
  mem      : DevMemory
  hostMem  : Memory
  peerMem  : Memory
  checks   : Table (BitVec 16)      -- stored checks of device sectors that were corrupted (R408)
  coreChecks : List ((Nat × Option Nat × Nat) × BitVec 16) -- the same for scratchpad (slot) and bin floor (none)
  icache   : List IcWord
  tlb2     : Table (List TlbEnt)
  l2       : Table L2Line
  pend     : List Pend
  ponds    : Table (List PondEnt)
  deferred : List Deferred
  nextId   : Nat                    -- numbers engine commands and saves
  saved    : List SavedWg
  finals   : List Final
  stealClock : Table Nat            -- the steal clock of each die (R336)
  steals   : Table StealReq         -- steal requests by core
  pf       : List PfReq
  pfNo     : List (Nat × Nat)       -- pages, by context, whose service was refused to the pond (R236)
  pgx      : List PgxOp
  shoot    : Word                   -- SHOOT without BUSY (R230)
  shootOp  : Option ShootOp
  pgpool   : Word
  bfloorCtx : Nat                   -- BFLOOR.CTX (R303)
  bfloorOps : List (Word × Option Nat) -- share writes in progress, in order, with the number that its SYSW waits for
  dsplit   : BitVec 7
  mcload   : McRoute
  patch    : McRoute
  micro    : Table MicroEnt
  secver   : Nat
  eltb     : Word
  chip     : Word
  ctxsel   : Nat                    -- of system tasks
  ctxselW  : Nat                    -- of the management window
  dbgsel   : Word
  dbgselW  : Word
  dbgreg   : Word
  dbgdata  : Word
  dbgErr   : Bool
  dbgCause : BitVec 8
  dbgBusy  : Bool
  bps      : Table (Word × Nat)     -- DBGBP0–3 and the core armed (R366)
  xlateOps : List XlateOp           -- translations under way
  cap      : Nat
  nonce    : List Byte
  report   : List Byte
  attBusy  : Bool
  routes   : Table Word
  links    : Table Nat              -- lanes of each host link, 0 when down (R396)
  clock    : Nat                    -- clocks lowered by this many steps (R402)
  booted   : Bool                   -- the firmware image was accepted (R409)
  left     : List Nat               -- chips that left the domain (R406)
  outbox   : List (Nat × OutMsg)   -- messages sent to peers, by chip
  msix     : List (BitVec 8)        -- message-signalled interrupts sent to the host (R398)
  hostRead : Option (List Byte)     -- what the last host read returned
  deriving DecidableEq, Repr

/-- The machine never stops with a fault of its own: every trap of the spec is a next state. The one constructor stands
for a state that no rule reaches and is raised by no definition. -/
inductive Fault where
  /-- Raised by nothing; safe. -/
  | unreachable
  deriving DecidableEq, Repr

/-- Why an instruction has no meaning. -/
inductive Refusal where
  /-- An instruction whose arm of `exec` has no meaning yet; raised only by such an arm; safe. -/
  | notModelled (mnemonic : String)
  deriving DecidableEq, Repr

/-- The module right after reset (R300, R305, R409 and the Reset columns; log entries 1 and 2). -/
def State.reset : State :=
  { cur := { who := { core := 0, slot := 0, warp := 0, split := none }, mode := .issue }, turns := [], free := 0,
    inject := none, injectNo := none, cycle := 0, cores := [], ctxs := [], mem := [], hostMem := [], peerMem := [], checks := [],
    coreChecks := [], icache := [], tlb2 := [], l2 := [], pend := [], ponds := [], deferred := [], nextId := 1,
    saved := [], finals := [], stealClock := [], steals := [], pf := [], pfNo := [], pgx := [], shoot := 0, shootOp := none, pgpool := 0, bfloorCtx := 0,
    bfloorOps := [], dsplit := 0, mcload := { busy := false, res := 0, addr := 0, ctx := 0 },
    patch := { busy := false, res := 0, addr := 0, ctx := 0 }, micro := [], secver := 0, eltb := 0, chip := 0, ctxsel := 0,
    ctxselW := 0, dbgsel := 0, dbgselW := 0, dbgreg := 0, dbgdata := 0, dbgErr := false, dbgCause := 0,
    dbgBusy := false, bps := [], xlateOps := [], cap := 2600, nonce := List.replicate 48 0, report := List.replicate 256 0, attBusy := false,
    routes := [], links := [(0, 16), (1, 16)], clock := 0, booted := true, left := [], outbox := [], msix := [],
    hostRead := none }

end Sys2Proof.Machine
end

