-- ==== Sys2Proof/Machine/Maps.lean ====
section
/-! DEFINITION. Tables by number, and memories in their canonical form (log entry 2). -/

namespace Sys2Proof.Machine

/-! ### Tables -/

def tget? {α : Type} : Table α → Nat → Option α
  | [], _ => none
  | (k', v) :: t, k => if k' = k then some v else tget? t k

/-- The entry of a table, with what an absent entry stands for. -/
def tgetD {α : Type} (d : α) (t : Table α) (k : Nat) : α := (tget? t k).getD d

def tput {α : Type} : Table α → Nat → α → Table α
  | [], k, v => [(k, v)]
  | (k', v') :: t, k, v =>
    if k' = k then (k, v) :: t else if k < k' then (k, v) :: (k', v') :: t else (k', v') :: tput t k v

def tdel {α : Type} (t : Table α) (k : Nat) : Table α := t.filter fun e => e.1 != k

/-- Change one entry. -/
def tupd {α : Type} (d : α) (t : Table α) (k : Nat) (f : α → α) : Table α := tput t k (f (tgetD d t k))

/-- Change every entry. -/
def tmap {α : Type} (f : α → α) (t : Table α) : Table α := t.map fun e => (e.1, f e.2)

/-! ### Memories -/

/-- One byte of a memory whose unlisted addresses read as d says. -/
def readIn (d : Nat → Byte) (m : Table Byte) (a : Nat) : Byte := tgetD (d a) m a

/-- Write one byte; the byte that the unlisted address reads as removes the entry. -/
def writeIn (d : Nat → Byte) (m : Table Byte) (a : Nat) (b : Byte) : Table Byte := if b = d a then tdel m a else tput m a b

/-- n bytes from an address up. -/
def readBytesIn (d : Nat → Byte) (m : Table Byte) (a : Nat) : Nat → List Byte
  | 0 => []
  | n + 1 => readIn d m a :: readBytesIn d m (a + 1) n

/-- Write bytes from an address up. -/
def writeBytesIn (d : Nat → Byte) (m : Table Byte) (a : Nat) : List Byte → Table Byte
  | [] => m
  | b :: bs => writeBytesIn d (writeIn d m a b) (a + 1) bs

/-- The keys rise strictly. -/
def rising {α : Type} : Table α → Bool
  | [] => true
  | [_] => true
  | (k, _) :: (k', v') :: t => decide (k < k') && rising ((k', v') :: t)

/-- The canonical form: addresses strictly rising, no entry equal to what an unlisted address reads as. -/
def formIn (d : Nat → Byte) (m : Table Byte) : Bool := rising m && m.all fun e => e.2 != d e.1

/-- What a byte that no entry lists reads as (log entry 2). -/
def unlisted : Byte := 0

def Memory.rd (m : Memory) (a : Nat) : Byte := readIn (fun _ => unlisted) m a
def Memory.wr (m : Memory) (a : Nat) (b : Byte) : Memory := writeIn (fun _ => unlisted) m a b
def Memory.rdN (m : Memory) (a n : Nat) : List Byte := readBytesIn (fun _ => unlisted) m a n
def Memory.wrN (m : Memory) (a : Nat) (bs : List Byte) : Memory := writeBytesIn (fun _ => unlisted) m a bs
def Memory.wf (m : Memory) : Bool := formIn (fun _ => unlisted) m

/-- The bytes of the expert location table at reset: 2^10 slots from ELTB's reset value 0 up (R399, R407). -/
def bootTable : Nat := 8192

/-- What a byte of device memory that no entry lists reads as: at reset each slot of the expert location table is empty, its
EXPERT 0xFFFF and its other fields 0 (R407), and every other byte is 0 (log entry 2). -/
def bootByte (a : Nat) : Byte := if a < bootTable ∧ a % 8 < 2 then 0xFF else unlisted

def DevMemory.rd (m : DevMemory) (a : Nat) : Byte := readIn bootByte m a
def DevMemory.wr (m : DevMemory) (a : Nat) (b : Byte) : DevMemory := writeIn bootByte m a b
def DevMemory.rdN (m : DevMemory) (a n : Nat) : List Byte := readBytesIn bootByte m a n
def DevMemory.wrN (m : DevMemory) (a : Nat) (bs : List Byte) : DevMemory := writeBytesIn bootByte m a bs
def DevMemory.wf (m : DevMemory) : Bool := formIn bootByte m

/-- Set n bytes of device memory to zero. -/
def DevMemory.zero (m : DevMemory) (a n : Nat) : DevMemory :=
  ((List.range (min (a + n) bootTable - a)).map (a + ·)).foldl (fun m x => m.wr x 0)
    (m.filter fun e => !(decide (a ≤ e.1) && decide (e.1 < a + n)))

end Sys2Proof.Machine
end

