-- ==== Sys2Proof/Machine/Bits.lean ====
section
/-! DEFINITION. Byte order (R1), sub-elements (R70), lane masks, and the checks computed over bytes (R373, R408). -/

namespace Sys2Proof.Machine

/-- The value of bytes, the first lowest (R1). -/
def natOfBytes : List Byte → Nat
  | [] => 0
  | b :: bs => b.toNat + 256 * natOfBytes bs

/-- n bytes of a value, the lowest first (R1). -/
def bytesOfNat : Nat → Nat → List Byte
  | 0, _ => []
  | n + 1, v => BitVec.ofNat 8 v :: bytesOfNat n (v / 256)

def wordOfBytes64 (bs : List Byte) : Word := BitVec.ofNat 64 (natOfBytes bs)

/-- Bits h..l of a word. -/
def bits (x : Word) (h l : Nat) : Nat := (x.toNat >>> l) % 2 ^ (h + 1 - l)

/-- Signed value of the low w bits of v. -/
def signedOf (w : Nat) (v : Nat) : Int := if v % 2 ^ w < 2 ^ (w - 1) then (v % 2 ^ w : Nat) else (v % 2 ^ w : Nat) - (2 ^ w : Nat)

/-- The w-bit two's-complement pattern of an integer. -/
def patternOf (w : Nat) (i : Int) : Nat := (i % (2 ^ w : Nat)).toNat

/-- sat of R7. -/
def sat (v lo hi : Int) : Int := if v < lo then lo else if v > hi then hi else v

/-- Sub-element j of width w of a value (R70, R141). -/
def subEl (w : Nat) (x : Nat) (j : Nat) : Nat := (x >>> (w * j)) % 2 ^ w

/-- A value built of n sub-elements of width w, from j = 0 up. -/
def packEls (w : Nat) (f : Nat → Nat) : Nat → Nat
  | 0 => 0
  | n + 1 => packEls w f n + (f n % 2 ^ w) * 2 ^ (w * n)

/-- Bits of a width suffix (R57). -/
def widthBits : Width → Nat
  | .w64 => 64 | .w32 => 32 | .w16 => 16 | .w8 => 8

/-- One operation on each sub-element pair (R142). -/
def perEl (w : Nat) (op : Nat → Nat → Nat) (a b : Word) : Word :=
  BitVec.ofNat 64 (packEls w (fun j => op (subEl w a.toNat j) (subEl w b.toNat j)) (64 / w))

/-- Lanes of a mask, ascending. -/
def lanesOf (m : Mask) : List Nat := (List.range 32).filter fun l => m.getLsbD l

/-- The lowest lane of a mask; 0 for an empty one. -/
def lowestLane (m : Mask) : Nat := (lanesOf m).head?.getD 0

/-- The mask of one lane. -/
def laneBit (l : Nat) : Mask := BitVec.ofNat 32 (2 ^ l)

/-- The mask of a list of lanes. -/
def maskOf (ls : List Nat) : Mask := ls.foldl (fun m l => m ||| laneBit l) 0

/-- Lanes 0 to n − 1. -/
def lowMask (n : Nat) : Mask := BitVec.ofNat 32 (2 ^ n - 1)

/-- Number of one bits among the low n of v. -/
def popc (v : Nat) : Nat → Nat
  | 0 => 0
  | n + 1 => popc v n + (if v.testBit n then 1 else 0)

/-- An address widened to a word. -/
def addrWord (a : Addr) : Word := a.setWidth 64

/-- An address from a number, modulo 2^56. -/
def addrOf (n : Nat) : Addr := BitVec.ofNat 56 n

/-- One bit through a CRC register of w bits, high bit first. -/
def crcBit (w poly : Nat) (r : Nat) (bit : Bool) : Nat :=
  let top := r.testBit (w - 1) != bit
  let r' := (r * 2) % 2 ^ w
  if top then r' ^^^ poly else r'

/-- CRC-16 of R408: polynomial 0x8BB7, initial value 0, no reflection, no inversion. -/
def crc16 (bs : List Byte) : BitVec 16 :=
  BitVec.ofNat 16 (bs.foldl (fun r b => (List.range 8).foldl (fun r i => crcBit 16 0x8BB7 r (b.getLsbD (7 - i))) r) 0)

/-- CRC-32 of IEEE 802.3 (R373, R406): reflected, initial value and final inversion all ones. -/
def crc32 (bs : List Byte) : BitVec 32 :=
  let step (r : Nat) (b : Byte) : Nat :=
    (List.range 8).foldl (fun r _ => if r % 2 = 1 then (r / 2) ^^^ 0xEDB88320 else r / 2) (r ^^^ b.toNat)
  BitVec.ofNat 32 ((bs.foldl step 0xFFFFFFFF) ^^^ 0xFFFFFFFF)

/-- Little-endian field of a record: bytes lo to hi inclusive (R1). -/
def field (bs : List Byte) (lo hi : Nat) : Nat := natOfBytes ((bs.drop lo).take (hi + 1 - lo))

end Sys2Proof.Machine
end

