-- ==== Sys2Proof/Machine/Fp.lean ====
section
/-! DEFINITION. Number formats and exact arithmetic (R70–R92): decoding, the one rounding, conversions, the accumulation
rule, stochastic rounding and random draws. A result comes with the conditions of R82 as FFLAGS bits (R122). -/

namespace Sys2Proof.Machine

/-! ### Conditions (R82, R122) -/

abbrev Flags := BitVec 5
def flNone : Flags := 0
def flNV : Flags := 1
def flDZ : Flags := 2
def flOF : Flags := 4
def flUF : Flags := 8
def flNX : Flags := 16

/-! ### Formats (R71, R73) -/

/-- A floating-point format: mantissa bits, bias, exponent bits, and whether it has an infinity (R71, R72). -/
structure Fmt where
  man  : Nat
  bias : Nat
  ebits : Nat
  hasInf : Bool
  deriving DecidableEq, Repr

def fmtF32 : Fmt := { man := 23, bias := 127, ebits := 8, hasInf := true }
def fmtBF16 : Fmt := { man := 7, bias := 127, ebits := 8, hasInf := true }
def fmtF16 : Fmt := { man := 10, bias := 15, ebits := 5, hasInf := true }
def fmtE4M3 : Fmt := { man := 3, bias := 7, ebits := 4, hasInf := false }
def fmtE5M2 : Fmt := { man := 2, bias := 15, ebits := 5, hasInf := true }

/-- Width in bits. -/
def fmtWidth (f : Fmt) : Nat := 1 + f.ebits + f.man
/-- Sign bit of a pattern as a number. -/
def signBit (f : Fmt) (neg : Bool) : Nat := if neg then 2 ^ (f.ebits + f.man) else 0
/-- The canonical NaN (R73, R74). -/
def canonNaN (f : Fmt) : Nat :=
  if f.hasInf then (2 ^ f.ebits - 1) * 2 ^ f.man + 2 ^ (f.man - 1) else 2 ^ (f.ebits + f.man) - 1
/-- The largest finite pattern, sign clear (R73). -/
def maxFinite (f : Fmt) : Nat :=
  if f.hasInf then (2 ^ f.ebits - 1) * 2 ^ f.man - 1 else 2 ^ (f.ebits + f.man) - 2
/-- Infinity, sign clear (R73). -/
def infPattern (f : Fmt) : Nat := (2 ^ f.ebits - 1) * 2 ^ f.man

/-- The value of a pattern (R72, R74). -/
def fpDecode (f : Fmt) (x : Nat) : FVal :=
  let s := x.testBit (f.ebits + f.man)
  let e := (x >>> f.man) % 2 ^ f.ebits
  let m := x % 2 ^ f.man
  if e = 2 ^ f.ebits - 1 ∧ f.hasInf then
    if m = 0 then .inf s else .nan (!m.testBit (f.man - 1))
  else if e = 2 ^ f.ebits - 1 ∧ m = 2 ^ f.man - 1 then .nan false
  else if e = 0 then .fin s m (1 - f.bias - f.man : Int)
  else .fin s (2 ^ f.man + m) (e - f.bias - f.man : Int)

/-! ### The rounding (R79) -/

/-- ⌊log₂ (m × 2^e)⌋ of a nonzero magnitude. -/
def expOf (m : Nat) (e : Int) : Int := (Nat.log2 m : Int) + e

/-- m × 2^e, and a little more when `sticky`, rounded to a multiple of 2^q, ties to even: the multiple and whether it
is inexact. With `sticky`, q > e. -/
def roundTo (m : Nat) (e : Int) (sticky : Bool) (q : Int) : Nat × Bool :=
  if q ≤ e then (m * 2 ^ (e - q).toNat, sticky)
  else
    let k := (q - e).toNat
    let t := m / 2 ^ k
    let r := m % 2 ^ k
    let half := 2 ^ (k - 1)
    let up := decide (r > half) || (r == half && (sticky || t % 2 == 1))
    (if up then t + 1 else t, decide (r ≠ 0) || sticky)

/-- The pattern of kept × 2^q, kept ≤ 2^(man+1), where q is the spacing of step 2 of R79; none when it exceeds the
largest finite value (step 5). -/
def packMag (f : Fmt) (kept : Nat) (q : Int) : Option Nat :=
  let kept' := if kept = 2 ^ (f.man + 1) then 2 ^ f.man else kept
  let q' := if kept = 2 ^ (f.man + 1) then q + 1 else q
  if kept' < 2 ^ f.man then some kept'
  else
    let ef := (q' + f.man + f.bias).toNat
    let p := ef * 2 ^ f.man + (kept' - 2 ^ f.man)
    if p > maxFinite f then none else some p

/-- round_ne of (−1)^neg × (m × 2^e, a little more when `sticky`), m nonzero (R79), with its conditions (R82); `satur`
is the saturate option of R80. -/
def roundNe (f : Fmt) (satur neg : Bool) (m : Nat) (e : Int) (sticky : Bool) : Nat × Flags :=
  let ex := expOf m e
  let lo : Int := 1 - f.bias
  let q := (if ex < lo then lo else ex) - f.man
  let (kept, inexact) := roundTo m e sticky q
  match packMag f kept q with
  | some p =>
    (signBit f neg + p,
      (if inexact then flNX else flNone) ||| (if inexact && decide (ex < lo) then flUF else flNone))
  | none =>
    (signBit f neg + (if f.hasInf && !satur then infPattern f else maxFinite f), flOF ||| flNX)

/-- The zero of a sign. -/
def zeroPattern (f : Fmt) (neg : Bool) : Nat := signBit f neg

/-- round_ne of an exact value; a zero keeps its sign (R79), NaN and infinity as R80 gives. -/
def convertFp (f : Fmt) (satur : Bool) (v : FVal) : Nat × Flags :=
  match v with
  | .nan sg => (canonNaN f, if sg then flNV else flNone)
  | .inf s =>
    if satur then (signBit f s + maxFinite f, flNX)
    else if f.hasInf then (signBit f s + infPattern f, flNone) else (canonNaN f, flNV)
  | .fin s m e => if m = 0 then (zeroPattern f s, flNone) else roundNe f satur s m e false

/-- Float to integer (R80): ties to even, clamped to [lo, hi]; NaN gives 0. -/
def convertInt (lo hi : Int) (v : FVal) : Int × Flags :=
  match v with
  | .nan _ => (0, flNV)
  | .inf s => (if s then lo else hi, flNV)
  | .fin s m e =>
    let (k, inexact) := if m = 0 then (0, false) else roundTo m e false 0
    let i : Int := if s then -(k : Int) else k
    if i < lo then (lo, flNV) else if i > hi then (hi, flNV) else (i, if inexact then flNX else flNone)

/-- An integer as an exact value. -/
def valOfInt (i : Int) : FVal := .fin (decide (i < 0)) i.natAbs 0

/-! ### Exact values -/

/-- The signed multiple of 2^q that an exact finite value is, for q ≤ its exponent. -/
def scaledInt (neg : Bool) (m : Nat) (e q : Int) : Int :=
  let v : Int := m * 2 ^ (e - q).toNat
  if neg then -v else v

/-- Order of two finite values: their scaled integers at a common exponent. -/
def finPair (s1 : Bool) (m1 : Nat) (e1 : Int) (s2 : Bool) (m2 : Nat) (e2 : Int) : Int × Int :=
  let q := if e1 < e2 then e1 else e2
  (scaledInt s1 m1 e1 q, scaledInt s2 m2 e2 q)

/-- a < b of two values that are no NaN; ±0 are equal (R157). -/
def valLt (a b : FVal) : Bool :=
  match a, b with
  | .fin s1 m1 e1, .fin s2 m2 e2 => let p := finPair s1 m1 e1 s2 m2 e2; decide (p.1 < p.2)
  | .inf s1, .inf s2 => s1 && !s2
  | .inf s1, .fin _ _ _ => s1
  | .fin _ _ _, .inf s2 => !s2
  | _, _ => false

/-- a = b of two values that are no NaN; ±0 are equal (R157). -/
def valEq (a b : FVal) : Bool :=
  match a, b with
  | .fin s1 m1 e1, .fin s2 m2 e2 => let p := finPair s1 m1 e1 s2 m2 e2; decide (p.1 = p.2)
  | .inf s1, .inf s2 => s1 == s2
  | _, _ => false

def isNaN : FVal → Bool
  | .nan _ => true | .inf _ => false | .fin _ _ _ => false
def isSNaN : FVal → Bool
  | .nan s => s | .inf _ => false | .fin _ _ _ => false
def isZero : FVal → Bool
  | .fin _ m _ => m == 0 | .inf _ => false | .nan _ => false
def isInf : FVal → Bool
  | .inf _ => true | .fin _ _ _ => false | .nan _ => false
def isNeg : FVal → Bool
  | .fin s _ _ => s | .inf s => s | .nan _ => false

def negVal : FVal → FVal
  | .fin s m e => .fin (!s) m e | .inf s => .inf (!s) | .nan g => .nan g

/-- The exact product; 0 × ∞ is a NaN that no operand was (R154). -/
def mulVal (a b : FVal) : FVal :=
  match a, b with
  | .nan g, .nan h => .nan (g || h)
  | .nan g, _ => .nan g
  | _, .nan g => .nan g
  | .inf s, .inf t => .inf (s != t)
  | .inf s, .fin t m _ => if m = 0 then .nan false else .inf (s != t)
  | .fin s m _, .inf t => if m = 0 then .nan false else .inf (s != t)
  | .fin s m e, .fin t n g => .fin (s != t) (m * n) (e + g)

/-- The product of an exact value and 2^n (R77). -/
def scaleVal (a : FVal) (n : Int) : FVal :=
  match a with
  | .fin s m e => .fin s m (e + n) | .inf s => .inf s | .nan g => .nan g

/-- The exact sum of two finite values; an exact zero is −0 only of two zeros of sign − (R155). -/
def addFin (s1 : Bool) (m1 : Nat) (e1 : Int) (s2 : Bool) (m2 : Nat) (e2 : Int) : FVal :=
  let q := if e1 < e2 then e1 else e2
  let p := finPair s1 m1 e1 s2 m2 e2
  let t := p.1 + p.2
  if t = 0 then .fin (m1 == 0 && m2 == 0 && s1 && s2) 0 q else .fin (decide (t < 0)) t.natAbs q

/-! ### Arithmetic (R154–R157) -/

/-- NaN result (R154): invalid if an operand is signalling, or none is NaN. -/
def nanResult (f : Fmt) (ops : List FVal) : Nat × Flags :=
  (canonNaN f, if ops.any isSNaN || !(ops.any isNaN) then flNV else flNone)

/-- a + b (R154, R155). -/
def fpAdd (f : Fmt) (x y : Nat) : Nat × Flags :=
  let a := fpDecode f x
  let b := fpDecode f y
  match a, b with
  | .nan _, _ => nanResult f [a, b]
  | _, .nan _ => nanResult f [a, b]
  | .inf s, .inf t => if s = t then (signBit f s + infPattern f, flNone) else nanResult f [a, b]
  | .inf s, .fin _ _ _ => (signBit f s + infPattern f, flNone)
  | .fin _ _ _, .inf t => (signBit f t + infPattern f, flNone)
  | .fin s m e, .fin t n g => convertFp f false (addFin s m e t n g)

/-- The pattern with its sign changed. -/
def flipSign (f : Fmt) (y : Nat) : Nat := y ^^^ 2 ^ (f.ebits + f.man)

/-- a − b (R154, R155): the addends are a and −b. -/
def fpSub (f : Fmt) (x y : Nat) : Nat × Flags := fpAdd f x (flipSign f y)

/-- a × b (R154, R155). -/
def fpMul (f : Fmt) (x y : Nat) : Nat × Flags :=
  let a := fpDecode f x
  let b := fpDecode f y
  match mulVal a b with
  | .nan _ => nanResult f [a, b]
  | .inf s => (signBit f s + infPattern f, flNone)
  | .fin s m e => convertFp f false (.fin s m e)

/-- d + a × b rounded once (R154): 0 × ∞ is checked before d is added. -/
def fpFma (f : Fmt) (z x y : Nat) : Nat × Flags :=
  let d := fpDecode f z
  let a := fpDecode f x
  let b := fpDecode f y
  let sg := if isSNaN d || isSNaN a || isSNaN b then flNV else flNone
  if isNaN a || isNaN b then (canonNaN f, sg)
  else
    match mulVal a b with
    | .nan _ => (canonNaN f, flNV)
    | p =>
      match d, p with
      | .nan _, _ => (canonNaN f, sg)
      | .inf s, .inf t => if s = t then (signBit f s + infPattern f, flNone) else (canonNaN f, flNV)
      | .inf s, _ => (signBit f s + infPattern f, flNone)
      | .fin _ _ _, .inf t => (signBit f t + infPattern f, flNone)
      | .fin s m e, .fin t n g => convertFp f false (addFin s m e t n g)
      | .fin _ _ _, .nan _ => (canonNaN f, flNV)

/-- The order of FMIN and FMAX (R156): −0 lies below +0. -/
def minBelow (a b : FVal) : Bool := valLt a b || (valEq a b && isNeg a && !isNeg b)

/-- FMIN and FMAX (R156). -/
def fpMinMax (f : Fmt) (wantMax : Bool) (x y : Nat) : Nat × Flags :=
  let a := fpDecode f x
  let b := fpDecode f y
  if isNaN a || isNaN b then (canonNaN f, if isSNaN a || isSNaN b then flNV else flNone)
  else (if minBelow a b != wantMax then x else y, flNone)

/-- The compares of R157. -/
inductive FCmp where
  | eq | lt | le
  deriving DecidableEq, Repr

/-- A compare of R157: all ones or zero across the sub-element. -/
def fpCmp (f : Fmt) (c : FCmp) (x y : Nat) : Nat × Flags :=
  let a := fpDecode f x
  let b := fpDecode f y
  let nan := isNaN a || isNaN b
  let ones := 2 ^ fmtWidth f - 1
  let hit := match c with
    | .eq => valEq a b | .lt => valLt a b | .le => valLt a b || valEq a b
  let nv := match c with
    | .eq => isSNaN a || isSNaN b | .lt => nan | .le => nan
  (if !nan && hit then ones else 0, if nv then flNV else flNone)

/-! ### Division and roots -/

/-- a / b of finite nonzero magnitudes: quotient bits, exponent, sticky. -/
def divMag (m : Nat) (e : Int) (n : Nat) (g : Int) : Nat × Int × Bool :=
  let k := 64 + Nat.log2 n
  let t := m * 2 ^ k
  (t / n, e - g - k, decide (t % n ≠ 0))

/-- FDIV.f32 in one half (R392). -/
def fpDiv (f : Fmt) (x y : Nat) : Nat × Flags :=
  let a := fpDecode f x
  let b := fpDecode f y
  match a, b with
  | .nan _, _ => nanResult f [a, b]
  | _, .nan _ => nanResult f [a, b]
  | .inf _, .inf _ => (canonNaN f, flNV)
  | .inf s, .fin t _ _ => (signBit f (s != t) + infPattern f, flNone)
  | .fin s _ _, .inf t => (zeroPattern f (s != t), flNone)
  | .fin s m e, .fin t n g =>
    if n = 0 then
      if m = 0 then (canonNaN f, flNV) else (signBit f (s != t) + infPattern f, flDZ)
    else if m = 0 then (zeroPattern f (s != t), flNone)
    else
      let (q, ex, st) := divMag m e n g
      roundNe f false (s != t) q ex st

/-- ⌊√n⌋ from bit i down. -/
def isqrtFrom (n : Nat) : Nat → Nat → Nat
  | 0, r => if (r + 1) * (r + 1) ≤ n then r + 1 else r
  | i + 1, r => isqrtFrom n i (if (r + 2 ^ (i + 1)) * (r + 2 ^ (i + 1)) ≤ n then r + 2 ^ (i + 1) else r)

def isqrt (n : Nat) : Nat := isqrtFrom n (Nat.log2 n / 2 + 1) 0

/-! ### The accumulation rule (R86) -/

/-- trunc(x / 2^q) of a finite value. -/
def truncAt (neg : Bool) (m : Nat) (e q : Int) : Int :=
  let k : Nat := if q ≤ e then m * 2 ^ (e - q).toNat else m / 2 ^ (q - e).toNat
  if neg then -(k : Int) else k

/-- ⌊log₂ |x|⌋ of a nonzero finite value. -/
def finExp : FVal → Option Int
  | .fin _ m e => if m = 0 then none else some (expOf m e)
  | .inf _ => none
  | .nan _ => none

def maxOption (a b : Option Int) : Option Int :=
  match a, b with
  | none, y => y
  | x, none => x
  | some x, some y => some (if x < y then y else x)

/-- exact_chunk_sum(acc, products) (R86), with the conditions of its one rounding. The products are given exactly; a
NaN or infinite factor shows in its product or in `bad`. -/
def exactChunkSum (acc : Nat) (products : List FVal) (bad : Bool) : Nat × Flags :=
  let av := fpDecode fmtF32 acc
  let addends := products ++ [av]
  if bad || addends.any (fun x => isNaN x || isInf x) then (canonNaN fmtF32, flNone)
  else
    match addends.foldl (fun m x => maxOption m (finExp x)) none with
    | none => (zeroPattern fmtF32 (addends.all isNeg), flNone)
    | some emax =>
      let q := emax - 48
      let s : Int := addends.foldl (fun t x => match x with
        | .fin n m e => t + truncAt n m e q
        | .inf _ => t
        | .nan _ => t) 0
      if s = 0 then (0, flNone) else roundNe fmtF32 false (decide (s < 0)) s.natAbs q false

/-- Every factor of a list of products is finite. -/
def factorsBad (ps : List (FVal × FVal)) : Bool :=
  ps.any fun p => isNaN p.1 || isInf p.1 || isNaN p.2 || isInf p.2

/-- One chunk of products of factors (R86), formed by a product. -/
def chunkBy (prod : FVal → FVal → FVal) (acc : Nat) (ps : List (FVal × FVal)) : Nat :=
  (exactChunkSum acc (ps.map fun p => prod p.1 p.2) (factorsBad ps)).1

/-- One chunk of exact products. -/
def chunkOf (acc : Nat) (ps : List (FVal × FVal)) : Nat := chunkBy mulVal acc ps

/-- The product of INT8 factors is an integer (R301), whose zero has no sign. -/
def intProduct (a b : FVal) : FVal :=
  match mulVal a b with
  | .fin s m e => .fin (s && m != 0) m e
  | .inf s => .inf s
  | .nan g => .nan g

/-- The exact sum of finite values, at a common exponent. -/
def exactSum (vs : List FVal) : FVal :=
  vs.foldl (fun t x => match t, x with
    | .fin s m e, .fin s' m' e' => addFin s m e s' m' e'
    | t, _ => t) (.fin false 0 0)

/-! ### Types of elements (R26, R70, R78, R270) -/

/-- An element type by its FMT code (R270). -/
inductive ElTy where
  | f32 | bf16 | f16 | e4m3 | e5m2 | c4 | i32 | ui32 | i8 | ui8
  deriving DecidableEq, Repr

def elTyOf (code : Nat) : Option ElTy :=
  match code with
  | 0 => some .f32 | 1 => some .bf16 | 2 => some .f16 | 3 => some .e4m3 | 4 => some .e5m2
  | 5 => some .c4 | 6 => some .i32 | 7 => some .ui32 | 8 => some .i8 | 9 => some .ui8
  | _ => none

def elWidth : ElTy → Nat
  | .f32 => 32 | .bf16 => 16 | .f16 => 16 | .e4m3 => 8 | .e5m2 => 8
  | .c4 => 4 | .i32 => 32 | .ui32 => 32 | .i8 => 8 | .ui8 => 8

/-- The floating-point format of a type, if it is one. -/
def elFmt : ElTy → Option Fmt
  | .f32 => some fmtF32 | .bf16 => some fmtBF16 | .f16 => some fmtF16
  | .e4m3 => some fmtE4M3 | .e5m2 => some fmtE5M2
  | .c4 => none | .i32 => none | .ui32 => none | .i8 => none | .ui8 => none

/-- Range of an integer type (R78). -/
def elRange : ElTy → Int × Int
  | .i32 => (-(2 ^ 31), 2 ^ 31 - 1) | .ui32 => (0, 2 ^ 32 - 1)
  | .i8 => (-128, 127) | .ui8 => (0, 255)
  | _ => (0, 0)

/-- The predefined codebook (R76). -/
def codebook0 : List Nat :=
  [0x0000, 0x3F00, 0x3F80, 0x3FC0, 0x4000, 0x4040, 0x4080, 0x40C0,
   0x8000, 0xBF00, 0xBF80, 0xBFC0, 0xC000, 0xC040, 0xC080, 0xC0C0]

/-- The exact value of an element under a codebook of BF16 patterns (R72, R75, R78). -/
def elValue (t : ElTy) (book : List Nat) (x : Nat) : FVal :=
  match elFmt t with
  | some f => fpDecode f x
  | none =>
    match t with
    | .c4 => fpDecode fmtBF16 (book.getD (x % 16) 0)
    | .i32 => valOfInt (signedOf 32 x)
    | .i8 => valOfInt (signedOf 8 x)
    | _ => valOfInt ((x % 2 ^ elWidth t : Nat) : Int)

/-- Conversion of an exact value to a type that is not c4 (R80). -/
def convertTo (t : ElTy) (satur : Bool) (v : FVal) : Nat × Flags :=
  match elFmt t with
  | some f => convertFp f satur v
  | none =>
    let r := elRange t
    let (i, fl) := convertInt r.1 r.2 v
    (patternOf (elWidth t) i, fl)

/-- The value of an E8M0 scale code as a power of two, or NaN (R77). -/
def scaleOf (c : Nat) (v : FVal) : FVal := if c = 255 then .nan false else scaleVal v ((c : Int) - 127)

/-! ### Conversion to codebook-4 (R81) -/

/-- The lowest index whose entry satisfies p. -/
def lowestIdx (book : List FVal) (p : FVal → Bool) : Option Nat :=
  ((List.range 16).filter fun i => p (book.getD i (.fin false 0 0))).head?

def orElseIdx (a b : Option Nat) : Option Nat := if a.isSome then a else b

/-- |a − u| as an exact magnitude. -/
def distance (a u : FVal) : FVal :=
  match a, u with
  | .fin s m e, .fin t n g =>
    match addFin s m e (!t) n g with
    | .fin _ k q => .fin false k q
    | x => x
  | x, _ => x

/-- The index that a value converts to (R81). -/
def toCodebook (book : List FVal) (u : FVal) : Nat :=
  let nanIdx := (lowestIdx book isNaN).getD 0
  let isFin := fun v => !(isNaN v) && !(isInf v)
  let finite := (List.range 16).filter fun i => isFin (book.getD i (.fin false 0 0))
  let entry := fun i => book.getD i (.fin false 0 0)
  match u with
  | .nan _ => nanIdx
  | .inf s =>
    match lowestIdx book (fun v => isInf v && isNeg v == s) with
    | some i => i
    | none =>
      match finite with
      | [] => nanIdx
      | i :: is => is.foldl (fun best j =>
          if (if s then valLt (entry j) (entry best) else valLt (entry best) (entry j)) then j else best) i
  | .fin s _ _ =>
    match finite with
    | i :: is => is.foldl (fun best j =>
        if valLt (distance (entry j) u) (distance (entry best) u) then j else best) i
    | [] => (orElseIdx (lowestIdx book (fun v => isInf v && isNeg v == s)) (some nanIdx)).getD 0

/-! ### Stochastic rounding (R92) and draws (R91) -/

/-- CVTSR of one element: the discarded 16 bits and the draw's g decide (R92). -/
def stochastic (f : Fmt) (v : FVal) (g : Nat) : Nat × Flags :=
  match v with
  | .nan sg => (canonNaN f, if sg then flNV else flNone)
  | .inf s => if f.hasInf then (signBit f s + infPattern f, flNone) else (canonNaN f, flNV)
  | .fin s m e =>
    if m = 0 then (zeroPattern f s, flNone)
    else
      let ex := expOf m e
      let lo : Int := 1 - f.bias
      let q := (if ex < lo then lo else ex) - f.man
      let t : Nat := if q ≤ e then m * 2 ^ (e - q).toNat else m / 2 ^ (q - e).toNat
      let h : Nat := if q ≤ e then 0 else (m % 2 ^ (q - e).toNat) * 2 ^ 16 / 2 ^ (q - e).toNat
      let inexact : Bool := if q ≤ e then false else decide (m % 2 ^ (q - e).toNat ≠ 0)
      let kept := if h + g ≥ 2 ^ 16 then t + 1 else t
      match packMag f kept q with
      | some p => (signBit f s + p,
          (if inexact then flNX else flNone) ||| (if inexact && decide (ex < lo) then flUF else flNone))
      | none => (signBit f s + (if f.hasInf then infPattern f else maxFinite f), flOF ||| flNX)

/-- draw(l) of R91: seed, lane, counter. -/
def drawOf (seed : Word) (lane : Nat) (ctr : Word) : Word :=
  let z := seed + BitVec.ofNat 64 lane * 0x9E3779B97F4A7C15#64 + ctr * 0xBF58476D1CE4E5B9#64
  let z := (z ^^^ (z >>> 30)) * 0xBF58476D1CE4E5B9#64
  let z := (z ^^^ (z >>> 27)) * 0x94D049BB133111EB#64
  z ^^^ (z >>> 31)

end Sys2Proof.Machine
end

