-- ==== Sys2Proof/Machine/Phys.lean ====
section
/-! DEFINITION. The parts of the state, physical memory (R221, R222, R399, R403) with its sector checks (R408), L2 and the
first-level cache (R204–R207, R232–R234), and the writes of one location: stores (R207, R244) and atomics (R260, R261). -/

namespace Sys2Proof.Machine

/-! ### Parts of the state -/

def getCore (s : State) (n : Nat) : Core := tgetD .init s.cores n
def setCore (s : State) (n : Nat) (c : Core) : State := { s with cores := tput s.cores n c }
def updCore (s : State) (n : Nat) (f : Core → Core) : State := setCore s n (f (getCore s n))

/-- The workgroup of a slot, if one is resident. -/
def getWg? (s : State) (core slot : Nat) : Option Wg := tgetD none (getCore s core).wgs slot
def getWg (s : State) (core slot : Nat) : Wg := (getWg? s core slot).getD .init
def putWg (c : Core) (slot : Nat) (w : Option Wg) : Core := { c with wgs := tput c.wgs slot w }
def setWg (s : State) (core slot : Nat) (w : Wg) : State := updCore s core fun c => putWg c slot (some w)
def updWg (s : State) (core slot : Nat) (f : Wg → Wg) : State := setWg s core slot (f (getWg s core slot))

def getWarp (s : State) (core slot warp : Nat) : Warp := tgetD .init (getWg s core slot).warps warp
def setWarp (s : State) (core slot warp : Nat) (w : Warp) : State :=
  updWg s core slot fun g => { g with warps := tput g.warps warp w }
def updWarp (s : State) (core slot warp : Nat) (f : Warp → Warp) : State :=
  setWarp s core slot warp (f (getWarp s core slot warp))

def warpOf (s : State) (o : Who) : Warp := getWarp s o.core o.slot o.warp
def updWarpOf (s : State) (o : Who) (f : Warp → Warp) : State := updWarp s o.core o.slot o.warp f
def wgOf (s : State) (o : Who) : Wg := getWg s o.core o.slot
def updWgOf (s : State) (o : Who) (f : Wg → Wg) : State := updWg s o.core o.slot f

/-- The split of a number. -/
def findSplit (w : Warp) (n : Nat) : Option Split := w.splits.find? fun p => p.num == n

/-- The stream of a warp, or of one of its splits. -/
def streamIn (w : Warp) (sp : Option Nat) : Stream :=
  match sp with
  | none => w.main
  | some n => ((findSplit w n).map Split.st).getD .init

def putStream (w : Warp) (sp : Option Nat) (f : Stream → Stream) : Warp :=
  match sp with
  | none => { w with main := f w.main }
  | some n => { w with splits := w.splits.map fun p => if p.num == n then { p with st := f p.st } else p }

def streamOf (s : State) (o : Who) : Stream := streamIn (warpOf s o) o.split
def updStream (s : State) (o : Who) (f : Stream → Stream) : State :=
  updWarpOf s o fun w => putStream w o.split f

def getCtx (s : State) (c : Nat) : Ctx := tgetD .init s.ctxs c
def updCtx (s : State) (c : Nat) (f : Ctx → Ctx) : State := { s with ctxs := tput s.ctxs c (f (getCtx s c)) }

/-- The die of a core (R9). -/
def dieOf (core : Nat) : Nat := core / Config.coresPerDie

/-- A fresh argument for a free value (log entry 5). -/
def bump (s : State) : State := { s with free := s.free + 1 }

/-- The stream of a whole warp. -/
def mainOf (core slot warp : Nat) : Who := { core := core, slot := slot, warp := warp, split := none }

/-! ### Physical memory -/

/-- What a physical address reaches (R221). -/
inductive Home where
  | device | host | peer | unbacked
  deriving DecidableEq, Repr

def homeOf (pa : Nat) : Home :=
  if pa < Config.deviceEnd then .device
  else if pa < Config.hostBase then .unbacked
  else if pa < Config.peerBase then .host
  else if pa < Config.physEnd then .peer
  else .unbacked

/-- The address lies in an aperture (R221). -/
def inAperture (pa : Nat) : Bool := homeOf pa == .host || homeOf pa == .peer

/-- The host bus address that a context's aperture address becomes (R399). -/
def hostAddr (s : State) (ctx pa : Nat) : Nat :=
  (bits (getCtx s ctx).hostbase 63 16 * 65536 + pa % 2 ^ 46) % 2 ^ 64

/-- The peer-aperture address names this module's own memory (R403). -/
def isOwnChip (s : State) (pa : Nat) : Bool := (pa - Config.peerBase) / 2 ^ 38 == bits s.chip 7 0

/-- Peer traffic is refused until CHIP.VALID is set (R399). -/
def peerRefused (s : State) (pa : Nat) : Bool := homeOf pa == .peer && !s.chip.getLsbD 8

/-- n bytes of physical memory as a context reaches them. -/
def physRead (s : State) (ctx pa n : Nat) : List Byte :=
  match homeOf pa with
  | .device => s.mem.rdN pa n
  | .host => s.hostMem.rdN (hostAddr s ctx pa) n
  | .peer => if isOwnChip s pa then s.mem.rdN (pa % 2 ^ 38) n else s.peerMem.rdN (pa - Config.peerBase) n
  | .unbacked => List.replicate n unlisted

/-- Drop the stored checks of the sectors that a write covers: each has a new check (R408). -/
def freshChecks (s : State) (pa n : Nat) : State :=
  { s with checks := s.checks.filter fun e => !(decide (pa / 32 ≤ e.1) && decide (e.1 ≤ (pa + n - 1) / 32)) }

/-- Bytes written to device memory. -/
def devWrite (s : State) (pa : Nat) (bs : List Byte) : State :=
  freshChecks { s with mem := s.mem.wrN pa bs } pa bs.length

def devRead (s : State) (pa n : Nat) : List Byte := s.mem.rdN pa n

/-- Bytes written to physical memory as a context reaches it. -/
def physWrite (s : State) (ctx pa : Nat) (bs : List Byte) : State :=
  match homeOf pa with
  | .device => devWrite s pa bs
  | .host => { s with hostMem := s.hostMem.wrN (hostAddr s ctx pa) bs }
  | .peer =>
    if isOwnChip s pa then devWrite s (pa % 2 ^ 38) bs
    else { s with peerMem := s.peerMem.wrN (pa - Config.peerBase) bs }
  | .unbacked => s

/-- One name for the byte that a context reaches at a physical address (R221, R399, R403): this chip's own peer aperture is its
device memory, and host memory is named by its bus address. -/
def placeOf (s : State) (ctx pa : Nat) : Nat :=
  match homeOf pa with
  | .device => pa
  | .host => 2 ^ 64 + hostAddr s ctx pa
  | .peer => if isOwnChip s pa then pa % 2 ^ 38 else pa
  | .unbacked => pa

/-- Bytes that another agent than a core's store path has written at a place: what a write under way still hides from the
engines there is what they wrote, and nothing older (R252, R256). -/
def settled (s : State) (at_ : Nat) (bs : List Byte) : State :=
  { s with pend := s.pend.map fun p =>
      let a := placeOf s p.ctx p.pa
      if a < at_ + bs.length ∧ at_ < a + p.old.length then
        { p with old := p.old.zipIdx.map fun b =>
            if at_ ≤ a + b.2 ∧ a + b.2 < at_ + bs.length then bs.getD (a + b.2 - at_) 0 else b.1 }
      else p }

/-- A write of an engine, of the host or of a peer to physical memory. -/
def outerWrite (s : State) (ctx pa : Nat) (bs : List Byte) : State := settled (physWrite s ctx pa bs) (placeOf s ctx pa) bs

/-- The same to device memory. -/
def outerDev (s : State) (pa : Nat) (bs : List Byte) : State := settled (devWrite s pa bs) pa bs

/-- Where in device memory a physical address lies, by its own address or through this chip's own peer aperture (R403). -/
def devAddr (s : State) (pa : Nat) : Option Nat :=
  match homeOf pa with
  | .device => some pa
  | .peer => if isOwnChip s pa then some (pa % 2 ^ 38) else none
  | .host => none
  | .unbacked => none

/-- The first sector of [pa, pa + n) whose stored check in device memory does not match its bytes (R408). -/
def badSector (s : State) (pa n : Nat) : Option Nat :=
  match devAddr s pa with
  | none => none
  | some a =>
    if n = 0 then none
    else
      (s.checks.find? fun e =>
        decide (a / 32 ≤ e.1) && decide (e.1 ≤ (a + n - 1) / 32) && e.2 != crc16 (s.mem.rdN (32 * e.1) 32)).map
        fun e => 32 * e.1

/-- The same for a workgroup's scratchpad (`slot`) or the bin floor (`none`) of a core. -/
def badCoreSector (s : State) (core : Nat) (slot : Option Nat) (m : Memory) (off n : Nat) : Option Nat :=
  (s.coreChecks.find? fun e =>
    e.1.1 == core && e.1.2.1 == slot && decide (off / 32 ≤ e.1.2.2) && decide (e.1.2.2 ≤ (off + n - 1) / 32)
      && e.2 != crc16 (m.rdN (32 * e.1.2.2) 32)).map fun e => 32 * e.1.2.2

/-- New checks for the sectors of a core's storage that a write covers. -/
def freshCoreChecks (s : State) (core : Nat) (slot : Option Nat) (off n : Nat) : State :=
  { s with coreChecks := s.coreChecks.filter fun e =>
      !(e.1.1 == core && e.1.2.1 == slot && decide (off / 32 ≤ e.1.2.2) && decide (e.1.2.2 ≤ (off + n - 1) / 32)) }

/-- Device bytes set to zero. -/
def zeroBytes (s : State) (pa n : Nat) : State :=
  freshChecks { s with mem := s.mem.zero pa n } pa n

/-! ### Events (R398) -/

/-- Post an event on a context's ring (R398). -/
def postEvent (s : State) (ctx : Nat) (type : Nat) (data : Word) : State :=
  let c := getCtx s ctx
  let base := (bits c.evq 63 12) * 4096
  let size := 2 ^ (bits c.evq 11 8 + 6)
  if base = 0 then updCtx s ctx fun c => { c with evlost := c.evlost + 1 }
  else if (c.evw - c.evr).toNat = size then updCtx s ctx fun c => { c with evlost := c.evlost + 1 }
  else
    let entry := bytesOfNat 2 (type + 256 * ctx) ++ bytesOfNat 6 0 ++ bytesOfNat 8 data.toNat
    let s := { s with hostMem := s.hostMem.wrN (base + 16 * (c.evw.toNat % size)) entry }
    let s := if c.evw = c.evr then { s with msix := s.msix ++ [BitVec.ofNat 8 (bits c.evq 7 0)] } else s
    updCtx s ctx fun c => { c with evw := c.evw + 1 }

/-! ### Integrity (R408) -/

/-- The next frame of the page pool that a frame names (R237); a link whose sector fails its check names none (R408; log
entry 55). -/
def nextFrame (s : State) (frame : Nat) : Nat :=
  if (badSector s frame 8).isSome then 0 else bits (BitVec.ofNat 64 (natOfBytes (devRead s frame 8))) 47 16 * 65536

/-- Remove a frame from the list of free frames (R237), found within n steps. -/
def dropFrameFrom (s : State) (bad : Nat) : Nat → Nat → State
  | 0, _ => s
  | n + 1, at_ =>
    let next := nextFrame s at_
    if next = 0 then s
    else if next = bad then devWrite s at_ (if (badSector s bad 8).isSome then bytesOfNat 8 0 else devRead s bad 8)
    else dropFrameFrom s bad n next

/-- The integrity service of a mismatch (R408): event 6, and in firmware mode a free frame that holds the sector leaves
the page pool. -/
def integrityService (s : State) (ctx pa : Nat) : State :=
  let s := postEvent s ctx 6 (BitVec.ofNat 64 pa)
  if s.dsplit.getLsbD 4 then s
  else
    let frame := pa / 65536 * 65536
    let head := bits s.pgpool 47 16 * 65536
    if head = 0 then s
    else if head = frame then { s with pgpool := BitVec.ofNat 64 (nextFrame s frame) }
    else dropFrameFrom s frame 12582912 head

/-- The event of a mismatch in a core's scratchpad or bin floor (R408): the spec gives such a sector no physical address, so
event 6 carries a free one, and no page-pool frame holds it (DESIGN CHOICE, log entry 55). -/
def coreIntegrity (s : State) (ctx : Nat) : State :=
  postEvent (bump s) ctx 6 (BitVec.ofNat 64 (Config.freeNat s.free))

/-! ### Scratchpad and bin floor -/

def scratchRead (s : State) (core slot off n : Nat) : List Byte := (getWg s core slot).scratch.rdN off n

def scratchWrite (s : State) (core slot off : Nat) (bs : List Byte) : State :=
  freshCoreChecks (updWg s core slot fun g => { g with scratch := g.scratch.wrN off bs }) core (some slot) off bs.length

def floorRead (s : State) (core off n : Nat) : List Byte := (getCore s core).floor.rdN off n

def floorWrite (s : State) (core off : Nat) (bs : List Byte) : State :=
  freshCoreChecks (updCore s core fun c => { c with floor := c.floor.wrN off bs }) core none off bs.length

/-! ### L2: presence, priority and recency (R206); no value depends on them (R208) -/

/-- The L2 home of a physical address is die p[14] (R222). -/
def homeDie (pa : Nat) : Nat := pa / 2 ^ 14 % 2

/-- The set of a line on its home die, by physical address (R238). -/
def l2Set (pa : Nat) : Nat := (pa / 2 ^ 15 * 128 + pa / 128 % 128) % 81920

/-- The priority that a policy gives (R205, R206). -/
def prioOf (pol : BitVec 2) : BitVec 2 := if pol = 3 then 0 else pol

def higher (a b : BitVec 2) : BitVec 2 := if a < b then b else a

/-- The line ranges of every standing lease (R238): of resident workgroups, and of saved ones (R360). -/
def allLeases (s : State) : List (Nat × Nat) :=
  (s.cores.flatMap fun c => c.2.wgs.flatMap fun g => match g.2 with
    | none => []
    | some w => w.leases.flatMap Prod.snd) ++ s.saved.flatMap fun v => v.wg.leases.flatMap Prod.snd

/-- Lines that accepted commands pin, whether or not their leases still stand (R240). -/
def opPins (s : State) : List (Nat × Nat) := s.cores.flatMap fun c => c.2.ops.flatMap EngOp.pins

/-- The line is named by a standing lease (R238), or pinned by a command accepted before its LREL (R240). -/
def leasedLine (s : State) (line : Nat) : Bool :=
  (allLeases s ++ opPins s).any fun r => decide (r.1 ≤ line) && decide (line < r.2)

/-- The line to evict: the lowest priority, among those the least recently accessed. Recency is the cycle of the last access, and of
lines accessed in one cycle the one filled earlier is taken [DESIGN CHOICE, log entry 61: R204 does not say]. -/
def victim {α : Type} (prio : α → BitVec 2) (used : α → Nat) : List α → Option α
  | [] => none
  | x :: xs =>
    match victim prio used xs with
    | none => some x
    | some y => if prio y < prio x ∨ (prio y = prio x ∧ used y < used x) then some y else some x

/-- An access to an L2 line under a policy. -/
def l2Touch (s : State) (pa : Nat) (pol : BitVec 2) : State :=
  if homeOf pa != .device then s
  else
    let line := pa / 128
    match tget? s.l2 line with
    | some l => { s with l2 := tput s.l2 line { prio := higher l.prio (prioOf pol), used := s.cycle } }
    | none =>
      let same := s.l2.filter fun e => homeDie (128 * e.1) == homeDie pa && l2Set (128 * e.1) == l2Set pa
      let l2 := if same.length < 16 then s.l2
        else match victim (fun e => e.2.prio) (fun e => e.2.used) (same.filter fun e => !leasedLine s e.1) with
          | none => s.l2
          | some v => tdel s.l2 v.1
      { s with l2 := tput l2 line { prio := prioOf pol, used := s.cycle } }

/-! ### The first-level cache -/

/-- The context that a line's address depends on: only host-aperture addresses do (R399). -/
def lineCtx (ctx pa : Nat) : Nat := if homeOf pa = .host then ctx else 0

def l1Find (c : Core) (ctx pa : Nat) : Option L1Line :=
  c.l1.find? fun l => l.line == pa / 128 && l.ctx == lineCtx ctx pa

/-- The core holds the bytes of a line itself, as of pages that write back (R204). -/
def lineHeld (s : State) (core ctx pa : Nat) : Bool := (l1Find (getCore s core) ctx pa).any fun l => l.data.isSome

/-- Change the line of an address, if it is present. -/
def l1Upd (s : State) (core ctx pa : Nat) (f : L1Line → L1Line) : State :=
  updCore s core fun c =>
    { c with l1 := c.l1.map fun l => if l.line == pa / 128 && l.ctx == lineCtx ctx pa then f l else l }

/-- A store, atomic or write-back leaves its core: the bytes go to their place, and what stood there is kept until it is
performed (R252). -/
def issueWrite (s : State) (o : Who) (ctx pa : Nat) (bs : List Byte) (wb : Bool) : State :=
  let old := physRead s ctx pa bs.length
  let s := physWrite s ctx pa bs
  { s with pend := s.pend ++ [{ who := o, ctx := ctx, pa := pa, old := old, atDev := false, wb := wb }] }

/-- Sectors of the line of an address whose check in memory does not match (R408). -/
def badSectors (s : State) (pa : Nat) : BitVec 4 :=
  (List.range 4).foldl (fun m k =>
    if (badSector s (pa / 128 * 128 + 32 * k) 32).isSome then m ||| BitVec.ofNat 4 (2 ^ k) else m) 0

/-- The first sector of n bytes of a held line that was filled with a bad check (R408). -/
def badInLine (l : L1Line) (pa n : Nat) : Option Nat :=
  ((List.range 4).find? fun k =>
    l.bad.getLsbD k && decide (pa % 128 / 32 ≤ k) && decide (k ≤ (pa % 128 + n - 1) / 32)).map fun k => pa / 128 * 128 + 32 * k

/-- Write back the dirty bytes of a line, sector by sector; whether the bytes beside them go too is Config.wholeLine. Of a
sector written in part the old check is looked at first (R408): on a mismatch its bytes go nowhere (log entry 55). -/
def writeBack (s : State) (o : Who) (l : L1Line) : State :=
  match l.data with
  | none => s
  | some d =>
    (List.range 4).foldl (fun s k =>
      let at_ := fun i => l.dirty.getLsbD (32 * k + i)
      if (List.range 32).any at_ then
        let pa := 128 * l.line + 32 * k
        let now := physRead s l.ctx pa 32
        let all := (List.range 32).all at_
        match (if all then none else if l.bad.getLsbD k then some pa else if Config.wholeLine then none else badSector s pa 32) with
        | some b => integrityService s (wgOf s o).ctx b
        | none =>
          let bs := (List.range 32).map fun i =>
            if Config.wholeLine || at_ i then d.getD (32 * k + i) 0 else now.getD i 0
          issueWrite s o l.ctx pa bs true
      else s) s

/-- Lines of a core's first-level set: bits 15:8 of the physical address (R204). -/
def l1Set (line : Nat) : Nat := line / 2 % 256

/-- Fill a line of a core (R204, R205), evicting a victim when the set's ways are full. -/
def l1Fill (s : State) (o : Who) (ctx pa : Nat) (pol : BitVec 2) (lease : Option Nat) (data : Option (List Byte)) :
    State :=
  let c := getCore s o.core
  let bad := if data.isSome then badSectors s pa else 0
  let same := c.l1.filter fun l => l1Set l.line == l1Set (pa / 128)
  let s := if same.length < Config.waysOf c.split then s
    else match victim L1Line.prio L1Line.used same with
      | none => s
      | some v =>
        updCore (writeBack s o v) o.core fun c =>
          { c with l1 := c.l1.filter fun l => !(l.line == v.line && l.ctx == v.ctx) }
  updCore s o.core fun c =>
    { c with l1 := c.l1 ++ [{ line := pa / 128, ctx := lineCtx ctx pa, prio := prioOf pol, used := s.cycle,
                              lease := lease, data := data, dirty := 0, bad := bad }] }

/-- The bytes of a line as its L2 or its link gives them. -/
def lineBytes (s : State) (ctx pa : Nat) : List Byte := physRead s ctx (pa / 128 * 128) 128

/-- The line holds its bytes itself from here on, as a page that writes back has it: those of L2, with their checks, where it
held none (R204, R408). -/
def holdLine (s : State) (ctx pa : Nat) (l : L1Line) : L1Line :=
  { l with data := some (l.data.getD (lineBytes s ctx pa)), bad := if l.data.isSome then l.bad else badSectors s pa }

/-- An access of a policy to a present line: recency, and priority where it is higher (R205, R206). -/
def raiseLine (s : State) (pol : BitVec 2) (l : L1Line) : L1Line :=
  { l with prio := if pol = 3 then l.prio else higher l.prio pol, used := s.cycle }

/-- Bytes of a core-path load (R232, R233, R255): through L2 on a coherent page, with a fresh read lease in the line; from
the core's own line, filled on a miss, where the page writes back. R232 lets a load under a live lease return the line's older
copy or the newest bytes: the model's always returns the newest (DESIGN CHOICE, log entry 61). An access that a first-level line
serves counts as an access to the L2 line too (DESIGN CHOICE, log entry 61: R206 does not say). -/
def loadPhys (s : State) (o : Who) (ctx pa n : Nat) (wb : Bool) (pol : BitVec 2) : State × List Byte :=
  let s := l2Touch s pa pol
  match l1Find (getCore s o.core) ctx pa with
  | some l =>
    let d := l.data.getD (lineBytes s ctx pa)
    let lease := if wb then none else some (s.cycle + Config.leaseCycles)
    let s' := l1Upd s o.core ctx pa fun l =>
      { raiseLine s pol (if wb then holdLine s ctx pa l else l) with lease := lease }
    (s', if wb then (d.drop (pa % 128)).take n else physRead s ctx pa n)
  | none =>
    let bs := physRead s ctx pa n
    if pol = 3 then (s, bs)
    else if wb then (l1Fill s o ctx pa pol none (some (lineBytes s ctx pa)), bs)
    else (l1Fill s o ctx pa pol (some (s.cycle + Config.leaseCycles)) none, bs)

/-- Write bytes into a present line. -/
def lineStore (l : L1Line) (off : Nat) (bs : List Byte) (dirty : Bool) : L1Line :=
  { l with data := l.data.map fun d => d.take off ++ bs ++ d.drop (off + bs.length),
           dirty := if dirty then l.dirty ||| BitVec.ofNat 128 ((2 ^ bs.length - 1) * 2 ^ off) else l.dirty }

/-- A core-path store to a physical address (R207): written through on a coherent page; into the core's line, filled on
a miss, where the page writes back, but for a no-allocate miss. -/
def storePhys (s : State) (o : Who) (ctx pa : Nat) (wb : Bool) (pol : BitVec 2) (bs : List Byte) : State :=
  let s := l2Touch s pa pol
  let present := (l1Find (getCore s o.core) ctx pa).isSome
  if wb then
    if !present && pol == 3 then issueWrite s o ctx pa bs false
    else
      let s := if present then s else l1Fill s o ctx pa pol none (some (lineBytes s ctx pa))
      let before := s
      let s := updWgOf s o fun g => { g with touched := if g.touched.contains (pa / 128) then g.touched else (pa / 128) :: g.touched }
      l1Upd s o.core ctx pa fun l =>
        lineStore { raiseLine s pol (holdLine before ctx pa l) with lease := none } (pa % 128) bs true
  else
    let s := l1Upd s o.core ctx pa fun l =>
      lineStore (raiseLine s pol l) (pa % 128) bs false
    issueWrite s o ctx pa bs false

/-- Write back and drop a core's own copy of a line, as an atomic to a page that writes back does first (R260). -/
def dropLine (s : State) (o : Who) (ctx pa : Nat) : State :=
  match l1Find (getCore s o.core) ctx pa with
  | none => s
  | some l =>
    updCore (writeBack s o l) o.core fun c =>
      { c with l1 := c.l1.filter fun l => !(l.line == pa / 128 && l.ctx == lineCtx ctx pa) }

/-! ### Private memory (R241, R242) -/

/-- Bytes of a warp's private region (R241). -/
def privBytes (h : Header) : Nat := 32 * h.priv

/-- The private regions of a workgroup, from the first byte to past the last. -/
def regionsOf (g : Wg) : List (Nat × Nat) := g.priv.map fun r => (r.2, r.2 + privBytes g.hdr)

/-- The private regions allotted: of resident workgroups, and of saved ones (R242). -/
def privRegions (s : State) : List (Nat × Nat) :=
  (s.cores.flatMap fun c => c.2.wgs.flatMap fun g => (g.2.map regionsOf).getD []) ++ s.saved.flatMap fun v => regionsOf v.wg

/-- The first place in a context's private area for a region of n bytes beside those of a list (log entry 32). -/
def privPlace (rs : List (Nat × Nat)) (ctx n : Nat) : Nat :=
  let free := fun (a : Nat) => decide (a + n ≤ Config.deviceEnd) && rs.all fun r => decide (a + n ≤ r.1) || decide (r.2 ≤ a)
  ((Config.privArea ctx % (Config.deviceEnd / 256) * 256 :: rs.map Prod.snd).find? free).getD 0

/-- Every warp of a task is allotted its private region, which reads as zero (R241). -/
def allotPriv (s : State) (ctx : Nat) (h : Header) : State × Table Nat :=
  if h.priv = 0 then (s, [])
  else
    (List.range h.warps).foldl (fun (p : State × Table Nat) w =>
      let a := privPlace (privRegions s ++ p.2.map fun r => (r.2, r.2 + privBytes h)) ctx (privBytes h)
      (zeroBytes p.1 a (privBytes h), tput p.2 w a)) (s, [])

/-- A line lies in one of some regions. -/
def lineOf (rs : List (Nat × Nat)) (line : Nat) : Bool :=
  rs.any fun r => decide (r.1 ≤ 128 * line) && decide (128 * line < r.2)

/-- A core drops its private lines of some regions, without write-back (R242). -/
def dropPriv (s : State) (core : Nat) (rs : List (Nat × Nat)) : State :=
  updCore s core fun c => { c with l1 := c.l1.filter fun l => !lineOf rs l.line }

/-- Where private offset `off` of a lane of a warp lies in device memory (R241). -/
def privAt (s : State) (o : Who) (l off : Nat) : Nat := tgetD 0 (wgOf s o).priv o.warp + (off / 8 * 32 + l) * 8 + off % 8

/-! ### One store and one atomic -/

/-- One lane's store of n bytes (R218, R244). -/
def storeLoc (s : State) (o : Who) (pol : BitVec 2) (l : Loc) (n : Nat) (v : Word) : State :=
  match l with
  | .scratch off => scratchWrite s o.core o.slot off (bytesOfNat n v.toNat)
  | .phys pa wb => storePhys s o (wgOf s o).ctx pa wb pol (bytesOfNat n v.toNat)

/-- The new value of an atomic on w bits (R261): the operand's value b and the next register's b1; none where a failed
compare writes nothing. -/
def atomicNew (op : AtOp) (w : Nat) (old b b1 : Nat) : Option Nat :=
  let m := 2 ^ w
  match op with
  | .add => some ((old + b % m) % m)
  | .min => some (if signedOf w old ≤ signedOf w b then old else b % m)
  | .max => some (if signedOf w b ≤ signedOf w old then old else b % m)
  | .maxu => some (if b % m ≤ old then old else b % m)
  | .and => some (old &&& (b % m))
  | .or => some (old ||| (b % m))
  | .xor => some (old ^^^ (b % m))
  | .xch => some (b % m)
  | .cas => if old = b % m then some (if w = 64 then b1 else b / 2 ^ 32) else none
  | .fadd => some (fpAdd fmtF32 old (b % m)).1

/-- One lane's atomic of n bytes under a policy (R205, R206, R260, R261): the state after it, and the old value. -/
def atomicLoc (s : State) (o : Who) (pol : BitVec 2) (op : AtOp) (n : Nat) (x : AtLane) : State × Word :=
  match x.loc with
  | .scratch off =>
    let old := natOfBytes (scratchRead s o.core o.slot off n)
    let s := match atomicNew op (8 * n) old x.b.toNat x.b1.toNat with
      | none => s
      | some v => scratchWrite s o.core o.slot off (bytesOfNat n v)
    (s, BitVec.ofNat 64 old)
  | .phys pa wb =>
    let ctx := (wgOf s o).ctx
    let s := l2Touch (if wb then dropLine s o ctx pa else l1Upd s o.core ctx pa (raiseLine s pol)) pa pol
    let old := natOfBytes (physRead s ctx pa n)
    let s := match atomicNew op (8 * n) old x.b.toNat x.b1.toNat with
      | none => s
      | some v =>
        let s := l1Upd s o.core ctx pa fun l => lineStore l (pa % 128) (bytesOfNat n v) false
        issueWrite s o ctx pa (bytesOfNat n v) false
    (s, BitVec.ofNat 64 old)

end Sys2Proof.Machine
end

