-- ==== Sys2Proof/Machine/Ops.lean ====
section
/-! DEFINITION. The named operations over the state: parts and streams, events and fault records (R357, R358, R398),
taking a trap and aborting a task (R354–R356), rendezvous latches (R103–R106), retirement (R99, R134), and how any
word executes (R67, R104, R369). -/

namespace Sys2Proof.Machine

/-! ### Streams: progress, masks, handlers, class bodies -/

/-- The warp's governor count returns to 0 (R108). -/
def progress (s : State) (o : Who) : State := updWarpOf s o fun w => { w with gcount := 0 }

/-- The execution mask the word at hand acts under: the stream's, or an injection's (R369). -/
def activeMask (s : State) (o : Who) : Mask :=
  match s.cur.mode with
  | .inject m => m
  | .issue => (streamOf s o).emask
  | .fire => (streamOf s o).emask

/-- The stream runs its trap handler: it, or the warp whose handler opened the splits (R354, R196). -/
def inHandler (s : State) (o : Who) : Bool :=
  (streamOf s o).frame.isSome || (o.split.isSome && (warpOf s o).main.frame.isSome)

/-- Class levels that the running handler did not open (R196). -/
def handlerDepth (s : State) (o : Who) : Nat :=
  match (streamOf s o).frame with
  | some f => f.depth
  | none =>
    match o.split, (warpOf s o).main.frame with
    | some _, some f => f.depth
    | _, _ => 0

/-- Inside a class body (R102). -/
def inClass (s : State) (o : Who) : Bool := !(warpOf s o).stack.isEmpty

/-- Inside a concurrent class body whose restrictions bind (R191, R196): some level with CONC set, above those that a
running handler found; none bind a handler that runs in such a body. -/
def inConc (s : State) (o : Who) : Bool :=
  let st := (warpOf s o).stack
  let n := st.length - handlerDepth s o
  let conc := fun (e : ClassEntry) => e.mode.getLsbD 3
  (st.take n).any conc && !((streamOf s o).frame.isSome && (st.drop n).any conc)

/-! ### Fault records (R357, R358) -/

/-- The contents of a fault record (R357). -/
structure FaultRecord where
  cause  : BitVec 8
  kind   : Nat
  core   : Nat
  wid    : Nat
  slot   : Nat
  ctx    : Nat
  flags  : Nat
  nsplit : Nat
  tseq   : Word
  tpc    : Word
  taddr  : Word
  tlanes : Word
  tinfo  : Word
  splits : List Int
  deriving DecidableEq, Repr

/-- The 64 bytes of a fault record (R357). -/
def recordBytes (r : FaultRecord) : List Byte :=
  [r.cause, BitVec.ofNat 8 r.kind, BitVec.ofNat 8 r.core, BitVec.ofNat 8 r.wid, BitVec.ofNat 8 r.slot,
   BitVec.ofNat 8 r.ctx, BitVec.ofNat 8 r.flags, BitVec.ofNat 8 r.nsplit]
  ++ bytesOfNat 8 r.tseq.toNat ++ bytesOfNat 8 r.tpc.toNat ++ bytesOfNat 8 r.taddr.toNat
  ++ bytesOfNat 8 r.tlanes.toNat ++ bytesOfNat 8 r.tinfo.toNat
  ++ bytesOfNat 4 (patternOf 32 (r.splits.getD 0 0)) ++ bytesOfNat 4 (patternOf 32 (r.splits.getD 1 0))
  ++ bytesOfNat 4 (patternOf 32 (r.splits.getD 2 0)) ++ bytesOfNat 4 0

/-- post(rec) of R358, in the fault area that `farea` names, its counts compared as the numbers that they are (R6). Where the sector of its counts fails its check (R408), the record
is lost and event 6 posted (log entry 55). -/
def postRecord (s : State) (farea : Word) (r : FaultRecord) : State :=
  let base := (bits farea 47 12) * 4096
  let slots := 2 ^ (bits farea 3 0 + 2)
  if base = 0 ∨ base + 64 * slots > Config.deviceEnd then s
  else match badSector s base 24 with
  | some b => integrityService s r.ctx b
  | none =>
    let n := slots - 1
    let written := natOfBytes (devRead s base 8)
    let rd := natOfBytes (devRead s (base + 8) 8)
    let lost := natOfBytes (devRead s (base + 16) 8)
    if rd + n ≤ written then devWrite s (base + 16) (bytesOfNat 8 (lost + 1))
    else
      let s := devWrite s (base + 64 * (1 + written % n)) (recordBytes r)
      let s := devWrite s base (bytesOfNat 8 (written + 1))
      postEvent s r.ctx 1 (BitVec.ofNat 64 (written + 1))

/-! ### Pre-emption requests that are met (R345, R359) -/

/-- The PREEMPT register as it reads (R359). -/
def preWord (p : PreReq) : Word :=
  (p.val &&& 0x0000FFFEFFFFFFFF#64) ||| BitVec.ofNat 64 ((if p.busy then 2 ^ 63 else 0) + p.opt * 2 ^ 61)

/-- A pre-emption request of a context is met: BUSY clears and event 5 is posted (R345, R398). -/
def preMet (s : State) (ctx opt : Nat) : State :=
  let s := updCtx s ctx fun c => { c with pre := { c.pre with busy := false, opt := opt, ask := false } }
  postEvent s ctx 5 (preWord (getCtx s ctx).pre)

/-- The request in progress of a context names a workgroup slot (R359). -/
def preNames (s : State) (ctx core slot : Nat) : Bool :=
  let p := (getCtx s ctx).pre
  p.busy && bits p.val 47 40 == core && p.slot == slot

/-- The warps of a workgroup have left their partition slots: a request that names it is met, and its core takes tasks into
them again (R345). -/
def preLeft (s : State) (core slot : Nat) : State :=
  let g := getWg s core slot
  let s := updWg s core slot fun g => { g with preempt := none }
  if preNames s g.ctx core slot then preMet s g.ctx (getCtx s g.ctx).pre.opt else s

/-! ### Traps (R352–R356) -/

/-- What a trap leaves in the trap registers (R352, R353): `lanes` none stands for the issuing mask, `info` none for
the word. -/
structure Trap where
  cause : BitVec 8
  addr  : Word
  lanes : Option Word
  info  : Option Word
  malf  : Bool
  level : Nat
  deriving DecidableEq, Repr

def trapOf (cause : BitVec 8) : Trap :=
  { cause := cause, addr := 0, lanes := none, info := none, malf := false, level := 0 }
def trapAt (cause : BitVec 8) (addr : Word) : Trap := { trapOf cause with addr := addr }

/-- TCAUSE of a trap (R353). -/
def tcauseOf (t : Trap) (group : Bool) : Word :=
  BitVec.ofNat 64 (t.cause.toNat + (if group then 256 else 0) + (if t.malf then 512 else 0) + 1024 * t.level)

/-- TINFO of an engine fault (R353). -/
def tinfoOfEngine (r : EngRec) (more : Bool) : Word :=
  BitVec.ofNat 64 (r.fault.cause.toNat + 256 * r.opcode.toNat + (if more then 2 ^ 16 else 0)
    + (if r.fault.malf then 2 ^ 17 else 0) + 2 ^ 18 * r.fault.level + 2 ^ 24 * (r.fault.done % 2 ^ 40))

/-- The trap that BWAIT or MWAIT takes for a record (R282, R324, R353). -/
def engineTrap (r : EngRec) (more : Bool) : Trap :=
  { cause := 0x1E, addr := r.fault.addr, lanes := some (addrWord r.pc), info := some (tinfoOfEngine r more),
    malf := false, level := 0 }

/-- The fault record of an engine record that nobody took (R282, R313). -/
def unclaimed (core slot : Nat) (g : Wg) (r : EngRec) (more : Bool) : FaultRecord :=
  { cause := 0x1E, kind := 3, core := core, wid := 0xFF, slot := slot, ctx := g.ctx, flags := 0, nsplit := 0,
    tseq := g.tseq, tpc := addrWord r.pc, taddr := r.fault.addr, tlanes := addrWord r.pc,
    tinfo := tinfoOfEngine r more, splits := [] }

/-- The S register that the running concurrent body names as Sd, of which a split keeps its copy (R189, R191). -/
def splitSd (w : Warp) : Option Reg :=
  (w.stack.find? fun e => e.mode.getLsbD 3 && e.serial.isNone).map ClassEntry.sd

/-- A split's copy of Sd, where S register n is that register. -/
def sdCopy (w : Warp) (sp : Option Nat) (n : Nat) : Option Word :=
  match sp with
  | none => none
  | some k =>
    match splitSd w with
    | some (.s m) => if m.val = n then (findSplit w k).map Split.sd else none
    | _ => none

/-- Write an S register of a warp, or the split's copy of Sd. -/
def putS (w : Warp) (sp : Option Nat) (n : Nat) (v : Word) : Warp :=
  if (sdCopy w sp n).isSome then
    { w with splits := w.splits.map fun p => if some p.num == sp then { p with sd := v } else p }
  else { w with s := tput w.s n v }

/-- Apply an outstanding result to its register (R98), setting its flags (R153). -/
def applyOut (o : Who) (w : Warp) (r : OutRes) : Warp :=
  let w := { w with fflags := w.fflags ||| r.flags }
  match r.dst with
  | .lane i => { w with v := r.vals.foldl (fun v e => tput v (i * 32 + e.1) e.2) w.v }
  | .tag => { w with tag := r.vals.foldl (fun t e => tput t e.1 (e.2.setWidth 16 &&& 0x0FFF)) w.tag }
  | .s n => r.vals.foldl (fun w e => putS w o.split n e.2) w
  | .k n => putStream w o.split fun st => { st with k := r.vals.foldl (fun t e => tput t n e.2) st.k }
  | .none => w

/-- Outstanding results of every stream of the warp. -/
def allOuts (w : Warp) : List OutRes := w.main.out ++ w.splits.flatMap fun p => p.st.out

/-- The number of the warp's next variable-latency instruction among those with results outstanding. -/
def nextOut (w : Warp) : Nat := (allOuts w).foldl (fun n e => max n (e.num + 1)) 0

/-- The conditions of a result have been reported: what of it is outstanding in other streams reports them no more (R153). -/
def reported (n : Nat) (w : Warp) : Warp :=
  let f := fun (st : Stream) => { st with out := st.out.map fun e => if e.num = n then { e with flags := 0 } else e }
  { w with main := f w.main, splits := w.splits.map fun p => { p with st := f p.st } }

/-- A result returns to its register (R98), and reports its conditions once (R153). -/
def returnOut (o : Who) (w : Warp) (r : OutRes) : Warp := reported r.num (applyOut o w r)

/-- The stream's commit buffer holds an atomic that returns a value: a result that the commit delivers (R99, R265). -/
def oldBuffered (w : Warp) (o : Who) : Bool :=
  w.buf.any fun e => e.who == o && match e.effect with
    | .atomic _ _ _ _ dst _ => dst.isSome
    | .store _ _ => false | .barv _ => false | .binit _ _ => false | .tdef _ _ => false | .engine _ => false
    | .cpyc _ => false | .mclose _ _ => false | .tspawn _ _ _ => false | .tsucc _ _ => false
    | .lateStore _ _ _ _ _ => false | .lateAtomic _ _ _ _ _ _ _ => false

/-- Every outstanding result of a stream returns (R354, R115); a wait mark stays where the commit is still to deliver one (R99,
R360). -/
def settleWarp (o : Who) (w : Warp) : Warp :=
  let out := (streamIn w o.split).out
  putStream (out.foldl (returnOut o) w) o.split fun st => { st with out := [], marked := st.marked && oldBuffered w o }

def settle (s : State) (o : Who) : State := updWarpOf s o (settleWarp o)

/-- Every outstanding result of a warp returns, of its splits and of its main stream (R354 step 2, R365, R115). -/
def settleAll (s : State) (o : Who) : State :=
  settle ((warpOf s o).splits.foldl (fun s p => settle s { o with split := some p.num }) s) { o with split := none }

/-- The word that waits to be injected into a stream that a test selects is given up: no command of the debugger is in
progress (R366, R369; log entry 54). -/
def dropInject (s : State) (sel : Who → Bool) : State :=
  if s.inject.any fun x => sel x.1 then { s with inject := none, injectNo := none, dbgBusy := false } else s

/-- A workgroup leaves with a step of one of its warps or an injection into one under way: no command of the debugger is in
progress (R366). -/
def dropStep (s : State) (core slot : Nat) : State :=
  let s := dropInject s fun o => o.core == core && o.slot == slot
  if (getWg s core slot).warps.any fun w => w.2.step.isSome then { s with dbgBusy := false } else s

/-- The entry is a store or an atomic that has been executed, which an abort still performs (R356 step 2). -/
def storeEntry (b : BufEntry) : Bool :=
  match b.effect with
  | .store _ _ => true | .atomic _ _ _ _ _ _ => true
  | .barv _ => false | .binit _ _ => false | .tdef _ _ => false | .engine _ => false | .cpyc _ => false
  | .mclose _ _ => false | .tspawn _ _ _ => false | .tsucc _ _ => false | .lateStore _ _ _ _ _ => false
  | .lateAtomic _ _ _ _ _ _ _ => false

/-- The class units, latches and streams of a workgroup are stopped, and its commands are cancelled (R356 steps 1 and
2); stores that the scoreboard holds back stay buffered. Copies and chains stop as by CPYC; matrix and collective commands run on. A request to pre-empt it is met (R345). -/
def stopWg (s : State) (core slot : Nat) (phase : WgPhase) : State :=
  let quiet := fun (w : Warp) =>
    { w with main := { w.main with wait := .none, out := [], marked := false, frame := none }, splits := [],
             conc := none, pending := none, stack := [], suspended := false, live := 0, stop := 0, step := none,
             buf := w.buf.filter storeEntry, qended := true }
  let s := dropStep s core slot
  let s := preLeft (updWg s core slot fun g => { g with phase := phase, warps := tmap quiet g.warps, latches := [] }) core slot
  updCore s core fun c =>
    { c with
      ops := c.ops.map fun p =>
        if p.who.slot == slot then
          match p.kind with
          | .cpy => { p with cancelled := true } | .cpyg => { p with cancelled := true }
          | .cpyx => { p with cancelled := true } | .chain => { p with cancelled := true }
          | .mload => p | .mma => p | .mgrad => p | .mstore => p | .coll => p
        else p
      waiting := c.waiting.filter fun p => p.who.slot != slot }

/-- The record of a trap (R357). -/
def trapRecord (s : State) (o : Who) (kind : Nat) (r : TrapRegs) (nsplit : Nat) (splits : List Int) : FaultRecord :=
  let g := wgOf s o
  let tc := r.tcause.toNat
  { cause := BitVec.ofNat 8 tc, kind := kind, core := o.core, wid := o.warp, slot := o.slot, ctx := g.ctx,
    flags := (tc >>> 8) % 32, nsplit := nsplit, tseq := g.tseq, tpc := r.tpc, taddr := r.taddr, tlanes := r.tlanes,
    tinfo := r.tinfo, splits := splits }

/-- The entry's handler address (R354): none when header bytes 48–51 are zero. -/
def handlerOf (g : Wg) : Option Addr :=
  if g.hdr.trap = 0 then none else some (g.entry + g.hdr.trap.signExtend 56)

/-- Members of set g (0–3) or of the block (4): the live warps (R103). -/
def members (g : Wg) (k : Nat) : List Nat :=
  (g.warps.filter fun e =>
    e.2.live != 0 && (k == 4 || (decide (e.1 < g.hdr.warps) && (g.hdr.sets.getD k 0).getLsbD e.1))).map Prod.fst

/-- The stores and atomics of the buffered entries of one warp, in its program order (R265 step 1, R356 step 2); a word that the
commit is still to check has not been executed (R266). -/
def flushEntry (s : State) (b : BufEntry) : State :=
  match b.effect with
  | .store pol ls => ls.foldl (fun s l => storeLoc s b.who pol l.1 l.2.1 l.2.2) s
  | .atomic op pol n ls _ _ => ls.foldl (fun s x => (atomicLoc s b.who pol op n x).1) s
  | .barv _ => s | .binit _ _ => s | .tdef _ _ => s | .engine _ => s | .cpyc _ => s | .mclose _ _ => s
  | .tspawn _ _ _ => s | .tsucc _ _ => s
  | .lateStore _ _ _ _ _ => s | .lateAtomic _ _ _ _ _ _ _ => s

/-- A core-path access to scratchpad [lo, hi) of a workgroup must wait (R212). -/
def sbBlocks (s : State) (core slot lo hi : Nat) (store : Bool) : Bool :=
  (getCore s core).sb.any fun e =>
    e.slot == slot && !e.floor && (e.write || store) && decide (e.lo < hi) && decide (lo < e.hi)

/-- A scratchpad access at a commit overlaps a scoreboard entry (R216). -/
def entryBlocked (s : State) (b : BufEntry) : Bool :=
  let hit := fun (l : Loc) (n : Nat) => match l with
    | .scratch off => sbBlocks s b.who.core b.who.slot off (off + n) true
    | .phys _ _ => false
  match b.effect with
  | .store _ ls => ls.any fun l => hit l.1 l.2.1
  | .atomic _ _ n ls _ _ => ls.any fun x => hit x.loc n
  | .barv _ => false | .binit _ _ => false | .tdef _ _ => false | .engine _ => false | .cpyc _ => false
  | .mclose _ _ => false | .tspawn _ _ _ => false | .tsucc _ _ => false | .lateStore _ _ _ _ _ => false
  | .lateAtomic _ _ _ _ _ _ _ => false

/-- Buffered stores and atomics of a workgroup, in ascending WID and program order (R356 step 2), as far as the scoreboard lets
them (R216): those after the first that must wait stay buffered. -/
def flushStores (s : State) (core slot : Nat) : State :=
  let one := fun (w : Nat) (p : State × Bool) (b : BufEntry) =>
    if p.2 || entryBlocked p.1 b then (p.1, true)
    else (updWarp (flushEntry p.1 b) core slot w fun x => { x with buf := x.buf.drop 1 }, false)
  ((getWg s core slot).warps.foldl (fun p e => e.2.buf.foldl (one e.1) p) (s, false)).1

/-- The task aborts (R356): its stores are performed, but for those that the scoreboard holds back until the end (R216), its
commands cancelled, the record posted. -/
def abortTask (s : State) (o : Who) (kind : Nat) (r : TrapRegs) : State :=
  let rec_ := trapRecord s o kind r 0 []
  let s := flushStores s o.core o.slot
  let s := stopWg s o.core o.slot .aborted
  postRecord s (wgOf s o).farea rec_

/-- The trap registers a trap writes (R353). -/
def trapRegs (s : State) (o : Who) (t : Trap) (word : BitVec 32) (tpc : Addr) (group : Bool) : TrapRegs :=
  { tcause := tcauseOf t group, tpc := addrWord tpc, taddr := t.addr,
    tlanes := t.lanes.getD ((streamOf s o).emask.setWidth 64), tinfo := t.info.getD (word.setWidth 64) }

/-- A stream takes a trap (R354): the warp's outstanding results return, the trap registers are written, the frame is recorded and
the handler entered; a trap inside the handler is a double fault (R355), and without a handler the task aborts. `latch`
names the latch whose single execution faulted (R106). -/
def takeTrap (s : State) (o : Who) (t : Trap) (word : BitVec 32) (tpc : Addr) (latch : Option Nat) : State :=
  let double := inHandler s o
  let s := settleAll s o
  let r := trapRegs s o t word tpc latch.isSome
  let s := updWarpOf s o fun w => { w with trap := r }
  if double then abortTask s o 4 r
  else
    match handlerOf (wgOf s o) with
    | none => abortTask s o 1 r
    | some h =>
      updWarpOf s o fun w =>
        putStream w o.split fun st =>
          { st with pc := h, wait := .none, marked := false, refused := none, skipBp := false,
                    frame := some { pc := tpc, mask := st.emask, depth := w.stack.length, latch := latch } }

/-! ### Latches (R103–R106) -/

def getLatch (s : State) (core slot g : Nat) : Option Latch := tgetD none (getWg s core slot).latches g
def setLatch (s : State) (core slot g : Nat) (l : Option Latch) : State :=
  updWg s core slot fun w => { w with latches := tput w.latches g l }

/-- The mask of a list of warps. -/
def warpMask (ws : List Nat) : Mask := maskOf ws

/-- Consider a gathering latch again after a member left or returned (R105): it fires when every member is parked, and
is Open when none stays parked. -/
def reviewLatch (s : State) (core slot g : Nat) : State :=
  match getLatch s core slot g with
  | none => s
  | some l =>
    if l.suspended || l.firing then s
    else
      let ms := members (getWg s core slot) g
      let parked := l.parked &&& warpMask ms
      if parked = 0 then setLatch s core slot g none
      else setLatch s core slot g (some { l with parked := parked, firing := decide (parked = warpMask ms) })

/-- Members leave a latch without effect (R105). -/
def unparkWarp (s : State) (core slot warp : Nat) : State :=
  match (getWarp s core slot warp).main.wait with
  | .latch g =>
    let s := updStream s (mainOf core slot warp) fun st => { st with wait := .none }
    match getLatch s core slot g with
    | none => s
    | some l =>
      let s := setLatch s core slot g (some { l with parked := l.parked &&& ~~~(laneBit warp), firing := false, wait := .none })
      reviewLatch s core slot g
  | _ => s

/-- A step of the debugger ends with the word of the stream that it selected (R197, R368): the warp halts again with STOP 5. A
word of another split leaves it under way. -/
def endStep (s : State) (o : Who) : State :=
  if (warpOf s o).step.any fun n => o.split.all (· == n) then
    { updWarpOf s o (fun w => { w with step := none, stop := 5 }) with dbgBusy := false }
  else s

/-- Every member of a suspended set resumes (R106): at the word after the latch's (`again` false), or parked at it
again, the handler's warp `h` aside. -/
def resumeGroup (s : State) (core slot g h : Nat) (again : Bool) : State :=
  match getLatch s core slot g with
  | none => s
  | some l =>
    let ms := (members (getWg s core slot) g).filter fun w => l.parked.getLsbD w && w != h
    let s := ms.foldl (fun s w => updWarp s core slot w fun wp =>
      { wp with suspended := false,
                main := if again then wp.main else { wp.main with wait := .none, pc := l.addr + 4, skipBp := false } }) s
    let s := if again then s else ms.foldl (fun s w => endStep s (mainOf core slot w)) s
    if again then
      let s := setLatch s core slot g
        (some { l with parked := warpMask ms, firing := false, suspended := false, wait := .none })
      reviewLatch s core slot g
    else setLatch s core slot g none

/-! ### Retirement (R99, R134) -/

/-- The word completes in a stream of a warp: the pc moves, RCNT and the quantum count, the wait mark parks (R99, R134, R265). -/
def retireIn (w : Warp) (sp : Option Nat) (mark : Bool) (pc : Addr) : Warp :=
  putStream { w with rcnt := w.rcnt + 1, qcount := w.qcount + 1 } sp fun st =>
    { st with pc := pc, wait := .none, marked := mark, refused := none, skipBp := false }

def retire (s : State) (o : Who) (mark : Bool) (pc : Addr) : State := updWarpOf s o fun w => retireIn w o.split mark pc

/-- The quantum of a warp ends (R265). -/
def endQuantum (s : State) (o : Who) : State :=
  if (wgOf s o).det then updWarpOf s o fun w => { w with qended := true } else s

/-! ### The result of a word's effect, and how a word executes -/

/-- What a word's effect comes to: it completes; it completes and the pc moves elsewhere; it traps; its stream waits
with the word not complete; its stream stops there (an exit, a halt); it completes with another stream at hand, whose
pc is set (the class loop). -/
inductive Res where
  | done (s : State)
  | jump (s : State) (pc : Addr)
  | trap (s : State) (t : Trap)
  | wait (s : State) (w : Wait)
  | left (s : State)
  | moved (s : State) (o : Who)

/-- The word is privileged under R64. -/
def privileged (x : BitVec 32) : Bool :=
  let op := (fieldOP x).toNat
  let n := (fieldB x).toNat
  op == 0xBC || (op == 0x15 && !(decide (32 ≤ n) && decide (n ≤ 47))) || (op == 0x14 && decide (48 ≤ n))

/-- A register named by an outstanding result (R98, R100). -/
def regDst (w : Warp) (r : Reg) : Dst :=
  match r with
  | .v n => .lane (w.window * 16 + n.val)
  | .s n => .s n.val
  | .k n => .k n.val
  | .tag => .tag
  | .zr => .none | .lid => .none | .wid => .none | .emask => .none | .tile => .none | .tseq => .none | .rcnt => .none

/-- Outstanding results that a stream's registers may hold: its own, and for a split those that the warp's S registers
were given before the concurrent loop. -/
def outsOf (s : State) (o : Who) : List OutRes :=
  (streamOf s o).out ++ (if o.split.isSome then (warpOf s o).main.out else [])

/-- The register holds an outstanding result that the word at hand would read (R100, R101): at one of its active lanes
for a lane register. -/
def outstanding (s : State) (o : Who) (r : Reg) : Bool :=
  let d := regDst (warpOf s o) r
  let perLane := match d with
    | .lane _ => true | .tag => true | .s _ => false | .k _ => false | .none => false
  d != .none && (outsOf s o).any fun e =>
    e.dst == d && e.vals.any fun v => !perLane || (activeMask s o).getLsbD v.1

/-- Lanes, as warp × 32 + lane, of rows left unaccumulated under the skip policy (R313, R316). -/
def missedLanes (op : EngOp) : List Nat :=
  if op.imm.testBit 0 then (op.rows.filter fun r => r.bank.isNone || r.failed).map fun r => 32 * r.warp + r.lane else []

/-- A lane's row has missed in a batch that no MWAIT has awaited: whether a read of its TAG sees MISS is not specified (R136). -/
def missOpen (s : State) (o : Who) (l : Nat) : Bool :=
  let n := 32 * o.warp + l
  ((wgOf s o).batches.any fun b => b.missed.contains n)
    || (getCore s o.core).ops.any fun p => p.who.slot == o.slot && (missedLanes p).contains n

/-- Some source of the word holds an outstanding result, or is a TAG whose MISS is not specified: so is what it reads (R100,
R136). -/
def openReads (s : State) (o : Who) (srcs : List Reg) : Bool :=
  srcs.any (outstanding s o) || (srcs.contains .tag && (lanesOf (activeMask s o)).any (missOpen s o))

/-- The legal scopes of an opcode: of a patched one, as its entry declares (R50, R66). -/
def scopesOf (s : State) (op : BitVec 8) : List Scope :=
  if 0xF5 ≤ op.toNat then
    match tget? s.micro op.toNat with
    | none => []
    | some e => [Scope.lane, .warp, .set, .block].filter fun c => e.scopes.getLsbD c.enc.toNat
  else legalScopes op

/-- Steps 5–9 of R67 for a word of a scope, with its operand check and its sources, then the concurrent-body fault of
R184 and R191: the first trap. -/
def decodeTrap (s : State) (o : Who) (x : BitVec 32) (sc : Scope) (operands : Bool) (srcs : List Reg) (conc : Bool) :
    Option Trap :=
  if privileged x && !(wgOf s o).sys then some (trapOf 0x04)
  else if !(scopesOf s (fieldOP x)).contains sc then some (trapOf 0x02)
  else if (sc == .set || sc == .block) && inClass s o then some (trapOf 0x13)
  else if !operands || (sc == .set && (warpOf s o).curSet.isNone) then some (trapOf 0x03)
  else
    match (if (wgOf s o).check then srcs.find? (outstanding s o) else none) with
    | some r => some (trapAt 0x1D (r.enc.setWidth 64))
    | none => if conc && inConc s o then some (trapOf 0x11) else none

/-- The latch that a word of a scope parks at (R104). -/
def latchOf (s : State) (o : Who) (sc : Scope) : Option Nat :=
  match sc with
  | .lane => none | .warp => none
  | .set => (warpOf s o).curSet
  | .block => some 4

/-- The trap of a word that its stream issued (R354); a member parked nowhere. -/
def trapHere (s : State) (o : Who) (t : Trap) (x : BitVec 32) : State :=
  endStep (takeTrap s o t x (streamOf s o).pc none) o

/-- A word that its stream issued completes as its effect says. -/
def finishOwn (o : Who) (x : BitVec 32) : Res → State
  | .done s => endStep (retire s o (fieldW x) ((streamOf s o).pc + 4)) o
  | .jump s pc => endStep (retire s o (fieldW x) pc) o
  | .trap s t => trapHere s o t x
  | .wait s w => updStream s o fun st => { st with wait := w, held := some x }
  | .left s => endStep s o
  | .moved s m => endStep (retire s m (fieldW x) (streamOf s m).pc) m

/-- Release every member of a fired latch at the next word (R104). -/
def releaseLatch (s : State) (core slot g : Nat) (mark : Bool) (pc : Addr) : State :=
  let ms := members (getWg s core slot) g
  let s := ms.foldl (fun s w =>
    let o := mainOf core slot w
    endStep (progress (retire s o mark pc) o) o) s
  setLatch s core slot g none

/-- The single execution of a latch completes as its effect says (R104–R106); `o` is the lowest member. -/
def finishFire (o : Who) (g : Nat) (x : BitVec 32) : Res → State
  | .done s => releaseLatch s o.core o.slot g (fieldW x) ((streamOf s o).pc + 4)
  | .jump s pc => releaseLatch s o.core o.slot g (fieldW x) pc
  | .trap s t =>
    let pc := (streamOf s o).pc
    match getLatch s o.core o.slot g with
    | none => takeTrap s o t x pc (some g)
    | some l =>
      let s := setLatch s o.core o.slot g (some { l with firing := false, suspended := true, wait := .none })
      let s := (members (wgOf s o) g).foldl (fun s w =>
        if w = o.warp then s else updWarp s o.core o.slot w fun wp => { wp with suspended := true }) s
      endStep (takeTrap s o t x pc (some g)) o
  | .wait s w =>
    match getLatch s o.core o.slot g with
    | none => s
    | some l => setLatch s o.core o.slot g (some { l with firing := true, wait := w })
  | .left s => s
  | .moved s _ => s

/-- Park a member at a latch (R105); at another address every parked member and the arriving one diverge, up to the first
whose trap aborts the task (R356). The table of R105 has no row for a word that the handler of a suspended set issues at the
set's own latch: at another address it diverges for every member, at the same one it parks and the latch is not reviewed
(DESIGN CHOICE, log entry 61). -/
def park (s : State) (o : Who) (g : Nat) (i : Instr) (x : BitVec 32) (eager : Bool) : State :=
  let pc := (streamOf s o).pc
  match getLatch s o.core o.slot g with
  | some l =>
    if l.addr = pc ∨ l.parked = 0 then
      let s := updStream s o fun st => { st with wait := .latch g }
      let s := setLatch s o.core o.slot g (some { l with addr := pc, instr := i, eager := eager, parked := l.parked ||| laneBit o.warp })
      reviewLatch s o.core o.slot g
    else
      let all := (members (wgOf s o) g).filter fun w => l.parked.getLsbD w || w == o.warp
      let s := setLatch s o.core o.slot g none
      all.foldl (fun s w =>
        let m := mainOf o.core o.slot w
        if (wgOf s o).phase = .aborted then s
        else trapHere s m (trapAt 0x12 (addrWord l.addr)) (if w = o.warp then x else encode l.instr)) s
  | none =>
    let s := updStream s o fun st => { st with wait := .latch g }
    let s := setLatch s o.core o.slot g
      (some { addr := pc, instr := i, eager := eager, parked := laneBit o.warp, firing := false, wait := .none,
              suspended := false })
    reviewLatch s o.core o.slot g

/-- No debugger halts the warp, but for the step under way (R367, R368). -/
def runs (w : Warp) : Bool := w.stop == 0 || w.step.isSome

/-- No member of a set or block is halted (R105). -/
def noneHalted (g : Wg) (k : Nat) : Bool := (members g k).all fun n => runs (tgetD .init g.warps n)

/-- The latch fires as its last member parks (R104, R105), in its lowest member: in free mode where that is the stream at
hand; in deterministic mode no word does before the commit of the round (R266; log entry 7). -/
def firesNow (s : State) (o : Who) (g : Nat) : Option Who :=
  match getLatch s o.core o.slot g with
  | none => none
  | some l =>
    let w := wgOf s o
    match members w g with
    | [] => none
    | n :: _ =>
      if l.firing && noneHalted w g && !w.det && n == o.warp then some (mainOf o.core o.slot n) else none

/-- The result of an injected word (R369): no pc, class or RCNT change; a trap becomes ERR and ECAUSE. -/
def finishInject (s0 : State) (r : Res) : State :=
  match r with
  | .done s => { s with inject := none, injectNo := none, dbgBusy := false }
  | .jump s _ => { s with inject := none, injectNo := none, dbgBusy := false }
  | .left s => { s with inject := none, injectNo := none, dbgBusy := false }
  | .moved s _ => { s with inject := none, injectNo := none, dbgBusy := false }
  | .wait s _ => s
  | .trap _ t => { s0 with inject := none, injectNo := none, dbgBusy := false, dbgErr := true, dbgCause := t.cause }

/-- Where a source holds an outstanding result, the word's choices (R100) get an argument of their own. -/
def freshReads (s : State) (o : Who) (srcs : List Reg) : State := if openReads s o srcs then bump s else s

/-- How any word executes: the checks of R67, then at lane or warp scope its effect, at set or block scope the latch
(R104); the single execution of a latch; or a debugger's injection (R369, R187). `eager` marks the words of R266. -/
def runWord (i : Instr) (sc : Scope) (operands : State → Who → Bool) (srcs : List Reg) (conc eager : Bool)
    (eff : State → Who → Res) (s : State) : Host.Outcome State Fault Refusal :=
  let o := s.cur.who
  let x := encode i
  match s.cur.mode with
  | .fire =>
    match latchOf s o sc with
    | none => .next s
    | some g => .next (finishFire o g x (eff (freshReads s o srcs) o))
  | .inject m =>
    if m = 0 then .next { s with inject := none, dbgBusy := false }
    else
      match decodeTrap s o x sc (operands s o) srcs conc with
      | some t => .next (finishInject s (.trap s t))
      | none => .next (finishInject s (eff (freshReads s o srcs) o))
  | .issue =>
    match decodeTrap s o x sc (operands s o) srcs conc with
    | some t => .next (trapHere s o t x)
    | none =>
      match latchOf s o sc with
      | none => .next (finishOwn o x (eff (freshReads s o srcs) o))
      | some g =>
        let s := park s o g i x eager
        match firesNow s o g with
        | none => .next (endQuantum s o)
        | some m => .next (finishFire m g x (eff (freshReads (endQuantum s o) m srcs) m))

end Sys2Proof.Machine
end

