-- ==== Sys2Proof/Machine/Baton.lean ====
section
/-! DEFINITION. The baton of a core: granting it, passing it in rotation order, and the groups that end (R302, R309,
R310). -/

namespace Sys2Proof.Machine

/-- Rotation order: ascending slot, then ascending g (R310). -/
def groupBefore (a b : Group) : Bool := decide (a.slot < b.slot) || (a.slot == b.slot && decide (a.g < b.g))

/-- The matrix commands (R306). -/
def isMatrix (k : EngKind) : Bool :=
  match k with
  | .mload => true | .mma => true | .mgrad => true | .mstore => true
  | .cpy => false | .cpyg => false | .cpyx => false | .chain => false | .coll => false

/-- Every accumulator row becomes +0, behind the matrix commands accepted so far, which keep the rows they work on (R302,
R306); no workgroup has rows of its own left there that a save would keep. -/
def clearAcc (c : Core) : Core :=
  let ids := (c.ops.filter fun p => isMatrix p.kind).map EngOp.id
  { c with acc := [], accOld := if ids.isEmpty then c.accOld else c.accOld ++ [(ids.foldl max 0 + 1, c.acc)],
           wgs := tmap (fun g => g.map fun g => { g with accRows := [] }) c.wgs }

/-- Grant the baton; a group of another context than the last holder's finds the accumulator store clear (R302). -/
def grantBaton (c : Core) (g : Group) (ctx : Nat) : Core :=
  let c := if c.batonCtx = some ctx then c else clearAcc c
  { c with baton := some g, batonCtx := some ctx, waiters := c.waiters.filter fun q => q != g }

/-- The lowest group of a list in rotation order. -/
def lowestGroup (gs : List Group) : Option Group :=
  gs.foldl (fun m g => match m with
    | none => some g
    | some h => if groupBefore g h then some g else some h) none

/-- The waiting group that PASS gives the baton to (R310). -/
def nextGroup (waiters : List Group) (g : Group) : Option Group :=
  match lowestGroup (waiters.filter fun q => groupBefore g q) with
  | some q => some q
  | none => lowestGroup waiters

/-- The context of a group's workgroup. -/
def groupCtx (c : Core) (g : Group) : Nat := ((tgetD none c.wgs g.slot).map Wg.ctx).getD 0

/-- The workgroup of a granted group may issue again (R310); accumulator rows that a save kept for it come back now, and count as
written since its last TAKE still, so that another save keeps them (R302). -/
def giveBaton (c : Core) (g : Group) : Core :=
  let c := grantBaton c g (groupCtx c g)
  match tgetD none c.wgs g.slot with
  | none => c
  | some w =>
    { c with acc := w.accSaved.foldl (fun t e => tput t e.1 e.2) c.acc,
             wgs := tput c.wgs g.slot (some { w with batonWait := false, accSaved := [],
                                                     accRows := (w.accRows ++ w.accSaved.map Prod.fst).eraseDups }) }

/-- PASS by a group (R310). -/
def passBaton (c : Core) (g : Group) : Core :=
  match nextGroup c.waiters g with
  | none => { c with baton := none }
  | some q => giveBaton c q

/-- A group that ended or dissolved gives up the baton and its place among the waiters (R310). -/
def dropGroup (c : Core) (g : Group) : Core :=
  let c := { c with waiters := c.waiters.filter fun q => q != g }
  if c.baton = some g then passBaton c g else c

/-- The sets of a workgroup that have no live member left (R103, R310). -/
def dropDissolved (s : State) (core slot : Nat) : State :=
  (List.range 4).foldl (fun s g =>
    if (members (getWg s core slot) g).isEmpty then updCore s core fun c => dropGroup c { slot := slot, g := g } else s) s

/-- Every group of a workgroup that leaves its core (R310). -/
def dropGroups (s : State) (core slot : Nat) : State :=
  (List.range 5).foldl (fun s g => updCore s core fun c => dropGroup c { slot := slot, g := g }) s

end Sys2Proof.Machine
end

