-- ==== Sys2Proof/Machine/Operands.lean ====
section
/-! DEFINITION. Operand forms: which registers a position admits at each scope (R55, R56, R130), reading and writing them
(R131–R135, R191), and outstanding results (R98–R101). -/

namespace Sys2Proof.Machine

/-! ### Which registers a position admits -/

/-- The physical lane register of a V field value, under the warp's window (R56, R130). -/
def physV (w : Warp) (n : Nat) : Nat := w.window * 16 + n

/-- The V field value lies within the allotment (R130). -/
def vInside (s : State) (o : Who) (n : Nat) : Bool := decide (physV (warpOf s o) n < (wgOf s o).hdr.regs)

/-- A lane-scope source (R55). -/
def laneSrc (s : State) (o : Who) (r : Reg) : Bool :=
  match r with
  | .v n => vInside s o n.val
  | .s _ => true | .k _ => true | .zr => true | .lid => true | .wid => true | .emask => true | .tile => true
  | .tseq => true | .rcnt => true | .tag => true

/-- A lane-scope destination (R55): a V register, TAG or ZR. -/
def laneDst (s : State) (o : Who) (r : Reg) : Bool :=
  match r with
  | .v n => vInside s o n.val
  | .zr => true | .tag => true
  | .s _ => false | .k _ => false | .lid => false | .wid => false | .emask => false | .tile => false | .tseq => false
  | .rcnt => false

/-- A scalar source at warp scope (R55). -/
def scalarSrc (r : Reg) : Bool :=
  match r with
  | .s _ => true | .k _ => true | .zr => true | .wid => true | .emask => true | .tile => true | .tseq => true
  | .rcnt => true
  | .v _ => false | .lid => false | .tag => false

/-- A scalar destination at warp scope: an S or K register or ZR (R55). -/
def scalarDst (r : Reg) : Bool :=
  match r with
  | .s _ => true | .k _ => true | .zr => true
  | .v _ => false | .lid => false | .wid => false | .emask => false | .tile => false | .tseq => false | .rcnt => false
  | .tag => false

def isK (r : Reg) : Bool := match r with
  | .k _ => true
  | .v _ => false | .s _ => false | .zr => false | .lid => false | .wid => false | .emask => false | .tile => false
  | .tseq => false | .rcnt => false | .tag => false

def isS (r : Reg) : Bool := match r with
  | .s _ => true
  | .v _ => false | .k _ => false | .zr => false | .lid => false | .wid => false | .emask => false | .tile => false
  | .tseq => false | .rcnt => false | .tag => false

/-- A scalar destination of a word whose entry names S and K registers alone (R55). -/
def sdOk (r : Reg) : Bool := isS r || isK r

/-- A source at a scope (R55): at set and block scope K registers are illegal. -/
def srcOk (s : State) (o : Who) (sc : Scope) (r : Reg) : Bool :=
  match sc with
  | .lane => laneSrc s o r
  | .warp => scalarSrc r
  | .set => scalarSrc r && !isK r
  | .block => scalarSrc r && !isK r

/-- A destination at a scope (R55). -/
def dstOk (s : State) (o : Who) (sc : Scope) (r : Reg) : Bool :=
  match sc with
  | .lane => laneDst s o r
  | .warp => scalarDst r
  | .set => scalarDst r && !isK r
  | .block => scalarDst r && !isK r

/-- The V register, or the scalar source, of a position of RDFL, VOTE and CKEY (R55, R177). -/
def anyV (s : State) (o : Who) (r : Reg) : Bool :=
  match r with
  | .v n => vInside s o n.val
  | .s _ => scalarSrc r | .k _ => scalarSrc r | .zr => scalarSrc r | .lid => scalarSrc r | .wid => scalarSrc r
  | .emask => scalarSrc r | .tile => scalarSrc r | .tseq => scalarSrc r | .rcnt => scalarSrc r | .tag => scalarSrc r

/-- The operands of a three-register word are of their classes. -/
def abd (d a b : Reg) (sc : Scope) (s : State) (o : Who) : Bool := dstOk s o sc d && srcOk s o sc a && srcOk s o sc b

/-- The operands of a word with a destination and one source. -/
def ad (d a : Reg) (sc : Scope) (s : State) (o : Who) : Bool := dstOk s o sc d && srcOk s o sc a

/-- Two source operands. -/
def ab (a b : Reg) (sc : Scope) (s : State) (o : Who) : Bool := srcOk s o sc a && srcOk s o sc b

/-! ### Reading -/

/-- TAG as a register holds it, 0x0FFF from dispatch (R135, R137). -/
def tagOf (w : Warp) (l : Nat) : BitVec 16 := tgetD 0x0FFF w.tag l

/-- TILE: bytes 16–23 of the task record (R133). -/
def tileOf (g : Wg) : Word := BitVec.ofNat 64 (field g.record 16 23)

/-- A register's own value, outstanding results aside: at lane l for V registers, LID and TAG. -/
def held (s : State) (o : Who) (r : Reg) (l : Nat) : Word :=
  let w := warpOf s o
  match r with
  | .v n => tgetD 0 w.v (physV w n.val * 32 + l)
  | .s n => (sdCopy w o.split n.val).getD (tgetD 0 w.s n.val)
  | .k n => tgetD 0 (streamIn w o.split).k n.val
  | .zr => 0
  | .lid => BitVec.ofNat 64 l
  | .wid => BitVec.ofNat 64 o.warp
  | .emask => (activeMask s o).setWidth 64
  | .tile => tileOf (wgOf s o)
  | .tseq => (wgOf s o).tseq
  | .rcnt => w.rcnt
  | .tag => (tagOf w l).setWidth 64

/-- The lane under which a register's outstanding value is kept: 0 for a scalar. -/
def laneKey (r : Reg) (l : Nat) : Nat :=
  match r with
  | .v _ => l | .tag => l
  | .s _ => 0 | .k _ => 0 | .zr => 0 | .lid => 0 | .wid => 0 | .emask => 0 | .tile => 0 | .tseq => 0 | .rcnt => 0

/-- An unspecified choice of the step at hand, by a number of its own (log entry 5). -/
def pick (s : State) (k : Nat) : Bool := Config.freeBool (s.free * 16384 + k)

/-- The outstanding value of a register at a lane, if there is one (R98). -/
def outVal (s : State) (o : Who) (r : Reg) (l : Nat) : Option Word :=
  let d := regDst (warpOf s o) r
  if d = .none then none
  else (outsOf s o).findSome? fun e => if e.dst = d then tget? e.vals (laneKey r l) else none

/-- MISS stands in the TAG of row n, as warp × 32 + lane. -/
def missStood (g : Wg) (n : Nat) : Bool := (tagOf (tgetD .init g.warps (n / 32)) (n % 32)).getLsbD 15

/-- MISS stands in a lane's TAG from a batch that an MWAIT has awaited: it stood there before every batch, not yet awaited, that
has set it since (R136). -/
def missAwaited (s : State) (o : Who) (l : Nat) : Bool :=
  let n := 32 * o.warp + l
  missStood (wgOf s o) n && (wgOf s o).batches.all fun b => !(b.marked && b.missed.contains n) || b.stood.contains n

/-- TAG as a lane reads it: MISS set or not while that is not specified (R136). -/
def seenTag (s : State) (o : Who) (l : Nat) (v : Word) : Word :=
  if missOpen s o l && !missAwaited s o l then (if pick s (12160 + l) then v ||| 0x8000 else v &&& 0x7FFF) else v

/-- A write of TAG (R135): KEY from the low bits, MISS cleared. -/
def tagWrite (v : Word) : BitVec 16 := v.setWidth 16 &&& 0x0FFF

/-- A result as it will read once its register holds it: TAG keeps KEY alone (R135). -/
def asHeld (r : Reg) (v : Word) : Word := if r = .tag then (tagWrite v).setWidth 64 else v

/-- A register as a word reads it: where a result is outstanding, its value before or the result (R100). -/
def rd (s : State) (o : Who) (r : Reg) (l : Nat) : Word :=
  let v := match outVal s o r l with
    | none => held s o r l
    | some v => if pick s (8192 + r.enc.toNat * 32 + laneKey r l) then asHeld r v else held s o r l
  if r = .tag then seenTag s o l v else v

/-- A scalar operand. -/
def rdS (s : State) (o : Who) (r : Reg) : Word := rd s o r 0

/-! ### Writing -/

/-- An earlier outstanding result of a register that a later instruction writes is discarded (R100), lane by lane. -/
def discard (d : Dst) (ls : List Nat) (out : List OutRes) : List OutRes :=
  out.map fun e => if e.dst = d then { e with vals := e.vals.filter fun v => !ls.contains v.1 } else e

def discardIn (w : Warp) (sp : Option Nat) (d : Dst) (ls : List Nat) : Warp :=
  let f := fun (st : Stream) => { st with out := discard d ls st.out }
  let w := putStream w sp f
  if sp.isSome then { w with main := f w.main } else w

/-- Write a register of one warp: by lane for a V register or TAG, once (lane 0) for a scalar; nothing for ZR. -/
def wrWarp (o : Who) (r : Reg) (vals : List (Nat × Word)) (w : Warp) : Warp :=
  match r with
  | .v n =>
    let i := physV w n.val
    let w := discardIn w o.split (.lane i) (vals.map Prod.fst)
    { w with v := vals.foldl (fun t e => tput t (i * 32 + e.1) e.2) w.v }
  | .tag =>
    let w := discardIn w o.split .tag (vals.map Prod.fst)
    { w with tag := vals.foldl (fun t e => tput t e.1 (tagWrite e.2)) w.tag }
  | .s n =>
    let w := discardIn w o.split (.s n.val) [0]
    vals.foldl (fun w e => putS w o.split n.val e.2) w
  | .k n =>
    let w := discardIn w o.split (.k n.val) [0]
    putStream w o.split fun st => { st with k := vals.foldl (fun t e => tput t n.val e.2) st.k }
  | .zr => w | .lid => w | .wid => w | .emask => w | .tile => w | .tseq => w | .rcnt => w

/-- The streams that a word of a scope writes (R104): its own, or every member's main stream. -/
def targets (s : State) (o : Who) (sc : Scope) : List Who :=
  match sc with
  | .lane => [o]
  | .warp => [o]
  | .set =>
    match (warpOf s o).curSet with
    | none => [o]
    | some g => (members (wgOf s o) g).map (mainOf o.core o.slot)
  | .block => (members (wgOf s o) 4).map (mainOf o.core o.slot)

/-- A fixed-latency result: lane values at lane scope. -/
def wrLanes (s : State) (o : Who) (r : Reg) (vals : List (Nat × Word)) : State := updWarpOf s o (wrWarp o r vals)

/-- A fixed-latency scalar result, to every member at set and block scope. -/
def wrScalar (s : State) (o : Who) (sc : Scope) (r : Reg) (v : Word) : State :=
  (targets s o sc).foldl (fun s m => updWarpOf s m (wrWarp m r [(0, v)])) s

/-- A variable-latency result of a number becomes outstanding in its register (R98, R100), with the conditions that its
return reports. -/
def wrLateAs (n : Nat) (o : Who) (r : Reg) (vals : List (Nat × Word)) (fl : BitVec 5) (w : Warp) : Warp :=
  let d := regDst w r
  let w := if d = .none then w else discardIn w o.split d (vals.map Prod.fst)
  putStream w o.split fun st =>
    { st with out := st.out ++ [{ num := n, dst := d, vals := if d = .none then [] else vals, flags := fl }] }

/-- The one result of a variable-latency word. -/
def wrLate (o : Who) (r : Reg) (vals : List (Nat × Word)) (fl : BitVec 5) (w : Warp) : Warp :=
  wrLateAs (nextOut w) o r vals fl w

def lateLanes (s : State) (o : Who) (r : Reg) (vals : List (Nat × Word)) (fl : BitVec 5) : State :=
  updWarpOf s o (wrLate o r vals fl)

def lateScalar (s : State) (o : Who) (sc : Scope) (r : Reg) (v : Word) : State :=
  (targets s o sc).foldl (fun s m => updWarpOf s m (wrLate m r [(0, v)] 0)) s

/-! ### Per-lane computation -/

/-- The active lanes of the word at hand, ascending. -/
def actives (s : State) (o : Who) : List Nat := lanesOf (activeMask s o)

/-- The effect of a word with a fixed-latency result at lane or warp scope (R139): `f` on the values of the old D, A
and B, once for each active lane or once for the warp. -/
def compute (d a b : Reg) (sc : Scope) (f : Word → Word → Word → Word) (s : State) (o : Who) : Res :=
  match sc with
  | .lane => .done (wrLanes s o d ((actives s o).map fun l => (l, f (rd s o d l) (rd s o a l) (rd s o b l))))
  | .warp => .done (wrScalar s o sc d (f (rdS s o d) (rdS s o a) (rdS s o b)))
  | .set => .done s
  | .block => .done s

/-- The same for a word that also reports floating-point conditions (R82, R153), none where D is ZR or no lane is
active but what the values give. -/
def computeF (d a b : Reg) (sc : Scope) (f : Word → Word → Word → Word × BitVec 5) (s : State) (o : Who) : Res :=
  match sc with
  | .lane =>
    let rs := (actives s o).map fun l => (l, f (rd s o d l) (rd s o a l) (rd s o b l))
    let fl := rs.foldl (fun x r => x ||| r.2.2) 0
    .done (updWarpOf (wrLanes s o d (rs.map fun r => (r.1, r.2.1))) o fun w => { w with fflags := w.fflags ||| fl })
  | .warp =>
    let r := f (rdS s o d) (rdS s o a) (rdS s o b)
    .done (updWarpOf (wrScalar s o sc d r.1) o fun w => { w with fflags := w.fflags ||| r.2 })
  | .set => .done s
  | .block => .done s

/-- The same for a variable-latency result (R98): its conditions come with its return. -/
def computeLate (d a b : Reg) (sc : Scope) (f : Word → Word → Word → Word × BitVec 5) (s : State) (o : Who) : Res :=
  match sc with
  | .lane =>
    let rs := (actives s o).map fun l => (l, f (rd s o d l) (rd s o a l) (rd s o b l))
    let fl := rs.foldl (fun x r => x ||| r.2.2) 0
    .done (lateLanes s o d (rs.map fun r => (r.1, r.2.1)) fl)
  | .warp =>
    let r := f (rdS s o d) (rdS s o a) (rdS s o b)
    .done (lateLanes s o d [(0, r.1)] r.2)
  | .set => .done s
  | .block => .done s

/-- A write to an S register, which a concurrent body forbids (R191). -/
def writesS (sc : Scope) (d : Reg) : Bool := sc == .warp && isS d

end Sys2Proof.Machine
end

