-- ==== Sys2Proof/Machine/Mem.lean ====
section
/-! DEFINITION. Virtual memory and the core path: the walk (R223–R226), TLBs (R228, R229), permissions (R227, R234),
page-fault service (R236), the access of one lane with its faults (R244, R247), the scoreboard (R209–R212), buffered
state (R265), and fetching through the instruction cache (R69). -/

namespace Sys2Proof.Machine

/-! ### The walk -/

/-- Where a walk ends (R226): at a leaf, or at an absent or malformed entry, with the entry's address. -/
inductive WalkEnd where
  | leaf (level : Nat) (pte : Word) (pteAt : Nat)
  | stop (level : Nat) (malf : Bool) (pte : Word) (pteAt : Nat)
  deriving DecidableEq, Repr

/-- Low virtual-address bits that a leaf of a level keeps (R224). -/
def pageBits (level : Nat) : Nat :=
  match level with
  | 1 => 36 | 2 => 29 | 3 => 21 | _ => 16

/-- Entries of a level's table, as bits of index (R224). -/
def indexBits (level : Nat) : Nat :=
  match level with
  | 1 => 20 | 2 => 7 | 3 => 8 | _ => 5

/-- Fields of a page-table entry (R225). -/
def pteValid (e : Word) : Bool := e.getLsbD 63
def pteLeaf (e : Word) : Bool := e.getLsbD 62
def pteState (e : Word) : Nat := bits e 61 60
def pteOwner (e : Word) : Nat := bits e 59 52
def pteX (e : Word) : Bool := e.getLsbD 49
def pteW (e : Word) : Bool := e.getLsbD 48
def pteR (e : Word) : Bool := e.getLsbD 2
def pteAddr (e : Word) : Nat := bits e 47 8 * 256
def pteDemand (e : Word) : Bool := e.getLsbD 0

/-- A valid entry of a level is malformed (R226). -/
def malformed (level : Nat) (e : Word) : Bool :=
  bits e 51 50 != 0 || bits e 7 3 != 0 || e.getLsbD 1 ||
  (if pteLeaf e then
    pteState e == 3 || (pteState e == 2 && decide (pteOwner e > 159)) || pteAddr e % 2 ^ pageBits level != 0
      || homeOf (pteAddr e) == .unbacked || (inAperture (pteAddr e) && pteState e != 1)
  else
    level == 4 || pteState e != 0 || pteOwner e != 0 || pteX e || pteW e || pteR e
      || pteAddr e % (8 * 2 ^ indexBits (level + 1)) != 0 || homeOf (pteAddr e) != .device)

/-- The walk from a table of a level (R224); `n` levels are left. -/
def walkFrom (m : DevMemory) (va : Nat) (n level table : Nat) : WalkEnd :=
  match n with
  | 0 => .stop level false 0 table
  | k + 1 =>
    let at_ := table + 8 * (va / 2 ^ pageBits level % 2 ^ indexBits level)
    let e := BitVec.ofNat 64 (natOfBytes (m.rdN at_ 8))
    if !pteValid e then .stop level false e at_
    else if malformed level e then .stop level true e at_
    else if pteLeaf e then .leaf level e at_
    else walkFrom m va k (level + 1) (pteAddr e)

def walk (s : State) (ctx va : Nat) : WalkEnd :=
  walkFrom s.mem va 4 1 (bits (getCtx s ctx).root 47 23 * 2 ^ 23)

/-- The first entry of a walk whose sector fails its check (R408), with `n` levels left. -/
def walkBadFrom (s : State) (va n level table : Nat) : Option Nat :=
  match n with
  | 0 => none
  | k + 1 =>
    let at_ := table + 8 * (va / 2 ^ pageBits level % 2 ^ indexBits level)
    let e := BitVec.ofNat 64 (natOfBytes (s.mem.rdN at_ 8))
    match badSector s at_ 8 with
    | some b => some b
    | none => if !pteValid e || malformed level e || pteLeaf e then none else walkBadFrom s va k (level + 1) (pteAddr e)

def walkBad (s : State) (ctx va : Nat) : Option Nat := walkBadFrom s va 4 1 (bits (getCtx s ctx).root 47 23 * 2 ^ 23)

/-! ### TLBs (R228, R229) -/

def tlbFind (es : List TlbEnt) (ctx va : Nat) : Option TlbEnt :=
  es.find? fun e => e.ctx == ctx && e.page == va / 2 ^ pageBits e.level

/-- Keep at most n entries, the newest: a full TLB drops its oldest [DESIGN CHOICE, log entry 61: R228 does not say which]. -/
def keepLast {α : Type} (n : Nat) (es : List α) : List α := es.drop (es.length - n)

/-- A TLB entry translates an address of [lo, hi) of a context. -/
def tlbMeets (ctx lo hi : Nat) (e : TlbEnt) : Bool :=
  e.ctx == ctx && decide (e.page * 2 ^ pageBits e.level < hi) && decide (lo < (e.page + 1) * 2 ^ pageBits e.level)

/-- The translation is one that the shootdown under way covers: accesses issued after it walk the table again (R230). -/
def shotDown (s : State) (e : TlbEnt) : Bool := s.shootOp.any fun p => tlbMeets p.ctx p.lo p.hi e

/-- A translation enters the TLB of the core and of its die, in place of what they held for the page, and of the oldest where
they are full: the spec does not say which entry a full TLB drops (DESIGN CHOICE, log entry 61). One that the shootdown under
way covers is not kept. -/
def tlbFill (s : State) (core ctx va level : Nat) (pte : Word) : State :=
  let e : TlbEnt := { ctx := ctx, level := level, page := va / 2 ^ pageBits level, pte := pte }
  if shotDown s e then s else
  let add := fun (n : Nat) (es : List TlbEnt) =>
    if es.contains e then es
    else keepLast n ((es.filter fun x => !(x.ctx == ctx && x.page == va / 2 ^ pageBits x.level)) ++ [e])
  let s := updCore s core fun c => { c with tlb := add 64 c.tlb }
  { s with tlb2 := tupd [] s.tlb2 (dieOf core) (add 4096) }

/-- The translation of an address that a core's TLB or its die's holds (R228). -/
def tlbHit (s : State) (core ctx va : Nat) : Option TlbEnt :=
  match tlbFind (getCore s core).tlb ctx va with
  | some e => some e
  | none => tlbFind (tgetD [] s.tlb2 (dieOf core)) ctx va

/-- The entry that an access translates through: where a TLB holds another than memory does, either (R229). Where the walk would
meet a sector that fails its check, the one held. -/
def lookup (s : State) (core ctx va : Nat) : State × WalkEnd :=
  let w := walk s ctx va
  let fresh := fun (s : State) => match w with
    | .leaf level pte _ => (tlbFill s core ctx va level pte, w)
    | .stop _ _ _ _ => (s, w)
  match tlbHit s core ctx va with
  | none => fresh s
  | some e =>
    let same := match w with
      | .leaf level pte _ => level == e.level && pte == e.pte
      | .stop _ _ _ _ => false
    if same then fresh s
    else if (walkBad s ctx va).isSome then (s, .leaf e.level e.pte 0)
    else if pick s 0 then (bump s, .leaf e.level e.pte 0)
    else fresh (bump s)

/-! ### Translation and its checks -/

/-- What an access needs of its page (R227). -/
inductive Need where
  | read | write | both | fetch
  deriving DecidableEq, Repr

def permitted (n : Need) (e : Word) : Bool :=
  match n with
  | .read => pteR e | .write => pteW e | .both => pteR e && pteW e | .fetch => pteX e

/-- What translation gives: a physical address and whether the page writes back; a fault; peer traffic while it is refused
(R399); a page that page-fault service may supply (R236); a page whose state PGX is changing (R235). -/
inductive Tr where
  | ok (pa : Nat) (wb : Bool)
  | fault (cause : BitVec 8) (malf : Bool) (level : Nat)
  | refused
  | serve
  | held
  deriving DecidableEq, Repr

/-- Page-fault service may supply the page of an absent entry (R225, R236; log entry 16). -/
def servable (s : State) (level : Nat) (malf : Bool) (pte : Word) : Bool :=
  !malf && level == 4 && pteDemand pte && (s.dsplit.getLsbD 0 || s.pgpool != 0)

/-- The page is held by a PGX (R235). -/
def pgxHolds (s : State) (ctx va : Nat) : Bool :=
  s.pgx.any fun p => p.ctx == ctx && p.va / 2 ^ pageBits p.level == va / 2 ^ pageBits p.level

/-- What a walk and the page's permissions give (R226, R227): a physical address with the entry, or how it ends. -/
inductive Walked where
  | ok (pa : Nat) (pte : Word)
  | ends (t : Tr)
  deriving DecidableEq, Repr

/-- Translate an address of a context for a core as far as the page's permissions (R226, R227). A walk whose entry lies in a
sector that fails its check ends in cause 0x0E (R408; log entry 55). -/
def resolve (s : State) (core ctx va : Nat) (need : Need) (refused : Bool) : State × Walked :=
  if pgxHolds s ctx va then (s, .ends .held)
  else
    match (if (tlbHit s core ctx va).isSome then none else walkBad s ctx va) with
    | some b => (integrityService s ctx b, .ends (.fault 0x0E false 0))
    | none =>
      let r := lookup s core ctx va
      match r.2 with
      | .stop level malf pte _ =>
        (r.1, .ends (if servable s level malf pte && !refused then .serve else .fault 0x09 malf level))
      | .leaf level pte _ =>
        (r.1, if permitted need pte then .ok (pteAddr pte + va % 2 ^ pageBits level) pte else .ends (.fault 0x0A false 0))

/-- Translate and check an address of a context for a core (R226, R227, R234, R399). -/
def translate (s : State) (core ctx va : Nat) (need : Need) (refused : Bool) : State × Tr :=
  let r := resolve s core ctx va need refused
  (r.1, match r.2 with
    | .ends t => t
    | .ok pa pte =>
      if pteState pte == 2 && pteOwner pte != core then .fault 0x0B false 0
      else if peerRefused s pa then .refused
      else .ok pa (pteState pte != 0))

/-- An address lies in the page of one whose service was refused (R236). -/
def inRefused (r : Option Word) (va : Nat) : Bool := r.any fun v => v.toNat / 65536 == va / 65536

/-- Service of an address's page was refused to the word that a stream executes, or that is injected into it. -/
def refusedTo (s : State) (o : Who) (va : Nat) : Bool :=
  inRefused (match s.cur.mode with
    | .inject _ => s.injectNo
    | .issue => (streamOf s o).refused
    | .fire => (streamOf s o).refused) va

/-- Begin page-fault service for an address (R236); two faults on one page share one. In host-assisted mode event 2 asks
the host. -/
def pfStart (s : State) (ctx va : Nat) : State :=
  let page := va / 65536 * 65536
  if s.pf.any fun p => p.ctx == ctx && p.va == page then s
  else
    let host := s.dsplit.getLsbD 0
    let s := { s with pf := s.pf ++ [{ ctx := ctx, va := page, host := host, pond := false }] }
    if host then postEvent s ctx 2 (BitVec.ofNat 64 va) else s

/-! ### The access of one lane -/

inductive AccKind where
  | load | store | atomic
  deriving DecidableEq, Repr

/-- What an access comes to before any effect: its place, a trap, or a wait (R236, R235). -/
inductive Acc where
  | ok (l : Loc)
  | trap (t : Trap)
  | serve (va : Nat)
  | held (va : Nat)
  deriving DecidableEq, Repr

def needOf (k : AccKind) : Need :=
  match k with
  | .load => .read | .store => .write | .atomic => .both

/-- The scratchpad window (R201). -/
def inWindow (a : Nat) : Bool := decide (Config.windowBase ≤ a) && decide (a < 2 ^ 56)

/-- Where n bytes at scratchpad offset `off` lie (R201, R219), `at_` being what TADDR holds. -/
def scratchPlace (s : State) (o : Who) (off n : Nat) (at_ : Word) : Acc :=
  if off + n > (wgOf s o).hdr.scratch then .trap (trapAt 0x0C at_) else .ok (.scratch off)

/-- The place of one lane's n bytes at a virtual address, checked in the order of R247. Refused peer traffic takes the cause
of that table's row for what is refused (R399; log entry 55). -/
def place (s : State) (o : Who) (k : AccKind) (n : Nat) (a : Word) : State × Acc :=
  if a.toNat % n ≠ 0 then (s, .trap (trapAt 0x08 a))
  else if bits a 63 56 ≠ 0 then (s, .trap (trapAt 0x09 a))
  else if inWindow a.toNat then (s, scratchPlace s o (a.toNat - Config.windowBase) n a)
  else
    let r := translate s o.core (wgOf s o).ctx a.toNat (needOf k) (refusedTo s o a.toNat)
    (r.1, match r.2 with
      | .serve => .serve a.toNat
      | .held => .held a.toNat
      | .refused => .trap (trapAt 0x09 a)
      | .fault c malf level => .trap { trapAt c a with malf := malf, level := level }
      | .ok pa wb => .ok (.phys pa wb))

/-- The first sector of physical bytes that an access consumes whose check does not match (R408): of a line that the core holds
itself, as it was filled; an atomic comes after the line's write-back (R260). -/
def consumes (s : State) (o : Who) (k : AccKind) (pa : Nat) (wb : Bool) (n : Nat) : Option Nat :=
  let ctx := (wgOf s o).ctx
  if wb && lineHeld s o.core ctx pa then
    if k == .atomic then badSector (dropLine s o ctx pa) pa n
    else (l1Find (getCore s o.core) ctx pa).bind fun l => badInLine l pa n
  else badSector s pa n

/-- The integrity check of an access whose place is known (R408): a mismatch is reported, and TADDR holds the access's address,
or its offset for LDS and STS (R219, R247, R261; log entry 55). -/
def sound (s : State) (o : Who) (k : AccKind) (n : Nat) (at_ : Word) (r : Acc) : State × Acc :=
  match r with
  | .trap _ => (s, r) | .serve _ => (s, r) | .held _ => (s, r)
  | .ok (.scratch off) =>
    match badCoreSector s o.core (some o.slot) (wgOf s o).scratch off n with
    | none => (s, r)
    | some _ => (coreIntegrity s (wgOf s o).ctx, .trap (trapAt 0x0E at_))
  | .ok (.phys pa wb) =>
    match consumes s o k pa wb n with
    | none => (s, r)
    | some b => (integrityService s (wgOf s o).ctx b, .trap (trapAt 0x0E at_))

/-- The access of one lane to n bytes at a virtual address (R247). -/
def access (s : State) (o : Who) (k : AccKind) (n : Nat) (a : Word) : State × Acc :=
  let r := place s o k n a
  sound r.1 o k n a r.2

/-- The accesses of several lanes, in ascending order. -/
def accesses (s : State) (o : Who) (f : State → Nat → State × Acc) : List Nat → State × List (Nat × Acc)
  | [] => (s, [])
  | l :: ls =>
    let r := f s l
    let rest := accesses r.1 o f ls
    (rest.1, (l, r.2) :: rest.2)

def accTrap (a : Acc) : Option Trap :=
  match a with
  | .trap t => some t
  | .ok _ => none | .serve _ => none | .held _ => none

/-- The trap of a word at lane scope (R247): the cause of the lowest faulting lane, with every lane of that cause. -/
def firstTrap (lanewise : Bool) (rs : List (Nat × Acc)) : Option Trap :=
  match rs.findSome? fun r => accTrap r.2 with
  | none => none
  | some t =>
    let ls := (rs.filter fun r => (accTrap r.2).map Trap.cause == some t.cause).map Prod.fst
    some { t with lanes := if lanewise then some ((maskOf ls).setWidth 64) else none }

/-- The first wait among accesses: page-fault service begins, or PGX holds the page. -/
def firstWait (s : State) (o : Who) (rs : List (Nat × Acc)) : Option (State × Wait) :=
  rs.findSome? fun r => match r.2 with
    | .serve va => some (pfStart s (wgOf s o).ctx va, .pageFault (BitVec.ofNat 64 va))
    | .held va => some (s, .pgx (BitVec.ofNat 64 va))
    | .ok _ => none
    | .trap _ => none

/-- The places of accesses that all succeeded. -/
def placesOf (rs : List (Nat × Acc)) : List (Nat × Loc) :=
  rs.filterMap fun r => match r.2 with
    | .ok l => some (r.1, l)
    | .trap _ => none | .serve _ => none | .held _ => none

/-! ### The range scoreboard on the core path (R212) -/

/-- The wait of the first access that overlaps an entry. -/
def sbWait (s : State) (o : Who) (n : Nat) (store : Bool) (ps : List (Nat × Loc)) : Option Wait :=
  ps.findSome? fun p => match p.2 with
    | .scratch off =>
      if sbBlocks s o.core o.slot off (off + n) store then some (.scoreboard off (off + n) store) else none
    | .phys _ _ => none

/-! ### Loads -/

/-- One lane's load of n bytes. -/
def loadLoc (s : State) (o : Who) (pol : BitVec 2) (n : Nat) (l : Loc) : State × Word :=
  match l with
  | .scratch off => (s, wordOfBytes64 (scratchRead s o.core o.slot off n))
  | .phys pa wb =>
    let r := loadPhys s o (wgOf s o).ctx pa n wb pol
    (r.1, wordOfBytes64 r.2)

/-- The state as a warp of a deterministic workgroup sees it: committed state with its own buffered stores and atomics
applied in its program order (R265). -/
def ownView (s : State) (o : Who) : State :=
  if (wgOf s o).det then (warpOf s o).buf.foldl flushEntry s else s

/-- The loads of several lanes: effects on the caches of the state, values from a view of it. -/
def loads (s view : State) (o : Who) (pol : BitVec 2) (n : Nat) : List (Nat × Loc) → State × List (Nat × Word)
  | [] => (s, [])
  | p :: ps =>
    let v := (loadLoc view o pol n p.2).2
    let s := (loadLoc s o pol n p.2).1
    let rest := loads s view o pol n ps
    (rest.1, (p.1, v) :: rest.2)

/-! ### Buffered entries (R265, R266) -/

/-- Add an entry to the commit buffer of a warp. -/
def pushBuf (s : State) (o : Who) (x : BitVec 32) (latch : Option Nat) (e : BufEffect) : State :=
  updWarpOf s o fun w =>
    { w with buf := w.buf ++ [{ who := o, pc := (streamIn w o.split).pc, word := x, latch := latch, before := false, effect := e }] }

/-- Entries that a buffer counts (R265, log entry 17): each lane's store, each atomic word, each other word. -/
def bufCount (w : Warp) : Nat :=
  w.buf.foldl (fun n b => n + match b.effect with
    | .store _ ls => ls.length
    | .atomic _ _ _ _ _ _ => 1 | .barv _ => 1 | .binit _ _ => 1 | .tdef _ _ => 1 | .engine _ => 1 | .cpyc _ => 1
    | .mclose _ _ => 1 | .tspawn _ _ _ => 1 | .tsucc _ _ => 1 | .lateStore _ _ _ _ _ => 1
    | .lateAtomic _ _ _ _ _ _ _ => 1) 0

/-- The word's stores take effect, or are buffered in deterministic mode (R265). -/
def storeAll (s : State) (o : Who) (x : BitVec 32) (pol : BitVec 2) (n : Nat) (ls : List (Loc × Word)) : Res :=
  if (wgOf s o).det then .done (progress (pushBuf s o x none (.store pol (ls.map fun l => (l.1, n, l.2)))) o)
  else .done (ls.foldl (fun s l => storeLoc s o pol l.1 n l.2) (progress s o))

/-! ### Results that come over a peer link (R399) -/

/-- A place lies at another chip. -/
def overPeer (s : State) (l : Loc) : Bool :=
  match l with
  | .scratch _ => false
  | .phys pa _ => homeOf pa == .peer && !isOwnChip s pa

/-- The outstanding results of a warp's variable-latency instruction of a number come over a peer link. -/
def markPeer (s : State) (o : Who) (num : Nat) : State :=
  updStream s o fun st => { st with out := st.out.map fun e => if e.num = num then { e with peer := true } else e }

/-- The same for the results that a word, begun in `s`, has left outstanding in its streams, if they do. -/
def peerMark (s : State) (remote : Bool) (ms : List Who) (late : State) : State :=
  if remote then ms.foldl (fun t m => markPeer t m (nextOut (warpOf s m))) late else late

/-- The write under way is a write-back of a line that the workgroup's task stored to, made for whatever reason (R204, R257). -/
def ownWriteBack (g : Wg) (p : Pend) : Bool := p.wb && g.touched.contains (p.pa / 128)

/-! ### Fetching (R52, R69) -/

/-- One aligned word through the instruction cache of a core's die: where the cache holds another value than memory does,
either (R69). A word that the die does not hold reads as memory has it, and one whose new value a fetch of the die has taken
reads new from then on (DESIGN CHOICE, log entry 61). -/
def icWord (s : State) (core ctx va pa : Nat) : State × BitVec 32 :=
  let die := dieOf core
  let now := BitVec.ofNat 32 (natOfBytes (physRead s ctx pa 4))
  let isIt := fun (e : IcWord) => e.die == die && e.ctx == ctx && e.va == va && e.pa == pa
  match s.icache.find? isIt with
  | none => ({ s with icache := s.icache ++ [{ die := die, ctx := ctx, va := va, pa := pa, val := now }] }, now)
  | some e =>
    if e.val = now then (s, now)
    else if pick s 1 then (bump s, e.val)
    else (bump { s with icache := s.icache.map fun x => if isIt x then { x with val := now } else x }, now)

/-- n words read as code at an address: an instruction, or a literal (R119), whose page needs R (R227, log entry 18). -/
def fetchWords (s : State) (o : Who) (va : Addr) (n : Nat) (need : Need) : State × Sum (List (BitVec 32)) (Trap ⊕ Wait) :=
  let a := addrWord va
  let ctx := (wgOf s o).ctx
  let noInfo := fun (t : Trap) => if need = .fetch then { t with info := some 0 } else t
  if inWindow va.toNat then (s, .inr (.inl (noInfo (trapAt 0x09 a))))
  else
    let r := translate s o.core ctx va.toNat need (refusedTo s o va.toNat)
    match r.2 with
    | .serve => (pfStart r.1 ctx va.toNat, .inr (.inr (.pageFault a)))
    | .held => (r.1, .inr (.inr (.pgx a)))
    | .refused => (r.1, .inr (.inl (noInfo (trapAt 0x09 a))))
    | .fault c malf level => (r.1, .inr (.inl (noInfo { trapAt c a with malf := malf, level := level })))
    | .ok pa _ =>
      match badSector r.1 pa (4 * n) with
      | some b =>
        (integrityService r.1 ctx b, .inr (.inl (noInfo (trapAt 0x0E (BitVec.ofNat 64 (va.toNat / 32 * 32))))))
      | none =>
        let ws := (List.range n).foldl (fun (p : State × List (BitVec 32)) i =>
          let r := icWord p.1 o.core ctx (va.toNat + 4 * i) (pa + 4 * i)
          (r.1, p.2 ++ [r.2])) (r.1, [])
        (ws.1, .inl ws.2)

end Sys2Proof.Machine
end

