-- ==== Sys2Proof/Machine/CorePath.lean ====
section
/-! DEFINITION. The core path's instructions: loads and stores (R218, R244), private memory (R241–R243), prefetch, cache
maintenance and demotion (R220, R245, R246), leases (R238–R240), PGX (R235), the fences (R257, R258) and the atomics
(R260–R262, R267). -/

namespace Sys2Proof.Machine

/-! ### Addresses and lanes of a word -/

/-- A + B of a word: by lane at lane scope, once elsewhere. -/
def addrAt (s : State) (o : Who) (sc : Scope) (a b : Reg) (l : Nat) : Word :=
  if sc == .lane then rd s o a l + rd s o b l else rdS s o a + rdS s o b

/-- A data or operand register of a word, by lane at lane scope. -/
def dataAt (s : State) (o : Who) (sc : Scope) (d : Reg) (l : Nat) : Word := if sc == .lane then rd s o d l else rdS s o d

/-- The lanes that a word acts once for; lane 0 stands for the warp, set or block. -/
def lanesFor (s : State) (o : Who) (sc : Scope) : List Nat := if sc == .lane then actives s o else [0]

/-- A scratchpad offset (R218). -/
def accessS (k : AccKind) (s : State) (o : Who) (n : Nat) (off : Word) : State × Acc :=
  if off.toNat % n ≠ 0 then (s, .trap (trapAt 0x08 off)) else sound s o k n off (scratchPlace s o off.toNat n off)

/-- A virtual address (R244). -/
def accessV (k : AccKind) (s : State) (o : Who) (n : Nat) (a : Word) : State × Acc := access s o k n a

/-- Every lane checked before any effect (R244): a trap, a wait, or the places of all. A store or atomic that deterministic
mode buffers looks at the scoreboard when it commits (R216). Where one lane faults, the service of another lane's page is not started
[DESIGN CHOICE, log entry 61: R236 does not say which comes first]. -/
def checkAll (s : State) (o : Who) (sc : Scope) (k : AccKind) (n : Nat) (f : State → Nat → State × Acc)
    (go : State → List (Nat × Loc) → Res) : Res :=
  let r := accesses s o f (lanesFor s o sc)
  match firstTrap (sc == .lane) r.2 with
  | some t => .trap r.1 t
  | none =>
    match firstWait r.1 o r.2 with
    | some w => .wait w.1 w.2
    | none =>
      let ps := placesOf r.2
      match (if (wgOf s o).det && k != .load then none else sbWait r.1 o n (k != .load) ps) with
      | some w => .wait r.1 w
      | none => go r.1 ps

/-! ### LD, ST, LDS and STS (R218, R244) -/

/-- A load of n bytes by lane or once. -/
def loadWord (i : Instr) (sc : Scope) (n : Nat) (d a b : Reg)
    (acc : AccKind → State → Who → Nat → Word → State × Acc) (s : State) : Host.Outcome State Fault Refusal :=
  runWord i sc (abd d a b sc) [a, b] (writesS sc d) false
    (fun s o => checkAll s o sc .load n (fun s l => acc .load s o n (addrAt s o sc a b l)) fun s ps =>
      let r := loads s (ownView s o) o (warpOf s o).cpol n ps
      let late := if sc == .lane then lateLanes r.1 o d r.2 0 else lateScalar r.1 o sc d ((r.2.map Prod.snd).headD 0)
      .done (peerMark s (ps.any fun p => overPeer s p.2) (targets s o sc) late)) s

/-- The access of a scratchpad word or of one at a virtual address (R218, R244). -/
def accessOf (scratch : Bool) : AccKind → State → Who → Nat → Word → State × Acc := if scratch then accessS else accessV

/-- In deterministic mode a store or atomic of set or block scope is an entry of the lowest member, which the commit checks
and applies in its step 1 (R266). -/
def atCommit (s : State) (o : Who) (sc : Scope) : Bool := (wgOf s o).det && (sc == .set || sc == .block)

/-- The data of a store (R218, R244, R55): any source at lane scope, else an S or K register or ZR, and at set or block scope
an S register or ZR. -/
def dataOk (s : State) (o : Who) (sc : Scope) (d : Reg) : Bool := if sc == .lane then laneSrc s o d else dstOk s o sc d

/-- A store of n bytes by lane or once; D is the data. -/
def storeWord (i : Instr) (sc : Scope) (n : Nat) (scratch : Bool) (d a b : Reg) (s : State) :
    Host.Outcome State Fault Refusal :=
  runWord i sc (fun s o => dataOk s o sc d && ab a b sc s o) [d, a, b] false true
    (fun s o =>
      if atCommit s o sc then
        .wait (pushBuf s o (encode i) (latchOf s o sc)
          (.lateStore scratch (warpOf s o).cpol n (rdS s o a + rdS s o b) (rdS s o d))) .commit
      else checkAll s o sc .store n (fun s l => accessOf scratch .store s o n (addrAt s o sc a b l)) fun s ps =>
        storeAll s o (encode i) (warpOf s o).cpol n (ps.map fun p => (p.2, dataAt s o sc d p.1))) s

/-- Bytes of a width suffix. -/
def widthBytes (t : Width) : Nat := widthBits t / 8

/-- LD.w (R244). -/
def execLd (w : Bool) (sc : Scope) (t : Width) (d a b : Reg) (s : State) : Host.Outcome State Fault Refusal :=
  loadWord (.ld w sc t d a b) sc (widthBytes t) d a b accessV s

/-- ST.w (R244). -/
def execSt (w : Bool) (sc : Scope) (t : Width) (d a b : Reg) (s : State) : Host.Outcome State Fault Refusal :=
  storeWord (.st w sc t d a b) sc (widthBytes t) false d a b s

/-- LDS.w (R218). -/
def execLds (w : Bool) (sc : Scope) (t : Width) (d a b : Reg) (s : State) : Host.Outcome State Fault Refusal :=
  loadWord (.lds w sc t d a b) sc (widthBytes t) d a b accessS s

/-- STS.w (R218). -/
def execSts (w : Bool) (sc : Scope) (t : Width) (d a b : Reg) (s : State) : Host.Outcome State Fault Refusal :=
  storeWord (.sts w sc t d a b) sc (widthBytes t) true d a b s

/-! ### Private memory (R241–R243) -/

/-- The access of one lane to n private bytes at an offset (R243, R247): its place in the warp's region of device memory. -/
def accessP (k : AccKind) (s : State) (o : Who) (n l : Nat) (off : Word) : State × Acc :=
  if off.toNat % n ≠ 0 then (s, .trap (trapAt 0x08 off))
  else if off.toNat + n > (wgOf s o).hdr.priv then (s, .trap (trapAt 0x0D off))
  else
    let pa := privAt s o l off.toNat
    match consumes s o k pa true n with
    | none => (s, .ok (.phys pa true))
    | some b => (integrityService s (wgOf s o).ctx b, .trap (trapAt 0x0E off))

/-- The offset that a lane of a private word forms (R243). -/
def privOff (s : State) (o : Who) (a b : Reg) (l : Nat) : Word := rd s o a l + rd s o b l

/-- A private load of n bytes, through the first-level cache (R204, R242). -/
def privLoad (i : Instr) (n : Nat) (d a b : Reg) (s : State) : Host.Outcome State Fault Refusal :=
  runWord i .lane (abd d a b .lane) [a, b] false false
    (fun s o => checkAll s o .lane .load n (fun s l => accessP .load s o n l (privOff s o a b l)) fun s ps =>
      let r := loads s s o (warpOf s o).cpol n ps
      .done (lateLanes r.1 o d r.2 0)) s

/-- A private store of n bytes: never buffered, since nothing else reads it (R242, R254). -/
def privStore (i : Instr) (n : Nat) (d a b : Reg) (s : State) : Host.Outcome State Fault Refusal :=
  runWord i .lane (fun s o => srcOk s o .lane d && ab a b .lane s o) [d, a, b] false false
    (fun s o => checkAll s o .lane .store n (fun s l => accessP .store s o n l (privOff s o a b l)) fun s ps =>
      .done (ps.foldl (fun s' p => storeLoc s' o (warpOf s o).cpol p.2 n (rd s o d p.1)) (progress s o))) s

/-- LDP.64 (R243). -/
def execLdp64 (w : Bool) (d a b : Reg) (s : State) : Host.Outcome State Fault Refusal := privLoad (.ldp64 w d a b) 8 d a b s

/-- LDP.32 (R243). -/
def execLdp32 (w : Bool) (d a b : Reg) (s : State) : Host.Outcome State Fault Refusal := privLoad (.ldp32 w d a b) 4 d a b s

/-- STP.64 (R243). -/
def execStp64 (w : Bool) (d a b : Reg) (s : State) : Host.Outcome State Fault Refusal := privStore (.stp64 w d a b) 8 d a b s

/-- STP.32 (R243). -/
def execStp32 (w : Bool) (d a b : Reg) (s : State) : Host.Outcome State Fault Refusal := privStore (.stp32 w d a b) 4 d a b s

/-! ### Ranges of virtual addresses -/

/-- The mapped pages of a table that meet [lo, hi): their first address, level and entry. `n` levels are left. An entry in a
sector that fails its check maps nothing (R408; log entry 55). -/
def leavesIn (s : State) (lo hi : Nat) (n level table base : Nat) : List (Nat × Nat × Word) :=
  match n with
  | 0 => []
  | k + 1 =>
    let size := 2 ^ pageBits level
    let i0 := if base < lo then (lo - base) / size else 0
    let i1 := if hi ≤ base then 0 else (hi - base + size - 1) / size
    let count := 2 ^ indexBits level
    let last := if i1 < count then i1 else count
    (List.range (last - i0)).flatMap fun j =>
      let i := i0 + j
      let e := BitVec.ofNat 64 (natOfBytes (s.mem.rdN (table + 8 * i) 8))
      if (badSector s (table + 8 * i) 8).isSome || !pteValid e || malformed level e then []
      else if pteLeaf e then [(base + i * size, level, e)]
      else leavesIn s lo hi k (level + 1) (pteAddr e) (base + i * size)

/-- The physical byte ranges of the mapped addresses of [lo, hi), the scratchpad window left out. -/
def physRanges (s : State) (ctx lo hi : Nat) : List (Nat × Nat) :=
  let hi := if hi < Config.windowBase then hi else Config.windowBase
  (leavesIn s lo hi 4 1 (bits (getCtx s ctx).root 47 23 * 2 ^ 23) 0).map fun p =>
    let size := 2 ^ pageBits p.2.1
    let a := if lo < p.1 then p.1 else lo
    let b := if hi < p.1 + size then hi else p.1 + size
    (pteAddr p.2.2 + (a - p.1), pteAddr p.2.2 + (b - p.1))

/-- A first-level line holds a byte of one of the ranges of a context. -/
def lineIn (ctx : Nat) (rs : List (Nat × Nat)) (line lctx : Nat) : Bool :=
  rs.any fun r => decide (128 * line < r.2) && decide (r.1 < 128 * line + 128) && lctx == lineCtx ctx (128 * line)

/-! ### PFTCH, CFLUSH, CINV and CDEMOTE (R220, R245, R246) -/

/-- One prefetch (R245): the line enters the first-level cache where the address maps, is readable and lies in device memory;
a no-allocate one fills L2 alone (R206). -/
def prefetch (s : State) (o : Who) (a : Word) : State :=
  let ctx := (wgOf s o).ctx
  let pol := (warpOf s o).cpol
  if bits a 63 56 ≠ 0 ∨ inWindow a.toNat ∨ pgxHolds s ctx a.toNat ∨ (walkBad s ctx a.toNat).isSome then s
  else
    match walk s ctx a.toNat with
    | .stop _ _ _ _ => s
    | .leaf level pte _ =>
      let pa := pteAddr pte + a.toNat % 2 ^ pageBits level
      if !pteR pte || homeOf pa != .device || (pteState pte == 2 && pteOwner pte != o.core) then s
      else if (l1Find (getCore s o.core) ctx pa).isSome then l1Upd (l2Touch s pa pol) o.core ctx pa (raiseLine s pol)
      else if pol = 3 then l2Touch s pa pol
      else if pteState pte == 0 then l1Fill (l2Touch s pa pol) o ctx pa pol (some (s.cycle + Config.leaseCycles)) none
      else l1Fill (l2Touch s pa pol) o ctx pa pol none (some (lineBytes s ctx pa))

/-- PFTCH (R245). -/
def execPftch (w : Bool) (sc : Scope) (a b : Reg) (s : State) : Host.Outcome State Fault Refusal :=
  runWord (.pftch w sc a b) sc (ab a b sc) [a, b] false false
    (fun s o => .done ((lanesFor s o sc).foldl (fun s' l => prefetch s' o (addrAt s o sc a b l)) s)) s

/-- Write back every dirty line of the core that a predicate selects, and keep it clean or drop it. -/
def flushLines (s : State) (o : Who) (drop : Bool) (sel : L1Line → Bool) : State :=
  let s := ((getCore s o.core).l1.filter fun l => sel l && l.dirty != 0).foldl (fun s l => writeBack s o l) s
  updCore s o.core fun c =>
    { c with l1 := if drop then c.l1.filter (fun l => !sel l)
                   else c.l1.map fun l => if sel l then { l with dirty := 0 } else l }

/-- CFLUSH and CINV (R246). In deterministic mode they act as they issue, on the lines as they are: the spec does not say
whether they come before or after the warp's own buffered stores (DESIGN CHOICE, log entry 61). -/
def cacheWord (i : Instr) (sc : Scope) (drop : Bool) (a b : Reg) (s : State) : Host.Outcome State Fault Refusal :=
  runWord i sc (ab a b sc) [a, b] false false
    (fun s o =>
      let lo := (rdS s o a).toNat
      let n := (rdS s o b).toNat
      if lo + n > 2 ^ 56 then .trap s (trapOf 0x03)
      else if n = 0 then .done s
      else
        let ctx := (wgOf s o).ctx
        let rs := physRanges s ctx lo (lo + n)
        let own := privRegions s
        let s := flushLines s o drop fun l => lineIn ctx rs l.line l.ctx && !lineOf own l.line
        .done (if drop then s else (targets s o sc).foldl progress s)) s

/-- CFLUSH (R246). -/
def execCflush (w : Bool) (sc : Scope) (a b : Reg) (s : State) : Host.Outcome State Fault Refusal := cacheWord (.cflush w sc a b) sc false a b s

/-- CINV (R246). -/
def execCinv (w : Bool) (sc : Scope) (a b : Reg) (s : State) : Host.Outcome State Fault Refusal := cacheWord (.cinv w sc a b) sc true a b s

/-- CDEMOTE (R220): the walk goes on after issue. -/
def execCdemote (w : Bool) (a b : Reg) (s : State) : Host.Outcome State Fault Refusal :=
  runWord (.cdemote w a b) .warp (ab a b .warp) [a, b] false false
    (fun s o =>
      let lo := (rdS s o a).toNat
      let n := (rdS s o b).toNat
      if lo + n > 2 ^ 56 then .trap s (trapOf 0x03)
      else if n = 0 then .done s
      else .done (updCore s o.core fun c => { c with demotes := c.demotes ++ [((wgOf s o).ctx, lo, lo + n)] })) s

/-- CDEMOTE_WALK (R220): the oldest walk of a core demotes the lines present. -/
def execCdemoteWalk (core : Nat) (s : State) : Host.Outcome State Fault Refusal :=
  match (getCore s core).demotes with
  | [] => .next s
  | (ctx, lo, hi) :: rest =>
    let rs := physRanges s ctx lo hi
    let s := updCore s core fun c =>
      { c with demotes := rest, l1 := c.l1.map fun l => if lineIn ctx rs l.line l.ctx then { l with prio := 0 } else l }
    let low := fun (e : Nat × L2Line) =>
      if lineIn ctx rs e.1 (lineCtx ctx (128 * e.1)) then (e.1, { e.2 with prio := 0 }) else e
    .next { s with l2 := s.l2.map low }

/-- L1_READ_LEASE_EXPIRY (R232): a lease that has run its cycles ends. -/
def execL1ReadLeaseExpiry (core line : Nat) (s : State) : Host.Outcome State Fault Refusal :=
  .next (updCore s core fun c =>
    { c with l1 := c.l1.map fun l =>
        if l.line == line then { l with lease := l.lease.bind fun t => if t ≤ s.cycle then none else some t }
        else l })

/-! ### Leases (R238–R240) -/

/-- Lines below n that are homed on a die, which are numbered 0 up on it (R222, R238). -/
def dieLines (d n : Nat) : Nat :=
  let r := n % 256 - 128 * d
  n / 256 * 128 + (if r < 128 then r else 128)

/-- Lines of a range on a die that fall in a set (R238). -/
def inSet (d set : Nat) (r : Nat × Nat) : Nat :=
  let below := fun n => (n + 81920 - 1 - set) / 81920
  below (dieLines d r.2) - below (dieLines d r.1)

/-- The leases fit the budget of each die: 80 MiB, and at most 8 lines of any set. A set's count rises only where some
range begins, so those sets are enough to look at (R238). -/
def leasesFit (rs : List (Nat × Nat)) : Bool :=
  [0, 1].all fun d =>
    decide (rs.foldl (fun t r => t + (dieLines d r.2 - dieLines d r.1)) 0 * 128 ≤ 80 * 2 ^ 20) &&
    rs.all fun r =>
      let set := dieLines d r.1 % 81920
      decide (rs.foldl (fun t q => t + inSet d set q) 0 ≤ 8)

/-- A line range joined to ranges of which no two share a line (R239: a lease is over lines). -/
def joinLines (r : Nat × Nat) (rs : List (Nat × Nat)) : List (Nat × Nat) :=
  let meets := fun (q : Nat × Nat) => decide (r.1 < q.2) && decide (q.1 < r.2)
  (rs.filter meets).foldl (fun h q => (min h.1 q.1, max h.2 q.2)) r :: rs.filter fun q => !meets q

/-- The page by page check of LEASE (R239): the line ranges, or a trap or wait. `n` pages are left. Of a page only presence and
the permission R are checked, and that it lies in device memory. -/
def leasePages (s : State) (o : Who) (lo hi : Nat) : Nat → State × List (Nat × Nat) × Option (Trap ⊕ Wait)
  | 0 => (s, [], none)
  | n + 1 =>
    if hi ≤ lo then (s, [], none)
    else if inWindow lo then (s, [], some (.inl (trapOf 0x03)))
    else
      let ctx := (wgOf s o).ctx
      let r := resolve s o.core ctx lo .read (refusedTo s o lo)
      match r.2 with
      | .ends .serve => (pfStart r.1 ctx lo, [], some (.inr (.pageFault (BitVec.ofNat 64 lo))))
      | .ends .held => (r.1, [], some (.inr (.pgx (BitVec.ofNat 64 lo))))
      | .ends (.fault c malf level) =>
        (r.1, [], some (.inl { trapAt c (BitVec.ofNat 64 lo) with malf := malf, level := level }))
      | .ends .refused => (r.1, [], some (.inl (trapOf 0x03)))
      | .ends (.ok _ _) => (r.1, [], some (.inl (trapOf 0x03)))
      | .ok pa _ =>
        if inAperture pa then (r.1, [], some (.inl (trapOf 0x03)))
        else
          let next := (lo / 65536 + 1) * 65536
          let end_ := if hi < next then hi else next
          let rest := leasePages r.1 o next hi n
          (rest.1, joinLines (pa / 128, (pa + (end_ - lo) + 127) / 128) rest.2.1, rest.2.2)

/-- The lowest free handle of 1–255 (R239). -/
def freeHandle (g : Wg) : Option Nat := ((List.range 255).map (· + 1)).find? fun h => (tget? g.leases h).isNone

/-- LEASE (R239). -/
def execLease (w : Bool) (sc : Scope) (d a b : Reg) (s : State) : Host.Outcome State Fault Refusal :=
  runWord (.lease w sc d a b) sc (fun s o => sdOk d && abd d a b sc s o) [a, b] (writesS sc d) false
    (fun s o =>
      let lo := (rdS s o a).toNat
      let n := (rdS s o b).toNat
      if lo + n > 2 ^ 56 then .trap s (trapOf 0x03)
      else if n = 0 then .done (lateScalar s o sc d 0)
      else
        let r := leasePages s o lo (lo + n) (n / 65536 + 2)
        match r.2.2 with
        | some (.inl t) => .trap r.1 t
        | some (.inr w) => .wait r.1 w
        | none =>
          let lines := r.2.1
          match freeHandle (wgOf r.1 o) with
          | none => .done (lateScalar r.1 o sc d 0)
          | some h =>
            if leasesFit (allLeases r.1 ++ lines) then
              .done (lateScalar (updWgOf r.1 o fun g => { g with leases := tput g.leases h lines }) o sc d
                (BitVec.ofNat 64 h))
            else .done (lateScalar r.1 o sc d 0)) s

/-- LREL (R240). -/
def execLrel (w : Bool) (sc : Scope) (a : Reg) (s : State) : Host.Outcome State Fault Refusal :=
  runWord (.lrel w sc a) sc (fun s o => srcOk s o sc a) [a] false false
    (fun s o =>
      let h := (rdS s o a).toNat
      if h ≥ 256 then .trap s (trapOf 0x03)
      else if h = 0 then .done s
      else
        match tget? (wgOf s o).leases h with
        | none => .trap s (trapOf 0x03)
        | some _ => .done (updWgOf s o fun g => { g with leases := tdel g.leases h })) s

/-! ### PGX (R235) -/

/-- PGX (R235): the change is under way from here on, and accesses to the page are held. An address in the scratchpad window, which
no walk translates, is 0x09 [DESIGN CHOICE, log entry 61: R235 does not say]. -/
def execPgx (w : Bool) (a b : Reg) (s : State) : Host.Outcome State Fault Refusal :=
  runWord (.pgx w a b) .warp (ab a b .warp) [a, b] false false
    (fun s o =>
      let va := rdS s o a
      let c := rdS s o b
      let ctx := (wgOf s o).ctx
      if bits c 63 16 ≠ 0 ∨ bits c 7 2 ≠ 0 ∨ bits c 1 0 = 3 then .trap s (trapOf 0x03)
      else if bits c 1 0 = 2 ∧ bits c 15 8 > 159 then .trap s (trapOf 0x03)
      else if bits va 63 56 ≠ 0 ∨ inWindow va.toNat then .trap s (trapAt 0x09 va)
      else if let some x := walkBad s ctx va.toNat then .trap (integrityService s ctx x) (trapAt 0x0E va)
      else
        match walk s ctx va.toNat with
        | .stop level malf pte _ =>
          if servable s level malf pte && !refusedTo s o va.toNat then
            .wait (pfStart s ctx va.toNat) (.pageFault va)
          else .trap s { trapAt 0x09 va with malf := malf, level := level }
        | .leaf level pte at_ =>
          if inAperture (pteAddr pte) && bits c 1 0 != 1 then .trap s (trapOf 0x03)
          else .done { s with pgx := s.pgx ++ [{ who := o, ctx := ctx, va := va.toNat, level := level, pteAt := at_,
                                                 state := BitVec.ofNat 2 (bits c 1 0),
                                                 owner := BitVec.ofNat 8 (bits c 15 8) }] }) s

/-- Drop a page's translations from every TLB. -/
def tlbDrop (s : State) (sel : TlbEnt → Bool) : State :=
  { s with cores := tmap (fun c => { c with tlb := c.tlb.filter fun e => !sel e }) s.cores,
           tlb2 := tmap (fun es => es.filter fun e => !sel e) s.tlb2 }

/-- A page-table entry with a new STATE and OWNER (R235). -/
def pteWith (e : Word) (state : BitVec 2) (owner : BitVec 8) : Word :=
  let keep : Word := ~~~(BitVec.ofNat 64 (0x3FF * 2 ^ 52))
  (e &&& keep) ||| BitVec.ofNat 64 (state.toNat * 2 ^ 60 + (if state = 2 then owner.toNat else 0) * 2 ^ 52)

/-- A buffered store or atomic of a workgroup reaches one of some physical bytes (R265). -/
def bufHits (g : Wg) (hit : Nat → Bool) : Bool :=
  let at_ := fun (l : Loc) => match l with
    | .scratch _ => false
    | .phys pa _ => hit pa
  g.warps.any fun w => w.2.buf.any fun b => match b.effect with
    | .store _ ls => ls.any fun l => at_ l.1
    | .atomic _ _ _ ls _ _ => ls.any fun x => at_ x.loc
    | .barv _ => false | .binit _ _ => false | .tdef _ _ => false | .engine _ => false | .cpyc _ => false
    | .mclose _ _ => false | .tspawn _ _ _ => false | .tsucc _ _ => false | .lateStore _ _ _ _ _ => false
    | .lateAtomic _ _ _ _ _ _ _ => false

/-- Every workgroup, resident or saved. -/
def allWgs (s : State) : List Wg :=
  (s.cores.flatMap fun c => c.2.wgs.filterMap Prod.snd) ++ s.saved.map SavedWg.wg

/-- A bank's source meets a range of a context, so that it becomes source-stale (R231); an empty bank has none (R306). -/
def staleIn (ctx lo hi : Nat) (k : Bank) : Bool :=
  k.state != .empty && k.ctx == ctx && k.src.any fun r => decide (r.1 < hi) && decide (lo < r.2)

/-- A shootdown of a range of a context marks the banks whose source lies in it (R231). -/
def markStale (s : State) (ctx lo hi : Nat) : State :=
  { s with cores := tmap (fun c =>
      { c with banks := tmap (fun k => if staleIn ctx lo hi k then { k with stale := true } else k) c.banks }) s.cores }

/-- The shootdown of a range of a context (R230, R231): its translations leave every TLB, and banks become source-stale. -/
def shootPages (s : State) (ctx lo hi : Nat) : State := markStale (tlbDrop s (tlbMeets ctx lo hi)) ctx lo hi

/-- Every TLB entry of the module that translates an address of [lo, hi) of a context: what its shootdown removes. -/
def shotEnts (s : State) (ctx lo hi : Nat) : List TlbEnt :=
  let here := fun (es : List TlbEnt) => es.filter (tlbMeets ctx lo hi)
  (s.cores.flatMap fun c => here c.2.tlb) ++ s.tlb2.flatMap fun d => here d.2

/-- A physical byte lies in the page that an entry of a list maps. -/
def mapsTo (es : List TlbEnt) (pa : Nat) : Bool :=
  es.any fun e => decide (pteAddr e.pte ≤ pa) && decide (pa < pteAddr e.pte + 2 ^ pageBits e.level)

/-- The physical bytes of the page of a PGX under way: the first, and past the last. -/
def pgxBytes (s : State) (p : PgxOp) : Nat × Nat :=
  let lo := pteAddr (BitVec.ofNat 64 (natOfBytes (devRead s p.pteAt 8)))
  (lo, lo + 2 ^ pageBits p.level)

/-- PGX_COMPLETE (R235): the n-th page-state change under way is carried out once no earlier one of its page is left and
every access that translated before it has retired (R230), through the entry or through one that a TLB still holds, what
commit buffers hold included; one whose entry lies in a sector
that fails its check ends without a change (R408; log entry 55). Of two on one page the one
issued first is carried out first: R235 leaves the order not specified (DESIGN CHOICE, log entry 56). -/
def execPgxComplete (n : Nat) (s : State) : Host.Outcome State Fault Refusal :=
  match s.pgx[n]? with
  | none => .next s
  | some p =>
    let size := 2 ^ pageBits p.level
    let samePage := fun (q : PgxOp) => q.ctx == p.ctx && q.va / size == p.va / size
    let e := BitVec.ofNat 64 (natOfBytes (devRead s p.pteAt 8))
    let at_ := pgxBytes s p
    let inPage := fun (line : Nat) => decide (at_.1 ≤ 128 * line) && decide (128 * line < at_.2)
    let lo := p.va / size * size
    let hits := fun (pa : Nat) =>
      (decide (at_.1 ≤ pa) && decide (pa < at_.2)) || mapsTo (shotEnts s p.ctx lo (lo + size)) pa
    if let some b := badSector s p.pteAt 8 then .next { integrityService s p.ctx b with pgx := s.pgx.eraseIdx n }
    else if (s.pgx.take n).any samePage || s.pend.any (fun x => hits x.pa) || (allWgs s).any (fun g => bufHits g hits) then .next s
    else
      let s := s.cores.foldl (fun s c =>
        let o := { p.who with core := c.1 }
        if p.state = 0 then flushLines s o true fun l => inPage l.line
        else if p.state = 1 then flushLines s o false fun l => inPage l.line
        else if c.1 ≠ p.owner.toNat then flushLines s o true fun l => inPage l.line
        else s) s
      let s := devWrite s p.pteAt (bytesOfNat 8 (pteWith e p.state p.owner).toNat)
      let s := shootPages s p.ctx lo (lo + size)
      .next { s with pgx := s.pgx.eraseIdx n }

/-! ### The fences (R257, R258) -/

/-- The stores, atomics and write-backs that a FENCE of a stream covers: its own, the write-backs that its workgroup made, and
those of lines that its task stored to. A warp covers its splits. -/
def coveredBy (g : Wg) (o : Who) (p : Pend) : Bool :=
  (p.who.core == o.core && p.who.slot == o.slot &&
    (p.wb || (p.who.warp == o.warp && (o.split.isNone || p.who.split == o.split)))) || ownWriteBack g p

/-- The wait of a FENCE at memory scope m has ended for a stream (R257): what has left the core is performed there. A store that still
lies dirty in a first-level line of a software-managed page is not waited for (log entry 30). -/
def fenceMet (s : State) (m : Nat) (o : Who) : Bool :=
  (streamOf s o).out.isEmpty && !s.pend.any fun p => coveredBy (wgOf s o) o p && (decide (m = 2) || !p.atDev)

/-- The word at hand is the debugger's (R369). -/
def injected (s : State) : Bool :=
  match s.cur.mode with
  | .inject _ => true
  | .issue => false
  | .fire => false

/-- The wait that the word at hand is in, of its stream or of its latch. -/
def priorWait (s : State) (o : Who) (sc : Scope) : Wait :=
  match latchOf s o sc with
  | none => (streamOf s o).wait
  | some g => ((getLatch s o.core o.slot g).map Latch.wait).getD .none

/-- FENCE (R257). An injected one ends no quantum of its halted warp, and waits for the stores alone (log entry 54). -/
def execFence (w : Bool) (sc : Scope) (i : BitVec 7) (s : State) : Host.Outcome State Fault Refusal :=
  runWord (.fence w sc i) sc (fun _ _ => decide (i.toNat ≤ 2)) [] false false
    (fun s o =>
      let m := i.toNat
      if (wgOf s o).det && !injected s && latchOf s o sc == none && priorWait s o sc != .fence m then
        .wait (endQuantum s o) (.fenceCommit m)
      else if (targets s o sc).all (fenceMet s m) then .done s
      else .wait s (.fence m)) s

/-- The path of an engine command (R251). -/
def pathOf : EngKind → Nat
  | .cpy => 1 | .cpyg => 1 | .cpyx => 1 | .chain => 2 | .mload => 3 | .mma => 3 | .mgrad => 3 | .mstore => 3 | .coll => 4

/-- Accepted commands of a workgroup on the named paths. -/
def cmdsOn (s : State) (core slot paths : Nat) : List Nat :=
  ((getCore s core).ops.filter fun p => p.who.slot == slot && paths.testBit (pathOf p.kind)).map EngOp.id

/-- No result of a warp's streams is outstanding. -/
def allOutsEmpty (w : Warp) : Bool := w.main.out.isEmpty && w.splits.all fun p => p.st.out.isEmpty

/-- The wait of an XFENCE has ended (R258). A store that still lies dirty in a first-level line of a software-managed page is not waited
for (log entry 30). -/
def xfenceMet (s : State) (o : Who) (paths : Nat) (cmds : List Nat) : Bool :=
  (getCore s o.core).ops.all (fun p => !cmds.contains p.id) &&
    (!paths.testBit 0 ||
      (!s.pend.any (fun p => (p.who.core == o.core && p.who.slot == o.slot) || ownWriteBack (wgOf s o) p) &&
        (wgOf s o).warps.all fun e => (allOutsEmpty e.2)))

/-- XFENCE (R258). -/
def execXfence (w : Bool) (i : BitVec 7) (s : State) : Host.Outcome State Fault Refusal :=
  runWord (.xfence w i) .block (fun _ _ => decide (1 ≤ i.toNat) && decide (i.toNat ≤ 31)) [] false false
    (fun s o =>
      let cmds := match priorWait s o .block with
        | .xfence _ cs => cs
        | _ => cmdsOn s o.core o.slot i.toNat
      if xfenceMet s o i.toNat cmds then .done s else .wait s (.xfence i.toNat cmds)) s

/-! ### Atomics (R260, R261, R267) -/

/-- An atomic is legal in deterministic mode (R267): anything in scratchpad; in device memory the integer reducing forms. -/
def detLegal (op : AtOp) (returns : Bool) (l : Loc) : Bool :=
  match l with
  | .scratch _ => true
  | .phys _ _ =>
    !returns && (match op with
      | .add => true | .min => true | .max => true | .maxu => true | .and => true | .or => true | .xor => true
      | .xch => false | .cas => false | .fadd => false)

/-- The register after B (R261). -/
def nextReg (r : Reg) : Reg :=
  match r with
  | .v n => .v (Fin.ofNat 64 (n.val + 1))
  | .s n => .s (Fin.ofNat 48 (n.val + 1))
  | .k n => .k (Fin.ofNat 8 (n.val + 1))
  | .zr => .zr | .lid => .zr | .wid => .zr | .emask => .zr | .tile => .zr | .tseq => .zr | .rcnt => .zr | .tag => .zr

/-- B names a pair of registers (R261, ATCAS.64). -/
def pairOk (s : State) (o : Who) (sc : Scope) (r : Reg) : Bool :=
  (match r with
    | .v n => decide (n.val ≤ 62) | .s n => decide (n.val ≤ 46) | .k n => decide (n.val ≤ 6)
    | .zr => false | .lid => false | .wid => false | .emask => false | .tile => false | .tseq => false
    | .rcnt => false | .tag => false) && srcOk s o sc (nextReg r)

/-- The access of one lane of an atomic: deterministic legality after the checks of its place, before its bytes are read
(R261). -/
def accessA (s : State) (o : Who) (op : AtOp) (returns : Bool) (n : Nat) (a : Word) : State × Acc :=
  let r := place s o .atomic n a
  sound r.1 o .atomic n a (match r.2 with
    | .ok l => if (wgOf s o).det && !detLegal op returns l then .trap (trapAt 0x1B a) else r.2
    | .trap _ => r.2 | .serve _ => r.2 | .held _ => r.2)

/-- Atomics of several lanes one after another, with the old values (R261). -/
def atomics (s : State) (o : Who) (pol : BitVec 2) (op : AtOp) (n : Nat) : List AtLane → State × List (Nat × Word)
  | [] => (s, [])
  | x :: xs =>
    let r := atomicLoc s o pol op n x
    let rest := atomics r.1 o pol op n xs
    (rest.1, (x.lane, r.2) :: rest.2)

/-- An atomic word (R261); D = ZR is the reducing form. -/
def atomicWord (i : Instr) (op : AtOp) (n : Nat) (pair : Bool) (sc : Scope) (d a b : Reg) (s : State) : Host.Outcome State Fault Refusal :=
  runWord i sc (fun s o => abd d a b sc s o && (!pair || pairOk s o sc b))
    (if pair then [a, b, nextReg b] else [a, b]) (writesS sc d) true
    (fun s o =>
      let returns := d != .zr
      let dst := if returns then some (regDst (warpOf s o) d) else none
      if atCommit s o sc then
        .wait (pushBuf s o (encode i) (latchOf s o sc) (.lateAtomic op (warpOf s o).cpol n (rdS s o a) (rdS s o b)
          (if pair then rdS s o (nextReg b) else 0) dst)) .commit
      else checkAll s o sc .atomic n (fun s l => accessA s o op returns n (dataAt s o sc a l)) fun s ps =>
        let xs := ps.map fun p =>
          ({ lane := p.1, loc := p.2, b := dataAt s o sc b p.1,
             b1 := if pair then dataAt s o sc (nextReg b) p.1 else 0 } : AtLane)
        let s := progress s o
        if (wgOf s o).det then
          let s := pushBuf s o (encode i) none (.atomic op (warpOf s o).cpol n xs dst false)
          .done (if returns then endQuantum s o else s)
        else
          let r := atomics s o (warpOf s o).cpol op n xs
          if !returns then .done r.1
          else
            let late := if sc == .lane then lateLanes r.1 o d r.2 0 else lateScalar r.1 o sc d ((r.2.map Prod.snd).headD 0)
            .done (peerMark s (ps.any fun p => overPeer s p.2) (targets s o sc) late)) s

/-- ATADD.64 (R261). -/
def execAtadd64 (w : Bool) (sc : Scope) (d a b : Reg) (s : State) : Host.Outcome State Fault Refusal :=
  atomicWord (.atadd64 w sc d a b) .add 8 false sc d a b s

/-- ATADD.32 (R261). -/
def execAtadd32 (w : Bool) (sc : Scope) (d a b : Reg) (s : State) : Host.Outcome State Fault Refusal :=
  atomicWord (.atadd32 w sc d a b) .add 4 false sc d a b s

/-- ATMIN.64 (R261). -/
def execAtmin64 (w : Bool) (sc : Scope) (d a b : Reg) (s : State) : Host.Outcome State Fault Refusal :=
  atomicWord (.atmin64 w sc d a b) .min 8 false sc d a b s

/-- ATMIN.32 (R261). -/
def execAtmin32 (w : Bool) (sc : Scope) (d a b : Reg) (s : State) : Host.Outcome State Fault Refusal :=
  atomicWord (.atmin32 w sc d a b) .min 4 false sc d a b s

/-- ATMAX.64 (R261). -/
def execAtmax64 (w : Bool) (sc : Scope) (d a b : Reg) (s : State) : Host.Outcome State Fault Refusal :=
  atomicWord (.atmax64 w sc d a b) .max 8 false sc d a b s

/-- ATMAX.32 (R261). -/
def execAtmax32 (w : Bool) (sc : Scope) (d a b : Reg) (s : State) : Host.Outcome State Fault Refusal :=
  atomicWord (.atmax32 w sc d a b) .max 4 false sc d a b s

/-- ATMAXU.64 (R261). -/
def execAtmaxu64 (w : Bool) (sc : Scope) (d a b : Reg) (s : State) : Host.Outcome State Fault Refusal :=
  atomicWord (.atmaxu64 w sc d a b) .maxu 8 false sc d a b s

/-- ATMAXU.32 (R261). -/
def execAtmaxu32 (w : Bool) (sc : Scope) (d a b : Reg) (s : State) : Host.Outcome State Fault Refusal :=
  atomicWord (.atmaxu32 w sc d a b) .maxu 4 false sc d a b s

/-- ATAND.64 (R261). -/
def execAtand64 (w : Bool) (sc : Scope) (d a b : Reg) (s : State) : Host.Outcome State Fault Refusal :=
  atomicWord (.atand64 w sc d a b) .and 8 false sc d a b s

/-- ATOR.64 (R261). -/
def execAtor64 (w : Bool) (sc : Scope) (d a b : Reg) (s : State) : Host.Outcome State Fault Refusal :=
  atomicWord (.ator64 w sc d a b) .or 8 false sc d a b s

/-- ATXOR.64 (R261). -/
def execAtxor64 (w : Bool) (sc : Scope) (d a b : Reg) (s : State) : Host.Outcome State Fault Refusal :=
  atomicWord (.atxor64 w sc d a b) .xor 8 false sc d a b s

/-- ATXCH.64 (R261). -/
def execAtxch64 (w : Bool) (sc : Scope) (d a b : Reg) (s : State) : Host.Outcome State Fault Refusal :=
  atomicWord (.atxch64 w sc d a b) .xch 8 false sc d a b s

/-- ATXCH.32 (R261). -/
def execAtxch32 (w : Bool) (sc : Scope) (d a b : Reg) (s : State) : Host.Outcome State Fault Refusal :=
  atomicWord (.atxch32 w sc d a b) .xch 4 false sc d a b s

/-- ATCAS.64 (R261). -/
def execAtcas64 (w : Bool) (sc : Scope) (d a b : Reg) (s : State) : Host.Outcome State Fault Refusal :=
  atomicWord (.atcas64 w sc d a b) .cas 8 true sc d a b s

/-- ATCAS.32 (R261). -/
def execAtcas32 (w : Bool) (sc : Scope) (d a b : Reg) (s : State) : Host.Outcome State Fault Refusal :=
  atomicWord (.atcas32 w sc d a b) .cas 4 false sc d a b s

/-- ATFADD.f32 (R261). -/
def execAtfaddF32 (w : Bool) (sc : Scope) (d a b : Reg) (s : State) : Host.Outcome State Fault Refusal :=
  atomicWord (.atfaddF32 w sc d a b) .fadd 4 false sc d a b s

end Sys2Proof.Machine
end

