-- ==== Sys2Proof/Machine/Barrier.lean ====
section
/-! DEFINITION. Barrier registers (R276–R282): arrivals, the records of phases, and BINIT, BARV, BWAIT and BTEST. -/

namespace Sys2Proof.Machine

def getBar (s : State) (core slot b : Nat) : Barrier := tgetD .reset (getWg s core slot).bars b
def setBar (s : State) (core slot b : Nat) (r : Barrier) : State :=
  updWg s core slot fun g => { g with bars := tput g.bars b r }

/-- Post a record that nobody took (R282). -/
def postUnclaimed (s : State) (core slot : Nat) (r : Option EngRec) (more : Bool) : State :=
  match r with
  | none => s
  | some e => postRecord s (getWg s core slot).farea (unclaimed core slot (getWg s core slot) e more)

/-- Post the records that a barrier register still holds, the completed phase's first (R282, R356). -/
def postHeld (s : State) (core slot : Nat) (r : Barrier) : State :=
  let s := if r.taken then s else postUnclaimed s core slot r.crec r.more
  postUnclaimed s core slot r.prec r.pmore

/-- A fault record is attached to the phase in progress; the first is kept (R282). -/
def attachRec (r : Barrier) (e : Option EngRec) : Barrier :=
  match e with
  | none => r
  | some _ => if r.prec.isSome then { r with pmore := true } else { r with prec := e }

/-- The flip of a phase (R277). -/
def flipBar (r : Barrier) : Barrier :=
  { r with phase := !r.phase, cnt := 0, crec := r.prec, more := r.pmore, prec := none, pmore := false, taken := false }

/-- SEEN of a barrier register takes its PHASE (R280). -/
def seeBar (w : Warp) (b : Nat) (phase : Bool) : Warp :=
  { w with seen := if phase then w.seen ||| BitVec.ofNat 16 (2 ^ b) else w.seen &&& ~~~(BitVec.ofNat 16 (2 ^ b)) }

/-- The streams of a warp that are parked in BWAIT on b return with a record (R280, R282); a return is progress. -/
def releaseBwaits (b : Nat) (phase : Bool) (ret : Option (EngRec × Bool)) (w : Warp) : Warp :=
  let parked := fun (st : Stream) => st.wait == .barrier b
  if parked w.main || w.splits.any fun p => parked p.st then
    let f := fun (st : Stream) => if parked st then { st with wait := .bret ret } else st
    let w := seeBar { w with gcount := 0 } b phase
    { w with main := f w.main, splits := w.splits.map fun p => { p with st := f p.st } }
  else w

/-- A warp has a stream parked in BWAIT on b. -/
def parkedAt (w : Warp) (b : Nat) : Bool := w.main.wait == .barrier b || w.splits.any fun p => p.st.wait == .barrier b

/-- One arrival at a barrier register (R277, R282); `cmd` for the completion of an attached command. -/
def arrive (s : State) (core slot b : Nat) (e : Option EngRec) (cmd : Bool) : State :=
  let r := getBar s core slot b
  let r := attachRec (if cmd then { r with pend := r.pend - 1 } else r) e
  let r := { r with cnt := r.cnt + 1 }
  if r.cnt = r.exp then
    let s := if r.taken then s else postUnclaimed s core slot r.crec r.more
    let r := flipBar r
    let any := (getWg s core slot).warps.any fun w => parkedAt w.2 b
    let r := { r with taken := any && r.crec.isSome }
    let s := setBar s core slot b r
    updWg s core slot fun g =>
      { g with warps := tmap (releaseBwaits b r.phase (r.crec.map fun e => (e, r.more))) g.warps }
  else setBar s core slot b r

/-- BINIT's effect (R278). -/
def applyBinit (s : State) (core slot b : Nat) (v : Word) : State :=
  let r := getBar s core slot b
  let s := postHeld s core slot r
  let s := setBar s core slot b
    { r with exp := v.setWidth 16, cnt := 0, init := true, crec := none, more := false, prec := none, pmore := false,
             taken := false }
  updWg s core slot fun g => { g with warps := tmap (fun w => seeBar w b r.phase) g.warps }

/-- The warp's commit buffer holds a BINIT of the register (R295). -/
def initBuffered (s : State) (o : Who) (b : Nat) : Bool :=
  (warpOf s o).buf.any fun e => match e.effect with
    | .binit c _ => c == b
    | .store _ _ => false | .atomic _ _ _ _ _ _ => false | .barv _ => false | .tdef _ _ => false | .engine _ => false
    | .cpyc _ => false | .mclose _ _ => false | .tspawn _ _ _ => false | .tsucc _ _ => false
    | .lateStore _ _ _ _ _ => false | .lateAtomic _ _ _ _ _ _ _ => false

/-- INIT is set, or a BINIT in the warp's commit buffer will set it (R277, R295). -/
def initSet (s : State) (o : Who) (b : Nat) : Bool := (getBar s o.core o.slot b).init || initBuffered s o b

/-- A word whose effect deterministic mode holds for step 2 of the commit (R295); at set and block scope the latch waits
for it (R266). -/
def stepTwo (s : State) (o : Who) (x : BitVec 32) (sc : Scope) (e : BufEffect) (now : State → State) : Res :=
  if (wgOf s o).det then
    let s := pushBuf s o x (latchOf s o sc) e
    if sc == .set || sc == .block then .wait s .commit else .done s
  else .done (now s)

/-- BINIT (R278). -/
def execBinit (w : Bool) (sc : Scope) (i : BitVec 7) (a : Reg) (s : State) : Host.Outcome State Fault Refusal :=
  runWord (.binit w sc i a) sc (fun s o => decide (i.toNat ≤ 15) && srcOk s o sc a) [a] false true
    (fun s o =>
      let v := rdS s o a
      if bits v 63 16 ≠ 0 ∨ bits v 15 0 = 0 then .trap s (trapOf 0x03)
      else if (getBar s o.core o.slot i.toNat).pend ≠ 0 then .trap s (trapOf 0x19)
      else stepTwo s o (encode (.binit w sc i a)) sc (.binit i.toNat v) fun s => applyBinit s o.core o.slot i.toNat v) s

/-- BARV (R279). -/
def execBarv (w : Bool) (sc : Scope) (i : BitVec 7) (s : State) : Host.Outcome State Fault Refusal :=
  runWord (.barv w sc i) sc (fun _ _ => decide (i.toNat ≤ 15)) [] false true
    (fun s o =>
      if !initSet s o i.toNat then .trap s (trapOf 0x19)
      else stepTwo s o (encode (.barv w sc i)) sc (.barv i.toNat) fun s => arrive s o.core o.slot i.toNat none false) s

/-- A BWAIT returns (R280, R282). -/
def returned (s : State) (r : Option (EngRec × Bool)) : Res :=
  match r with
  | none => .done s
  | some e => .trap s (engineTrap e.1 e.2)

/-- BWAIT (R280). -/
def execBwait (w : Bool) (i : BitVec 7) (s : State) : Host.Outcome State Fault Refusal :=
  runWord (.bwait w i) .warp (fun _ _ => decide (i.toNat ≤ 15)) [] false false
    (fun s o =>
      let b := i.toNat
      match (streamOf s o).wait with
      | .bret r => returned s r
      | _ =>
        let r := getBar s o.core o.slot b
        if !initSet s o b then .trap s (trapOf 0x19)
        else if r.phase == (warpOf s o).seen.getLsbD b || initBuffered s o b then
          .wait (endQuantum s o) (.barrier b)
        else
          let s := endQuantum (progress (updWarpOf s o fun w => seeBar w b r.phase) o) o
          let s := if r.crec.isSome then setBar s o.core o.slot b { r with taken := true } else s
          returned s (r.crec.map fun e => (e, r.more))) s

/-- The word that BTEST returns (R281). -/
def btestWord (r : Barrier) (seen : Bool) : Word :=
  let bit := fun (b : Bool) (n : Nat) => if b then 2 ^ n else 0
  BitVec.ofNat 64 ((if r.pend < 255 then r.pend else 255) * 2 ^ 40 + bit r.pmore 38 + bit r.prec.isSome 37
    + bit r.more 36 + bit r.crec.isSome 35 + bit r.init 34 + bit seen 33 + bit r.phase 32
    + r.exp.toNat * 2 ^ 16 + r.cnt.toNat)

/-- BTEST (R281). -/
def execBtest (w : Bool) (d : Reg) (i : BitVec 7) (s : State) : Host.Outcome State Fault Refusal :=
  runWord (.btest w d i) .warp (fun s o => decide (i.toNat ≤ 15) && dstOk s o .warp d) [] (isS d) false
    (fun s o =>
      .done (lateScalar s o .warp d
        (btestWord (getBar s o.core o.slot i.toNat) ((warpOf s o).seen.getLsbD i.toNat)))) s

end Sys2Proof.Machine
end

