-- ==== Sys2Proof/Machine/Tensor.lean ====
section
/-! DEFINITION. Tensor descriptors (R270–R272), tiles and elements (R271, R289), block scales (R83), the regions of an
operand (R209), engine accesses with their faults (R256, R275, R408), and the block quantiser (R84, R85, R292). -/

namespace Sys2Proof.Machine

/-! ### Descriptors (R270, R272) -/

/-- A tensor descriptor (R270); `len` is L, `span` T, `book` CODEBOOK, `strides` with stride 1 of dimension 0; `home` is the
address that TDEF loaded it from (R273), for the faults that name it (R352). -/
structure Desc where
  base    : Nat
  space   : Nat
  ty      : ElTy
  scaleb  : Nat
  geom    : Nat
  ndim    : Nat
  bitmap  : Nat
  len     : Nat
  book    : Nat
  span    : Nat
  dims    : List Nat
  strides : List Nat
  tiles   : List Nat
  home    : Word
  deriving DecidableEq, Repr

/-- The formats that may carry block scales (R272). -/
def mayScale (t : ElTy) : Bool :=
  match t with
  | .e4m3 => true | .e5m2 => true | .i8 => true | .c4 => true
  | .f32 => false | .bf16 => false | .f16 => false | .i32 => false | .ui32 => false | .ui8 => false

/-- Bytes of an element, 1 for c4 (R272). -/
def elBytes (t : ElTy) : Nat := if t = .c4 then 1 else elWidth t / 8

/-- The checks of R272 that look at the descriptor alone; none for a bad one. With `scalesOnly`, those on BASE, NDIM,
DIM, STRIDE and TILE are skipped (R315). -/
def parseDesc (bs : List Byte) (scalesOnly : Bool) : Option Desc :=
  if bs.length ≠ 64 then none
  else
    let b7 := field bs 7 7
    let b15 := field bs 15 15
    match elTyOf (b7 % 16) with
    | none => none
    | some ty =>
      let geom := b15 % 4
      let ndim := b15 / 4 % 4 + 1
      let dim := fun i => field bs (32 + 4 * i) (35 + 4 * i)
      let stride := fun i => if i = 0 then 1 else field bs (44 + 4 * i) (47 + 4 * i)
      let tile := fun i => field bs (60 + i) (60 + i)
      let base := field bs 0 6
      let len := field bs 23 23
      let book := field bs 24 30
      let span := field bs 31 31
      let shape := (List.range 4).all fun i =>
        if i < ndim then dim i != 0 else dim i == 0 && (i == 0 || stride i == 0) && tile i == 0
      let placed := base % elBytes ty == 0 && !(ty == .c4 && tile 0 % 2 == 0)
        && !(b7 / 16 % 4 == 0 && decide (Config.windowBase ≤ base))
      let scales := if geom = 0 then len == 0 && field bs 8 14 == 0
                    else mayScale ty && decide (1 ≤ len) && decide (len ≤ 64)
      let map := geom == 2 || (field bs 16 22 == 0 && span == 0)
      let codebook := book == 0 || (ty == .c4 && book % 32 == 0)
      if b7 / 64 == 0 && b15 / 16 == 0 && geom != 3 && scales && map && codebook
          && (scalesOnly || (shape && placed)) then
        some { base := base, space := b7 / 16 % 4, ty := ty, scaleb := field bs 8 14, geom := geom,
               ndim := ndim, bitmap := field bs 16 22, len := len, book := book, span := span,
               dims := (List.range 4).map fun i => if i < ndim then dim i else 1,
               strides := (List.range 4).map fun i => if i < ndim then stride i else 0,
               tiles := (List.range 4).map fun i => tile i + 1, home := 0 }
      else none

/-! ### Coordinates (R271, R289) -/

structure Coord where
  x : Nat
  y : Nat
  z : Nat
  w : Nat
  deriving DecidableEq, Repr

def nth (xs : List Nat) (i : Nat) : Nat := xs.getD i 0
def dimOf (d : Desc) (i : Nat) : Nat := nth d.dims i
def tileExt (d : Desc) (i : Nat) : Nat := nth d.tiles i

/-- Elements of a tile, and of the tensor. -/
def tileCount (d : Desc) : Nat := tileExt d 0 * tileExt d 1 * tileExt d 2 * tileExt d 3
def elemCount (d : Desc) : Nat := dimOf d 0 * dimOf d 1 * dimOf d 2 * dimOf d 3

/-- Element n of tile (tx, ty) in tile order (R271). -/
def tileCoord (d : Desc) (tx ty n : Nat) : Coord :=
  let t0 := tileExt d 0
  let t1 := tileExt d 1
  let t2 := tileExt d 2
  { x := tx * t0 + n % t0, y := ty * t1 + n / t0 % t1, z := n / (t0 * t1) % t2, w := n / (t0 * t1 * t2) }

/-- Element n of the whole tensor (R289). -/
def linCoord (d : Desc) (n : Nat) : Coord :=
  let d0 := dimOf d 0
  let d1 := dimOf d 1
  let d2 := dimOf d 2
  { x := n % d0, y := n / d0 % d1, z := n / (d0 * d1) % d2, w := n / (d0 * d1 * d2) }

/-- The element lies inside the tensor (R271). -/
def inside (d : Desc) (c : Coord) : Bool :=
  decide (c.x < dimOf d 0) && decide (c.y < dimOf d 1) && decide (c.z < dimOf d 2) && decide (c.w < dimOf d 3)

/-- Element offset from BASE (R271). -/
def elemOff (d : Desc) (c : Coord) : Nat :=
  c.x * nth d.strides 0 + c.y * nth d.strides 1 + c.z * nth d.strides 2 + c.w * nth d.strides 3

/-- Number in logical element order, which strides do not change (R83). -/
def elemNum (d : Desc) (c : Coord) : Nat := c.x + dimOf d 0 * (c.y + dimOf d 1 * (c.z + dimOf d 2 * c.w))

/-- Byte address of an element offset, and the end of its bytes (R70, R271). -/
def byteAt (d : Desc) (e : Nat) : Nat := d.base + e * elWidth d.ty / 8
def byteEnd (d : Desc) (e : Nat) : Nat := byteAt d e + elBytes d.ty

/-- Lowest and highest corner of the part of a tile that lies inside the tensor. -/
def tileCorners (d : Desc) (tx ty : Nat) : Option (Coord × Coord) :=
  let lo := tileCoord d tx ty 0
  let hi := tileCoord d tx ty (tileCount d - 1)
  let cap := fun (v i : Nat) => if v < dimOf d i then v else dimOf d i - 1
  if inside d lo then some (lo, { x := cap hi.x 0, y := cap hi.y 1, z := cap hi.z 2, w := cap hi.w 3 }) else none

/-- Elements of a tile, in tile order, up to the last that lies inside the tensor. -/
def tileReach (d : Desc) (tx ty : Nat) : Nat :=
  match tileCorners d tx ty with
  | none => 0
  | some (lo, hi) =>
    hi.x - lo.x + tileExt d 0 * (hi.y - lo.y + tileExt d 1 * (hi.z - lo.z + tileExt d 2 * (hi.w - lo.w))) + 1

/-- The rows of a two-dimensional tile as far as they lie inside the tensor: the first and last element of each. -/
def tileRows (d : Desc) (tx ty : Nat) : List (Coord × Coord) :=
  match tileCorners d tx ty with
  | none => []
  | some (lo, hi) => (List.range (hi.y - lo.y + 1)).map fun j => ({ lo with y := lo.y + j }, { hi with y := lo.y + j })

/-- The highest element offset among elements 0 to `last` of the tensor: that of `last`, or of the last element of an
earlier run of some dimension. -/
def linHigh (d : Desc) (last : Nat) : Nat :=
  let c := linCoord d last
  let cands := [c] ++
    (if c.y = 0 then [] else [{ c with x := dimOf d 0 - 1, y := c.y - 1 }]) ++
    (if c.z = 0 then [] else [{ c with x := dimOf d 0 - 1, y := dimOf d 1 - 1, z := c.z - 1 }]) ++
    (if c.w = 0 then [] else [{ x := dimOf d 0 - 1, y := dimOf d 1 - 1, z := dimOf d 2 - 1, w := c.w - 1 }])
  cands.foldl (fun m k => if m < elemOff d k then elemOff d k else m) 0

/-! ### Regions (R209) -/

/-- An operand region (R209): its space, whether the command writes it, whether it is an index list, its bytes [lo, hi), and
the address of its tensor's descriptor. -/
structure Region where
  space : Nat
  write : Bool
  list  : Bool := false
  lo    : Nat
  hi    : Nat
  home  : Word
  deriving DecidableEq, Repr

/-- The region of a tile (R209). -/
def tileRegion (d : Desc) (write : Bool) (tx ty : Nat) : List Region :=
  match tileCorners d tx ty with
  | none => []
  | some (lo, hi) =>
    [{ space := d.space, write := write, lo := byteAt d (elemOff d lo), hi := byteEnd d (elemOff d hi), home := d.home }]

/-- The region of the first `count` elements of a tensor. -/
def linRegion (d : Desc) (write : Bool) (count : Nat) : List Region :=
  if count = 0 then []
  else [{ space := d.space, write := write, lo := d.base, hi := byteEnd d (linHigh d (count - 1)), home := d.home }]

/-- Blocks of a row under fixed geometry (R83). -/
def rowBlocks (d : Desc) : Nat := (dimOf d 0 + d.len - 1) / d.len

/-- Block number of an element under fixed geometry: blocks never cross rows (R83). -/
def fixedBlock (d : Desc) (c : Coord) : Nat := elemNum d c / dimOf d 0 * rowBlocks d + c.x / d.len

/-- The scale and bitmap regions for the elements from a first to a last in element order (R209); `spaceEnd` is where
the tensor's space ends. -/
def scaleRegions (d : Desc) (write : Bool) (spaceEnd : Nat) (ends : Option (Coord × Coord)) : List Region :=
  match ends with
  | none => []
  | some (lo, hi) =>
    if d.geom = 1 then
      [{ space := d.space, write := write, lo := d.scaleb + fixedBlock d lo, hi := d.scaleb + fixedBlock d hi + 1,
         home := d.home }]
    else if d.geom = 2 then
      [{ space := d.space, write := write, lo := d.scaleb,
         hi := if d.scaleb < spaceEnd then spaceEnd else d.scaleb + 1, home := d.home },
       { space := d.space, write := write, lo := d.bitmap + elemNum d lo / 8, hi := d.bitmap + elemNum d hi / 8 + 1,
         home := d.home }]
    else []

/-- First and last of the first `count` elements. -/
def linEnds (d : Desc) (count : Nat) : Option (Coord × Coord) :=
  if count = 0 then none else some (linCoord d 0, linCoord d (count - 1))

/-- Bytes from the first to the last element of the whole tensor (R272). -/
def extent (d : Desc) : Nat × Nat :=
  let top : Coord := { x := dimOf d 0 - 1, y := dimOf d 1 - 1, z := dimOf d 2 - 1, w := dimOf d 3 - 1 }
  (d.base, byteEnd d (elemOff d top))

/-! ### Engine accesses -/

/-- Why an engine access stops: a fault (R275), a page that service may supply (R236), a page that PGX holds (R235). -/
inductive EStop where
  | fault (cause : BitVec 8) (addr : Nat) (malf : Bool) (level : Nat)
  | serve (ctx va : Nat)
  | held (va : Nat)
  deriving DecidableEq, Repr

/-- An engine's work: it changes the state as it goes, and may stop. -/
abbrev EM (α : Type) := ExceptT EStop (StateM State) α

/-- Whose work it is: the issuing stream, its context, the bin-floor share in use, an address whose service was refused,
and the L2 policy of what it fills. -/
structure EngEnv where
  who     : Who
  ctx     : Nat
  share   : Nat × Nat
  refused : Option Word
  pol     : BitVec 2
  deriving DecidableEq, Repr

/-- The end of a space as a workgroup and a share see it: scratchpad allotment or share size. -/
def spaceEnd (s : State) (o : Who) (share : Nat × Nat) (space : Nat) : Nat :=
  if space = 1 then (wgOf s o).hdr.scratch else share.2

/-- Translate an engine's virtual address. -/
def engPhys (e : EngEnv) (need : Need) (a : Nat) : EM Nat := do
  if a ≥ 2 ^ 56 || inWindow a then throw (.fault 0x09 a false 0)
  let s ← get
  let r := translate s e.who.core e.ctx a need (inRefused e.refused a)
  set r.1
  match r.2 with
  | .ok pa _ => return pa
  | .fault c malf level => throw (.fault c a malf level)
  | .refused => throw (.fault Config.peerRefusal a false 0)
  | .serve => throw (.serve e.ctx a)
  | .held => throw (.held a)

/-- Check the sectors of physical bytes (R408); `a` is their virtual address. -/
def engCheck (e : EngEnv) (pa n a : Nat) : EM Unit := do
  let s ← get
  match badSector s pa n with
  | none => pure ()
  | some b => do
    set (integrityService s e.ctx b)
    throw (.fault 0x0E (a / 32 * 32) false 0)

/-- Check the sectors of a workgroup's scratchpad (`slot`) or of the bin floor; `at_` is the tensor offset of byte `off`. -/
def engCoreCheck (e : EngEnv) (slot : Option Nat) (m : Memory) (off n at_ : Nat) : EM Unit := do
  let s ← get
  match badCoreSector s e.who.core slot m off n with
  | none => pure ()
  | some b => do
    set (coreIntegrity s e.ctx)
    throw (.fault 0x0E (at_ - off + b) false 0)

/-- Physical bytes as an engine sees them: a byte that core-path stores have written and that are not yet performed is as it
stood before any of these or after the last (R256), the choice free for each byte and write. -/
def engSees (ctx pa n : Nat) : EM (List Byte) := do
  let s ← get
  let late := s.pend.filter fun p =>
    !p.atDev && lineCtx p.ctx p.pa == lineCtx ctx pa && decide (p.pa < pa + n) && decide (pa < p.pa + p.old.length)
  if late.isEmpty then return physRead s ctx pa n
  set (bump s)
  return (physRead s ctx pa n).zipIdx.map fun b =>
    let a := pa + b.2
    match late.zipIdx.find? fun p =>
        decide (p.1.pa ≤ a) && decide (a < p.1.pa + p.1.old.length) && !Config.engineSees s.free (a + 2 ^ 48 * p.2) with
    | none => b.1
    | some p => p.1.old.getD (a - p.1.pa) 0

/-- Read n bytes of a tensor's space. -/
def engRead (e : EngEnv) (space a n : Nat) : EM (List Byte) := do
  let s ← get
  if space = 1 then
    if a + n > (wgOf s e.who).hdr.scratch then throw (.fault 0x0C a false 0)
    engCoreCheck e (some e.who.slot) (wgOf s e.who).scratch a n a
    return scratchRead (← get) e.who.core e.who.slot a n
  else if space = 2 then
    if a + n > e.share.2 then throw (.fault 0x1A a false 0)
    engCoreCheck e none (getCore s e.who.core).floor (e.share.1 + a) n a
    return floorRead (← get) e.who.core (e.share.1 + a) n
  else
    let pa ← engPhys e .read a
    engCheck e pa n a
    modify fun s => l2Touch s pa e.pol
    engSees e.ctx pa n

/-- A write of n bytes at a takes a sector whole where the run of bytes [lo, hi) that it belongs to holds the sector: then
the old check does not matter (R408). -/
def wholeSectors (a n lo hi : Nat) : Bool := decide (lo ≤ a / 32 * 32) && decide ((a + n + 31) / 32 * 32 ≤ hi)

/-- Write n bytes of a tensor's space, made of those that stand there, as part of a run [lo, hi): such a write needs W alone
(R227). -/
def engPut (e : EngEnv) (space a n : Nat) (f : List Byte → List Byte) (lo hi : Nat) : EM Unit := do
  let s ← get
  if space = 1 then
    if a + n > (wgOf s e.who).hdr.scratch then throw (.fault 0x0C a false 0)
    if !wholeSectors a n lo hi then engCoreCheck e (some e.who.slot) (wgOf s e.who).scratch a n a
    modify fun s => scratchWrite s e.who.core e.who.slot a (f (scratchRead s e.who.core e.who.slot a n))
  else if space = 2 then
    if a + n > e.share.2 then throw (.fault 0x1A a false 0)
    if !wholeSectors a n lo hi then engCoreCheck e none (getCore s e.who.core).floor (e.share.1 + a) n a
    modify fun s => floorWrite s e.who.core (e.share.1 + a) (f (floorRead s e.who.core (e.share.1 + a) n))
  else
    let pa ← engPhys e .write a
    if !wholeSectors a n lo hi then engCheck e pa n a
    modify fun s => outerWrite (l2Touch s pa e.pol) e.ctx pa (f (physRead s e.ctx pa n))

/-- Write bytes of a tensor's space, as part of a run [lo, hi). -/
def engWrite (e : EngEnv) (space a : Nat) (bs : List Byte) (lo hi : Nat) : EM Unit := engPut e space a bs.length (fun _ => bs) lo hi

/-- A 4-byte engine access by virtual address, the scratchpad window included (R293, R322): `f` of the old value is
written, and an atomic first writes back the core's own first-level line (R260). -/
def engUpdate (e : EngEnv) (need : Need) (a : Nat) (f : Nat → Nat) : EM Unit := do
  if a % 4 ≠ 0 then throw (.fault 0x08 a false 0)
  if a < 2 ^ 56 && inWindow a then
    let off := a - Config.windowBase
    let s ← get
    if off + 4 > (wgOf s e.who).hdr.scratch then throw (.fault 0x0C a false 0)
    engCoreCheck e (some e.who.slot) (wgOf s e.who).scratch off 4 a
    modify fun s =>
      scratchWrite s e.who.core e.who.slot off
        (bytesOfNat 4 (f (natOfBytes (scratchRead s e.who.core e.who.slot off 4))))
  else
    let pa ← engPhys e need a
    engCheck e pa 4 a
    modify fun s =>
      let s := if need = .both then dropLine s e.who e.ctx pa else s
      outerWrite (l2Touch s pa e.pol) e.ctx pa (bytesOfNat 4 (f (natOfBytes (physRead s e.ctx pa 4))))

/-! ### Elements -/

/-- The bytes, and for c4 the nibble, of an element. -/
def elemBits (e : EngEnv) (d : Desc) (c : Coord) : EM Nat := do
  if !inside d c then return 0
  let off := elemOff d c
  let bs ← engRead e d.space (byteAt d off) (elBytes d.ty)
  let v := natOfBytes bs
  return (if d.ty = .c4 then (if off % 2 = 1 then v / 16 else v % 16) else v)

/-- The codebook of a c4 tensor as BF16 patterns, in device memory (R75, R76, R270). -/
def codebookOf (e : EngEnv) (d : Desc) : EM (List Nat) := do
  if d.ty ≠ .c4 then return []
  if d.book = 0 then return codebook0
  let bs ← engRead e 0 d.book 32
  return (List.range 16).map fun j => field bs (2 * j) (2 * j + 1)

/-- Bytes read one by one. -/
def engBytes (e : EngEnv) (space a : Nat) : Nat → EM (List Byte)
  | 0 => return []
  | n + 1 => do
    let b ← engRead e space a 1
    let bs ← engBytes e space (a + 1) n
    return b ++ bs

/-- Block number of element n under bitmap geometry (R83): one less than the block starts among elements 0 to n; `run` is
what the block in progress holds. -/
def bitmapBlock (bs : List Byte) (d0 len : Nat) (n : Nat) : Nat :=
  let r := (List.range (n + 1)).foldl (fun (p : Nat × Nat) i =>
    if i % d0 = 0 || (bs.getD (i / 8) 0).getLsbD (i % 8) || p.2 == len then (p.1 + 1, 1) else (p.1, p.2 + 1)) (0, 0)
  r.1 - 1

/-- Where the scale byte of an element stands (R83), and its code, 127 where the geometry is none. -/
def scaleAt (e : EngEnv) (d : Desc) (c : Coord) : EM (Option Nat × Nat) := do
  if d.geom = 0 then return (none, 127)
  let k ← (if d.geom = 1 then return fixedBlock d c
    else do
      let n := elemNum d c
      let bs ← engBytes e d.space d.bitmap (n / 8 + 1)
      return bitmapBlock bs (dimOf d 0) d.len n)
  let b ← engRead e d.space (d.scaleb + k) 1
  return (some (d.scaleb + k), natOfBytes b)

/-- The scale code of an element (R83). -/
def scaleCode (e : EngEnv) (d : Desc) (c : Coord) : EM Nat := return (← scaleAt e d c).2

/-- The exact value of an element under its scale and codebook, +0 outside the tensor (R75, R77, R271), and where its scale
byte stands. -/
def elemScaled (e : EngEnv) (d : Desc) (c : Coord) : EM (FVal × Option Nat) := do
  if !inside d c then return (.fin false 0 0, none)
  let x ← elemBits e d c
  let book ← codebookOf e d
  let v := elValue d.ty book x
  if d.geom = 0 then return (v, none)
  let r ← scaleAt e d c
  return (scaleOf r.2 v, r.1)

/-- The exact value of an element. -/
def elemValue (e : EngEnv) (d : Desc) (c : Coord) : EM FVal := return (← elemScaled e d c).1

/-- The run of bytes that the elements of a dimension-0 row between two x coordinates fill: a byte of which another element
keeps a nibble is not in it. -/
def rowRun (d : Desc) (c : Coord) (x0 x1 : Nat) : Nat × Nat :=
  let o0 := elemOff d { c with x := x0 }
  let o1 := elemOff d { c with x := x1 }
  (byteAt d o0 + (if d.ty = .c4 then o0 % 2 else 0), byteEnd d o1 - (if d.ty = .c4 then 1 - o1 % 2 else 0))

/-- Write an element's bits; outside the tensor the write is skipped (R271). `run` is the run of bytes it belongs to. -/
def putBits (e : EngEnv) (d : Desc) (c : Coord) (v : Nat) (run : Nat × Nat) : EM Unit := do
  if !inside d c then return ()
  let off := elemOff d c
  let a := byteAt d off
  if d.ty = .c4 then
    let nibble := fun (o : Nat) => if off % 2 = 1 then o % 16 + 16 * (v % 16) else o / 16 * 16 + v % 16
    engPut e d.space a 1 (fun old => bytesOfNat 1 (nibble (natOfBytes old))) run.1 run.2
  else engWrite e d.space a (bytesOfNat (elBytes d.ty) v) run.1 run.2

/-! ### The block quantiser (R84, R85, R292) -/

/-- E(m) of the target's largest magnitude (R85). -/
def targetExp (t : ElTy) (book : List FVal) : Option Int :=
  match t with
  | .e4m3 => some 8
  | .e5m2 => some 15
  | .i8 => some 6
  | .c4 => book.foldl (fun m v => maxOption m (finExp v)) none
  | .f32 => none | .bf16 => none | .f16 => none | .i32 => none | .ui32 => none | .ui8 => none

/-- One code: the target value nearest a scaled value (R81, R85), or the saturating conversion of GEOM 0 (R292). -/
def codeOf (t : ElTy) (book : List FVal) (v : FVal) : Nat :=
  if t = .c4 then toCodebook book v else (convertTo t true v).1

/-- Where blocks start in a row (R83, R84); the state is the elements of the block in progress and its exponent range. -/
def blockStarts (d : Desc) (xs : List FVal) : List Bool :=
  let r := xs.zipIdx.foldl (fun (p : List Bool × Nat × Option (Int × Int)) x =>
    let ex := finExp x.1
    let wide := match p.2.2, ex with
      | some (lo, hi), some v =>
        let lo' := if v < lo then v else lo
        let hi' := if hi < v then v else hi
        decide ((d.span : Int) < hi' - lo')
      | _, _ => false
    let start := if d.geom = 1 then x.2 % d.len == 0 else x.2 == 0 || p.2.1 == d.len || wide
    let old := if start then none else p.2.2
    let range := match old, ex with
      | some (lo, hi), some v => some (if v < lo then v else lo, if hi < v then v else hi)
      | none, some v => some (v, v)
      | o, none => o
    (p.1 ++ [start], if start then 1 else p.2.1 + 1, range)) ([], 0, none)
  r.1

/-- The scale code and codes of one block (R85). -/
def quantBlock (t : ElTy) (book : List FVal) (xs : List FVal) : Nat × List Nat :=
  if xs.any fun x => isNaN x || isInf x then (255, xs.map fun _ => 0)
  else
    match xs.foldl (fun m x => maxOption m (finExp x)) none with
    | none =>
      (127, xs.map fun x => match elFmt t with
        | some f => zeroPattern f (isNeg x)
        | none => 0)
    | some em =>
      let c : Int := match targetExp t book with
        | none => 127
        | some et => sat (em - et + 127) 0 254
      (c.toNat, xs.map fun x => codeOf t book (scaleVal x (127 - c)))

/-- Split a row at its block starts. -/
def splitBlocks (xs : List (FVal × Bool)) : List (List FVal) :=
  xs.foldr (fun x (p : List (List FVal)) => match p with
    | [] => if x.2 then [[], [x.1]] else [[x.1]]
    | b :: bs => if x.2 then [] :: (x.1 :: b) :: bs else (x.1 :: b) :: bs) [[]]
    |>.filter fun b => !b.isEmpty

/-- One row quantised: codes, block starts and scale codes (R84, R85); under GEOM 0 codes alone (R292). -/
def quantRow (d : Desc) (book : List FVal) (xs : List FVal) : List Nat × List Bool × List Nat :=
  if d.geom = 0 then (xs.map (codeOf d.ty book), [], [])
  else
    let starts := blockStarts d xs
    let blocks := (splitBlocks (xs.zip starts)).map (quantBlock d.ty book)
    (blocks.flatMap Prod.snd, starts, blocks.map Prod.fst)

end Sys2Proof.Machine
end

