-- ==== Sys2Proof/Machine/EngineCmd.lean ====
section
/-! DEFINITION. Engine commands in common (R274, R275): what a command captures at issue, reads on the core path at issue,
and the checks and effects of acceptance for CPY, CPYG, CPYX, CHAIN and COLL (R283–R294, R404). -/

namespace Sys2Proof.Machine

/-- A command as its word issues it. -/
def newOp (s : State) (o : Who) (kind : EngKind) (sc : Scope) (x : BitVec 32) (imm : Nat) (a b : Word) : EngOp :=
  { id := 0, kind := kind, who := o, scope := sc, ctx := (wgOf s o).ctx, pc := (streamOf s o).pc, word := x, imm := imm,
    a := a, b := b, latch := latchOf s o sc, group := latchOf s o sc, src := [], dst := [], idx := [], aux := [],
    record := [], consts := [], count := 0, rows := [], scales := [], batch := 0, share := (0, 0), pos := 0, row := [],
    blocks := 0, amaxs := [], sums := [], parts := [], got := [], fault := none, cancelled := false, paused := none,
    refused := none, pageCtx := (wgOf s o).ctx, pins := [] }

/-- The checks and effects of an acceptance: it changes the state, and may stop at a trap or wait. -/
abbrev CM (α : Type) := ExceptT (Trap ⊕ Wait) (StateM State) α

def cTrap {α : Type} (t : Trap) : CM α := throw (.inl t)
def cWait {α : Type} (w : Wait) : CM α := throw (.inr w)
def cause {α : Type} (c : BitVec 8) : CM α := cTrap (trapOf c)

/-- Require a condition, or raise a cause. -/
def need (ok : Bool) (c : BitVec 8) : CM Unit := if ok then pure () else cause c

/-- Require a condition of a descriptor, or raise the cause of a bad one, which names its address (R352; log entry 9). -/
def needDesc (ok : Bool) (home : Word) : CM Unit := if ok then pure () else cTrap (trapAt 0x1A home)

/-! ### Reads on the core path at issue (R273, R287, R294, R404) -/

/-- n bytes at an aligned virtual address, with precise faults (R244). -/
def coreRead (o : Who) (a n : Nat) : CM (List Byte) := do
  let s ← get
  let w := BitVec.ofNat 64 a
  let r := access s o .load n w
  set r.1
  match r.2 with
  | .trap t => cTrap t
  | .serve va => do
    set (pfStart r.1 (wgOf r.1 o).ctx va)
    cWait (.pageFault w)
  | .held va => cWait (.pgx (BitVec.ofNat 64 va))
  | .ok l =>
    match sbWait r.1 o n false [(0, l)] with
    | some w => cWait w
    | none =>
      match l with
      | .scratch off => return scratchRead r.1 o.core o.slot off n
      | .phys pa wb => do
        let q := loadPhys r.1 o (wgOf r.1 o).ctx pa n wb (warpOf r.1 o).cpol
        set q.1
        return q.2

/-- Bytes of no particular alignment. -/
def coreReadBytes (o : Who) (a : Nat) : Nat → CM (List Byte)
  | 0 => return []
  | n + 1 => do
    let b ← coreRead o a 1
    let bs ← coreReadBytes o (a + 1) n
    return b ++ bs

/-! ### Checks (R272, R274, R275) -/

/-- Streamer rights, of the lowest member at set and block scope (R274). -/
def rights (o : Who) : CM Unit := do
  let s ← get
  need ((wgOf s o).hdr.rights.getLsbD o.warp) 0x15

/-- The barrier register of a command is initialised (R275). -/
def initialised (o : Who) (b : Nat) : CM Unit := do
  let s ← get
  need (getBar s o.core o.slot b).init 0x19

/-- A context's bin-floor share in bytes (R303). -/
def shareOf (s : State) (ctx : Nat) : Nat × Nat :=
  ((getCtx s ctx).shareBase * 65536, (getCtx s ctx).shareSize * 65536)

/-- The contents of a tensor slot, as a command takes them (R269). -/
def slotBytes (s : State) (o : Who) (i : Nat) : List Byte := tgetD [] (wgOf s o).tensors i

/-- Virtual bytes [lo, hi) lie in one lease of the workgroup (R238, R272). -/
def leaseCovers (s : State) (o : Who) (lo hi : Nat) : Bool :=
  let rs := physRanges s (wgOf s o).ctx lo hi
  rs.foldl (fun t r => t + (r.2 - r.1)) 0 == hi - lo &&
    (wgOf s o).leases.any fun h => rs.all fun r =>
      (List.range ((r.2 - 1) / 128 + 1 - r.1 / 128)).all fun k =>
        h.2.any fun q => decide (q.1 ≤ r.1 / 128 + k) && decide (r.1 / 128 + k < q.2)

/-- A share write of the context is in progress (R303). -/
def shareBusy (s : State) (ctx : Nat) : Bool := s.bfloorOps.any fun q => bits q.1 45 40 == ctx

/-- The command waits among the core's waiting commands (R274). -/
def waitAccept {α : Type} (op : EngOp) : CM α := do
  modify fun s => updCore s op.who.core fun c => { c with waiting := c.waiting ++ [op] }
  cWait .accept

/-- The descriptor in a tensor slot of a command with every check of R272 (R275: cause 0x1A). One in the bin floor waits
while its context's share is being written, and is checked under the new share (R303). -/
def descOf (op : EngOp) (i : Nat) : CM Desc := do
  let s ← get
  let home := tgetD 0 (wgOf s op.who).tensorAt i
  match parseDesc (slotBytes s op.who i) false with
  | none => cTrap (trapAt 0x1A home)
  | some d =>
    let ext := extent d
    if d.space = 2 && shareBusy s op.ctx then waitAccept op
    if d.space = 2 then needDesc (decide (ext.2 ≤ (shareOf s op.ctx).2)) home
    if d.space = 3 then needDesc (leaseCovers s op.who ext.1 ext.2) home
    return { d with home := home }

/-- The bounds of regions: past the share is a bad descriptor, past the scratchpad 0x0C (R272, R275). -/
def boundRegions (o : Who) (rs : List Region) : CM Unit := do
  let s ← get
  match rs.find? fun r => r.space == 2 && decide ((shareOf s (wgOf s o).ctx).2 < r.hi) with
  | some r => cTrap (trapAt 0x1A r.home)
  | none => pure ()
  match rs.find? fun r => r.space == 1 && decide ((wgOf s o).hdr.scratch < r.hi) with
  | some r => cTrap (trapAt 0x0C (BitVec.ofNat 64 r.lo))
  | none => pure ()

/-- Accepted commands of a core in a queue (R274). -/
def queued (s : State) (core : Nat) (path : Nat) : Nat :=
  ((getCore s core).ops.filter fun p => pathOf p.kind == path).length

/-- Queue places of a path: the copies, the chains; others have no limit of their own (R274). -/
def queueFull (s : State) (core : Nat) (k : EngKind) : Bool :=
  match pathOf k with
  | 1 => decide (Config.copyQueue ≤ queued s core 1)
  | 2 => decide (Config.chainQueue ≤ queued s core 2)
  | _ => false

/-- The scoreboard entries of regions (R209, R210). -/
def entriesOf (slot id : Nat) (share : Nat × Nat) (rs : List Region) : List SbEntry :=
  (rs.filter fun r => (r.space == 1 || r.space == 2) && decide (r.lo < r.hi)).map fun r =>
    let base := if r.space = 2 then share.1 else 0
    { op := id, slot := slot, floor := r.space == 2, list := r.list, write := r.write, lo := r.lo + base, hi := r.hi + base }

/-- The lines of lease-space regions, which stay pinned until the command completes (R240). -/
def pinsOf (s : State) (ctx : Nat) (rs : List Region) : List (Nat × Nat) :=
  (rs.filter fun r => r.space == 3).flatMap fun r =>
    (physRanges s ctx r.lo r.hi).map fun p => (p.1 / 128, (p.2 + 127) / 128)

/-- Take a queue place and every entry at once, or wait among the core's waiting commands (R210, R274, R367); then the
command is accepted with the task record or table that is read at that moment. -/
def enterQueueWith (op : EngOp) (rs : List Region) (record : CM (List Byte)) : CM EngOp := do
  boundRegions op.who rs
  let s ← get
  let core := op.who.core
  let c := getCore s core
  let share := shareOf s op.ctx
  let es := entriesOf op.who.slot s.nextId share rs
  if c.halting || queueFull s core op.kind || c.sb.length + es.length > Config.scoreboardEntries
      then waitAccept op
  let record ← record
  let op := { op with id := s.nextId, share := share, pins := pinsOf s op.ctx rs, record := record }
  modify fun s =>
    { updCore s core fun c => { c with sb := c.sb ++ es, ops := c.ops ++ [op] } with nextId := s.nextId + 1 }
  return op

/-- The same for a command whose record, if any, its checks have read. -/
def enterQueue (op : EngOp) (rs : List Region) : CM EngOp := enterQueueWith op rs (return op.record)

/-- A command attached to a barrier register is accepted: PEND rises (R276). -/
def attached (op : EngOp) : CM Unit :=
  modify fun s =>
    let r := getBar s op.who.core op.who.slot op.imm
    setBar s op.who.core op.who.slot op.imm { r with pend := r.pend + 1 }

/-! ### Copies (R283, R286, R287) -/

/-- Where the space of a descriptor ends. -/
def endOf (s : State) (o : Who) (d : Desc) : Nat := spaceEnd s o (shareOf s (wgOf s o).ctx) d.space

/-- The scale regions that a converting read of a tile takes (R209). -/
def readScales (s : State) (o : Who) (d : Desc) (on : Bool) (ends : Option (Coord × Coord)) : List Region :=
  if on then scaleRegions d false (endOf s o d) ends else []

/-- The checks that a copy and a gather share: tile element counts and formats (R283, R286). -/
def copyFormats (sd dd : Desc) : CM Unit := do
  needDesc (tileCount sd == tileCount dd) dd.home
  needDesc (!(dd.ty == .c4 && sd.ty != .c4)) dd.home
  needDesc (sd.ty == dd.ty || dd.geom == 0) dd.home

/-- CPY is accepted (R283). -/
def acceptCpy (op : EngOp) : CM Unit := do
  need (op.a &&& ~~~(0x33F3F#64) == 0) 0x03
  rights op.who
  initialised op.who op.imm
  let s ← get
  let src := slotBytes s op.who (bits op.a 5 0)
  let dst := slotBytes s op.who (bits op.a 13 8)
  let sd ← descOf op (bits op.a 5 0)
  let dd ← descOf op (bits op.a 13 8)
  copyFormats sd dd
  let sx := bits op.b 15 0
  let sy := bits op.b 31 16
  let rs := tileRegion sd false sx sy ++ tileRegion dd true (bits op.b 47 32) (bits op.b 63 48)
    ++ readScales s op.who sd (sd.ty != dd.ty) (tileCorners sd sx sy)
  let op ← enterQueue { op with src := src, dst := dst } rs
  attached op

/-- The part of a source that a gather may read: its columns in every row (R209, R286). -/
def gatherCorners (sd dd : Desc) (sx : Nat) : Option (Coord × Coord) :=
  let x0 := sx * tileExt sd 0
  let x1 := x0 + tileExt dd 0 - 1
  if x0 < dimOf sd 0 then
    some ({ x := x0, y := 0, z := 0, w := 0 },
          { x := if x1 < dimOf sd 0 then x1 else dimOf sd 0 - 1, y := dimOf sd 1 - 1, z := 0, w := 0 })
  else none

/-- CPYG is accepted (R286). -/
def acceptCpyg (op : EngOp) : CM Unit := do
  need (op.a &&& ~~~(0x3F033F3F#64) == 0) 0x03
  rights op.who
  initialised op.who op.imm
  let s ← get
  let src := slotBytes s op.who (bits op.a 5 0)
  let dst := slotBytes s op.who (bits op.a 13 8)
  let idx := slotBytes s op.who (bits op.a 29 24)
  let sd ← descOf op (bits op.a 5 0)
  let dd ← descOf op (bits op.a 13 8)
  let xd ← descOf op (bits op.a 29 24)
  needDesc (xd.ty == .i32 && xd.ndim == 1) xd.home
  needDesc (tileExt dd 2 == 1 && tileExt dd 3 == 1) dd.home
  copyFormats sd dd
  let from_ := bits op.b 15 0
  let last := from_ + tileExt dd 1 - 1
  let corners := gatherCorners sd dd (bits op.b 31 16)
  let span := match corners with
    | none => []
    | some (lo, hi) =>
      [({ space := sd.space, write := false, lo := byteAt sd (elemOff sd lo), hi := byteEnd sd (elemOff sd hi),
          home := sd.home } : Region)]
  let list := if from_ < dimOf xd 0 then
      [({ space := xd.space, write := false, list := true, lo := byteAt xd from_,
          hi := byteEnd xd (if last < dimOf xd 0 then last else dimOf xd 0 - 1), home := xd.home } : Region)] else []
  let rs := span ++ list ++ tileRegion dd true (bits op.b 47 32) (bits op.b 63 48)
    ++ readScales s op.who sd (sd.ty != dd.ty) corners
  let op ← enterQueue { op with src := src, dst := dst, idx := idx } rs
  attached op

/-- CPYX is accepted (R287): the forward descriptor, and at the acceptance itself, once every check and wait is over, the task
record, when FLAGS bit 1 asks for it. DEST is held to a multiple of 8, and a DSTRIDE that is no multiple of 8 or a CTX above 63 is
0x1A [DESIGN CHOICE, log entry 61: R287 says "an unaligned DEST" without the unit, and gives no cause for the other two]. -/
def acceptCpyx (op : EngOp) : CM Unit := do
  need (bits op.a 63 6 == 0) 0x03
  rights op.who
  initialised op.who op.imm
  if op.b.toNat % 64 ≠ 0 then cTrap (trapAt 0x08 op.b)
  let f ← (if op.aux.isEmpty then coreRead op.who op.b.toNat 64 else return op.aux)
  let flags := field f 2 2
  let at_ := field f 8 15
  let arriveAt := field f 24 31
  let recAt := field f 32 39
  let bad := field f 1 1 > 63 || flags > 3 || field f 3 3 != 0 || field f 20 23 != 0 || field f 40 63 != 0
    || at_ % 8 != 0 || field f 16 19 % 8 != 0 || arriveAt % 8 != 0 || recAt % 64 != 0
  if bad then cTrap (trapAt 0x1A op.b)
  let op := { op with aux := f }
  let s ← get
  let src := slotBytes s op.who (bits op.a 5 0)
  let sd ← descOf op (bits op.a 5 0)
  let op ← enterQueueWith { op with src := src, aux := f } (tileRegion sd false (field f 4 5) (field f 6 7))
    (if flags ≥ 2 then coreRead op.who recAt 64 else return [])
  attached op

/-! ### Chains (R289–R292, R294) -/

/-- A step of a chain (R289). -/
structure ChainStep where
  op   : Nat
  ty   : Nat
  sel1 : Nat
  sel2 : Nat
  k    : Nat
  zero : Bool
  deriving DecidableEq, Repr

def stepsOf (aux : List Byte) : List ChainStep :=
  (List.range (field aux 3 3)).map fun i =>
    let at_ := 16 + 8 * i
    { op := field aux at_ at_, ty := field aux (at_ + 1) (at_ + 1), sel1 := field aux (at_ + 2) (at_ + 2),
      sel2 := field aux (at_ + 3) (at_ + 3), k := field aux (at_ + 4) (at_ + 4),
      zero := field aux (at_ + 5) (at_ + 7) == 0 }

/-- The selectors that a step uses: two for the first five steps, else one (R291). -/
def selsOf (t : ChainStep) : List Nat := if t.op < 5 then [t.sel1, t.sel2] else [t.sel1]

/-- The step reads constant K: through a selector, or as its entry says (R290, R291). -/
def usesConst (t : ChainStep) : Bool :=
  t.op == 2 || t.op == 5 || t.op == 11 || t.op == 12 || (selsOf t).contains 2

/-- The types that a step's OP accepts (R291). -/
def stepTypes (op : Nat) (ty : ElTy) : Bool :=
  let fl := ty == .f32 || ty == .bf16 || ty == .f16
  match op with
  | 0 => fl || ty == .i32 | 1 => fl || ty == .i32 | 2 => fl | 3 => fl || ty == .i32 | 4 => fl || ty == .i32
  | 5 => fl | 6 => fl | 7 => fl | 8 => fl
  | 9 => ty != .c4
  | 10 => mayScale ty
  | 11 => ty == .f32 | 12 => ty == .f32
  | _ => false

/-- Step i of n is well formed (R289–R292). -/
def stepOk (n i : Nat) (t : ChainStep) : Bool :=
  (match elTyOf t.ty with
    | none => false
    | some ty => stepTypes t.op ty) &&
  t.zero && (t.op < 5 || t.sel2 == 0) &&
  (selsOf t).all (fun x => decide (x ≤ 2) || (x == 3 && i != 0) || (decide (8 ≤ x) && decide (x < 8 + i))) &&
  (t.k == 0 || usesConst t || t.op == 9) &&
  (t.op != 9 || decide (t.k < 2)) && (t.op != 10 || i + 1 == n)

/-- The chain descriptor and the constants that its steps use (R294). Of a descriptor with NSTEP outside 1-8 the first 8 steps
at most are read, with their constants, and a fault of these reads comes before its cause 0x1A (DESIGN CHOICE, log entry
61). -/
def readChain (o : Who) (a b : Nat) : CM (List Byte × Table Word) := do
  let head ← coreRead o a 16
  let n := field head 3 3
  let words ← (List.range (if n < 8 then n else 8)).mapM fun i => coreRead o (a + 16 + 8 * i) 8
  let aux := head ++ words.flatten
  let consts ← (((stepsOf aux).take 8).filter usesConst).mapM fun t => do
    let bs ← coreRead o (b + 8 * t.k) 8
    return (t.k, wordOfBytes64 bs)
  return (aux, consts.foldl (fun t e => tput t e.1 e.2) [])

/-- CHAIN is accepted (R294). -/
def acceptChain (op : EngOp) : CM Unit := do
  rights op.who
  initialised op.who op.imm
  if op.a.toNat % 64 ≠ 0 then cTrap (trapAt 0x08 op.a)
  if op.b.toNat % 8 ≠ 0 then cTrap (trapAt 0x08 op.b)
  let held ← (if op.aux.isEmpty then readChain op.who op.a.toNat op.b.toNat else return (op.aux, op.consts))
  let head := held.1
  let n := field head 3 3
  let steps := (stepsOf head).take 8
  let count := field head 8 15
  let second := steps.any fun t => (selsOf t).contains 1
  let ok := decide (1 ≤ n) && decide (n ≤ 8) && field head 4 7 == 0 && decide (count ≤ 2 ^ 40)
    && (steps.zipIdx.all fun t => stepOk n t.2 t.1)
    && decide (field head 0 0 ≤ 63) && decide (field head 2 2 ≤ 63) && (!second || decide (field head 1 1 ≤ 63))
  if !ok then cTrap (trapAt 0x1A op.a)
  let s ← get
  let in0 := slotBytes s op.who (field head 0 0)
  let in1 := slotBytes s op.who (field head 1 1)
  let out := slotBytes s op.who (field head 2 2)
  let d0 ← descOf op (field head 0 0)
  let ds ← (if second then do return [d0, ← descOf op (field head 1 1)] else return [d0])
  let od ← descOf op (field head 2 2)
  let quant := steps.any fun t => t.op == 10
  if quant then needDesc ((steps.getLast?.bind fun t => elTyOf t.ty) == some od.ty) od.home
  else needDesc (od.ty != .c4 && od.geom == 0) od.home
  match (od :: ds).find? fun d => decide (elemCount d < count) with
  | some d => cTrap (trapAt 0x1A d.home)
  | none => pure ()
  let rs := linRegion od true count
    ++ (if quant then scaleRegions od true (endOf s op.who od) (linEnds od count) else [])
    ++ ds.flatMap fun d => linRegion d false count ++ readScales s op.who d true (linEnds d count)
  let op ← enterQueue { op with src := in0, idx := if second then in1 else [], dst := out, aux := held.1,
                                consts := held.2 } rs
  attached op

/-! ### Collectives (R404, R405) -/

/-- The members of a COLL: chip and weight by rank. -/
def membersOf (record : List Byte) : List (Nat × Nat) :=
  (List.range (record.length / 2)).map fun i => (field record (2 * i) (2 * i), field record (2 * i + 1) (2 * i + 1))

def isIntTy (t : ElTy) : Bool :=
  match t with
  | .i32 => true | .ui32 => true | .i8 => true | .ui8 => true
  | .f32 => false | .bf16 => false | .f16 => false | .e4m3 => false | .e5m2 => false | .c4 => false

/-- start_r of R405. -/
def startOf (count : Nat) (ms : List (Nat × Nat)) (r : Nat) : Nat :=
  let total := ms.foldl (fun t m => t + m.2) 0
  count * (ms.take r).foldl (fun t m => t + m.2) 0 / total

def lenOf (count : Nat) (ms : List (Nat × Nat)) (r : Nat) : Nat := startOf count ms (r + 1) - startOf count ms r

/-- Elements of SRC that COLL reads and of DST that it writes (R405). -/
def collCounts (op rank n count : Nat) (ms : List (Nat × Nat)) : Nat × Nat :=
  match op with
  | 0 => (count, count)
  | 1 => (count, lenOf count ms rank)
  | 2 => (lenOf count ms rank, count)
  | _ => (n * count, n * count)

/-- COLL is accepted (R404). -/
def acceptColl (op : EngOp) : CM Unit := do
  need (bits op.b 63 32 == 0) 0x03
  rights op.who
  initialised op.who op.imm
  if op.a.toNat % 256 ≠ 0 then cTrap (trapAt 0x08 op.a)
  let c ← (if op.aux.isEmpty then do
      let parts ← (List.range 4).mapM fun i => coreRead op.who (op.a.toNat + 64 * i) 64
      return parts.flatten
    else return op.aux)
  let n := field c 4 5
  let rank := field c 6 7
  let count := field c 8 15
  let fine := decide (field c 0 0 ≤ 3) && decide (field c 1 1 ≤ 2) && (decide (field c 0 0 < 2) || field c 1 1 == 0)
    && decide (field c 2 2 ≤ 63) && decide (field c 3 3 ≤ 63) && decide (1 ≤ n) && decide (n ≤ 256)
    && decide (rank < n) && decide (count ≤ 2 ^ 40) && field c 24 255 == 0
  if !fine then cTrap (trapAt 0x1A op.a)
  let table ← (if op.record.isEmpty then coreReadBytes op.who (field c 16 23) (2 * n) else return op.record)
  let ms := membersOf table
  let s ← get
  let src := slotBytes s op.who (field c 2 2)
  let dst := slotBytes s op.who (field c 3 3)
  let sd ← descOf op (field c 2 2)
  let dd ← descOf op (field c 3 3)
  needDesc ((ms.map Prod.fst).eraseDups.length == n && (ms.getD rank (256, 0)).1 == bits s.chip 7 0
    && ms.any fun m => m.2 != 0) op.a
  needDesc (if field c 1 1 = 1 then isIntTy sd.ty else !isIntTy sd.ty) sd.home
  needDesc (dd.ty != .c4) dd.home
  let k := collCounts (field c 0 0) rank n count ms
  let cap := fun (d : Desc) (v : Nat) => if v < elemCount d then v else elemCount d
  let rs := linRegion sd false (cap sd k.1) ++ readScales s op.who sd true (linEnds sd (cap sd k.1))
    ++ linRegion dd true (cap dd k.2)
  let op ← enterQueue { op with src := src, dst := dst, aux := c, record := table } rs
  attached op

/-! ### CPYC and TDEF (R273, R288) -/

/-- A copy of a workgroup attached to barrier register b. -/
def isCopyOf (slot b : Nat) (p : EngOp) : Bool := p.who.slot == slot && pathOf p.kind == 1 && p.imm == b

/-- CPYC (R288). -/
def cancelCopies (o : Who) (b : Nat) : CM Unit := do
  rights o
  initialised o b
  modify fun s => updCore s o.core fun c =>
    { c with ops := c.ops.map fun p => if isCopyOf o.slot b p then { p with cancelled := true } else p }

/-- TDEF loads a slot (R273). -/
def loadSlot (o : Who) (t : Nat) (a : Word) : CM Unit := do
  if a.toNat % 64 ≠ 0 then cTrap (trapAt 0x08 a)
  let d ← coreRead o a.toNat 64
  modify fun s => updWgOf s o fun g => { g with tensors := tput g.tensors t d, tensorAt := tput g.tensorAt t a }

end Sys2Proof.Machine
end

