-- ==== Sys2Proof/Machine/MatrixCmd.lean ====
section
/-! DEFINITION. MBATON (R311), the bank residency table (R305–R308, R319), matrix batches (R312, R313) and the
acceptance of MLOAD, MMA, MGRAD and MSTORE (R314–R322). -/

namespace Sys2Proof.Machine

/-! ### The baton -/

/-- The query word of MBATON (R311). -/
def batonWord (c : Core) (me : Group) (ctx : Nat) : Word :=
  let n := c.waiters.length
  match c.baton with
  | none => BitVec.ofNat 64 (2 ^ 16 * n)
  | some h =>
    BitVec.ofNat 64 (2 ^ 63 + 2 ^ 16 * n + (if h = me then 2 ^ 15 else 0)
      + (if groupCtx c h = ctx then 2 ^ 8 * h.slot + h.g else 0))

/-- The issuing group of MBATON: at warp scope the warp's current set (R311). -/
def batonGroup (s : State) (o : Who) (sc : Scope) : Option Group :=
  match sc with
  | .block => some { slot := o.slot, g := 4 }
  | .set => (warpOf s o).curSet.map fun g => { slot := o.slot, g := g }
  | .warp => (warpOf s o).curSet.map fun g => { slot := o.slot, g := g }
  | .lane => none

/-- The command's group holds the baton (R309): at warp scope any group the warp belongs to. -/
def holdsBaton (s : State) (op : EngOp) : Bool :=
  match (getCore s op.who.core).baton with
  | none => false
  | some h =>
    h.slot == op.who.slot &&
      match op.group with
      | some g => h.g == g
      | none => (members (wgOf s op.who) h.g).contains op.who.warp

/-! ### The residency table -/

def getBank (c : Core) (b : Nat) : Bank := tgetD .reset c.banks b
def setBank (c : Core) (b : Nat) (k : Bank) : Core := { c with banks := tput c.banks b k }

def bankCode : BankState → Nat
  | .empty => 0 | .loading => 1 | .resident => 2 | .pinned => 3 | .grad => 4

/-- An entry as a context sees it (R305). -/
def bankWord (k : Bank) (ctx : Nat) : Word :=
  if k.ctx ≠ ctx then BitVec.ofNat 64 (3 * 2 ^ 16 + 0xFFF)
  else
    BitVec.ofNat 64 (k.ctx * 2 ^ 20 + (if k.stale then 2 ^ 19 else 0) + (if k.held then 2 ^ 18 else 0)
      + (if k.state = .empty then 3 else k.wcls.toNat) * 2 ^ 16 + bankCode k.state * 2 ^ 12 + k.key.toNat)

/-- The operations of MBANK on an entry (R319); none for a fault of cause 0x18. -/
inductive BankOp where
  | query | pin | unpin | release
  deriving DecidableEq, Repr

def bankStep (op : BankOp) (k : Bank) : Option Bank :=
  match op, k.state with
  | .query, _ => some k
  | .pin, .empty => none
  | .pin, .loading => some { k with held := true }
  | .pin, .resident => some { k with state := .pinned }
  | .pin, .pinned => some k
  | .pin, .grad => some { k with held := true }
  | .unpin, .empty => some k
  | .unpin, .loading => some { k with held := false }
  | .unpin, .resident => some k
  | .unpin, .pinned => some { k with state := .resident }
  | .unpin, .grad => some { k with held := false }
  | .release, .empty => some k
  | .release, .loading => none
  | .release, .resident => some { k with state := .empty, key := 0xFFF, held := false }
  | .release, .pinned => none
  | .release, .grad => none

/-- MBANK (R319): acts on the table at once. Its faults come in the order of R317. -/
def bankInstr (i : Instr) (op : BankOp) (d a : Reg) (s : State) : Host.Outcome State Fault Refusal :=
  runWord i .warp (ad d a .warp) [a] false false
    (fun s o =>
      let v := rdS s o a
      if bits v 63 2 ≠ 0 then .trap s (trapOf 0x03)
      else if isS d && inConc s o then .trap s (trapOf 0x11)
      else
        let b := bits v 1 0
        let c := getCore s o.core
        let k := getBank c b
        let ctx := (wgOf s o).ctx
        if op ≠ .query ∧ k.state ≠ .empty ∧ k.ctx ≠ ctx then .trap s (trapOf 0x18)
        else
          match bankStep op k with
          | none => .trap s (trapOf 0x18)
          | some k =>
            let s := updCore s o.core fun c => setBank c b k
            .done (wrScalar s o .warp d (bankWord k ctx))) s

/-- MBANK QUERY (R319). -/
def execMbankQuery (w : Bool) (d a : Reg) (s : State) : Host.Outcome State Fault Refusal := bankInstr (.mbankQuery w d a) .query d a s

/-- MBANK PIN (R319). -/
def execMbankPin (w : Bool) (d a : Reg) (s : State) : Host.Outcome State Fault Refusal := bankInstr (.mbankPin w d a) .pin d a s

/-- MBANK UNPIN (R319). -/
def execMbankUnpin (w : Bool) (d a : Reg) (s : State) : Host.Outcome State Fault Refusal := bankInstr (.mbankUnpin w d a) .unpin d a s

/-- MBANK RELEASE (R319). -/
def execMbankRelease (w : Bool) (d a : Reg) (s : State) : Host.Outcome State Fault Refusal := bankInstr (.mbankRelease w d a) .release d a s

/-! ### MBATON (R311) -/

/-- The instruction MBATON with the effect of one of its operations. -/
def batonInstr (i : Instr) (sc : Scope) (d : Reg) (act : State → Who → Group → Res) (s : State) :
    Host.Outcome State Fault Refusal :=
  runWord i sc (fun s o => dstOk s o sc d && (batonGroup s o sc).isSome) [] (writesS sc d) false
    (fun s o =>
      match batonGroup s o sc with
      | none => .trap s (trapOf 0x03)
      | some g => act s o g) s

/-- The operation completes: Sd takes the query word. -/
def batonDone (sc : Scope) (d : Reg) (s : State) (o : Who) (g : Group) : Res :=
  .done (wrScalar s o sc d (batonWord (getCore s o.core) g (wgOf s o).ctx))

/-- MBATON TAKE (R311): a return is progress; a wait leaves the group among the waiters. It ends a quantum (R325). -/
def execMbatonTake (w : Bool) (sc : Scope) (d : Reg) (s : State) : Host.Outcome State Fault Refusal :=
  batonInstr (.mbatonTake w sc d) sc d
    (fun s o g =>
      let c := getCore s o.core
      let s := endQuantum s o
      let taken := fun (s : State) => updWgOf s o fun w => { w with accRows := [] }
      match c.baton with
      | none =>
        let s := taken (updCore s o.core fun c => giveBaton c g)
        batonDone sc d (progress s o) o g
      | some h =>
        if h = g then
          let waited := priorWait s o sc == .baton g.g
          batonDone sc d (progress (if waited then taken s else s) o) o g
        else
          .wait (updCore s o.core fun c =>
            { c with waiters := if c.waiters.contains g then c.waiters else c.waiters ++ [g] }) (.baton g.g)) s

/-- MBATON PASS (R311). -/
def execMbatonPass (w : Bool) (sc : Scope) (d : Reg) (s : State) : Host.Outcome State Fault Refusal :=
  batonInstr (.mbatonPass w sc d) sc d
    (fun s o g =>
      if (getCore s o.core).baton = some g then batonDone sc d (updCore s o.core fun c => passBaton c g) o g
      else .trap s (trapOf 0x16)) s

/-- MBATON QUERY (R311). -/
def execMbatonQuery (w : Bool) (sc : Scope) (d : Reg) (s : State) : Host.Outcome State Fault Refusal :=
  batonInstr (.mbatonQuery w sc d) sc d (batonDone sc d) s

/-! ### Batches (R312, R313) -/

/-- The workgroup's open batch. -/
def openBatch (g : Wg) : Option Batch := g.batches.find? fun b => !b.closed

/-- A command may join: a batch is open, or fewer than 8 are not yet awaited (R312). -/
def batchRoom (g : Wg) : Bool := (openBatch g).isSome || decide (g.batches.length < 8)

/-- The workgroup with a batch open (R312): numbers rise from 1. -/
def withBatch (g : Wg) : Wg :=
  if (openBatch g).isSome then g
  else
    { g with batches := g.batches ++
        [{ num := g.closedTo + 1, closed := false, running := 0, recs := [], missed := [], done := false, marked := false }] }

def updBatch (g : Wg) (n : Nat) (f : Batch → Batch) : Wg :=
  { g with batches := g.batches.map fun b => if b.num == n then f b else b }

/-- MISS is set in the TAGs of missed rows' lanes, KEY as it stands (R136, R313). -/
def markMissed (g : Wg) (lanes : List Nat) : Wg :=
  { g with warps := g.warps.map fun e =>
      (e.1, lanes.foldl (fun (w : Warp) n =>
        if n / 32 = e.1 then { w with tag := tput w.tag (n % 32) (tagOf w (n % 32) ||| 0x8000) } else w) e.2) }

/-- MISS of some batches that have completed stands in the TAGs (R136); each keeps in which of its lanes it stood before. -/
def settleSome (g : Wg) (sel : Batch → Bool) : Wg :=
  (g.batches.filter fun b => sel b && b.done && !b.marked).foldl
    (fun g b => markMissed (updBatch g b.num fun x => { x with marked := true, stood := b.missed.filter (missStood g) }) b.missed) g

/-- MISS of every batch that has completed, from the end of the cycle of the completion, so that it follows a TAG write of that
cycle (R136). -/
def settleMisses (g : Wg) : Wg := settleSome g fun _ => true

/-- The end of a cycle (R136): the MISS of its completions follows every TAG write of the cycle, also where an MWAIT has
returned in it. -/
def endMisses (g : Wg) : Wg := { markMissed (settleMisses g) g.lateMiss with lateMiss := [] }

/-- Closed batches complete in order once their commands have (R312, R313). -/
def completeBatches (g : Wg) : List Batch → Wg
  | [] => g
  | b :: bs =>
    if b.done then completeBatches g bs
    else if b.closed && b.running == 0 then
      completeBatches (updBatch g b.num fun x => { x with done := true }) bs
    else g

def advanceBatches (g : Wg) : Wg := completeBatches g g.batches

/-- MCLOSE's effect (R323): the number of the batch it closes. -/
def closeBatch (o : Who) : CM Nat := do
  let s ← get
  need (batchRoom (wgOf s o)) 0x19
  let g := withBatch (wgOf s o)
  let n := ((openBatch g).map Batch.num).getD 0
  set (updWgOf s o fun _ => advanceBatches { (updBatch g n fun b => { b with closed := true }) with closedTo := n })
  return n

/-- An accepted matrix command joins the open batch (R312). -/
def joinBatch (op : EngOp) : CM Nat := do
  let s ← get
  let g := withBatch (wgOf s op.who)
  let n := ((openBatch g).map Batch.num).getD 0
  set (updWgOf s op.who fun _ => updBatch g n fun b => { b with running := b.running + 1 })
  return n

/-- MWAIT's effect (R324): batch n has completed. From its return on MISS of the batches up to it stands in the TAGs (R136). -/
def awaitBatch (s : State) (o : Who) (n : Nat) : Res :=
  let returned := fun (b : Batch) => decide (b.num ≤ n)
  let g := settleSome (wgOf s o) returned
  let recs := (g.batches.filter returned).flatMap Batch.recs
  let late := ((wgOf s o).batches.filter fun b => returned b && !b.marked).flatMap Batch.missed
  let s := updWgOf s o fun _ =>
    { g with batches := g.batches.filter (fun b => !returned b), lateMiss := g.lateMiss ++ late, awaited := n }
  let s := progress s o
  match recs with
  | [] => .done s
  | r :: rest => .trap s (engineTrap r (!rest.isEmpty))

/-- MWAIT (R324). -/
def execMwait (w : Bool) (sc : Scope) (a : Reg) (s : State) : Host.Outcome State Fault Refusal :=
  runWord (.mwait w sc a) sc (fun s o => srcOk s o sc a) [a] false false
    (fun s o =>
      let n := (rdS s o a).toNat
      let g := wgOf s o
      let s := endQuantum s o
      if n ≤ g.awaited then .done (progress s o)
      else if g.closedTo < n then .trap s (trapOf 0x19)
      else if g.batches.all fun b => decide (n < b.num) || b.done then awaitBatch s o n
      else .wait s (.batch n)) s

/-! ### Acceptance (R314–R322) -/

/-- The A format of a command's flags (R320), and the weight class that pairs with it (R301). -/
def aType (n : Nat) : ElTy := match n with
  | 0 => .bf16 | 1 => .e4m3 | 2 => .e5m2 | _ => .i8
def aClass (n : Nat) : BitVec 2 := match n with
  | 0 => 0 | 1 => 1 | 2 => 1 | _ => 2

/-- The weight class of a source format (R301); none where MLOAD refuses it (R318). -/
def weightClass (t : ElTy) : Option (BitVec 2) :=
  match t with
  | .bf16 => some 0 | .e4m3 => some 1 | .e5m2 => some 1 | .c4 => some 1 | .i8 => some 2
  | .f32 => none | .f16 => none | .i32 => none | .ui32 => none | .ui8 => none

/-- Registers of A's block (R314). -/
def aRegs (flags : BitVec 7) : Nat := if bits (flags.setWidth 64) 3 2 = 0 then 32 else 16

/-- The present rows of the set-wide block at firing (R104, R136, R314). A register or TAG with a result outstanding reads as
every such read does (R100), with choices of each member's own. -/
def captureRows (s : State) (ms : List Who) (first n : Nat) : List MatRow :=
  ms.zipIdx.flatMap fun m =>
    let w := warpOf s m.1
    let s := { s with free := s.free + m.2 }
    (lanesOf w.live).map fun l =>
      { row := 32 * m.2 + l, warp := m.1.warp, lane := l,
        regs := (List.range n).map fun j => rd s m.1 (.v (Fin.ofNat 64 (first + j))) l,
        tag := (rd s m.1 .tag l).setWidth 16, bank := none, load := none, failed := false }

/-- Element k of a row (R314). -/
def rowElem (t : ElTy) (r : MatRow) (k : Nat) : Nat :=
  let w := elWidth t
  subEl w ((r.regs.getD (k * w / 64) 0).toNat) (k % (64 / w))

/-- The bank that a key selects for a context (R316). -/
def keyBank (c : Core) (ctx : Nat) (key : BitVec 12) : Option Nat :=
  (List.range 4).find? fun b =>
    let k := getBank c b
    k.state != .empty && k.ctx == ctx && k.key == key

/-- The MLOAD under way in a bank, whose failure its rows would meet (R316). -/
def loadingIn (c : Core) (b : Nat) : Option Nat :=
  let k := getBank c b
  if k.state = .loading then some k.load else none

/-- The routing of rows (R316): those of key 0xFFF in tagged mode are skipped; a miss keeps bank none. -/
def routeRows (c : Core) (ctx : Nat) (untag : Bool) (bank : Nat) (rows : List MatRow) : List MatRow :=
  if untag then rows.map fun r => { r with bank := some bank, load := loadingIn c bank }
  else
    (rows.filter fun r => r.tag.setWidth 12 != 0xFFF).map fun r =>
      match keyBank c ctx (r.tag.setWidth 12) with
      | none => { r with bank := none, load := none }
      | some b => { r with bank := some b, load := loadingIn c b }

/-- Lanes of a warp whose rows miss. -/
def missLanes (rows : List MatRow) (warp : Nat) : Mask :=
  maskOf ((rows.filter fun r => r.bank.isNone && r.warp == warp).map MatRow.lane)

/-- Run an engine read at the acceptance of a command, whose faults are precise (R315). -/
def precise {α : Type} (m : EM α) : CM α := do
  let s ← get
  let r := m.run s
  set r.2
  match r.1 with
  | .ok v => return v
  | .error (.fault c a malf level) => cTrap { trapAt c (BitVec.ofNat 64 a) with malf := malf, level := level }
  | .error (.serve ctx va) => do
    modify fun s => pfStart s ctx va
    cWait (.pageFault (BitVec.ofNat 64 va))
  | .error (.held va) => cWait (.pgx (BitVec.ofNat 64 va))

/-- The environment of a command's engine accesses. -/
def envOf (op : EngOp) : EngEnv :=
  { who := op.who, ctx := op.ctx, share := op.share, refused := if op.pageCtx = op.ctx then op.refused else none,
    pol := if op.kind = .cpy ∨ op.kind = .cpyg then (if op.a.getLsbD 17 then 0 else 1) else 1 }

/-- The scale codes of A by row × 128 + k (R315); none where SCV is 0. -/
def readAScales (op : EngOp) (t : ElTy) : CM (List Nat) := do
  if !op.b.getLsbD 16 then return []
  let s ← get
  let home := tgetD 0 (wgOf s op.who).tensorAt (bits op.b 13 8)
  match parseDesc (slotBytes s op.who (bits op.b 13 8)) true with
  | none => cTrap (trapAt 0x1A home)
  | some d =>
    needDesc (t != .bf16 && (d.geom == 1 || d.geom == 2) && d.ty == t && decide (d.space ≤ 1)) home
    let d := { d with dims := [128, op.count, 1, 1], strides := [1, 128, 0, 0], tiles := [128, op.count, 1, 1] }
    let e := { envOf op with refused := (streamOf s op.who).refused }
    precise ((List.range (128 * op.count)).mapM fun n => scaleCode e d (linCoord d n))

/-- What MMA and MGRAD check alike up to the routing (R314, R316, R317). -/
def routeCommand (op : EngOp) (reserved : Word) : CM (List MatRow) := do
  need (op.b &&& reserved == 0 && decide (64 ≤ op.count) && decide (op.count ≤ 192)) 0x03
  if op.kind = .mma then need (decide (bits op.b 7 0 + op.count ≤ 192)) 0x03
  let s ← get
  let c := getCore s op.who.core
  let flags := op.imm
  let untag := flags.testBit 4
  let bank := flags / 32
  need (holdsBaton s op) 0x16
  let rows := routeRows c op.ctx untag bank op.rows
  if !flags.testBit 0 && !untag then
    match rows.find? fun r => r.bank.isNone with
    | some _ => cTrap { trapOf 0x17 with lanes := some ((missLanes rows op.who.warp).setWidth 64) }
    | none => pure ()
  let k := getBank c bank
  need (!untag || (k.state != .empty && k.ctx == op.ctx)) 0x18
  return rows

/-- MMA is accepted (R320). -/
def acceptMma (op : EngOp) : CM Unit := do
  let rows ← routeCommand op (~~~(0x13FFF#64))
  let s ← get
  let c := getCore s op.who.core
  let fmt := op.imm / 4 % 4
  need (batchRoom (wgOf s op.who)) 0x19
  need (rows.all fun r => match r.bank with
    | none => true
    | some b => (getBank c b).wcls == aClass fmt) 0x1A
  let scales ← readAScales op (aType fmt)
  let op ← enterQueue { op with rows := rows, scales := scales } []
  let n ← joinBatch op
  modify fun s => updCore s op.who.core fun c =>
    { c with ops := c.ops.map fun p => if p.id == op.id then { p with batch := n } else p }

/-- The banks that routed rows name. -/
def banksOf (rows : List MatRow) : List Nat := (rows.filterMap MatRow.bank).eraseDups

/-- MGRAD is accepted (R321): banks that receive rows enter GRAD (R306). -/
def acceptMgrad (op : EngOp) : CM Unit := do
  let rows ← routeCommand op (~~~(0x0000FFFF00013F3F#64))
  let s ← get
  let c := getCore s op.who.core
  need ((banksOf rows).all fun b => (getBank c b).state != .loading) 0x18
  need (batchRoom (wgOf s op.who)) 0x19
  let src := slotBytes s op.who (bits op.b 5 0)
  let d ← descOf op (bits op.b 5 0)
  needDesc (d.tiles == [128, op.count, 1, 1]
    && (d.ty == .f32 || d.ty == .bf16 || d.ty == .e4m3 || d.ty == .e5m2)) d.home
  let scales ← readAScales op (aType (op.imm / 4 % 4))
  let gy := bits op.b 47 32
  let rs := tileRegion d false 0 gy ++ readScales s op.who d true (tileCorners d 0 gy)
  let op ← enterQueue { op with rows := rows, scales := scales, src := src } rs
  let n ← joinBatch op
  modify fun s => updCore s op.who.core fun c =>
    let c := (banksOf rows).foldl (fun c b =>
      let k := getBank c b
      match k.state with
      | .resident => setBank c b { k with state := .grad, held := false }
      | .pinned => setBank c b { k with state := .grad, held := true }
      | .empty => c | .loading => c | .grad => c) c
    { c with ops := c.ops.map fun p => if p.id == op.id then { p with batch := n } else p }

/-- The virtual bytes of a source tile that its acceptance knows (R231): of each row its elements, their scales under fixed
geometry and their bitmap bits, and the codebook; none of a tile in the bin floor or the scratchpad, which no shootdown marks
(R308). A scale byte under bitmap geometry joins them as the load reads it. -/
def sourceBytes (d : Desc) (tx ty : Nat) : List (Nat × Nat) :=
  let rows := tileRows d tx ty
  let book := if d.book = 0 then [] else [(d.book, d.book + 32)]
  if d.space ≠ 0 ∧ d.space ≠ 3 then []
  else
    rows.map (fun r => (byteAt d (elemOff d r.1), byteEnd d (elemOff d r.2)))
      ++ (if d.geom = 1 then rows.map fun r => (d.scaleb + fixedBlock d r.1, d.scaleb + fixedBlock d r.2 + 1)
          else if d.geom = 2 then rows.map fun r => (d.bitmap + elemNum d r.1 / 8, d.bitmap + elemNum d r.2 / 8 + 1)
          else [])
      ++ book

/-- MLOAD is accepted (R318). -/
def acceptMload (op : EngOp) : CM Unit := do
  let key : BitVec 12 := op.b.setWidth 12
  need (bits op.a 63 6 == 0 && op.b &&& ~~~(0x0000FFFFFFFF0FFF#64) == 0 && key != 0xFFF) 0x03
  let s ← get
  let c := getCore s op.who.core
  let k := getBank c op.imm
  need (k.state == .empty || k.state == .resident || (k.state == .loading && !k.held)) 0x18
  need (match keyBank c op.ctx key with
    | none => true
    | some b => b == op.imm || ((List.range 4).all fun x =>
        let y := getBank c x
        x == op.imm || y.state == .empty || y.ctx != op.ctx || y.key != key)) 0x18
  need (batchRoom (wgOf s op.who)) 0x19
  let src := slotBytes s op.who (bits op.a 5 0)
  let d ← descOf op (bits op.a 5 0)
  match weightClass d.ty with
  | none => cTrap (trapAt 0x1A d.home)
  | some cls =>
    needDesc (d.tiles == [128, 128, 1, 1]) d.home
    let tx := bits op.b 31 16
    let ty := bits op.b 47 32
    let rs := tileRegion d false tx ty ++ readScales s op.who d true (tileCorners d tx ty)
    let span := sourceBytes d tx ty
    let op ← enterQueue { op with src := src } rs
    let n ← joinBatch op
    modify fun s => updCore s op.who.core fun c =>
      let c := setBank c op.imm { ctx := op.ctx, stale := false, held := false, wcls := cls, state := .loading, key := key,
                                  src := span, load := op.id }
      { c with ops := c.ops.map fun p => if p.id == op.id then { p with batch := n } else p }

/-- The formats that MSTORE writes (R322). -/
def storeType (t : ElTy) : Bool :=
  match t with
  | .f32 => true | .bf16 => true | .f16 => true | .e4m3 => true | .e5m2 => true | .i8 => true
  | .c4 => false | .i32 => false | .ui32 => false | .ui8 => false

/-- The ctl operand of an MSTORE is in range (R322): bit 6 is zero, and so is BANK where SRC is 0. -/
def storeCtl (ctl : Nat) : Bool := !ctl.testBit 6 && (ctl.testBit 0 || ctl / 8 % 4 == 0)

/-- MSTORE is accepted (R322). -/
def acceptMstore (op : EngOp) : CM Unit := do
  let ctl := op.imm
  let grad := ctl.testBit 0
  let bank := ctl / 8 % 4
  let arow := bits op.a 15 8
  need (op.a &&& ~~~(0x0000FFFFFFFFFF3F#64) == 0 && (!grad || arow == 0)) 0x03
  if ctl.testBit 1 && op.b.toNat % 4 != 0 then cTrap (trapAt 0x08 op.b)
  let s ← get
  if !grad then need (holdsBaton s op) 0x16
  let k := getBank (getCore s op.who.core) bank
  if grad then need (k.state == .grad && k.ctx == op.ctx) 0x18
  need (batchRoom (wgOf s op.who)) 0x19
  let dst := slotBytes s op.who (bits op.a 5 0)
  let d ← descOf op (bits op.a 5 0)
  let t := tileExt d 1
  needDesc (d.space == 1 && storeType d.ty && d.geom == 0 && tileExt d 0 == 128 && tileExt d 2 == 1 && tileExt d 3 == 1
    && (if grad then t == 128 else decide (arow + t ≤ 192))) d.home
  let op ← enterQueue { op with dst := dst } (tileRegion d true (bits op.a 31 16) (bits op.a 47 32))
  let n ← joinBatch op
  modify fun s => updCore s op.who.core fun c =>
    let k := getBank c bank
    let c := if grad && ctl.testBit 2 then
        setBank c bank { k with state := if k.held then .pinned else .resident, held := false } else c
    { c with ops := c.ops.map fun p => if p.id == op.id then { p with batch := n } else p }

end Sys2Proof.Machine
end

