-- ==== Sys2Proof/Machine/Accept.lean ====
section
/-! DEFINITION. Issuing engine commands (R266, R274, R325): CPY, CPYG, CPYX, CPYC, CHAIN, TDEF, COLL, MLOAD, MMA, MGRAD,
MSTORE, MCLOSE, and the acceptance of a command that waits. -/

namespace Sys2Proof.Machine

/-- The checks and effects of a command's acceptance, by its kind. -/
def acceptOp (op : EngOp) : CM Unit :=
  match op.kind with
  | .cpy => acceptCpy op
  | .cpyg => acceptCpyg op
  | .cpyx => acceptCpyx op
  | .chain => acceptChain op
  | .coll => acceptColl op
  | .mload => acceptMload op
  | .mma => acceptMma op
  | .mgrad => acceptMgrad op
  | .mstore => acceptMstore op

/-- What an attempt at an effect in CM comes to for its word. -/
def resOf {α : Type} (r : Except (Trap ⊕ Wait) α × State) (done : State → α → Res) : Res :=
  match r.1 with
  | .ok v => done r.2 v
  | .error (.inl t) => .trap r.2 t
  | .error (.inr w) => .wait r.2 w

/-- A word that deterministic mode holds for step 3 of the commit (R266, R325); elsewhere it acts at once. -/
def stepThree (s : State) (o : Who) (x : BitVec 32) (sc : Scope) (e : BufEffect) (now : State → Res) : Res :=
  if (wgOf s o).det then .wait (endQuantum (pushBuf s o x (latchOf s o sc) e) o) .commit else now s

/-- The acceptance of a command, not its issue, is progress: MMA (R320). -/
def countsAccepted (k : EngKind) : Bool :=
  match k with
  | .mma => true
  | .cpy => false | .cpyg => false | .cpyx => false | .chain => false | .mload => false | .mgrad => false
  | .mstore => false | .coll => false

/-- A command has been accepted. -/
def accepted (s : State) (op : EngOp) : State := if countsAccepted op.kind then progress s op.who else s

/-- An engine command that raised no fault has been issued, which is progress (R108), whether or not it waits. -/
def issued (o : Who) (r : Res) : Res :=
  match r with
  | .done s => .done (progress s o)
  | .wait s w => .wait (progress s o) w
  | .trap s t => .trap s t | .jump s pc => .jump s pc | .left s => .left s | .moved s m => .moved s m

/-- A command of its word (R274). -/
def issueOp (s : State) (op : EngOp) : Res :=
  let go := stepThree s op.who op.word op.scope (.engine op) fun s =>
    resOf ((acceptOp op).run s) fun s _ => .done (accepted s op)
  if countsAccepted op.kind then go else issued op.who go

/-! ### Commands of two scalar operands -/

/-- A command `#imm, Sa, Sb` with a test of its immediate. -/
def engineWord (i : Instr) (kind : EngKind) (sc : Scope) (ok : Nat → Bool) (n : BitVec 7) (a b : Reg) (s : State) :
    Host.Outcome State Fault Refusal :=
  runWord i sc (fun s o => ok n.toNat && ab a b sc s o) [a, b] false true
    (fun s o => issueOp s (newOp s o kind sc (encode i) n.toNat (rdS s o a) (rdS s o b))) s

/-- CPY (R283). -/
def execCpy (w : Bool) (sc : Scope) (i : BitVec 7) (a b : Reg) (s : State) : Host.Outcome State Fault Refusal :=
  engineWord (.cpy w sc i a b) .cpy sc (· ≤ 15) i a b s

/-- CPYG (R286). -/
def execCpyg (w : Bool) (sc : Scope) (i : BitVec 7) (a b : Reg) (s : State) : Host.Outcome State Fault Refusal :=
  engineWord (.cpyg w sc i a b) .cpyg sc (· ≤ 15) i a b s

/-- CPYX (R287). -/
def execCpyx (w : Bool) (sc : Scope) (i : BitVec 7) (a b : Reg) (s : State) : Host.Outcome State Fault Refusal :=
  engineWord (.cpyx w sc i a b) .cpyx sc (· ≤ 15) i a b s

/-- CHAIN (R294). -/
def execChain (w : Bool) (sc : Scope) (i : BitVec 7) (a b : Reg) (s : State) : Host.Outcome State Fault Refusal :=
  engineWord (.chain w sc i a b) .chain sc (· ≤ 15) i a b s

/-- COLL (R404). -/
def execColl (w : Bool) (sc : Scope) (i : BitVec 7) (a b : Reg) (s : State) : Host.Outcome State Fault Refusal :=
  engineWord (.coll w sc i a b) .coll sc (· ≤ 15) i a b s

/-- MLOAD (R318). -/
def execMload (w : Bool) (sc : Scope) (i : BitVec 7) (a b : Reg) (s : State) : Host.Outcome State Fault Refusal :=
  engineWord (.mload w sc i a b) .mload sc (· ≤ 3) i a b s

/-- MSTORE (R322). -/
def execMstore (w : Bool) (sc : Scope) (i : BitVec 7) (a b : Reg) (s : State) : Host.Outcome State Fault Refusal :=
  engineWord (.mstore w sc i a b) .mstore sc storeCtl i a b s

/-! ### MMA and MGRAD (R314, R320, R321) -/

/-- The block that begins at Va lies below V63 and within the allotment (R130, R314). -/
def blockOk (s : State) (o : Who) (a : Reg) (n : Nat) : Bool :=
  match a with
  | .v k => decide (k.val + n ≤ 64) && vInside s o (k.val + n - 1)
  | .s _ => false | .k _ => false | .zr => false | .lid => false | .wid => false | .emask => false | .tile => false
  | .tseq => false | .rcnt => false | .tag => false

/-- The number of the first register of a block. -/
def blockBase (a : Reg) : Nat :=
  match a with
  | .v k => k.val
  | .s _ => 0 | .k _ => 0 | .zr => 0 | .lid => 0 | .wid => 0 | .emask => 0 | .tile => 0 | .tseq => 0 | .rcnt => 0
  | .tag => 0

/-- What MMA and MGRAD read (R101, R314, R316): Sb, the registers of the block, and TAG where rows route by it. -/
def rowSrcs (flags : BitVec 7) (a b : Reg) : List Reg :=
  b :: ((List.range (aRegs flags)).map fun j => Reg.v (Fin.ofNat 64 (blockBase a + j))) ++
    (if flags.getLsbD 4 then [] else [.tag])

/-- A command that reads a set-wide register block: its rows are taken as the latch fires (R136, R314). -/
def rowsWord (i : Instr) (kind : EngKind) (sc : Scope) (flags : BitVec 7) (a b : Reg) (s : State) :
    Host.Outcome State Fault Refusal :=
  runWord i sc (fun s o => blockOk s o a (aRegs flags) && srcOk s o sc b) (rowSrcs flags a b) false true
    (fun s o =>
      let ms := targets s o sc
      let choices := if ms.any fun m => openReads s m (rowSrcs flags a b) then ms.length else 0
      issueOp { s with free := s.free + choices } { newOp s o kind sc (encode i) flags.toNat 0 (rdS s o b) with
                    count := 32 * ms.length, rows := captureRows s ms (blockBase a) (aRegs flags) }) s

/-- MMA (R320). -/
def execMma (w : Bool) (sc : Scope) (i : BitVec 7) (a b : Reg) (s : State) : Host.Outcome State Fault Refusal :=
  rowsWord (.mma w sc i a b) .mma sc i a b s

/-- MGRAD (R321). -/
def execMgrad (w : Bool) (sc : Scope) (i : BitVec 7) (a b : Reg) (s : State) : Host.Outcome State Fault Refusal :=
  rowsWord (.mgrad w sc i a b) .mgrad sc i a b s

/-! ### TDEF, CPYC and MCLOSE -/

/-- TDEF (R273): no progress for the governor. -/
def execTdef (w : Bool) (sc : Scope) (i : BitVec 7) (a : Reg) (s : State) : Host.Outcome State Fault Refusal :=
  runWord (.tdef w sc i a) sc (fun s o => decide (i.toNat ≤ 63) && srcOk s o sc a) [a] false true
    (fun s o =>
      let v := rdS s o a
      stepThree s o (encode (.tdef w sc i a)) sc (.tdef i.toNat v) fun s =>
        resOf ((loadSlot o i.toNat v).run s) fun s _ => .done s) s

/-- CPYC (R288). -/
def execCpyc (w : Bool) (sc : Scope) (i : BitVec 7) (s : State) : Host.Outcome State Fault Refusal :=
  runWord (.cpyc w sc i) sc (fun _ _ => decide (i.toNat ≤ 15)) [] false true
    (fun s o =>
      issued o (stepThree s o (encode (.cpyc w sc i)) sc (.cpyc i.toNat) fun s =>
        resOf ((cancelCopies o i.toNat).run s) fun s _ => .done s)) s

/-- MCLOSE (R323): the number of the batch it closes, zero-extended. -/
def execMclose (w : Bool) (sc : Scope) (d : Reg) (s : State) : Host.Outcome State Fault Refusal :=
  runWord (.mclose w sc d) sc (fun s o => dstOk s o sc d) [] (writesS sc d) true
    (fun s o =>
      stepThree s o (encode (.mclose w sc d)) sc (.mclose d sc) fun s =>
        resOf ((closeBatch o).run s) fun s n => .done (lateScalar s o sc d (BitVec.ofNat 64 n))) s

/-! ### Acceptance of a waiting command (R274) -/

/-- A word that waited completes as its effect says. -/
def finishWaited (o : Who) (latch : Option Nat) (x : BitVec 32) (r : Res) : State :=
  match latch with
  | none => finishOwn o x r
  | some g => finishFire o g x r

/-- The n-th waiting command of a core is tried again; a halted core holds it (R367), and so does a restored workgroup until the
baton that it held is granted to it again (R310). -/
def acceptWaiting (s : State) (core n : Nat) : State :=
  let c := getCore s core
  match (if c.halting then none else c.waiting[n]?) with
  | none => s
  | some op =>
    if (wgOf s op.who).batonWait then s
    else
      let s1 := setCore s core { c with waiting := c.waiting.eraseIdx n }
      let r := (acceptOp op).run s1
      match r.1 with
      | .error (.inr .accept) => s
      | _ => finishWaited op.who op.latch op.word (resOf r fun s _ => .done (accepted s op))

/-- ENGINE_COMMAND_ACCEPT (R274): the n-th waiting command of a core. -/
def execEngineCommandAccept (core n : Nat) (s : State) : Host.Outcome State Fault Refusal := .next (acceptWaiting s core n)

end Sys2Proof.Machine
end

