-- ==== Sys2Proof/Machine/ClassLoop.lean ====
section
/-! DEFINITION. The class loop (R176–R197): the class unit, concurrent splits, departures, and the exit of lanes and
warps (R115, R186). -/

namespace Sys2Proof.Machine

/-! ### Classes (R179) -/

/-- The lanes among a set that hold the same key as lane l. -/
def sameKey (keys : Table Word) (p : Mask) (l : Nat) : Mask :=
  maskOf ((lanesOf p).filter fun m => tgetD 0 keys m == tgetD 0 keys l)

/-- The lane of a set that holds its least key. -/
def leastKeyLane (keys : Table Word) (p : Mask) : Nat :=
  (lanesOf p).foldl (fun b l => if tgetD 0 keys l < tgetD 0 keys b then l else b) (lowestLane p)

/-- The first class of a set in class order (R179): its key and its lanes. A lane that the pending key does not hold, which a
CLASS can meet after EXIT has emptied the class that took the key, has key 0 (DESIGN CHOICE, log entry 61). -/
def firstClass (keys : Table Word) (mode : BitVec 4) (p : Mask) : Word × Mask :=
  let l := if mode.getLsbD 2 then lowestLane p else leastKeyLane keys p
  (tgetD 0 keys l, sameKey keys p l)

/-! ### Outstanding results across the loop -/

/-- The results of a list that lie in the lane registers of some lanes (R192). -/
def outsIn (c : Mask) (out : List OutRes) : List OutRes :=
  (out.map fun e => match e.dst with
    | .lane _ => { e with vals := e.vals.filter fun v => c.getLsbD v.1 }
    | .tag => { e with vals := e.vals.filter fun v => c.getLsbD v.1 }
    | .s _ => { e with vals := [] } | .k _ => { e with vals := [] } | .none => { e with vals := [] }).filter
    fun e => !e.vals.isEmpty

/-- The rest of the list: the same results without those lanes. -/
def outsBut (c : Mask) (out : List OutRes) : List OutRes :=
  out.map fun e => match e.dst with
    | .lane _ => { e with vals := e.vals.filter fun v => !c.getLsbD v.1 }
    | .tag => { e with vals := e.vals.filter fun v => !c.getLsbD v.1 }
    | .s _ => e | .k _ => e | .none => e

/-- Results due in K registers are dropped from a list: the registers have been written since (R100). -/
def dropK (out : List OutRes) : List OutRes :=
  out.map fun e => match e.dst with
    | .k _ => { e with dst := .none, vals := [] }
    | .lane _ => e | .tag => e | .s _ => e | .none => e

/-- Results due in the S register that the class unit writes as Sd are dropped too (R100, R190). -/
def dropSd (d : Reg) (out : List OutRes) : List OutRes :=
  match d with
  | .s n => discard (.s n.val) [0] out
  | .v _ => out | .k _ => out | .zr => out | .lid => out | .wid => out | .emask => out | .tile => out | .tseq => out
  | .rcnt => out | .tag => out

def isScalarOut (e : OutRes) : Bool := match e.dst with
  | .k _ => true | .s _ => true | .lane _ => false | .tag => false | .none => false

/-! ### Levels -/

/-- begin_class of the top level (R180) in a stream: its first pending class takes the mask, and Sd its key; a serial
concurrent body gives K0–K7 as CLASS found them first (R194). -/
def beginClass (o : Who) (w : Warp) : Warp :=
  match w.stack with
  | [] => w
  | e :: rest =>
    let c := firstClass e.keys e.mode e.p
    let w := { w with stack := { e with p := e.p &&& ~~~c.2, c := c.2 } :: rest }
    let w := match e.serial with
      | none => w
      | some k => putStream w o.split fun st => { st with k := k, out := dropK st.out }
    let w := wrWarp o e.sd [(0, c.1)] w
    putStream w o.split fun st => { st with emask := c.2, pc := e.body }

/-- What the CNEXT action came to (R181, R187, R196): a class began; the loop popped; the chain reached a level that the
running handler did not open; no level is left. -/
inductive Chain where
  | begun | popped | floor | empty
  deriving DecidableEq, Repr

/-- cnext_action of R181, outward through levels whose mask is empty (R187), down to a handler's floor (R196). -/
def chain (o : Who) (floor : Nat) : Nat → Warp → Warp × Chain
  | 0, w => (w, .empty)
  | n + 1, w =>
    if w.stack.length ≤ floor then (w, if floor = 0 then .empty else .floor)
    else
      match w.stack with
      | [] => (w, .empty)
      | e :: rest =>
        if e.p != 0 then (beginClass o w, .begun)
        else
          let m := e.m &&& ~~~e.a
          let w := { w with stack := rest }
          let w := putStream w o.split fun st => { st with emask := m, pc := e.cn + 4 }
          if m = 0 then chain o floor n w else (w, .popped)

/-! ### Splits (R189, R190) -/

/-- A split that starts a class: its key, its lanes and its place in class order, with results that its wait marks wait for
(R192). -/
def newSplit (num ord : Nat) (e : ClassEntry) (k0 : Table Word) (c : Word × Mask) (out : List OutRes) : Split :=
  let k := match e.sd with
    | .k n => tput k0 n.val c.1
    | .v _ => k0 | .s _ => k0 | .zr => k0 | .lid => k0 | .wid => k0 | .emask => k0 | .tile => k0 | .tseq => k0
    | .rcnt => k0 | .tag => k0
  { num := num, ord := ord, sd := c.1,
    st := { Stream.init with pc := e.body, emask := c.2, k := k, out := out } }

/-- Start a split of a number on the next unstarted class of the top level. Results outstanding in its lanes go with it, but
where the word that opened the loop is marked: then the warp is parked until they have returned (R99, R192). `own` holds those
of the class that the split ran before, where the word that ended it is marked. -/
def startNext (num : Nat) (keep : Bool) (own : List OutRes) (w : Warp) : Warp :=
  match w.stack, w.conc with
  | e :: rest, some cs =>
    let c := firstClass e.keys e.mode e.p
    let lanes := if keep then 0 else c.2
    let sp := newSplit num cs.started e cs.k0 c (own ++ outsIn lanes w.main.out)
    let below := w.splits.filter fun p => decide (p.num < num)
    let above := w.splits.filter fun p => decide (num < p.num)
    { w with stack := { e with p := e.p &&& ~~~c.2 } :: rest, conc := some { cs with started := cs.started + 1 },
             splits := below ++ sp :: above, main := { w.main with out := outsBut lanes w.main.out } }
  | _, _ => w

/-- start_splits of R190: the first four classes; `mark` is the mark of CLASS. -/
def startSplits (mark : Bool) : List Nat → Warp → Warp
  | [], w => w
  | n :: ns, w =>
    match w.stack with
    | [] => w
    | e :: _ => if e.p = 0 then w else startSplits mark ns (startNext n mark [] w)

/-- What the end of a split's class came to (R190): it took the next class; it ended and others run; the loop ended. -/
inductive SplitEnd where
  | next | gone | all
  deriving DecidableEq, Repr

/-- A split's class has ended (R190): results due in its K and Sd copies return, its final copies are kept, and it takes the
next class or ends; the end of the last split writes K0–K7 and Sd and pops the level. Results of its lanes stay with the warp;
where the word is marked and the split goes on, with the split, which they park (R192). -/
def endSplit (o : Who) (n : Nat) (mark : Bool) (w : Warp) : Warp × SplitEnd :=
  match findSplit w n, w.stack, w.conc with
  | some p0, e :: rest, some cs =>
    let w := (p0.st.out.filter isScalarOut).foldl (returnOut o) w
    let p := (findSplit w n).getD p0
    let cs := if cs.lastOrd ≤ p.ord then { cs with lastOrd := p.ord, lastK := p.st.k, lastSd := p.sd } else cs
    let left := p.st.out.filter fun x => !isScalarOut x
    let own := if mark && e.p != 0 then left else []
    let w := { w with conc := some cs,
                      main := { w.main with out := w.main.out ++ (if own.isEmpty then left else []), marked := w.main.marked && !w.main.out.isEmpty },
                      splits := w.splits.filter fun q => q.num != n }
    if e.p != 0 then (startNext n false own w, .next)
    else if w.splits.isEmpty then
      let w := { w with stack := rest, conc := none,
                        main := { w.main with emask := e.m &&& ~~~e.a, pc := e.cn + 4, k := cs.lastK, wait := .none,
                                              marked := false, out := dropK w.main.out } }
      let w := match e.sd with
        | .s _ => wrWarp { o with split := none } e.sd [(0, cs.lastSd)] w
        | .v _ => w | .k _ => w | .zr => w | .lid => w | .wid => w | .emask => w | .tile => w | .tseq => w | .rcnt => w
        | .tag => w
      (w, .all)
    else (w, .gone)
  | _, _, _ => (w, .gone)

/-! ### The CNEXT action of a stream -/

/-- The handler of a stream ends without ERET (R196): its frame is discarded and the other splits run again. -/
def dropFrame (s : State) (o : Who) : State := updStream s o fun st => { st with frame := none }

/-- The chain in the warp's main stream above a floor. -/
def chainMain (s : State) (o : Who) (floor : Nat) : State × Chain :=
  let m := { o with split := none }
  let r := chain m floor ((warpOf s o).stack.length + 1) (warpOf s o)
  let s := updWarpOf s o fun _ => r.1
  (if r.2 = .begun then progress s o else s, r.2)

/-- The CNEXT action in the main stream; at the floor of its handler the handler ends (R196). -/
def actMain (s : State) (o : Who) : State :=
  let m := { o with split := none }
  match (streamOf s m).frame with
  | none => (chainMain s o 0).1
  | some f =>
    let r := chainMain s o f.depth
    match r.2 with
    | .floor => (chainMain (dropFrame r.1 m) o 0).1
    | .empty => r.1 | .begun => r.1 | .popped => r.1

/-- A split's class has ended: the state, and the stream that goes on, where a split that is gone parks nothing. -/
def actSplit (s : State) (o : Who) (n : Nat) (mark : Bool) : State × Who :=
  let r := endSplit o n mark (warpOf s o)
  let s := updWarpOf s o fun _ => r.1
  let m := { o with split := none }
  match r.2 with
  | .next => (progress s o, o)
  | .gone => (s, o)
  | .all => (if (streamOf s m).emask = 0 then actMain s o else s, m)

/-- The CNEXT action of the stream's current class (R181, R187, R190, R196), and the stream that goes on; `mark` is the wait mark
of the word. -/
def classAction (s : State) (o : Who) (mark : Bool) : State × Who :=
  match o.split with
  | none => (actMain s o, o)
  | some n =>
    match (streamOf s o).frame with
    | none => actSplit s o n mark
    | some f =>
      let r := chain o f.depth ((warpOf s o).stack.length + 1) (warpOf s o)
      let s := updWarpOf s o fun _ => r.1
      match r.2 with
      | .begun => (progress s o, o)
      | .popped => (s, o)
      | .floor => actSplit (dropFrame s o) o n mark
      | .empty => actSplit (dropFrame s o) o n mark

/-! ### The instructions -/

/-- Key width of a CKEY mode (R178). -/
def keyBits (i : BitVec 7) : Nat := 64 / 2 ^ (i.toNat % 4)

/-- CKEY (R177). -/
def execCkey (w : Bool) (a : Reg) (i : BitVec 7) (s : State) : Host.Outcome State Fault Refusal :=
  runWord (.ckey w a i) .warp (fun s o => anyV s o a && decide (i.toNat ≤ 15)) [a] true false
    (fun s o =>
      let ls := actives s o
      let keys := ls.map fun l => (l, BitVec.ofNat 64 ((rd s o a l).toNat % 2 ^ keyBits i))
      .done (updWarpOf s o fun w =>
        { w with pending := some { lanes := activeMask s o, keys := keys, mode := i.setWidth 4 } })) s

/-- The level that CLASS pushes (R180). -/
def levelOf (s : State) (o : Who) (k : KeySnap) (d : Reg) (off : BitVec 14) (serial : Option (Table Word)) : ClassEntry :=
  let st := streamOf s o
  { m := st.emask, p := st.emask, a := 0, keys := k.keys, body := st.pc + 4, cn := st.pc + 4 * off.signExtend 56, sd := d,
    mode := k.mode, c := 0, serial := serial }

/-- CLASS (R180, R189, R194). -/
def execKlass (w : Bool) (d : Reg) (off : BitVec 14) (s : State) : Host.Outcome State Fault Refusal :=
  runWord (.klass w d off) .warp
    (fun _ _ => scalarDst d && decide (1 ≤ off.toNat) && decide (off.toNat ≤ 8191)) [] true false
    (fun s o =>
      let wp := warpOf s o
      match wp.pending with
      | none => .trap s (trapOf 0x03)
      | some k =>
        if wp.stack.length ≥ 8 then .trap s (trapOf 0x10)
        else
          let conc := k.mode.getLsbD 3
          let serial := conc && ((wgOf s o).det || o.split.isSome)
          let ks := (List.range 8).map fun n => (n, rdS s o (.k (Fin.ofNat 8 n)))
          let e := levelOf s o k d off (if serial then some ks else none)
          let s := updWarpOf s o fun w => { w with pending := none, stack := e :: w.stack }
          if conc && !serial then
            .moved (updWarpOf s o fun wp =>
              startSplits w [0, 1, 2, 3]
                { wp with conc := some { k0 := ks, started := 0, lastOrd := 0, lastK := ks, lastSd := 0 },
                          main := { wp.main with out := dropSd d (dropK wp.main.out) } }) o
          else .moved (updWarpOf s o (beginClass o)) o) s

/-- CNEXT and CBRK have no level of their own to act on: the stack above a running handler's floor is too low (R196). -/
def levelsOpen (s : State) (o : Who) : Nat := (warpOf s o).stack.length - handlerDepth s o

/-- CNEXT (R181). -/
def execCnext (w : Bool) (s : State) : Host.Outcome State Fault Refusal :=
  runWord (.cnext w) .warp (fun _ _ => true) [] false false
    (fun s o =>
      match (warpOf s o).stack with
      | [] => .trap s (trapOf 0x03)
      | e :: _ =>
        if levelsOpen s o = 0 ∨ (streamOf s o).pc ≠ e.cn then .trap s (trapOf 0x03)
        else
          let r := classAction (updWarpOf s o fun w => { w with pending := none }) o w
          .moved r.1 r.2) s

/-- CBRK (R182): the current class joins the departed sets of the loops it leaves but the outermost. -/
def execCbrk (w : Bool) (i : BitVec 7) (s : State) : Host.Outcome State Fault Refusal :=
  runWord (.cbrk w i) .warp (fun _ _ => decide (1 ≤ i.toNat) && decide (i.toNat ≤ 8)) [] (i != 1) false
    (fun s o =>
      let n := i.toNat
      if n > levelsOpen s o then .trap s (trapOf 0x03)
      else
        let x := (streamOf s o).emask
        let s := updWarpOf s o fun w =>
          { w with pending := none,
                   stack := (w.stack.take (n - 1)).map (fun e => { e with a := e.a ||| x }) ++ w.stack.drop (n - 1) }
        let s := updStream s o fun st => { st with emask := 0 }
        let r := classAction s o w
        .moved r.1 r.2) s

/-- RDFL (R183). -/
def execRdfl (w : Bool) (d a : Reg) (s : State) : Host.Outcome State Fault Refusal :=
  runWord (.rdfl w d a) .warp (fun s o => scalarDst d && anyV s o a) [a] (isS d) false
    (fun s o => .done (lateScalar s o .warp d (rd s o a (lowestLane (activeMask s o))))) s

/-! ### Exit (R115, R186) -/

/-- Lanes leave every level, the pending key and every mask of the warp (R186, R196). -/
def removeLanes (x : Mask) (w : Warp) : Warp :=
  let cut := fun (m : Mask) => m &&& ~~~x
  let stream := fun (st : Stream) =>
    { st with emask := cut st.emask, frame := st.frame.map fun f => { f with mask := cut f.mask } }
  { w with live := cut w.live, main := stream w.main, splits := w.splits.map fun p => { p with st := stream p.st },
           stack := w.stack.map fun e => { e with m := cut e.m, p := cut e.p, a := cut e.a, c := cut e.c },
           pending := w.pending.map fun k => { k with lanes := cut k.lanes } }

/-- A warp exits (R115): outstanding results return, it leaves every set and the block (R105), its private lines are
dropped and its region is freed (R242), and a suspended set goes back to its latch (R106); the last one ends the workgroup, and
a request to pre-empt it is met (R345). -/
def exitWarp (s : State) (o : Who) : State :=
  let m := { o with split := none }
  let latch := (streamOf s m).frame.bind Frame.latch
  let s := settleAll s o
  let s := updWarpOf s o fun w =>
    { w with live := 0, splits := [], conc := none, pending := none, stack := [],
             main := { w.main with emask := 0, wait := .none, frame := none } }
  let own := { wgOf s o with priv := (wgOf s o).priv.filter fun e => e.1 == o.warp }
  let s := updWgOf (dropPriv s o.core (regionsOf own)) o fun g => { g with priv := tdel g.priv o.warp }
  let s := match latch with
    | none => s
    | some g => resumeGroup s o.core o.slot g o.warp true
  let s := dropDissolved ([0, 1, 2, 3, 4].foldl (fun s g => reviewLatch s o.core o.slot g) s) o.core o.slot
  if (wgOf s o).warps.all fun e => e.2.live == 0 then preLeft (updWgOf s o fun g => { g with phase := .ended }) o.core o.slot
  else s

/-- EXIT (R115, R186). -/
def execExit (w : Bool) (sc : Scope) (s : State) : Host.Outcome State Fault Refusal :=
  runWord (.exit w sc) sc (fun _ _ => true) [] false false
    (fun s o =>
      let s := endQuantum (progress s o) o
      let x := if sc == .lane then (streamOf s o).emask else (warpOf s o).live
      let s := updWarpOf s o (removeLanes x)
      if (warpOf s o).live = 0 then .left (exitWarp (updWarpOf s o fun w => { w with rcnt := w.rcnt + 1 }) o)
      else
        let r := classAction s o w
        .moved r.1 r.2) s

end Sys2Proof.Machine
end

