-- ==== Sys2Proof/Machine/Control.lean ====
section
/-! DEFINITION. The control instructions (R111–R119, R124–R127), TRAP, BKPT and ERET (R363–R365), and the events of warps:
returning results (R98), performed stores (R252), the governor (R108, R109), the ends of quanta (R265), ICINV's completion. -/

namespace Sys2Proof.Machine

/-! ### Branches (R111–R114) -/

/-- NOP (R111). -/
def execNop (w : Bool) (sc : Scope) (s : State) : Host.Outcome State Fault Refusal :=
  runWord (.nop w sc) sc (fun _ _ => true) [] false false (fun s _ => .done s) s

/-- pc + 4 × sext(off) (R52). -/
def target21 (pc : Addr) (off : BitVec 21) : Addr := pc + 4 * off.signExtend 56
def target14 (pc : Addr) (off : BitVec 14) : Addr := pc + 4 * off.signExtend 56

/-- BR (R112). -/
def execBr (w : Bool) (off : BitVec 21) (s : State) : Host.Outcome State Fault Refusal :=
  runWord (.br w off) .warp (fun _ _ => true) [] false false
    (fun s o => .jump s (target21 (streamOf s o).pc off)) s

/-- A conditional branch, taken where the test of the source holds. -/
def branch (i : Instr) (d : Reg) (off : BitVec 14) (taken : Word → Bool) (s : State) : Host.Outcome State Fault Refusal :=
  runWord i .warp (fun _ _ => scalarSrc d) [d] false false
    (fun s o => if taken (rdS s o d) then .jump s (target14 (streamOf s o).pc off) else .done s) s

/-- BRZ (R112). -/
def execBrz (w : Bool) (d : Reg) (off : BitVec 14) (s : State) : Host.Outcome State Fault Refusal :=
  branch (.brz w d off) d off (fun v => v == 0) s

/-- BRNZ (R112). -/
def execBrnz (w : Bool) (d : Reg) (off : BitVec 14) (s : State) : Host.Outcome State Fault Refusal :=
  branch (.brnz w d off) d off (fun v => v != 0) s

/-- The link register (R113, R131). -/
def linkReg : Reg := .s 47

/-- CALL (R113). -/
def execCall (w : Bool) (off : BitVec 21) (s : State) : Host.Outcome State Fault Refusal :=
  runWord (.call w off) .warp (fun _ _ => true) [] true false
    (fun s o =>
      let pc := (streamOf s o).pc
      .jump (wrScalar s o .warp linkReg (addrWord (pc + 4))) (target21 pc off)) s

/-- A jump to a register's address (R114), with or without a link. -/
def jumpTo (link : Bool) (a : Reg) (s : State) (o : Who) : Res :=
  let t := rdS s o a
  if bits t 63 56 ≠ 0 then .trap s (trapOf 0x03)
  else if bits t 1 0 ≠ 0 then .trap s (trapAt 0x08 t)
  else
    let s := if link then wrScalar s o .warp linkReg (addrWord ((streamOf s o).pc + 4)) else s
    .jump s (t.setWidth 56)

/-- CALLX (R114). -/
def execCallx (w : Bool) (a : Reg) (s : State) : Host.Outcome State Fault Refusal :=
  runWord (.callx w a) .warp (fun _ _ => scalarSrc a) [a] true false (jumpTo true a) s

/-- JX (R114). -/
def execJx (w : Bool) (a : Reg) (s : State) : Host.Outcome State Fault Refusal :=
  runWord (.jx w a) .warp (fun _ _ => scalarSrc a) [a] false false (jumpTo false a) s

/-! ### The warp's own controls (R116–R118, R124–R126) -/

/-- A warp's place in the ring of its partition (R95): by workgroup slot, then warp index. -/
def ringPos (slot warp : Nat) : Nat := slot * 32 + warp

/-- A warp becomes the last of its partition's ring (R95, R116): the search goes on after it. -/
def ringEnd (s : State) (o : Who) : State :=
  updCore s o.core fun c => { c with ring := tput c.ring (o.warp % 4) (ringPos o.slot o.warp + 1) }

/-- YIELD (R116). -/
def execYield (w : Bool) (s : State) : Host.Outcome State Fault Refusal :=
  runWord (.yield w) .warp (fun _ _ => true) [] false false
    (fun s o => .done (endQuantum (ringEnd s o) o)) s

/-- WIN (R117). -/
def execWin (w : Bool) (i : BitVec 7) (s : State) : Host.Outcome State Fault Refusal :=
  runWord (.win w i) .warp (fun _ _ => decide (i.toNat ≤ 15)) [] true false
    (fun s o => .done (updWarpOf s o fun w => { w with window := i.toNat })) s

/-- The set that SETS may choose (R118): its mask names the warp, which lives. -/
def setOk (s : State) (o : Who) (k : Nat) : Bool := (members (wgOf s o) k).contains o.warp

/-- SETS (R118). -/
def execSets (w : Bool) (i : BitVec 7) (s : State) : Host.Outcome State Fault Refusal :=
  runWord (.sets w i) .warp (fun _ _ => decide (i.toNat ≤ 3)) [] true false
    (fun s o =>
      if setOk s o i.toNat then .done (updWarpOf s o fun w => { w with curSet := some i.toNat })
      else .trap s (trapOf 0x03)) s

/-- GOV's effect (R123, R124). -/
def setBudget (s : State) (o : Who) (v : Word) : Res :=
  if bits v 63 16 ≠ 0 then .trap s (trapOf 0x03)
  else .done (updWarpOf s o fun w => { w with budget := v.setWidth 16, gcount := 0 })

/-- GOV (R124). -/
def execGov (w : Bool) (a : Reg) (s : State) : Host.Outcome State Fault Refusal :=
  runWord (.gov w a) .warp (fun _ _ => scalarSrc a) [a] true false (fun s o => setBudget s o (rdS s o a)) s

/-- QSYNC (R125). -/
def execQsync (w : Bool) (s : State) : Host.Outcome State Fault Refusal :=
  runWord (.qsync w) .warp (fun _ _ => true) [] false false
    (fun s o => if (wgOf s o).det then .wait (endQuantum s o) (.qsync w) else .done s) s

/-- CPOL (R126). -/
def execCpol (w : Bool) (i : BitVec 7) (s : State) : Host.Outcome State Fault Refusal :=
  runWord (.cpol w i) .warp (fun _ _ => decide (i.toNat ≤ 3)) [] true false
    (fun s o => .done (updWarpOf s o fun w => { w with cpol := i.setWidth 2 })) s

/-! ### Literals (R119) -/

/-- A literal of n words read through the instruction cache; a fault of the fetch names the literal's address. -/
def literal (i : Instr) (n : Nat) (d : Reg) (off : BitVec 14) (s : State) : Host.Outcome State Fault Refusal :=
  runWord i .warp (fun _ _ => sdOk d) [] (isS d) false
    (fun s o =>
      let a := target14 (streamOf s o).pc off
      if a.toNat % (4 * n) ≠ 0 then .trap s (trapAt 0x08 (addrWord a))
      else
        match fetchWords s o a n .read with
        | (s, .inr (.inl t)) => .trap s { t with addr := addrWord a }
        | (s, .inr (.inr w)) => .wait s w
        | (t, .inl ws) =>
          let remote := (t.icache.drop s.icache.length).any fun e => overPeer s (.phys e.pa false)
          .done (peerMark t remote [o] (lateScalar t o .warp d
            (BitVec.ofNat 64 ((ws.getD 0 0).toNat + (ws.getD 1 0).toNat * 2 ^ 32))))) s

/-- LDL (R119). -/
def execLdl (w : Bool) (d : Reg) (off : BitVec 14) (s : State) : Host.Outcome State Fault Refusal :=
  literal (.ldl w d off) 2 d off s

/-- LDLW (R119). -/
def execLdlw (w : Bool) (d : Reg) (off : BitVec 14) (s : State) : Host.Outcome State Fault Refusal :=
  literal (.ldlw w d off) 1 d off s

/-! ### Instruction-cache invalidation (R127) -/

/-- The write under way is one of a warp's, or the write-back of a first-level line that its task stored to. -/
def pendOf (g : Wg) (o : Who) (p : Pend) : Bool :=
  (p.who.core == o.core && p.who.slot == o.slot && p.who.warp == o.warp) || ownWriteBack g p

/-- Every store and atomic that the warp sent out is performed at device memory scope. -/
def pendDone (s : State) (o : Who) : Bool := !s.pend.any fun p => pendOf (wgOf s o) o p && !p.atDev

/-- Every store and atomic that the warp issued is performed at device memory scope, none buffered. A store that still lies dirty in
a first-level line of a software-managed page is neither waited for nor written back [DESIGN CHOICE, log entry 61: R127 and R252
taken alone would wait for it; chapter 12 lets such bytes stay in the cache past FENCE #1]. -/
def storesDone (s : State) (o : Who) : Bool := (warpOf s o).buf.isEmpty && pendDone s o

/-- Drop the words of the 128-byte lines that meet [a, a + n) from both dies, by their addresses in the context and by
the memory behind them (R69, R127). -/
def icDrop (s : State) (ctx a n : Nat) : State :=
  let inRange := fun (x : Nat) => decide (x / 128 * 128 < a + n) && decide (a < x / 128 * 128 + 128)
  let pas := (s.icache.filter fun e => e.ctx == ctx && inRange e.va).map fun e => e.pa / 128
  { s with icache := s.icache.filter fun e => !((e.ctx == ctx && inRange e.va) || pas.contains (e.pa / 128)) }

/-- ICINV (R127). A buffered store ends the quantum, so that its commit comes (R266; log entry 19). -/
def execIcinv (w : Bool) (a b : Reg) (s : State) : Host.Outcome State Fault Refusal :=
  runWord (.icinv w a b) .warp (ab a b .warp) [a, b] false false
    (fun s o =>
      let lo := rdS s o a
      let n := rdS s o b
      if lo.toNat + n.toNat > 2 ^ 56 then .trap s (trapOf 0x03)
      else if n = 0 then .done s
      else if storesDone s o then .done (icDrop s (wgOf s o).ctx lo.toNat n.toNat)
      else .wait (if (warpOf s o).buf.isEmpty then s else endQuantum s o) (.icinv lo n w)) s

/-- ICINV_COMPLETE (R127): the stores are performed, the lines go, and the warp is ready. -/
def execIcinvComplete (o : Who) (s : State) : Host.Outcome State Fault Refusal :=
  match (streamOf s o).wait with
  | .icinv a n mark =>
    if storesDone s o then
      let s := icDrop s (wgOf s o).ctx a.toNat n.toNat
      .next (endStep (retire s o mark ((streamOf s o).pc + 4)) o)
    else .next s
  | _ => .next s

/-! ### TRAP, BKPT and ERET (R363–R365) -/

/-- TRAP (R363). -/
def execTrap (w : Bool) (i : BitVec 7) (s : State) : Host.Outcome State Fault Refusal :=
  runWord (.trap w i) .warp (fun _ _ => true) [] false false
    (fun s _ => .trap s (trapAt 0x1F (i.setWidth 64))) s

/-- BKPT (R364, R368): the word at which the warp was resumed does nothing; with a debugger attached it halts the warp, but for
the word of a step (log entry 54); with none it traps. -/
def execBkpt (w : Bool) (i : BitVec 7) (s : State) : Host.Outcome State Fault Refusal :=
  runWord (.bkpt w i) .warp (fun _ _ => true) [] false false
    (fun s o =>
      if (streamOf s o).skipBp || ((getCore s o.core).attach && (warpOf s o).step.isSome) then .done s
      else if (getCore s o.core).attach then
        .left (updWarpOf s o fun w => putStream { w with stop := 3 } o.split fun st => { st with skipBp := true })
      else .trap s (trapAt 0x20 (i.setWidth 64))) s

/-- The handler of a stream ends (R196, R365): its levels are discarded, the mask of the frame is restored, and a suspended
set goes on, past its word or (`again`) to it. -/
def endHandler (s : State) (o : Who) (f : Frame) (again : Bool) : State :=
  let s := progress (settleAll s o) o
  let s := updWarpOf s o fun w =>
    putStream { w with stack := w.stack.drop (w.stack.length - f.depth) } o.split fun st =>
      { st with emask := f.mask, frame := none }
  match f.latch with
  | none => s
  | some g => resumeGroup s o.core o.slot g o.warp again

/-- Where ERET goes on: at the word of the trap, or after it. -/
def eretPc (i : BitVec 7) (f : Frame) : Addr := if i.toNat = 1 then f.pc + 4 else f.pc

/-- The handler of the warp ends in a split of a concurrent loop that it opened, which goes with the loop's level (R196;
log entry 10). -/
def endSplits (s : State) (o : Who) (f : Frame) (i : BitVec 7) : State :=
  let m := { o with split := none }
  updWarpOf (endHandler s m f (i.toNat == 0)) m fun w =>
    { w with splits := [], conc := none, main := { w.main with wait := .none, pc := eretPc i f } }

/-- ERET (R365): of the stream's own handler, or of the warp's in a loop that it opened. -/
def execEret (w : Bool) (i : BitVec 7) (s : State) : Host.Outcome State Fault Refusal :=
  runWord (.eret w i) .warp (fun _ _ => decide (i.toNat ≤ 1)) [] false false
    (fun s o =>
      match (streamOf s o).frame with
      | some f => .jump (endHandler s o f (i.toNat == 0)) (eretPc i f)
      | none =>
        match o.split, (warpOf s o).main.frame with
        | some _, some f => .moved (endSplits s o f i) { o with split := none }
        | _, _ => .trap s (trapOf 0x03)) s

/-! ### Events of warps -/

/-- A wait mark parks the stream (R99): results of its own are to come, or those that stood out as a marked CLASS opened the
loop, which stay with the warp (R192). -/
def parkedByMark (s : State) (o : Who) : Bool :=
  let st := streamOf s o
  let w := warpOf s o
  (st.marked && (!st.out.isEmpty || oldBuffered w o)) || (o.split.isSome && w.main.marked && !w.main.out.isEmpty)

/-- RESULT_RETURN (R98): the n-th outstanding result of a stream returns, with all that its instruction has outstanding there;
the wait mark falls when none is left (R99). -/
def execResultReturn (o : Who) (n : Nat) (s : State) : Host.Outcome State Fault Refusal :=
  match (streamOf s o).out[n]? with
  | none => .next s
  | some r =>
    let out := (streamOf s o).out
    let rest := out.filter fun e => e.num != r.num
    .next (updWarpOf s o fun w =>
      putStream ((out.filter fun e => e.num == r.num).foldl (returnOut o) w) o.split fun st =>
        { st with out := rest, marked := st.marked && (!rest.isEmpty || oldBuffered w o) })

/-- Two writes under way have a byte in common. -/
def sharesByte (p q : Pend) : Bool :=
  lineCtx p.ctx p.pa == lineCtx q.ctx q.pa && decide (p.pa < q.pa + q.old.length) && decide (q.pa < p.pa + p.old.length)

/-- STORE_PERFORMED (R252): the n-th write under way is performed at its location's memory scope; one to an aperture
first at device memory scope. Writes of one byte are performed in the order in which they take effect. -/
def execStorePerformed (n : Nat) (s : State) : Host.Outcome State Fault Refusal :=
  match s.pend[n]? with
  | none => .next s
  | some p =>
    let first := inAperture p.pa && !p.atDev
    if (s.pend.take n).any fun q => sharesByte p q && !(first && q.atDev) then .next s
    else if first then .next { s with pend := s.pend.set n { p with atDev := true } }
    else
      let count := fun (q : ShootOp) => if n < q.pend then { q with pend := q.pend - 1 } else q
      .next { s with pend := s.pend.eraseIdx n, shootOp := s.shootOp.map count }

/-- The streams of a warp in class order: its splits, or the main stream (R109, R190). -/
def streamsInOrder (w : Warp) : List (Option Nat × Nat × Stream) :=
  if w.splits.isEmpty then [(none, 0, w.main)]
  else
    let all := w.splits.map fun p => (some p.num, p.ord, p.st)
    let insert := fun (xs : List (Option Nat × Nat × Stream)) x =>
      xs.takeWhile (fun y => decide (y.2.1 < x.2.1)) ++ x :: xs.dropWhile fun y => decide (y.2.1 < x.2.1)
    all.foldl insert []

/-- The wait is for page-fault service. -/
def isService (w : Wait) : Bool :=
  match w with
  | .pageFault _ => true
  | .none => false | .latch _ => false | .barrier _ => false | .bret _ => false | .baton _ => false | .batch _ => false
  | .scoreboard _ _ _ => false | .accept => false | .icinv _ _ _ => false | .bfloor _ _ => false | .fence _ => false
  | .fenceCommit _ => false | .xfence _ _ => false | .tspawn _ _ _ _ => false | .tsucc _ _ _ => false | .pgx _ => false
  | .commit => false | .qsync _ => false

/-- Page-fault service of an access of the warp runs: of a stream, or of a latch's word that it executes (R236). -/
def inService (g : Wg) (n : Nat) (w : Warp) : Bool :=
  isService w.main.wait || (w.splits.any fun p => isService p.st.wait) ||
    g.latches.any fun e => match e.2 with
      | none => false
      | some l => isService l.wait && (members g e.1).head? == some n

/-- The warp's governor counts (R108, R236). -/
def governorCounts (g : Wg) (n : Nat) (w : Warp) : Bool :=
  w.live != 0 && w.stop == 0 && !w.suspended && w.main.frame.isNone && (w.splits.all fun p => p.st.frame.isNone)
    && !inService g n w

/-- The governor has found the warp (R108): the count reached the budget while it runs. -/
def governorDue (s : State) (o : Who) : Bool :=
  let w := warpOf s o
  w.budget != 0 && decide (w.budget.toNat * 1024 ≤ w.gcount) && governorCounts (wgOf s o) o.warp w

/-- The warp is live, and nothing that holds the whole warp back applies (R97, R236, R310, R360). -/
def warpRuns (g : Wg) (n : Nat) (w : Warp) : Bool :=
  w.live != 0 && runs w && !w.suspended && g.phase == .running && !g.batonWait
    && g.preempt != some .save && g.preempt != some .flush && !inService g n w

/-- A word in this wait has taken effect, or will without more of it: the stream's next instruction to issue is the one
after it (R108; log entry 54). -/
def takenEffect (w : Wait) : Bool :=
  match w with
  | .commit => true | .icinv _ _ _ => true | .bfloor _ _ => true | .fence _ => true | .fenceCommit _ => true
  | .xfence _ _ => true | .qsync _ => true
  | .none => false | .latch _ => false | .barrier _ => false | .bret _ => false | .baton _ => false | .batch _ => false
  | .scoreboard _ _ _ => false | .accept => false | .tspawn _ _ _ _ => false | .tsucc _ _ _ => false
  | .pageFault _ => false | .pgx _ => false

/-- The wait of a stream, or of the latch that it is parked at. -/
def waitOf (s : State) (o : Who) : Wait :=
  match (streamOf s o).wait with
  | .latch g => ((getLatch s o.core o.slot g).map Latch.wait).getD .none
  | w => w

/-- A quantum has reached its end (R265): the warp waits for the commit, or has counted its words or filled its buffer. -/
def quantumOver (s : State) (o : Who) : Bool :=
  let g := wgOf s o
  let w := warpOf s o
  g.det && (w.qended || decide (2 ^ g.qlog ≤ w.qcount) || decide (512 ≤ bufCount w))

/-- The stream's next instruction to issue is the word it waits with or has reached, and the governor may take its place
(R108). -/
def atNextWord (s : State) (o : Who) : Bool :=
  !parkedByMark s o && !takenEffect (waitOf s o) && !((streamOf s o).wait == .none && quantumOver s o)

/-- Some stream of the warp is at its next instruction to issue. -/
def someAtNextWord (s : State) (o : Who) : Bool :=
  (streamsInOrder (warpOf s o)).any fun x => atNextWord s { o with split := x.1 }

/-- The governor's trap takes the warp's next chance (R108, R109): it is due, the warp is at its next instruction to issue in
some stream, and the stream lowest in class order, which takes it, is not in the midst of a word (log entry 54). -/
def governed (s : State) (o : Who) : Bool :=
  let w := warpOf s o
  governorDue s o && warpRuns (wgOf s o) o.warp w && someAtNextWord s o &&
    match streamsInOrder w with
    | [] => false
    | x :: _ => !takenEffect (waitOf s { o with split := x.1 })

/-- The stalled lanes of R109: those of every running stream and of every pending class at every level. -/
def stalledLanes (w : Warp) : Mask :=
  w.stack.foldl (fun m e => m ||| e.p) ((streamsInOrder w).foldl (fun m x => m ||| x.2.2.emask) 0)

/-- A group's request for the baton outlasts that of a stream: another stream of the workgroup, or the group's own latch, waits
in TAKE for it, or a restored holder waits for its return (R310). -/
def takeLeft (g : Wg) (o : Who) (n : Nat) : Bool :=
  g.batonWait || (g.latches.any fun l => l.2.any fun l => l.wait == .baton n) ||
    g.warps.any fun w => (streamsInOrder w.2).any fun x => !(w.1 == o.warp && x.1 == o.split) && x.2.2.wait == .baton n

/-- A stream of a workgroup stops waiting for the baton: the group's entry goes, unless another still waits there (R310). -/
def leaveBaton (s : State) (o : Who) (n : Nat) : State :=
  if takeLeft (wgOf s o) o n then s
  else updCore s o.core fun c => { c with waiters := c.waiters.filter fun q => !(q.slot == o.slot && q.g == n) }

/-- Take back what the word at hand waits for: its place at a latch, in the engine queue and among the baton's waiters. -/
def withdraw (s : State) (o : Who) : State :=
  match (streamOf s o).wait with
  | .latch g =>
    let firing := ((getLatch s o.core o.slot g).map Latch.firing).getD false
    let s := unparkWarp s o.core o.slot o.warp
    if firing then
      leaveBaton (updCore s o.core fun c =>
        { c with waiting := c.waiting.filter fun p => !(p.who.slot == o.slot && p.latch == some g) }) o g
    else s
  | .accept =>
    updCore s o.core fun c => { c with waiting := c.waiting.filter fun p => !(p.who == o && p.latch.isNone) }
  | .baton g => leaveBaton s o g
  | _ => s

/-- GOVERNOR_TRAP (R108, R109): in the stream lowest in class order, with a record of every split when a handler is
entered (R356, R357). -/
def execGovernorTrap (who : Who) (s : State) : Host.Outcome State Fault Refusal :=
  let w := warpOf s who
  if !governed s who then .next s
  else
    match streamsInOrder w with
    | [] => .next s
    | (sp, _, st) :: rest =>
      let o := { who with split := sp }
      let s := withdraw s o
      let word := match st.wait, st.held, (fetchWords s o st.pc 1 .fetch).2 with
        | .none, _, .inl ws => ws.headD 0
        | .none, _, .inr _ => 0
        | _, some x, _ => x
        | _, none, .inl ws => ws.headD 0
        | _, none, .inr _ => 0
      let t := { trapAt 0x1C (w.budget.setWidth 64) with
                   lanes := some ((stalledLanes w).setWidth 64), info := some (word.setWidth 64) }
      let s := takeTrap s o t word st.pc none
      if (handlerOf (wgOf s o)).isSome then
        let offs := (rest.take 3).map fun x => (x.2.2.pc - st.pc).toInt
        .next (postRecord s (wgOf s o).farea
          (trapRecord s o 6 (warpOf s o).trap (if sp.isSome then rest.length + 1 else 1) offs))
      else .next s

/-- QUANTUM_EXPIRY (R265). -/
def execQuantumExpiry (o : Who) (s : State) : Host.Outcome State Fault Refusal :=
  if (wgOf s o).det && decide (2 ^ (wgOf s o).qlog ≤ (warpOf s o).qcount) then .next (endQuantum s o) else .next s

/-- COMMIT_BUFFER_FULL (R265). -/
def execCommitBufferFull (o : Who) (s : State) : Host.Outcome State Fault Refusal :=
  if (wgOf s o).det && decide (512 ≤ bufCount (warpOf s o)) then .next (endQuantum s o) else .next s

/-- INSTRUCTION_FETCH_FAULT (R52, R67 step 1): the stream's next word cannot be fetched. -/
def execInstructionFetchFault (o : Who) (s : State) : Host.Outcome State Fault Refusal :=
  let pc := (streamOf s o).pc
  match fetchWords s o pc 1 .fetch with
  | (s, .inr (.inl t)) => .next (endStep (takeTrap s o t 0 pc none) o)
  | (s, .inr (.inr w)) => .next (updStream s o fun st => { st with wait := w, held := none })
  | (_, .inl _) => .next s

end Sys2Proof.Machine
end

