-- ==== Sys2Proof/Machine/Peer.lean ====
section
/-! DEFINITION. The intake queue (R346, R397), bytes that arrive over a link (R401, R408), and what a flit brings (R287,
R403). -/

namespace Sys2Proof.Machine

/-- The intake window of a context accepts posts (R359, R409). -/
def intakeOpen (s : State) (ctx : Nat) : Bool := s.booted && (getCtx s ctx).ctl.getLsbD 0

/-- A write to the intake window at an offset of the context's page (R397): a record is taken, or event 4 is posted. -/
def intakeWrite (s : State) (ctx off : Nat) (bs : List Byte) : State :=
  let c := getCtx s ctx
  if bs.length = 64 ∧ off % 64 = 0 ∧ intakeOpen s ctx ∧ c.intake.length < Config.intakeEntries then
    updCtx s ctx fun c => { c with intake := c.intake ++ [bs], posts := c.posts + 1 }
  else postEvent s ctx 4 (BitVec.ofNat 64 off)

/-- The first sector that a write covers in part and whose stored check does not match (R408). -/
def mergeBad (s : State) (pa n : Nat) : Option Nat :=
  let first := if pa % 32 ≠ 0 ∨ n < 32 then badSector s pa 1 else none
  match first with
  | some b => some b
  | none => if (pa + n) % 32 ≠ 0 then badSector s (pa + n - 1) 1 else none

/-- How the write of an incoming message ends. -/
inductive Arrived where
  | ok
  /-- the page is absent and page-fault service may supply it (R236) -/
  | serve (va : Nat)
  | held (va : Nat)
  | fault (cause : BitVec 8) (va : Nat) (malf : Bool) (level : Nat)
  deriving DecidableEq, Repr

/-- Translate an address of a context for traffic of a core or of none (R226, R227): a core-private page faults but for its
OWNER (R234), and a page of the peer aperture while peer traffic is refused (R399). Where the walk meets a sector that fails its check the access takes cause 0x0E (R408; log entry 55). -/
def linkPhys (s : State) (core : Option Nat) (ctx va : Nat) (need : Need) : Arrived × Nat :=
  if va ≥ 2 ^ 56 ∨ inWindow va then (.fault 0x09 va false 0, 0)
  else if pgxHolds s ctx va then (.held va, 0)
  else if (walkBad s ctx va).isSome then (.fault 0x0E va false 0, 0)
  else
    match walk s ctx va with
    | .stop level malf pte _ => (if servable s level malf pte then .serve va else .fault 0x09 va malf level, 0)
    | .leaf level pte _ =>
      if !permitted need pte then (.fault 0x0A va false 0, 0)
      else if pteState pte = 2 ∧ core ≠ some (pteOwner pte) then (.fault 0x0B va false 0, 0)
      else
        let pa := pteAddr pte + va % 2 ^ pageBits level
        if peerRefused s pa then (.fault 0x09 va false 0, 0) else (.ok, pa)

/-- The state after a translation that ended so: the integrity service of a page-table sector that failed its check (R408). -/
def afterLink (s : State) (ctx va : Nat) (e : Arrived) : State :=
  match e, walkBad s ctx va with
  | .fault 0x0E _ _ _, some b => integrityService s ctx b
  | _, _ => s

/-- Bytes written at a virtual address, page by page, as part of a longer write; `n` pages are left. -/
def linkWrite (s : State) (ctx va : Nat) (bs : List Byte) : Nat → State × Arrived
  | 0 => (s, .ok)
  | n + 1 =>
    if bs.isEmpty then (s, .ok)
    else
      let k := 65536 - va % 65536
      let piece := bs.take k
      let r := linkPhys s none ctx va .write
      match r.1 with
      | .ok =>
        match mergeBad s r.2 piece.length with
        | some b => (integrityService s ctx b, .fault 0x0E (va / 32 * 32) false 0)
        | none => linkWrite (outerWrite s ctx r.2 piece) ctx (va + k) (bs.drop k) n
      | e => (afterLink s ctx va e, e)

/-- Bytes of device memory leave for another chip (R403), unless a sector of theirs fails its check (R408). -/
def answerPeer (s : State) (chip pa n : Nat) : State :=
  match badSector s pa n with
  | some b => integrityService s s.ctxselW b
  | none => { s with outbox := s.outbox ++ [(chip, .answer (devRead s pa n))] }

/-- Bytes from another chip go to device memory (R403), unless a sector that they fill in part fails its check (R408). -/
def writePeer (s : State) (pa : Nat) (bs : List Byte) : State :=
  match mergeBad s pa bs.length with
  | some b => integrityService s s.ctxselW b
  | none => outerDev s pa bs

/-- Another chip's atomic on n bytes of device memory (R260, R403): the old bytes go back to it. -/
def atomicPeer (s : State) (chip : Nat) (op : AtOp) (n pa : Nat) (b b1 : Word) : State :=
  match badSector s pa n with
  | some x => integrityService s s.ctxselW x
  | none =>
    let t := answerPeer s chip pa n
    match atomicNew op (8 * n) (natOfBytes (devRead s pa n)) b.toNat b1.toNat with
    | none => t
    | some v => outerDev t pa (bytesOfNat n v)

/-- What a flit brings is performed (R287, R403). -/
def deliver (s : State) (m : PeerMsg) : State × Arrived :=
  match m with
  | .row ctx a bs => linkWrite s ctx a bs (bs.length / 65536 + 2)
  | .arrival ctx a =>
    let r := linkPhys s none ctx a .both
    match r.1 with
    | .ok =>
      match badSector s r.2 8 with
      | some b => (integrityService s ctx b, .fault 0x0E (a / 32 * 32) false 0)
      | none =>
        let v := natOfBytes (physRead s ctx r.2 8)
        (outerWrite s ctx r.2 (bytesOfNat 8 (v + 1)), .ok)
    | e => (afterLink s ctx a e, e)
  | .record ctx bs => (intakeWrite s ctx 0 bs, .ok)
  | .read chip a n => (answerPeer s chip a.toNat n, .ok)
  | .write a bs => (writePeer s a.toNat bs, .ok)
  | .atomic chip op n a b b1 => (atomicPeer s chip op n a.toNat b b1, .ok)

/-- PEER_FLIT (R403): traffic is taken only while CHIP.VALID is set; what waits for a page stays with the link. -/
def execPeerFlit (m : PeerMsg) (s : State) : Host.Outcome State Fault Refusal :=
  if !s.chip.getLsbD 8 then .next s
  else
    let r := deliver s m
    match r.2, m with
    | .serve va, .row ctx _ _ => .next (pfStart s ctx va)
    | .serve va, .arrival ctx _ => .next (pfStart s ctx va)
    | .held _, _ => .next s
    | _, _ => .next r.1

end Sys2Proof.Machine
end

