-- ==== Sys2Proof/Machine/Sfu.lean ====
section
/-! DEFINITION. Special functions (R88, R89) and silu (R291), correctly rounded: an enclosure of the exact value at a
rising precision, until both its ends round alike. Fixed-point numbers have p fractional bits; an enclosure is a pair of
them. -/

namespace Sys2Proof.Machine

/-- An enclosure at a precision: the value times 2^p lies in [lo, hi]. -/
structure Enc where
  lo : Int
  hi : Int
  deriving DecidableEq, Repr

def cdiv (a b : Int) : Int := -((-a) / b)

def encMul (p : Nat) (a b : Enc) : Enc :=
  let c1 := a.lo * b.lo
  let c2 := a.lo * b.hi
  let c3 := a.hi * b.lo
  let c4 := a.hi * b.hi
  let mn := min (min c1 c2) (min c3 c4)
  let mx := max (max c1 c2) (max c3 c4)
  { lo := mn / 2 ^ p, hi := cdiv mx (2 ^ p) }

def encAdd (a b : Enc) : Enc := { lo := a.lo + b.lo, hi := a.hi + b.hi }
def encSub (a b : Enc) : Enc := { lo := a.lo - b.hi, hi := a.hi - b.lo }
def encDivNat (a : Enc) (n : Nat) : Enc := { lo := a.lo / n, hi := cdiv a.hi n }
def encScale (a : Enc) (n : Int) : Enc := { lo := a.lo * n, hi := a.hi * n }
/-- 1 / a for a positive enclosure. -/
def encInv (p : Nat) (a : Enc) : Enc :=
  let one : Int := 2 ^ (2 * p)
  { lo := one / a.hi, hi := cdiv one a.lo }
/-- a / b for a ≥ 0 and b positive. -/
def encDiv (p : Nat) (a b : Enc) : Enc :=
  { lo := (a.lo * 2 ^ p) / b.hi, hi := cdiv (a.hi * 2 ^ p) b.lo }

/-- m × 2^e at precision p. -/
def encOf (p : Nat) (m : Nat) (e : Int) : Enc :=
  let k := e + p
  if 0 ≤ k then { lo := m * 2 ^ k.toNat, hi := m * 2 ^ k.toNat }
  else { lo := (m : Int) / 2 ^ (-k).toNat, hi := cdiv m (2 ^ (-k).toNat) }

/-- Σ_{k<n} z^(2k+1)/(2k+1), signs alternating when `alt`: the sum so far, the power at hand, z². -/
def oddSeries (p : Nat) (alt : Bool) (z2 : Enc) : Nat → Nat → Enc → Enc → Enc
  | 0, _, _, acc => acc
  | n + 1, k, pw, acc =>
    let t := encDivNat pw (2 * k + 1)
    oddSeries p alt z2 n (k + 1) (encMul p pw z2) (if alt && k % 2 == 1 then encSub acc t else encAdd acc t)

/-- atanh z (or atan z) for 0 ≤ z ≤ 1/3; the tail after p terms is below one unit. -/
def encAtan (p : Nat) (hyper : Bool) (z : Enc) : Enc :=
  let s := oddSeries p (!hyper) (encMul p z z) (p / 2 + 4) 0 z { lo := 0, hi := 0 }
  { lo := s.lo - 2, hi := s.hi + 2 }

def encRat (p : Nat) (a b : Nat) : Enc :=
  { lo := ((a * 2 ^ p : Nat) : Int) / b, hi := cdiv ((a * 2 ^ p : Nat) : Int) b }

/-- ln 2 = 2 atanh(1/3). -/
def encLn2 (p : Nat) : Enc := encScale (encAtan p true (encRat p 1 3)) 2

/-- π = 16 atan(1/5) − 4 atan(1/239). -/
def encPi (p : Nat) : Enc :=
  encSub (encScale (encAtan p false (encRat p 1 5)) 16) (encScale (encAtan p false (encRat p 1 239)) 4)

/-- Σ y^k/k! from k up. -/
def expSeries (p : Nat) (y : Enc) : Nat → Nat → Enc → Enc → Enc
  | 0, _, t, acc => { lo := acc.lo + t.lo, hi := acc.hi + 2 * t.hi + 1 }
  | n + 1, k, t, acc => expSeries p y n (k + 1) (encDivNat (encMul p t y) (k + 1)) (encAdd acc t)

/-- e^y for 0 ≤ y < 1. -/
def encExp (p : Nat) (y : Enc) : Enc :=
  expSeries p y (p / 4 + 20) 0 { lo := 2 ^ p, hi := 2 ^ p } { lo := 0, hi := 0 }

/-- Alternating series t − t·y²/((k+1)(k+2)) + …, from the k-th power up. -/
def sinSeries (p : Nat) (y2 : Enc) : Nat → Nat → Bool → Enc → Enc → Enc
  | 0, _, _, t, acc => { lo := acc.lo - t.hi - 1, hi := acc.hi + t.hi + 1 }
  | n + 1, k, neg, t, acc =>
    sinSeries p y2 n (k + 2) (!neg) (encDivNat (encMul p t y2) ((k + 1) * (k + 2)))
      (if neg then encSub acc t else encAdd acc t)

/-- sin y and cos y for 0 ≤ y < 1. -/
def encSin (p : Nat) (y : Enc) : Enc := sinSeries p (encMul p y y) (p / 8 + 12) 1 false y { lo := 0, hi := 0 }
def encCos (p : Nat) (y : Enc) : Enc :=
  sinSeries p (encMul p y y) (p / 8 + 12) 0 false { lo := 2 ^ p, hi := 2 ^ p } { lo := 0, hi := 0 }

/-- e^(−y) for y ≥ 0. -/
def encExpNeg (p : Nat) (y : Enc) : Enc :=
  let l2 := encLn2 p
  let k := y.lo / l2.hi
  if k > 2 * p then { lo := 0, hi := 1 }
  else
    let r := encSub y (encScale l2 k)
    let v := encInv p (encExp p r)
    { lo := v.lo / 2 ^ k.toNat, hi := cdiv v.hi (2 ^ k.toNat) }

/-- An enclosed result: sign, the enclosure at precision p, and a power of two. -/
structure Enclosed where
  neg : Bool
  enc : Enc
  exp : Int
  deriving DecidableEq, Repr

/-- The functions that are not found by integer division or roots. -/
inductive SpecFn where
  | exp2 | log2 | sint | cost | tanh | sigm | silu
  deriving DecidableEq, Repr

def specNum : SpecFn → Nat
  | .exp2 => 0 | .log2 => 1 | .sint => 2 | .cost => 3 | .tanh => 4 | .sigm => 5 | .silu => 6

/-- The fraction f = x − ⌊x⌋ of (−1)^s m 2^e as n / 2^t. -/
def fracOf (s : Bool) (m : Nat) (e : Int) : Nat × Nat :=
  if 0 ≤ e then (0, 0)
  else
    let t := (-e).toNat
    let r := m % 2 ^ t
    (if s && r != 0 then 2 ^ t - r else r, t)

/-- |sin 2πf| or |cos 2πf| of f = n / 2^t in the quadrant's angle h ≤ 1/4, and the sign; f no quarter turn. -/
def encTurn (p : Nat) (cosine : Bool) (n t : Nat) : Enclosed :=
  let q := 4 * n / 2 ^ t
  let g := 4 * n % 2 ^ t                 -- 4(f − q/4) as g / 2^t
  let wantSin := (q % 2 == 0) != cosine  -- the quadrant's function of 2π(g/4)
  let neg := if cosine then q == 1 || q == 2 else decide (q ≥ 2)
  -- an angle above an eighth of a turn is taken from the other end of the quadrant
  let high := decide (2 * g > 2 ^ t)
  let h := if high then 2 ^ t - g else g
  let useSin := wantSin != high
  let y := encMul p (encPi p) (encRat p h (2 ^ (t + 1)))
  { neg := neg, enc := if useSin then encSin p y else encCos p y, exp := 0 }

/-- The enclosure of f(x) at precision p, for a finite nonzero x where f(x) is neither exact nor out of range. -/
def enclose (fn : SpecFn) (p : Nat) (s : Bool) (m : Nat) (e : Int) : Enclosed :=
  match fn with
  | .exp2 =>
    let (n, t) := fracOf s m e
    let fl : Int := if 0 ≤ e then (if s then -1 else 1) * (m * 2 ^ e.toNat : Nat)
      else (if s then -((m : Int) + (2 ^ t - 1)) / 2 ^ t else (m : Int) / 2 ^ t)
    let fl' : Int := if s && decide (e < 0) then -(((m + 2 ^ t - 1) / 2 ^ t : Nat) : Int) else fl
    { neg := false, enc := encExp p (encMul p (encLn2 p) (encRat p n (2 ^ t))), exp := fl' }
  | .log2 =>
    let k := Nat.log2 m
    let num := m - 2 ^ k
    let z := encRat p num (m + 2 ^ k)
    let frac := encDiv p (encScale (encAtan p true z) 2) (encLn2 p)
    let whole : Int := (k : Int) + e
    let v := encAdd { lo := whole * 2 ^ p, hi := whole * 2 ^ p } frac
    if whole < 0 then { neg := true, enc := { lo := -v.hi, hi := -v.lo }, exp := 0 }
    else { neg := false, enc := v, exp := 0 }
  | .sint => let (n, t) := fracOf s m e; encTurn p false n t
  | .cost => let (n, t) := fracOf s m e; encTurn p true n t
  | .tanh =>
    let ex := encExpNeg p (encOf p m (e + 1))
    let one : Enc := { lo := 2 ^ p, hi := 2 ^ p }
    { neg := s, enc := encDiv p (encSub one ex) (encAdd one ex), exp := 0 }
  | .sigm =>
    let ex := encExpNeg p (encOf p m e)
    let one : Enc := { lo := 2 ^ p, hi := 2 ^ p }
    { neg := false, enc := if s then encDiv p ex (encAdd one ex) else encInv p (encAdd one ex), exp := 0 }
  | .silu =>
    let ex := encExpNeg p (encOf p m e)
    let one : Enc := { lo := 2 ^ p, hi := 2 ^ p }
    let v := if s then encDiv p ex (encAdd one ex) else encInv p (encAdd one ex)
    { neg := s, enc := encScale v m, exp := e }

/-- The rounded value common to every exact value strictly between m × 2^e and (m + 1) × 2^e; none where the spacing
of the format there is no more than 2^e. -/
def roundOpen (f : Fmt) (neg : Bool) (m : Nat) (e : Int) : Option (Nat × Flags) :=
  let ex := expOf m e
  let lo : Int := 1 - f.bias
  if (if ex < lo then lo else ex) - f.man ≤ e then none else some (roundNe f false neg m e true)

/-- The rounded value of an enclosure at precision p, where both ends round alike. The exact value is no multiple of the
unit, so it lies strictly inside. -/
def decideEnc (f : Fmt) (p : Nat) (v : Enclosed) : Option (Nat × Flags) :=
  let top := roundOpen f v.neg (v.enc.hi - 1).toNat (v.exp - p)
  let bot := roundOpen f v.neg v.enc.lo.toNat (v.exp - p)
  if top = bot then top else none

/-- The precisions tried. -/
def precisions : List Nat := [96, 192, 400, 800, 1600, 3200]

def specTry (f : Fmt) (fn : SpecFn) (s : Bool) (m : Nat) (e : Int) : List Nat → Option (Nat × Flags)
  | [] => none
  | p :: ps =>
    match decideEnc f p (enclose fn p s m e) with
    | some r => some r
    | none => specTry f fn s m e ps

/-- f(x) of a finite nonzero x, neither exact nor out of range. -/
def specRound (f : Fmt) (fn : SpecFn) (s : Bool) (m : Nat) (e : Int) (x : Nat) : Nat × Flags :=
  (specTry f fn s m e precisions).getD
    ((Config.special (specNum fn) (BitVec.ofNat 32 x)).toNat % 2 ^ fmtWidth f, flNX)

/-! ### The functions of R88 -/

def onePattern (f : Fmt) : Nat := f.bias * 2 ^ f.man

def nanOf (f : Fmt) (signalling : Bool) : Nat × Flags := (canonNaN f, if signalling then flNV else flNone)

/-- RCP. -/
def fnRcp (f : Fmt) (x : Nat) : Nat × Flags :=
  match fpDecode f x with
  | .nan g => nanOf f g
  | .inf s => (zeroPattern f s, flNone)
  | .fin s m e =>
    if m = 0 then (signBit f s + infPattern f, flDZ)
    else let (q, ex, st) := divMag 1 0 m e; roundNe f false s q ex st

/-- SQRT. -/
def fnSqrt (f : Fmt) (x : Nat) : Nat × Flags :=
  match fpDecode f x with
  | .nan g => nanOf f g
  | .inf s => if s then (canonNaN f, flNV) else (infPattern f, flNone)
  | .fin s m e =>
    if m = 0 then (zeroPattern f s, flNone)
    else if s then (canonNaN f, flNV)
    else
      let odd := decide (e % 2 ≠ 0)
      let n := (if odd then 2 * m else m) * 2 ^ 128
      let g := (if odd then e - 1 else e) / 2 - 64
      let r := isqrt n
      roundNe f false false r g (decide (r * r ≠ n))

/-- RSQ. -/
def fnRsq (f : Fmt) (x : Nat) : Nat × Flags :=
  match fpDecode f x with
  | .nan g => nanOf f g
  | .inf s => if s then (canonNaN f, flNV) else (zeroPattern f false, flNone)
  | .fin s m e =>
    if m = 0 then (signBit f s + infPattern f, flDZ)
    else if s then (canonNaN f, flNV)
    else
      let odd := decide (e % 2 ≠ 0)
      let n := if odd then 2 * m else m
      let g := (if odd then e - 1 else e) / 2
      let k := 64 + Nat.log2 n
      let r := isqrt (2 ^ (2 * k) / n)
      roundNe f false false r (-g - k) (decide (r * r * n ≠ 2 ^ (2 * k)))

/-- EXP2. -/
def fnExp2 (f : Fmt) (x : Nat) : Nat × Flags :=
  match fpDecode f x with
  | .nan g => nanOf f g
  | .inf s => if s then (zeroPattern f false, flNone) else (infPattern f, flNone)
  | .fin s m e =>
    if m = 0 then (onePattern f, flNone)
    else if expOf m e ≥ 10 then
      if s then (zeroPattern f false, flUF ||| flNX) else (infPattern f, flOF ||| flNX)
    else
      let (n, t) := fracOf s m e
      if n = 0 then
        let i : Int := if 0 ≤ e then (m * 2 ^ e.toNat : Nat) else (m / 2 ^ t : Nat)
        roundNe f false false 1 (if s then -i else i) false
      else specRound f .exp2 s m e x

/-- LOG2. -/
def fnLog2 (f : Fmt) (x : Nat) : Nat × Flags :=
  match fpDecode f x with
  | .nan g => nanOf f g
  | .inf s => if s then (canonNaN f, flNV) else (infPattern f, flNone)
  | .fin s m e =>
    if m = 0 then (signBit f true + infPattern f, flDZ)
    else if s then (canonNaN f, flNV)
    else if m = 2 ^ Nat.log2 m then
      let i := expOf m e
      if i = 0 then (0, flNone) else roundNe f false (decide (i < 0)) i.natAbs 0 false
    else specRound f .log2 s m e x

/-- SINT and COST (R89): quarter turns are exact. -/
def fnTurn (f : Fmt) (cosine : Bool) (x : Nat) : Nat × Flags :=
  match fpDecode f x with
  | .nan g => nanOf f g
  | .inf _ => (canonNaN f, flNV)
  | .fin s m e =>
    if m = 0 then (if cosine then onePattern f else zeroPattern f s, flNone)
    else
      let (n, t) := fracOf s m e
      if 4 * n % 2 ^ t = 0 then
        let q := 4 * n / 2 ^ t
        let one := onePattern f
        (if cosine then (if q = 0 then one else if q = 2 then signBit f true + one else 0)
          else (if q = 1 then one else if q = 3 then signBit f true + one else 0), flNone)
      else specRound f (if cosine then .cost else .sint) s m e x

/-- TANH. -/
def fnTanh (f : Fmt) (x : Nat) : Nat × Flags :=
  match fpDecode f x with
  | .nan g => nanOf f g
  | .inf s => (signBit f s + onePattern f, flNone)
  | .fin s m e => if m = 0 then (zeroPattern f s, flNone) else specRound f .tanh s m e x

/-- SIGM. -/
def fnSigm (f : Fmt) (x : Nat) : Nat × Flags :=
  match fpDecode f x with
  | .nan g => nanOf f g
  | .inf s => if s then (zeroPattern f false, flNone) else (onePattern f, flNone)
  | .fin s m e => if m = 0 then (onePattern f - 2 ^ f.man, flNone) else specRound f .sigm s m e x

/-- silu of a value (R291): NaN gives canonical NaN, −∞ gives −0, +∞ gives +∞; a zero keeps its sign. -/
def fnSilu (f : Fmt) (x : Nat) : Nat × Flags :=
  match fpDecode f x with
  | .nan g => nanOf f g
  | .inf s => if s then (zeroPattern f true, flNone) else (infPattern f, flNone)
  | .fin s m e => if m = 0 then (zeroPattern f s, flNone) else specRound f .silu s m e x

end Sys2Proof.Machine
end

