-- ==== Sys2Proof/Machine/EngineRun.lean ====
section
/-! DEFINITION. The work of accepted copies and chains (R283–R287, R289–R293), unit by unit: a unit is an element, a pair of
C4 elements, or a row. -/

namespace Sys2Proof.Machine

/-! ### Copies (R283–R286) -/

/-- A descriptor that acceptance has checked. -/
def descAt (bs : List Byte) : Desc := (parseDesc bs false).getD
  { base := 0, space := 0, ty := .ui8, scaleb := 0, geom := 0, ndim := 1, bitmap := 0, len := 0, book := 0, span := 0,
    dims := [1, 1, 1, 1], strides := [1, 0, 0, 0], tiles := [1, 1, 1, 1], home := 0 }

/-- The values of a codebook (R76); none where the tensor is not c4. -/
def bookVals (e : EngEnv) (d : Desc) : EM (List FVal) := do
  let book ← codebookOf e d
  return book.map (fpDecode fmtBF16)

/-- The bits of +0 in a tensor's format. A c4 tensor has no code for it, and nothing but quantise converts to c4 (R81): its
element takes the code of the codebook's value nearest to 0, for which the codebook is read (DESIGN CHOICE, log entry 61). -/
def zeroBits (e : EngEnv) (d : Desc) : EM Nat := do
  let book ← bookVals e d
  return codeOf d.ty book (.fin false 0 0)

/-- copy_value of R284: the bits that a source element gives in the destination's format; outside the source, +0. -/
def copyBits (e : EngEnv) (sd dd : Desc) (satur : Bool) (c : Coord) : EM Nat := do
  if !inside sd c then zeroBits e dd
  else if sd.ty = dd.ty then elemBits e sd c
  else
    let v ← elemValue e sd c
    return (convertTo dd.ty satur v).1

/-- Elements of a unit of a copy: C4 destinations complete in pairs (R285). -/
def copyUnit (dd : Desc) : Nat := if dd.ty = .c4 then 2 else 1

/-- Write elements n, n + 1, … of tile (tx, ty), as parts of their tile rows. -/
def putTile (e : EngEnv) (d : Desc) (tx ty n : Nat) : List Nat → EM Unit
  | [] => return ()
  | v :: vs => do
    let c := tileCoord d tx ty n
    let x0 := tx * tileExt d 0
    let x1 := x0 + tileExt d 0 - 1
    putBits e d c v (rowRun d c x0 (if x1 < dimOf d 0 then x1 else dimOf d 0 - 1))
    putTile e d tx ty (n + 1) vs

/-- One unit of a CPY (R283). -/
def cpyUnit (op : EngOp) : EM EngOp := do
  let e := envOf op
  let sd := descAt op.src
  let dd := descAt op.dst
  let k := copyUnit dd
  let n := op.pos * k
  let vs ← (List.range k).mapM fun j =>
    copyBits e sd dd (op.a.getLsbD 16) (tileCoord sd (bits op.b 15 0) (bits op.b 31 16) (n + j))
  putTile e dd (bits op.b 47 32) (bits op.b 63 48) n vs
  return { op with pos := op.pos + 1 }

/-- Row number j of a gather (R286): the list element as a signed value, −1 outside the list. -/
def gatherIndex (e : EngEnv) (xd : Desc) (n : Nat) : EM (BitVec 32) := do
  if n < dimOf xd 0 then
    let x ← elemBits e xd { x := n, y := 0, z := 0, w := 0 }
    return BitVec.ofNat 32 x
  else return 0xFFFFFFFF

/-- One unit of a CPYG (R286); the row's index is read with its first element. A source of one dimension has DIM1 0 in its
descriptor and counts as one row: index 0 names it (DESIGN CHOICE, log entry 61). -/
def cpygUnit (op : EngOp) : EM EngOp := do
  let e := envOf op
  let sd := descAt op.src
  let dd := descAt op.dst
  let k := copyUnit dd
  let n := op.pos * k
  let t0 := tileExt dd 0
  let i ← (if n % t0 = 0 then gatherIndex e (descAt op.idx) (bits op.b 15 0 + n / t0) else return tgetD 0 op.amaxs 0)
  let op := { op with amaxs := tput op.amaxs 0 i }
  if !i.msb && decide (dimOf sd 1 ≤ i.toNat) then throw (.fault 0x1A 0 false 0)
  let vs ← (List.range k).mapM fun j =>
    if i.msb then zeroBits e dd
    else copyBits e sd dd (op.a.getLsbD 16) { x := bits op.b 31 16 * tileExt sd 0 + (n + j) % t0, y := i.toNat, z := 0, w := 0 }
  putTile e dd (bits op.b 47 32) (bits op.b 63 48) n vs
  return { op with pos := op.pos + 1 }

/-! ### Forwards (R287) -/

/-- The bytes of tile row n of a forward's source, without conversion. -/
def rowBytes (e : EngEnv) (d : Desc) (tx ty n : Nat) : EM (List Byte) := do
  let t0 := tileExt d 0
  let xs ← (List.range t0).mapM fun k => do
    let c := tileCoord d tx ty (n * t0 + k)
    if inside d c then elemBits e d c else zeroBits e d
  let w := elWidth d.ty
  return bytesOfNat (t0 * w / 8) (xs.foldr (fun x v => x + 2 ^ w * v) 0)

/-- A message for a context leaves for a chip (R399, R403): to this module itself it is performed here, where that context's
pages may be served (R236). -/
def sendPeer (chip ctx : Nat) (m : PeerMsg) (at_ : Nat) : EM Unit := do
  let s ← get
  if !s.chip.getLsbD 8 then throw (.fault Config.peerRefusal at_ false 0)
  if chip = bits s.chip 7 0 then
    let r := deliver s m
    set r.1
    match r.2 with
    | .ok => return ()
    | .serve va => throw (.serve ctx va)
    | .held va => throw (.held va)
    | .fault c va malf level => throw (.fault c va malf level)
  else set { s with outbox := s.outbox ++ [(chip, OutMsg.peer m)] }

/-- Rows of a forward's source tile. -/
def fwdRows (d : Desc) : Nat := tileExt d 1 * tileExt d 2 * tileExt d 3

/-- One unit of a CPYX (R287): a row, then the remote arrival, then the record. -/
def cpyxUnit (op : EngOp) : EM EngOp := do
  let d := descAt op.src
  let f := op.aux
  let chip := field f 0 0
  let ctx := field f 1 1
  let rows := fwdRows d
  if op.pos < rows then
    let bs ← rowBytes (envOf op) d (field f 4 5) (field f 6 7) op.pos
    let a := field f 8 15 + op.pos * field f 16 19
    sendPeer chip ctx (.row ctx a bs) a
  else if op.pos = rows && (field f 2 2).testBit 0 then
    sendPeer chip ctx (.arrival ctx (field f 24 31)) (field f 24 31)
  else sendPeer chip ctx (.record ctx op.record) 0
  return { op with pos := op.pos + 1 }

/-! ### Chains (R289–R293) -/

/-- A step's type. -/
def stepTy (t : ChainStep) : ElTy := (elTyOf t.ty).getD .f32

/-- Constant K in a type: the low bits of its entry (R290). -/
def constVal (op : EngOp) (ty : ElTy) (k : Nat) : FVal :=
  let w := tgetD 0 op.consts k
  elValue ty codebook0 (w.toNat % 2 ^ elWidth ty)

/-- The result of an arithmetic step in its format (R291). -/
def floatStep (f : Fmt) (op : Nat) (a b k : Nat) (n : Int) : Nat :=
  match op with
  | 0 => (fpAdd f a b).1
  | 1 => (fpMul f a b).1
  | 2 => (fpFma f k a b).1
  | 3 => (fpMinMax f false a b).1
  | 4 => (fpMinMax f true a b).1
  | 5 => (convertFp f false (scaleVal (fpDecode f a) n)).1
  | 6 => (fpMinMax f true a (zeroPattern f false)).1
  | 7 => (fnSilu f a).1
  | 8 => (fnExp2 f a).1
  | _ => a

/-- The same in i32, wrapping (R142, R291). -/
def intStep (op : Nat) (a b : Nat) : Nat :=
  match op with
  | 0 => (a + b) % 2 ^ 32
  | 1 => a * b % 2 ^ 32
  | 3 => if signedOf 32 a ≤ signedOf 32 b then a else b
  | 4 => if signedOf 32 b ≤ signedOf 32 a then a else b
  | _ => a

/-- The exact values that a step selects (R290); `rs` holds the results so far, as (type, bits). -/
def selVal (op : EngOp) (ty : ElTy) (ins : FVal × FVal) (rs : List (ElTy × Nat)) (k sel : Nat) : FVal :=
  let res := fun (i : Nat) => match rs[i]? with
    | some r => elValue r.1 codebook0 r.2
    | none => .fin false 0 0
  if sel = 0 then ins.1
  else if sel = 1 then ins.2
  else if sel = 2 then constVal op ty k
  else if sel = 3 then res (rs.length - 1)
  else res (sel - 8)

/-- The bits that a step other than quantise gives in its type. -/
def stepBits (op : EngOp) (t : ChainStep) (ins : FVal × FVal) (rs : List (ElTy × Nat)) : Nat :=
  let ty := stepTy t
  let src := fun sel => selVal op ty ins rs t.k sel
  let conv := fun sel => (convertTo ty false (src sel)).1
  if t.op = 9 then (convertTo ty (t.k % 2 == 1) (src t.sel1)).1
  else
    let a := conv t.sel1
    let b := if t.op < 5 then conv t.sel2 else 0
    match elFmt ty with
    | some f =>
      let n := sat (signedOf 32 (tgetD 0 op.consts t.k).toNat) (-400) 400
      floatStep f t.op a b ((tgetD 0 op.consts t.k).toNat % 2 ^ fmtWidth f) n
    | none => intStep t.op a b

/-- The amax of R293: the larger magnitude bits, a NaN above every number. -/
def amaxOf (old : BitVec 32) (x : Nat) : BitVec 32 :=
  let m : Nat := if isNaN (fpDecode fmtF32 x) then 0x7FC00000 else x % 2 ^ 31
  if old.toNat < m then BitVec.ofNat 32 m else old

/-- Apply the chunk of a sum that is complete, or at the end (R86, R293). -/
def sumChunk (op : EngOp) (i : Nat) (last : Bool) : EngOp :=
  let part := tgetD [] op.parts i
  if part.length = 32 ∨ (last ∧ !part.isEmpty) then
    let acc := chunkOf (tgetD 0 op.sums i).toNat (part.map fun v => (v, .fin false 1 0))
    { op with sums := tput op.sums i (BitVec.ofNat 32 acc), parts := tdel op.parts i }
  else op

/-- An element passes through an amax or sum step. -/
def recordStep (op : EngOp) (i : Nat) (t : ChainStep) (x : Nat) : EngOp :=
  if t.op = 11 then { op with amaxs := tput op.amaxs i (amaxOf (tgetD 0 op.amaxs i) x) }
  else if t.op = 12 then
    sumChunk { op with parts := tput op.parts i (tgetD [] op.parts i ++ [fpDecode fmtF32 x]) } i false
  else op

/-- The steps of one element: the operation with its amax and sum steps advanced, the results so far, and the exact
source of a quantise step. -/
def runSteps (op : EngOp) (ins : FVal × FVal) :
    List ChainStep → Nat → List (ElTy × Nat) → EngOp × List (ElTy × Nat) × FVal
  | [], _, rs => (op, rs, .fin false 0 0)
  | t :: ts, i, rs =>
    if t.op = 10 then (op, rs, selVal op (stepTy t) ins rs t.k t.sel1)
    else
      let x := stepBits op t ins rs
      runSteps (recordStep op i t x) ins ts (i + 1) (rs ++ [(stepTy t, x)])

/-- The last step quantises (R292). -/
def quantises (op : EngOp) : Bool := ((stepsOf op.aux).getLast?.map ChainStep.op) == some 10

def chainCount (op : EngOp) : Nat := field op.aux 8 15

/-- The amax and sum steps, performed in step order at the end (R293); an amax over no element performs nothing. -/
def finals (op : EngOp) : List (Nat × ChainStep) :=
  ((stepsOf op.aux).zipIdx.map fun x => (x.2, x.1)).filter fun x =>
    (x.2.op == 11 && chainCount op != 0) || x.2.op == 12

/-- The row of OUT that the flume has read whole (R292). -/
def rowFull (op : EngOp) : Bool :=
  let d0 := dimOf (descAt op.dst) 0
  quantises op && !op.row.isEmpty && (op.pos % d0 == 0 || op.pos == chainCount op)

/-- Write a list of values at consecutive elements from number n, of `count` that the command writes. -/
def putLin (e : EngEnv) (d : Desc) (count n : Nat) : List Nat → EM Unit
  | [] => return ()
  | v :: vs => do
    let c := linCoord d n
    let rest := count - 1 - (n - c.x)
    putBits e d c v (rowRun d c 0 (if rest < dimOf d 0 then rest else dimOf d 0 - 1))
    putLin e d count (n + 1) vs

/-- Write bits at consecutive bit numbers of a bitmap, of a run [lo, hi) of bits. -/
def putMap (e : EngEnv) (d : Desc) (lo hi n : Nat) : List Bool → EM Unit
  | [] => return ()
  | b :: bs => do
    let bit := 2 ^ (n % 8)
    let with_ := fun (o : Nat) => (if o.testBit (n % 8) then o - bit else o) + (if b then bit else 0)
    engPut e d.space (d.bitmap + n / 8) 1 (fun old => bytesOfNat 1 (with_ (natOfBytes old)))
      (d.bitmap + (lo + 7) / 8) (d.bitmap + hi / 8)
    putMap e d lo hi (n + 1) bs

/-- Write scale bytes from block number n, of a run [lo, hi) of blocks. -/
def putScales (e : EngEnv) (d : Desc) (lo hi n : Nat) : List Nat → EM Unit
  | [] => return ()
  | c :: cs => do
    engWrite e d.space (d.scaleb + n) (bytesOfNat 1 c) (d.scaleb + lo) (d.scaleb + hi)
    putScales e d lo hi (n + 1) cs

/-- Quantise and write the row that has been read: codes, bitmap bits, scale bytes (R292). Under GEOM 0 an element is done with
its code, so that a unit is one of these (R285). -/
def flushRow (op : EngOp) : EM EngOp := do
  let e := envOf op
  let d := descAt op.dst
  let book ← bookVals e d
  let n := op.pos - op.row.length
  let count := chainCount op
  if d.geom = 0 then do
    putLin e d count n ((op.row.take 1).map (codeOf d.ty book))
    return { op with row := op.row.drop 1 }
  else do
    let q := quantRow d book op.row
    let blocks := op.blocks + q.2.2.length
    putLin e d count n q.1
    if d.geom = 2 then putMap e d n op.pos n q.2.1
    putScales e d op.blocks blocks op.blocks q.2.2
    return { op with row := [], blocks := blocks }

/-- One element of a chain (R294): read, stepped, and written, or kept for its row. The element of IN0 is read also where no
step selects it, so that its read may fault (DESIGN CHOICE, log entry 61). -/
def chainElem (op : EngOp) : EM EngOp := do
  let e := envOf op
  let d0 := descAt op.src
  let in0 ← elemValue e d0 (linCoord d0 op.pos)
  let in1 ← (if op.idx.isEmpty then return .fin false 0 0
    else elemValue e (descAt op.idx) (linCoord (descAt op.idx) op.pos))
  let r := runSteps op (in0, in1) (stepsOf op.aux) 0 []
  let next := { r.1 with pos := op.pos + 1 }
  if quantises op then return { next with row := op.row ++ [r.2.2] }
  let od := descAt op.dst
  let v := match r.2.1.getLast? with
    | some x => elValue x.1 codebook0 x.2
    | none => .fin false 0 0
  putLin e od (chainCount op) op.pos [(convertTo od.ty false v).1]
  return next

/-- The k-th amax or sum step is performed (R293). -/
def chainFinal (op : EngOp) (k : Nat) : EM EngOp := do
  match (finals op)[k]? with
  | none => return { op with pos := op.pos + 1 }
  | some (i, t) => do
    let a := (tgetD 0 op.consts t.k).toNat
    let e := envOf op
    if t.op = 11 then engUpdate e .both a fun old => max old (tgetD 0 op.amaxs i).toNat
    else engUpdate e .write a fun _ => (tgetD 0 (sumChunk op i true).sums i).toNat
    return { op with pos := op.pos + 1 }

/-- One unit of a chain. -/
def chainUnit (op : EngOp) : EM EngOp :=
  if rowFull op then flushRow op
  else if op.pos < chainCount op then chainElem op
  else chainFinal op (op.pos - chainCount op)

/-! ### Collectives (R404–R406) -/

/-- The digest of R406. -/
def collDigest (op : EngOp) : BitVec 32 :=
  let c := op.aux
  crc32 ((c.take 2) ++ (c.drop 4).take 2 ++ (c.drop 8).take 8 ++ (op.src.drop 7).take 1 ++ op.record)

def collTag (op : EngOp) : BitVec 32 := op.b.setWidth 32
def collMembers (op : EngOp) : List (Nat × Nat) := membersOf op.record
def collRank (op : EngOp) : Nat := field op.aux 6 7

/-- Elements of SRC that the command reads and of DST that it writes. -/
def collElems (op : EngOp) : Nat × Nat :=
  collCounts (field op.aux 0 0) (collRank op) (collMembers op).length (field op.aux 8 15) (collMembers op)

/-- Read SRC whole and send it to every other member (R406), which is refused until CHIP.VALID is set (R399). -/
def collSend (op : EngOp) : EM EngOp := do
  let s ← get
  let ms := collMembers op
  if ms.any fun m => s.left.contains m.1 then throw (.fault 0x09 0 false 0)
  if decide (1 < ms.length) && !s.chip.getLsbD 8 then throw (.fault Config.peerRefusal 0 false 0)
  let d := descAt op.src
  let vs ← (List.range (collElems op).1).mapM fun n => elemValue (envOf op) d (linCoord d n)
  let others := (ms.zipIdx.filter fun m => m.2 != collRank op).map fun m =>
    (m.1.1, OutMsg.coll (collTag op) (collDigest op) (collRank op) vs)
  modify fun s => { s with outbox := s.outbox ++ others }
  return { op with pos := 1, got := tput op.got (collRank op) vs }

/-- x_r(n), in a list of the members' values. -/
def collVal (op : EngOp) (r n : Nat) : FVal := (tgetD [] op.got r).getD n (.fin false 0 0)

/-- A list in chunks of 32. -/
def chunks32 (xs : List FVal) : Nat → List (List FVal)
  | 0 => []
  | n + 1 => if xs.isEmpty then [] else xs.take 32 :: chunks32 (xs.drop 32) n

/-- The integer that an exact value of an integer format is. -/
def intOf (v : FVal) : Int := (convertInt (-(2 ^ 31)) (2 ^ 32 - 1) v).1

/-- An unsigned integer type. -/
def isUnsignedTy (t : ElTy) : Bool := t == .ui32 || t == .ui8

/-- reduce(n) of R405, as an exact value. The 32 bits of an i32 sum are a signed number where SRC and DST both are or are
floats, else the number itself (log entry 34). -/
def collReduce (op : EngOp) (n : Nat) : FVal :=
  let ranks := List.range (collMembers op).length
  let xs := ranks.map fun r => collVal op r n
  match field op.aux 1 1 with
  | 0 =>
    elValue .f32 [] ((chunks32 xs xs.length).foldl (fun acc c => chunkOf acc (c.map fun v => (v, .fin false 1 0))) 0)
  | 1 =>
    let sum := patternOf 32 (xs.foldl (fun t x => t + intOf x) 0)
    if isUnsignedTy (descAt op.src).ty || isUnsignedTy (descAt op.dst).ty then valOfInt sum else valOfInt (signedOf 32 sum)
  | _ =>
    let low := signBit fmtF32 true + infPattern fmtF32
    elValue .f32 [] (xs.foldl (fun acc x => (fpMinMax fmtF32 true acc (convertTo .f32 false x).1).1) low)

/-- The rank that owns element n in shares, with its offset in the share. -/
def ownerOf (count : Nat) (ms : List (Nat × Nat)) (n : Nat) : Nat × Nat :=
  let r := ((List.range ms.length).find? fun r => decide (n < startOf count ms (r + 1))).getD 0
  (r, n - startOf count ms r)

/-- DST(i) of R405. -/
def collResult (op : EngOp) (i : Nat) : FVal :=
  let ms := collMembers op
  let count := field op.aux 8 15
  match field op.aux 0 0 with
  | 0 => collReduce op i
  | 1 => collReduce op (startOf count ms (collRank op) + i)
  | 2 => collVal op (ownerOf count ms i).1 (ownerOf count ms i).2
  | _ => collVal op (i / count) (collRank op * count + i % count)

/-- Every contribution has arrived. -/
def collReady (op : EngOp) : Bool := (List.range (collMembers op).length).all fun r => (tget? op.got r).isSome

/-- One unit of a COLL: the sending, then one element of DST. -/
def collUnit (op : EngOp) : EM EngOp := do
  if op.pos = 0 then collSend op
  else
    let d := descAt op.dst
    putLin (envOf op) d (collElems op).2 (op.pos - 1) [(convertTo d.ty false (collResult op (op.pos - 1))).1]
    return { op with pos := op.pos + 1 }

end Sys2Proof.Machine
end

