-- ==== Sys2Proof/Machine/MatrixRun.lean ====
section
/-! DEFINITION. The work of matrix commands (R318, R320–R322), the running of accepted commands in their order (R214, R274,
R306), their completion, their arrivals and records (R211, R256, R282, R313), and the events of the engines. -/

namespace Sys2Proof.Machine

/-! ### Weights, accumulator rows and gradient rows -/

/-- A row of weights of a bank, +0 until a load (R300, log entry 1). -/
def weightRow (c : Core) (b k : Nat) : List FVal := tgetD (List.replicate 128 (.fin false 0 0)) c.weights (128 * b + k)

/-- A row of FP32 values, +0 where nothing was written (R300). -/
def zeroRow : List (BitVec 32) := List.replicate 128 0

/-- The accumulator rows that a command works on (R302, R306). -/
def accOf (c : Core) (id : Nat) : Table (List (BitVec 32)) :=
  match c.accOld.find? fun e => decide (id < e.1) with
  | some e => e.2
  | none => c.acc

def setAccOf (c : Core) (id : Nat) (t : Table (List (BitVec 32))) : Core :=
  match c.accOld.find? fun e => decide (id < e.1) with
  | some e => { c with accOld := c.accOld.map fun x => if x.1 == e.1 then (x.1, t) else x }
  | none => { c with acc := t }

/-! ### Units of work -/

/-- A bank's source has a byte at a virtual address, as a load of a number reads it (R231). -/
def addSource (c : Core) (b id : Nat) (at_ : Option Nat) : Core :=
  let k := getBank c b
  match at_ with
  | none => c
  | some a =>
    if k.load ≠ id ∨ k.src.contains (a, a + 1) then c else setBank c b { k with src := k.src ++ [(a, a + 1)] }

/-- One element of an MLOAD (R318), in tile order. -/
def mloadUnit (op : EngOp) : EM EngOp := do
  let d := descAt op.src
  let n := op.pos % 128
  let k := op.pos / 128
  let v ← elemScaled (envOf op) d { x := bits op.b 31 16 * 128 + n, y := bits op.b 47 32 * 128 + k, z := 0, w := 0 }
  let scale := if d.geom = 2 ∧ (d.space = 0 ∨ d.space = 3) then v.2 else none
  modify fun s => updCore s op.who.core fun c =>
    addSource { c with weights := tput c.weights (128 * op.imm + k) ((weightRow c op.imm k).set n v.1) } op.imm op.id scale
  return { op with pos := op.pos + 1 }

/-- Element k of a row of A with its scale (R314, R315). -/
def aValue (op : EngOp) (r : MatRow) (k : Nat) : FVal :=
  let t := aType (op.imm / 4 % 4)
  let v := elValue t [] (rowElem t r k)
  if op.scales.isEmpty then v else scaleOf (op.scales.getD (128 * r.row + k) 127) v

/-- The four chunks of one output of an MMA (R86, R301, R320), of INT8 rows or others. -/
def mmaElem (int8 : Bool) (a : List FVal) (w : List (List FVal)) (n : Nat) (x : BitVec 32) : BitVec 32 :=
  (List.range 4).foldl (fun x c =>
    BitVec.ofNat 32 (chunkBy (if int8 then intProduct else mulVal) x.toNat ((List.range 32).map fun j =>
      (a.getD (32 * c + j) (.fin false 0 0), (w.getD (32 * c + j) []).getD n (.fin false 0 0))))) x

/-- Accumulator rows that an MMA of a workgroup has written (R302); not those of a command that works on the rows as they were
before a grant cleared them. -/
def noteRows (s : State) (o : Who) (id : Nat) (rows : List Nat) : State :=
  if (getCore s o.core).accOld.any fun e => decide (id < e.1) then s
  else updWgOf s o fun g => { g with accRows := (g.accRows ++ rows).eraseDups }

/-- One row of an MMA (R320); the first unit zeroes the rows under ZERO. -/
def mmaUnit (op : EngOp) : EM EngOp := do
  let arow := bits op.b 7 0
  if op.pos = 0 && op.imm.testBit 1 then
    modify fun s => noteRows (updCore s op.who.core fun c =>
      setAccOf c op.id ((accOf c op.id).filter fun e => !(decide (arow ≤ e.1) && decide (e.1 < arow + op.count))))
      op.who op.id ((List.range op.count).map fun r => arow + r)
  match op.rows.find? fun r => r.row == op.pos with
  | none => return { op with pos := op.pos + 1 }
  | some r =>
    match r.bank with
    | none => return { op with pos := op.pos + 1 }
    | some b => do
      if r.failed then
        if op.imm.testBit 0 then return { op with pos := op.pos + 1 }
        throw (.fault 0x17 0 false 0)
      modify fun s => noteRows s op.who op.id [arow + op.pos]
      modify fun s => updCore s op.who.core fun c =>
        let a := (List.range 128).map (aValue op r)
        let w := (List.range 128).map (weightRow c b)
        let t := accOf c op.id
        let old := tgetD zeroRow t (arow + op.pos)
        setAccOf c op.id (tput t (arow + op.pos) (old.zipIdx.map fun x => mmaElem (op.imm / 4 % 4 == 3) a w x.2 x.1))
      return { op with pos := op.pos + 1 }

/-- One chunk of 32 rows of an MGRAD (R321); the first unit clears the tiles under ZERO. A zero product of an INT8 row element and a
float element of G has the exclusive or of their signs, an INT8 zero counting as +0 [DESIGN CHOICE, log entry 61: R86 and R301 do
not say]. -/
def mgradUnit (op : EngOp) : EM EngOp := do
  let banks := banksOf op.rows
  let d := descAt op.src
  if op.pos = 0 && op.imm.testBit 1 then
    modify fun s => updCore s op.who.core fun c => { c with grad := c.grad.filter fun e => !banks.contains (e.1 / 128) }
  let rows := op.rows.filter fun r => r.row / 32 == op.pos && r.bank.isSome
  let gs ← rows.mapM fun r => do
    let g ← (List.range 128).mapM fun n =>
      elemValue (envOf op) d { x := n, y := bits op.b 47 32 * op.count + r.row, z := 0, w := 0 }
    return (r, (List.range 128).map (aValue op r), g)
  modify fun s => updCore s op.who.core fun c =>
    { c with grad := banks.foldl (fun t b =>
        let mine := gs.filter fun x => x.1.bank == some b
        if mine.isEmpty then t
        else (List.range 128).foldl (fun t k =>
          let old := tgetD zeroRow t (128 * b + k)
          tput t (128 * b + k) (old.zipIdx.map fun x =>
            BitVec.ofNat 32 (chunkOf x.1.toNat (mine.map fun y =>
              (y.2.1.getD k (.fin false 0 0), y.2.2.getD x.2 (.fin false 0 0)))))) t) c.grad }
  return { op with pos := op.pos + 1 }

/-- Elements of an MSTORE. -/
def storeElems (op : EngOp) : Nat := 128 * tileExt (descAt op.dst) 1

/-- One element of an MSTORE, and at the end its amax atomic (R322). -/
def mstoreUnit (op : EngOp) : EM EngOp := do
  let d := descAt op.dst
  let n := op.pos % 128
  let j := op.pos / 128
  if op.pos < storeElems op then do
    let c := getCore (← get) op.who.core
    let row := if op.imm.testBit 0 then tgetD zeroRow c.grad (128 * (op.imm / 8 % 4) + j)
               else tgetD zeroRow (accOf c op.id) (bits op.a 15 8 + j)
    let x := (row.getD n 0).toNat
    let at_ : Coord := { x := bits op.a 31 16 * 128 + n, y := bits op.a 47 32 * tileExt d 1 + j, z := 0, w := 0 }
    let x0 := bits op.a 31 16 * 128
    let run := rowRun d at_ x0 (if x0 + 127 < dimOf d 0 then x0 + 127 else dimOf d 0 - 1)
    putBits (envOf op) d at_ (convertTo d.ty (op.imm.testBit 5) (elValue .f32 [] x)).1 run
    return { op with pos := op.pos + 1, amaxs := tput op.amaxs 0 (amaxOf (tgetD 0 op.amaxs 0) x) }
  else do
    engUpdate (envOf op) .both op.b.toNat fun old => max old (tgetD 0 op.amaxs 0).toNat
    return { op with pos := op.pos + 1 }

/-! ### Running -/

/-- One unit of a command. -/
def opUnit (op : EngOp) : EM EngOp :=
  match op.kind with
  | .cpy => cpyUnit op
  | .cpyg => cpygUnit op
  | .cpyx => cpyxUnit op
  | .chain => chainUnit op
  | .coll => collUnit op
  | .mload => mloadUnit op
  | .mma => mmaUnit op
  | .mgrad => mgradUnit op
  | .mstore => mstoreUnit op

/-- Units of a command, rows of a quantising chain aside. -/
def opTotal (op : EngOp) : Nat :=
  let dd := descAt op.dst
  match op.kind with
  | .cpy => tileCount dd / copyUnit dd
  | .cpyg => tileExt dd 0 * tileExt dd 1 / copyUnit dd
  | .cpyx => fwdRows (descAt op.src) + (field op.aux 2 2) % 2 + (field op.aux 2 2) / 2
  | .chain => chainCount op + (finals op).length
  | .coll => 1 + (collElems op).2
  | .mload => 16384
  | .mma => op.count
  | .mgrad => op.count / 32
  | .mstore => storeElems op + (if op.imm.testBit 1 then 1 else 0)

/-- The command has stopped: finished, faulted or cancelled. -/
def opDone (op : EngOp) : Bool := op.fault.isSome || op.cancelled || (decide (opTotal op ≤ op.pos) && op.row.isEmpty)

/-- The completed prefix in the command's unit (R285, R313, R353). -/
def opPrefix (op : EngOp) : Nat :=
  let dd := descAt op.dst
  match op.kind with
  | .cpy => op.pos * copyUnit dd * elWidth dd.ty / 8
  | .cpyg => op.pos * copyUnit dd * elWidth dd.ty / 8
  | .cpyx =>
    let d := descAt op.src
    min op.pos (fwdRows d) * (tileExt d 0 * elWidth d.ty / 8)
  | .chain => min op.pos (chainCount op) - op.row.length
  | .coll => 0
  | .mload => op.pos
  | .mma => op.pos
  | .mgrad => 32 * op.pos
  | .mstore => min op.pos (storeElems op) * elWidth dd.ty / 8

/-- A bin-floor read behind the write of an earlier accepted command (R214). -/
def floorBlocked (c : Core) (op : EngOp) : Bool :=
  (c.sb.filter fun e => e.op == op.id && e.floor && !e.write).any fun e =>
    c.sb.any fun f => f.floor && f.write && decide (f.op < op.id) && decide (f.lo < e.hi) && decide (e.lo < f.hi)

/-- What holds an accepted command back: an earlier matrix command (R306), the bin floor (R214), page-fault service
(R236), or contributions that have not arrived (R406). -/
def opBlocked (s : State) (op : EngOp) : Bool :=
  let c := getCore s op.who.core
  (isMatrix op.kind && (c.ops.find? fun p => isMatrix p.kind).map EngOp.id != some op.id)
    || floorBlocked c op
    || (match op.paused with
        | some va => s.pf.any fun p => p.ctx == op.pageCtx && p.va == va.toNat / 65536 * 65536
        | none => false)
    || (op.kind == .coll && op.pos != 0 && !collReady op)

/-- Run at most n units; a fault stops the command, a page in service pauses it. -/
def runUnits (s : State) (op : EngOp) : Nat → State × EngOp
  | 0 => (s, op)
  | n + 1 =>
    if opDone op || opBlocked s op then (s, op)
    else
      let r := (opUnit op).run s
      match r.1 with
      | .ok op => runUnits r.2 op n
      | .error (.fault c a malf level) =>
        (r.2, { op with fault := some { cause := c, addr := BitVec.ofNat 64 a, done := opPrefix op, malf := malf,
                                        level := level } })
      | .error (.serve ctx va) =>
        if inRefused op.refused va && op.pageCtx == ctx then
          (r.2, { op with fault := some { cause := 0x09, addr := BitVec.ofNat 64 va, done := opPrefix op, malf := false,
                                          level := 4 } })
        else (pfStart r.2 ctx va, { op with paused := some (BitVec.ofNat 64 va), pageCtx := ctx })
      | .error (.held _) => (r.2, op)

/-- A gather reads nothing more of its source: no row with a list element is left, or the last one is under way with a negative
index, or past the source's columns (R286). -/
def gatherRead (op : EngOp) (done : Nat) : Bool :=
  let sd := descAt op.src
  let dd := descAt op.dst
  let t0 := tileExt dd 0
  let listed := min (tileExt dd 1) (dimOf (descAt op.idx) 0 - bits op.b 15 0)
  decide (listed ≤ done / t0) ||
    (decide (listed = done / t0 + 1) && done % t0 != 0 &&
      ((tgetD 0 op.amaxs 0).msb || decide (dimOf sd 0 ≤ bits op.b 31 16 * tileExt sd 0 + done % t0)))

/-- The command has finished with the region of an entry (R211): it has stopped, or its last read or write there is done, what
is left of its work lying outside the tensor. -/
def partDone (op : EngOp) (e : SbEntry) : Bool :=
  let sd := descAt op.src
  let dd := descAt op.dst
  let done := op.pos * copyUnit dd
  let put := decide (tileReach dd (bits op.b 47 32) (bits op.b 63 48) ≤ done)
  opDone op || match op.kind with
    | .cpy => if e.write then put else decide (tileReach sd (bits op.b 15 0) (bits op.b 31 16) ≤ done)
    | .cpyg =>
      if e.write then put
      else if e.list then
        decide (min (tileExt dd 1) (dimOf (descAt op.idx) 0 - bits op.b 15 0) * tileExt dd 0 < done + tileExt dd 0)
      else gatherRead op done
    | .cpyx => decide (tileReach sd (field op.aux 4 5) (field op.aux 6 7) ≤ op.pos * tileExt sd 0)
    | .coll => op.pos != 0 && (!e.write || decide (min (collElems op).2 (elemCount dd) < op.pos))
    | .chain => decide (chainCount op ≤ op.pos) && (!e.write || op.row.isEmpty)
    | .mstore => decide (tileReach dd (bits op.a 31 16) (bits op.a 47 32) ≤ op.pos)
    | .mload => decide (tileReach sd (bits op.b 31 16) (bits op.b 47 32) ≤ op.pos)
    | .mgrad => !op.rows.any fun r =>
        decide (32 * op.pos ≤ r.row) && r.bank.isSome && decide (bits op.b 47 32 * op.count + r.row < dimOf sd 1)
    | .mma => false

/-- The command as it stands now; the entries of regions that it has finished with are released (R211). -/
def putOp (s : State) (op : EngOp) : State :=
  updCore s op.who.core fun c =>
    { c with ops := c.ops.map fun p => if p.id == op.id then op else p,
             sb := c.sb.filter fun e => !(e.op == op.id && partDone op e) }

def getOp? (s : State) (core id : Nat) : Option EngOp := (getCore s core).ops.find? fun p => p.id == id

/-- The n-th accepted command of a core goes on for some units. -/
def progressOp (s : State) (core n units : Nat) : State :=
  match (getCore s core).ops[n]? with
  | none => s
  | some op =>
    let r := runUnits s { op with paused := if opBlocked s op then op.paused else none } units
    putOp r.1 r.2

/-! ### Completion -/

/-- The record of a command that faulted (R282, R313). -/
def opRec (op : EngOp) : Option EngRec := op.fault.map fun f => { pc := op.pc, opcode := fieldOP op.word, fault := f }

/-- Rows of later commands that were routed to a load which failed (R316). -/
def failRows (c : Core) (id : Nat) : Core :=
  { c with ops := c.ops.map fun p => { p with rows := p.rows.map fun r => if r.load == some id then { r with failed := true } else r } }

/-- The end of an MLOAD changes its bank, if it is the latest there (R306). -/
def endLoad (c : Core) (op : EngOp) : Core :=
  let k := getBank c op.imm
  let mine := k.load == op.id && k.state == .loading
  match op.fault with
  | some _ => failRows (if mine then setBank c op.imm { k with state := .empty, key := 0xFFF, held := false } else c) op.id
  | none => if mine then setBank c op.imm { k with state := if k.held then .pinned else .resident, held := false } else c

/-- CLEAR of an MSTORE whose drain is whole (R322). -/
def endStore (c : Core) (op : EngOp) : Core :=
  if op.imm.testBit 2 && decide (storeElems op ≤ op.pos) then
    if op.imm.testBit 0 then { c with grad := c.grad.filter fun e => e.1 / 128 != op.imm / 8 % 4 }
    else
      let lo := bits op.a 15 8
      let hi := lo + tileExt (descAt op.dst) 1
      setAccOf c op.id ((accOf c op.id).filter fun e => !(decide (lo ≤ e.1) && decide (e.1 < hi)))
  else c

/-- The command's part in its batch ends (R312, R313). -/
def endBatch (g : Wg) (op : EngOp) : Wg :=
  advanceBatches (updBatch g op.batch fun b =>
    { b with running := b.running - 1, recs := b.recs ++ (opRec op).toList, missed := b.missed ++ missedLanes op })

/-- A command that has stopped completes (R274): its entries and its place are freed, and it arrives; in deterministic
mode the arrival waits for a commit (R265). -/
def finishOp (s : State) (op : EngOp) : State :=
  let core := op.who.core
  let slot := op.who.slot
  let s := updCore s core fun c =>
    let c := match op.kind with
      | .mload => endLoad c op
      | .mstore => endStore c op
      | .mma => c | .mgrad => c | .cpy => c | .cpyg => c | .cpyx => c | .chain => c | .coll => c
    let ops := c.ops.filter fun p => p.id != op.id
    { c with ops := ops, sb := c.sb.filter fun e => e.op != op.id,
             accOld := c.accOld.filter fun e => ops.any fun p => isMatrix p.kind && decide (p.id < e.1) }
  if isMatrix op.kind then updWg s core slot fun g => endBatch g op
  else
    let r := if op.cancelled then none else opRec op
    if (getWg s core slot).det then updWg s core slot fun g => { g with arrivals := g.arrivals ++ [(op.imm, r)] }
    else arrive s core slot op.imm r true

/-- Run a command to its end and complete it; one that is held back stays where it is. -/
def completeOp (s : State) (op : EngOp) : State :=
  let op := { op with paused := if opBlocked s op then op.paused else none }
  let r := runUnits s op (2 * opTotal op + 2)
  if opDone r.2 then finishOp r.1 r.2 else putOp r.1 r.2

/-- The n-th accepted command of a core completes, if it is of a kind. -/
def completeNth (s : State) (core n : Nat) (ok : EngKind → Bool) : State :=
  match (getCore s core).ops[n]? with
  | none => s
  | some op => if ok op.kind then completeOp s op else s

/-- The oldest matrix command of a core completes, if it is of a kind (R306). -/
def completeMatrix (s : State) (core : Nat) (k : EngKind) : State :=
  match (getCore s core).ops.find? fun p => isMatrix p.kind with
  | none => s
  | some op => if op.kind = k then completeOp s op else s

/-! ### Events -/

/-- COPY_COMPLETE (R274, R285): a CPY or CPYG. -/
def execCopyComplete (core n : Nat) (s : State) : Host.Outcome State Fault Refusal :=
  .next (completeNth s core n fun k => k == .cpy || k == .cpyg)

/-- A refusal or fault at the peer (R275): at which of the messages sent, rows and then the arrival and the record, is the
peer's affair. -/
def peerFault (s : State) (op : EngOp) (c : BitVec 8) : EngFault :=
  let d := descAt op.src
  let n := Config.freeNat s.free % op.pos
  let addr := if n < fwdRows d then field op.aux 8 15 + n * field op.aux 16 19
    else if n = fwdRows d && (field op.aux 2 2).testBit 0 then field op.aux 24 31 else 0
  { cause := c, addr := BitVec.ofNat 64 addr, done := min n (fwdRows d) * (tileExt d 0 * elWidth d.ty / 8), malf := false,
    level := 0 }

/-- CPYX_COMPLETE (R287): everything sent is performed at the peer, or the peer refused with a cause what was sent. -/
def execCpyxComplete (core n : Nat) (peer : Option (BitVec 8)) (s : State) : Host.Outcome State Fault Refusal :=
  match (getCore s core).ops[n]? with
  | none => .next s
  | some op =>
    if op.kind != .cpyx then .next s
    else
      match peer with
      | none => .next (completeOp s op)
      | some c =>
        if op.cancelled || op.fault.isSome then .next (completeOp s op)
        else if op.pos = 0 then .next s
        else .next (finishOp (bump s) { op with fault := some (peerFault s op c) })

/-- CHAIN_COMPLETE (R293, R294). -/
def execChainComplete (core n : Nat) (s : State) : Host.Outcome State Fault Refusal :=
  .next (completeNth s core n fun k => k == .chain)

/-- MLOAD_COMPLETE (R306, R318). -/
def execMloadComplete (core : Nat) (s : State) : Host.Outcome State Fault Refusal := .next (completeMatrix s core .mload)

/-- MMA_COMPLETE (R306, R320). -/
def execMmaComplete (core : Nat) (s : State) : Host.Outcome State Fault Refusal := .next (completeMatrix s core .mma)

/-- MGRAD_COMPLETE (R306, R321). -/
def execMgradComplete (core : Nat) (s : State) : Host.Outcome State Fault Refusal := .next (completeMatrix s core .mgrad)

/-- MSTORE_COMPLETE (R306, R322). -/
def execMstoreComplete (core : Nat) (s : State) : Host.Outcome State Fault Refusal := .next (completeMatrix s core .mstore)

/-- COLL_COMPLETE (R406). -/
def execCollComplete (core n : Nat) (s : State) : Host.Outcome State Fault Refusal :=
  .next (completeNth s core n fun k => k == .coll)

/-- COLL_CONTRIBUTION (R406): matched by tag; another digest is a fault of inner cause 0x1A, whatever the rank that sent it. A
second one of a rank is not this command's. -/
def execCollContribution (core n rank : Nat) (tag digest : BitVec 32) (vals : List FVal) (s : State) :
    Host.Outcome State Fault Refusal :=
  match (getCore s core).ops[n]? with
  | none => .next s
  | some op =>
    let mine := rank == collRank op
    if !s.chip.getLsbD 8 || op.kind != .coll || opDone op || collTag op != tag || (!mine && (tget? op.got rank).isSome) then .next s
    else if digest = collDigest op then
      if mine || decide ((collMembers op).length ≤ rank) then .next s
      else .next (putOp s { op with got := tput op.got rank vals })
    else .next (putOp s { op with fault := some { cause := 0x1A, addr := 0, done := 0, malf := false, level := 0 } })

/-- COLL_MEMBER_LEFT (R406): every other member's collective that names the chip takes inner cause 0x09. -/
def execCollMemberLeft (chip : Nat) (s : State) : Host.Outcome State Fault Refusal :=
  let hit := fun (p : EngOp) =>
    if p.kind == .coll && !opDone p && (collMembers p).any fun m => m.1 == chip then
      { p with fault := some { cause := 0x09, addr := 0, done := 0, malf := false, level := 0 } }
    else p
  .next { s with left := if s.left.contains chip then s.left else s.left ++ [chip],
                 cores := tmap (fun c => { c with ops := c.ops.map hit }) s.cores }

/-- SCOREBOARD_ENTRY_RELEASE (R211): the n-th entry of a core, once its command has stopped. -/
def execScoreboardEntryRelease (core n : Nat) (s : State) : Host.Outcome State Fault Refusal :=
  match (getCore s core).sb[n]? with
  | none => .next s
  | some e =>
    match getOp? s core e.op with
    | none => .next s
    | some op =>
      if opDone op then .next (updCore s core fun c => { c with sb := c.sb.eraseIdx n }) else .next s

/-- ENGINE_BANK_PRIORITY (R202): the engine request that has waited 16 cycles takes its banks; no value changes. -/
def execEngineBankPriority (core : Nat) (s : State) : Host.Outcome State Fault Refusal :=
  if 16 ≤ (getCore s core).bankReq then .next (updCore s core fun c => { c with bankReq := 0 }) else .next s

end Sys2Proof.Machine
end

