-- ==== Sys2Proof/Machine/Tasks.lean ====
section
/-! DEFINITION. Task records, code headers and working-set declarations (R41, R326–R327, R339–R340), refusals (R333),
enqueuing (R331, R334), successor blocks (R329, R330) and the nodes of the pond (R332). -/

namespace Sys2Proof.Machine

/-! ### Records (R326, R327) -/

def recQuad (r : List Byte) (i : Nat) : Nat := field r (8 * i) (8 * i + 7)
def recKind (r : List Byte) : Nat := recQuad r 0 / 2 ^ 48 % 16
def recPrio (r : List Byte) : Nat := recQuad r 0 / 2 ^ 52 % 16
def recIdem (r : List Byte) : Bool := (recQuad r 0).testBit 56
def recDet (r : List Byte) : Bool := (recQuad r 0).testBit 57
def recAff (r : List Byte) : Option Nat := if (recQuad r 0).testBit 58 then some (recQuad r 0 / 2 ^ 59 % 2) else none
def recEntry (r : List Byte) : Nat := recQuad r 0 / 4 % 2 ^ 46 * 4
def recSucc (r : List Byte) : Nat := recQuad r 1 % 2 ^ 48
def recDec (r : List Byte) : Nat := recQuad r 1 / 2 ^ 48 + 1
def recWs (r : List Byte) : Nat := recQuad r 3
def recArg (r : List Byte) (i : Nat) : Nat := field r (32 + 4 * i) (35 + 4 * i)

/-- An address below 2^48 that is a multiple of n. -/
def goodAddr (a n : Nat) : Bool := decide (a < 2 ^ 48) && a % n == 0

/-- The record is malformed (R327). -/
def badRecord (r : List Byte) : Bool :=
  let q := recQuad r 0
  let kind := recKind r
  q / 2 ^ 60 != 0 || q % 4 != 0 || decide (3 < kind) || !goodAddr (recSucc r) 64 ||
    (if kind = 0 then recEntry r % 64 != 0 || !goodAddr (recWs r) 64 else recEntry r != 0) ||
    (if kind = 1 ∨ kind = 2 then recWs r == 0 || !goodAddr (recWs r) 8 else kind == 3 && recWs r != 0)

/-! ### Refusals (R333, R357) -/

/-- A refusal: of the placed task that it concerns, if any, else of the context alone. -/
def refuse (s : State) (ctx : Nat) (at_ : Option Origin) (reason : Nat) (tseq : Word) (tpc taddr : Nat) : State :=
  postRecord s ((at_.map Origin.farea).getD (getCtx s ctx).farea)
    { cause := 0x1A, kind := 2, core := (at_.map Origin.core).getD 0xFF, wid := 0xFF, slot := (at_.map Origin.slot).getD 0xFF,
      ctx := ctx, flags := 0, nsplit := 0, tseq := tseq, tpc := BitVec.ofNat 64 tpc, taddr := BitVec.ofNat 64 taddr,
      tlanes := 0, tinfo := BitVec.ofNat 64 reason, splits := [] }

/-! ### Reads by the pond -/

/-- Why the pond's work stops: page-fault service (R236), a page held by PGX, or room. -/
inductive PStop where
  | serve (ctx va : Nat)
  | hold
  deriving DecidableEq, Repr

/-- The pond's work: it changes the state, and may have to wait, in which case it is begun again later. -/
abbrev PM (α : Type) := ExceptT PStop (StateM State) α

/-- Begin page-fault service for the pond. -/
def pfPond (s : State) (ctx va : Nat) : State :=
  let s := pfStart s ctx va
  { s with pf := s.pf.map fun p => if p.ctx == ctx && p.va == va / 65536 * 65536 then { p with pond := true } else p }

/-- The state after the pond's work, or the one before it with the service that it waits for. -/
def runPond {α : Type} (s : State) (m : PM α) : State :=
  let r := m.run s
  match r.1 with
  | .ok _ => r.2
  | .error (.serve ctx va) => pfPond s ctx va
  | .error .hold => s

/-- Where an access of the pond to n bytes, on behalf of a core or of none, lands; none where it cannot be made (R330, R332). -/
def pondPhys (core : Option Nat) (ctx va n : Nat) (need : Need) : PM (Option Nat) := do
  let s ← get
  let r := linkPhys s core ctx va need
  match r.1 with
  | .fault _ _ _ _ => do
    set (afterLink s ctx va r.1)
    return none
  | .held _ => throw .hold
  | .serve a =>
    let page := (ctx, a / 65536 * 65536)
    if s.pfNo.contains page then do
      set { s with pfNo := s.pfNo.filter fun x => x != page }
      return none
    else throw (.serve ctx a)
  | .ok =>
    match badSector s r.2 n with
    | some b => do
      set (integrityService s ctx b)
      return none
    | none => return some r.2

/-- n bytes at a virtual address, which lie in one page. -/
def pondRead (ctx va n : Nat) : PM (Option (List Byte)) := do
  match ← pondPhys none ctx va n .read with
  | none => return none
  | some pa => return some (physRead (← get) ctx pa n)

/-! ### Working-set declarations (R339, R340) -/

/-- The entries of a declaration (R339); none where a field breaks the layout or two scratchpad entries overlap (R340). -/
def parseWs (bs : List Byte) : Option (List WsEntry) :=
  let n := field bs 0 0
  let ent := fun e =>
    let b := 16 * e + 16
    ({ source := field bs b (b + 6), low := (field bs (b + 7) (b + 7)).testBit 1, lease := (field bs (b + 7) (b + 7)).testBit 0,
       length := field bs (b + 8) (b + 11), dest := field bs (b + 12) (b + 15) } : WsEntry)
  let ok := fun e =>
    let b := 16 * e + 16
    if e < n then
      let x := ent e
      x.source % 16 == 0 && decide (field bs (b + 7) (b + 7) < 4) && x.length != 0 && x.length % 16 == 0 && x.dest % 16 == 0
        && (!x.lease || x.dest == 0)
    else field bs b (b + 15) == 0
  let es := (List.range n).map ent
  let apart := fun (x y : WsEntry) => x.lease || y.lease || decide (x.dest + x.length ≤ y.dest) || decide (y.dest + y.length ≤ x.dest)
  let pairs := (List.range n).all fun i => (List.range i).all fun j =>
    match es[i]?, es[j]? with
    | some x, some y => apart x y
    | _, _ => true
  if n ≤ 3 ∧ field bs 1 1 = 1 ∧ field bs 2 15 = 0 ∧ (List.range 3).all ok ∧ pairs then some es else none

/-- A record's declaration: none for one that is malformed or cannot be read. -/
def readWs (ctx : Nat) (r : List Byte) : PM (Option (List WsEntry)) := do
  if recKind r != 0 || recWs r == 0 then return some []
  match ← pondRead ctx (recWs r) 64 with
  | none => return none
  | some bs => return parseWs bs

/-! ### Code headers (R16, R41, R129, R198) -/

/-- The fields of a header, or the reason of a refusal (R333). -/
def parseHeader (bs : List Byte) : Header ⊕ Nat :=
  let b := fun i => field bs i i
  let h : Header :=
    { warps := b 16, lanes := b 17, regs := 16 * b 18, split := b 19 % 4, det := (b 19).testBit 7, scratch := field bs 20 23,
      priv := 8 * field bs 24 25, governor := BitVec.ofNat 16 (field bs 26 27), rights := BitVec.ofNat 32 (field bs 28 31),
      sets := (List.range 4).map fun i => BitVec.ofNat 32 (field bs (32 + 4 * i) (35 + 4 * i)),
      trap := BitVec.ofNat 32 (field bs 48 51), estimate := BitVec.ofNat 32 (field bs 52 55) }
  if field bs 0 1 ≠ 0xC6A5 ∨ field bs 2 3 ≠ 1 ∨ field bs 6 7 ≠ 0 ∨ field bs 56 63 ≠ 0 ∨ b 19 / 4 % 32 ≠ 0
      ∨ h.warps < 1 ∨ 32 < h.warps ∨ h.lanes < 1 ∨ 32 < h.lanes ∨ h.regs < 16 ∨ 256 < h.regs ∨ h.scratch % 256 ≠ 0
      ∨ 65536 < h.priv ∨ h.trap.toNat % 4 ≠ 0 then .inr 2
  else if b 5 ≠ 6 ∨ 1 < b 4 ∨ BitVec.ofNat 64 (field bs 8 15) &&& ~~~Config.feat0 ≠ 0 then .inr 3
  else if Config.blocksPerBank < h.regs / 16 * ((h.warps + 3) / 4) ∨ Config.scratchOf h.split < h.scratch then .inr 4
  else .inl h

/-- The check of a compute record before it is placed (R335, R340): its header and entries, or the reason. -/
def checkTask (ctx : Nat) (r : List Byte) : PM ((Header × List WsEntry) ⊕ Nat) := do
  let entry := recEntry r
  if entry < 64 then return .inr 2
  match ← pondRead ctx (entry - 64) 64 with
  | none => return .inr 2
  | some bs =>
    match parseHeader bs with
    | .inr n => return .inr n
    | .inl h =>
      match ← readWs ctx r with
      | none => return .inr 5
      | some es =>
        if es.any fun e => !e.lease && decide (h.scratch < e.dest + e.length) then return .inr 5
        else return .inl (h, es)

/-! ### Enqueuing (R331, R334) -/

def pondOf (s : State) (die : Nat) : List PondEnt := tgetD [] s.ponds die
def setPond (s : State) (die : Nat) (es : List PondEnt) : State := { s with ponds := tput s.ponds die es }

/-- The oldest entry of each level counts its waiting from the moment it became the oldest (R335). -/
def agePond (s : State) (die : Nat) : State :=
  let r := (pondOf s die).foldl (fun (p : List PondEnt × List Nat) e =>
    if p.2.contains e.level then (p.1 ++ [e], p.2)
    else (p.1 ++ [{ e with oldest := some (e.oldest.getD s.cycle) }], e.level :: p.2)) ([], [])
  setPond s die r.1

/-- The pond has room. -/
def pondRoom (s : State) (die : Nat) : Bool := decide ((pondOf s die).length < Config.pondEntries)

/-- The pond that takes an entry meant for a die: its own, else the other's, else none (R334). -/
def pondFor (s : State) (die : Nat) : Option Nat :=
  if pondRoom s die then some die else if pondRoom s (1 - die) then some (1 - die) else none

/-- The die of a host post: the pond with more free entries, die 0 when both have the same (R334). -/
def hostDie (s : State) : Nat := if (pondOf s 1).length < (pondOf s 0).length then 1 else 0

/-- An entry made of a record. -/
def newEnt (ctx : Nat) (r : List Byte) (addr : Nat) (tseq : Word) : PondEnt :=
  { level := recPrio r, oldest := none, aged := false, ctx := ctx, record := r, addr := BitVec.ofNat 64 addr, tseq := tseq,
    saved := none, checked := none }

/-- An entry joins the end of its level. -/
def pushPond (s : State) (die : Nat) (e : PondEnt) : State := agePond (setPond s die (pondOf s die ++ [e])) die

/-- An entry goes to the head of its level (R342, R345, R360). -/
def pushFront (s : State) (die : Nat) (e : PondEnt) : State :=
  let es := pondOf s die
  let before := es.takeWhile fun x => x.level != e.level
  agePond (setPond s die (before ++ [{ e with oldest := none, aged := false }] ++ es.drop before.length)) die

/-- The die of a record (R334): its affinity, the home of its first source, or the die of the enqueuer. `none` refuses the
record with reason 5. A source whose walk meets a sector that fails its check does not translate (R408; log entry 55). -/
def dieFor (ctx : Nat) (r : List Byte) (own : Option Nat) : PM (Option (Option Nat)) := do
  match recAff r with
  | some d => return some (some d)
  | none =>
    match ← readWs ctx r with
    | none => return none
    | some [] => return some own
    | some (e :: _) =>
      let s ← get
      if inWindow e.source then return some own
      match walkBad s ctx e.source, walk s ctx e.source with
      | some b, _ => do
        set (integrityService s ctx b)
        return some own
      | none, .leaf level pte _ => return some (some (homeDie (pteAddr pte + e.source % 2 ^ pageBits level)))
      | none, .stop _ _ _ _ => return some own

/-- How an enqueue ends: done (a refusal among it), or no room. -/
inductive Enq where
  | done | full
  deriving DecidableEq, Repr

/-- Enqueue a record (R327, R333, R334). -/
def enqueue (ctx : Nat) (r : List Byte) (addr : Nat) (tseq : Word) (own : Option Nat) : PM Enq := do
  if badRecord r then
    modify fun s => refuse s ctx none 1 tseq (recEntry r) addr
    return .done
  match ← dieFor ctx r own with
  | none => do
    modify fun s => refuse s ctx none 5 tseq (recEntry r) addr
    return .done
  | some d => do
    let s ← get
    match pondFor s (d.getD (hostDie s)) with
    | none => return .full
    | some die => do
      set (pushPond s die (newEnt ctx r addr tseq))
      return .done

/-- Enqueue the record at an address that a block or node names (R330, R332): reasons 1 and 8. -/
def enqueueAt (ctx addr : Nat) (tseq : Word) (own : Option Nat) : PM Enq := do
  if !goodAddr addr 64 then
    modify fun s => refuse s ctx none 1 tseq 0 addr
    return .done
  match ← pondRead ctx addr 64 with
  | none => do
    modify fun s => refuse s ctx none 8 tseq 0 addr
    return .done
  | some r => enqueue ctx r addr tseq own

/-- The first enqueue that waits, tried once. -/
def deferredStep : PM Enq := do
  let s ← get
  match s.deferred with
  | [] => return .done
  | d :: rest => do
    let a := d.ent.addr.toNat
    let r ← (if d.ent.record.isEmpty then enqueueAt d.ent.ctx a d.ent.tseq d.die
             else enqueue d.ent.ctx d.ent.record a d.ent.tseq d.die)
    match r with
    | .full => return .full
    | .done => do
      modify fun s => { s with deferred := rest }
      return .done

/-- Waiting enqueues proceed in order, as far as they can; at most n. -/
def drainDeferred (s : State) : Nat → State
  | 0 => s
  | n + 1 =>
    if s.deferred.isEmpty then s
    else
      let r := deferredStep.run s
      match r.1 with
      | .ok .done => drainDeferred r.2 n
      | .ok .full => s
      | .error (.serve ctx va) => pfPond s ctx va
      | .error .hold => s

/-- DEFERRED_ENQUEUE (R334). -/
def execDeferredEnqueue (s : State) : Host.Outcome State Fault Refusal := .next (drainDeferred s 1)

/-! ### Successor blocks (R329–R331) -/

/-- Nonzero record addresses in ascending order, equal ones in slot order. -/
def firedRecs (bs : List Byte) : List Nat :=
  let rs := ((List.range 7).map fun i => field bs (8 + 8 * i) (13 + 8 * i)).filter fun a => a != 0
  rs.foldl (fun (xs : List Nat) a => xs.takeWhile (fun x => decide (x ≤ a)) ++ a :: xs.dropWhile fun x => decide (x ≤ a)) []

/-- Decrement a block by d (R330); `who` is the placed task that named it, whose core may reach its core-private pages (R234),
`own` the die of the enqueuer. What fires waits its turn among the enqueues. -/
def decrement (ctx block d : Nat) (who : Option Origin) (tseq : Word) (tpc : Nat) (own : Option Nat) : PM Unit := do
  let bad : PM Unit := modify fun s => refuse s ctx who 6 tseq tpc block
  if block % 64 ≠ 0 then bad
  else
    match ← pondPhys (who.map Origin.core) ctx block 64 .both with
    | none => bad
    | some pa => do
      let bs := physRead (← get) ctx pa 64
      if (List.range 6).any fun i => field bs (22 + 8 * i) (23 + 8 * i) != 0 then bad
      else
        let old := signedOf 64 (field bs 0 7)
        let new := old - d
        let fire := decide (0 < old) && decide (new ≤ 0)
        let now := if fire then new + field bs 14 15 else new
        modify fun s => outerWrite s ctx pa (bytesOfNat 8 (patternOf 64 now))
        if fire then
          let ds := (firedRecs bs).zipIdx.map fun x =>
            ({ die := own, ent := { newEnt ctx [] x.1 (BitVec.ofNat 64 (block * 8 + x.2)) with record := [] } } : Deferred)
          modify fun s => { s with deferred := s.deferred ++ ds }

/-- A task or node decrements its own successor block, if it has one (R332, R343). -/
def decrementOwn (ctx : Nat) (r : List Byte) (who : Option Origin) (tseq : Word) (tpc : Nat) (own : Option Nat) :
    PM Unit :=
  if recSucc r = 0 then pure () else decrement ctx (recSucc r) (recDec r) who tseq tpc own

/-! ### Nodes (R332) -/

/-- An entry has waited 65,536 cycles since it became the oldest of its level (R335), whether or not the event has come. -/
def hasAged (s : State) (e : PondEnt) : Bool := e.aged || decide (e.oldest.getD s.cycle + Config.agingCycles ≤ s.cycle)

/-- The oldest entry of each level from 15 down, as far as an aged entry lets lower levels be seen (R335). -/
def candidates (s : State) (die : Nat) : List PondEnt :=
  let es := pondOf s die
  let heads := (List.range 16).filterMap fun i => es.find? fun e => e.level == 15 - i
  match heads.find? (hasAged s) with
  | none => heads
  | some a => heads.filter fun e => decide (a.level ≤ e.level)

/-- Remove the oldest entry of a level. -/
def takePond (s : State) (die level : Nat) : State :=
  let es := pondOf s die
  let before := es.takeWhile fun x => x.level != level
  agePond (setPond s die (before ++ es.drop (before.length + 1))) die

/-- The first candidate of a kind. -/
def nodeOf (s : State) (die kind : Nat) : Option PondEnt :=
  (candidates s die).find? fun e => e.saved.isNone && recKind e.record == kind

/-- The pond takes a node of a kind and acts on it, which makes room for the enqueues that wait. -/
def takeNode (s : State) (die kind : Nat) (act : PondEnt → PM Unit) : State :=
  match nodeOf s die kind with
  | none => s
  | some e =>
    let m : PM Unit := do
      modify fun s => takePond s die e.level
      act e
    let t := runPond s m
    drainDeferred t t.deferred.length

/-- What a join node does (R332): it completes at once. -/
def joinAct (die : Nat) (e : PondEnt) : PM Unit := decrementOwn e.ctx e.record none e.tseq 0 (some die)

/-- JOIN_NODE (R332). -/
def execJoinNode (die : Nat) (s : State) : Host.Outcome State Fault Refusal := .next (takeNode s die 3 (joinAct die))

/-- What a cond or loop node does (R332): the word chooses a record, which is enqueued; then the decrement. -/
def condAct (die : Nat) (e : PondEnt) : PM Unit := do
  match ← pondRead e.ctx (recWs e.record) 8 with
  | none => modify fun s => refuse s e.ctx none 7 e.tseq 0 e.addr.toNat
  | some bs => do
    let i := if natOfBytes bs = 0 then 2 else 0
    let a := recArg e.record i * 2 ^ 32 + recArg e.record (i + 1)
    if a ≠ 0 then do
      let r ← enqueueAt e.ctx a (e.tseq + 1) (some die)
      if r = .full then throw .hold
    decrementOwn e.ctx e.record none e.tseq 0 (some die)

/-- COND_NODE (R332). -/
def execCondNode (die : Nat) (s : State) : Host.Outcome State Fault Refusal := .next (takeNode s die 1 (condAct die))

/-- LOOP_NODE (R332): acts as a cond node. -/
def execLoopNode (die : Nat) (s : State) : Host.Outcome State Fault Refusal := .next (takeNode s die 2 (condAct die))

/-- What a node does, by its kind (R332). -/
def nodeAct (die : Nat) (e : PondEnt) : PM Unit := if recKind e.record = 3 then joinAct die e else condAct die e

/-- POND_AGING_EXPIRY (R335): the oldest entry of a level has waited 65,536 cycles. -/
def execPondAgingExpiry (die level : Nat) (s : State) : Host.Outcome State Fault Refusal :=
  match (pondOf s die).find? fun e => e.level == level with
  | none => .next s
  | some e =>
    if e.aged || decide (s.cycle < e.oldest.getD s.cycle + Config.agingCycles) then .next s
    else
      let es := pondOf s die
      let before := es.takeWhile fun x => x.level != level
      .next (setPond s die (before ++ [{ e with aged := true }] ++ es.drop (before.length + 1)))

/-! ### The intake queue (R331, R346, R397) -/

/-- INTAKE_POST (R397): a write to a context's page: its intake window, or EVR; the rest of the page discards writes. -/
def execIntakePost (ctx off : Nat) (data : List Byte) (s : State) : Host.Outcome State Fault Refusal :=
  if 64 ≤ ctx then .next s
  else if off < 0x1000 then .next (intakeWrite s ctx off data)
  else if off = 0x1008 ∧ data.length = 8 then .next (updCtx s ctx fun c => { c with evr := wordOfBytes64 data })
  else .next s

/-- INTAKE_QUEUE_DRAIN (R331, R334): the oldest record of a queue, numbered as it was accepted. -/
def execIntakeQueueDrain (ctx : Nat) (s : State) : Host.Outcome State Fault Refusal :=
  let c := getCtx s ctx
  match c.intake with
  | [] => .next s
  | r :: rest =>
    let tseq := c.posts - BitVec.ofNat 64 rest.length
    let m : PM Unit := do
      modify fun s => updCtx s ctx fun c => { c with intake := rest }
      let e ← enqueue ctx r 0 tseq none
      if e = .full then throw .hold
    .next (runPond s m)

end Sys2Proof.Machine
end

