-- ==== Sys2Proof/Machine/Place.lean ====
section
/-! DEFINITION. Placement (R199, R335–R337), local queues and stealing (R336), the headrace (R341), dispatch (R338, R94,
R137), staging aborts, completion (R343), and TSPAWN and TSUCC (R347, R348). -/

namespace Sys2Proof.Machine

/-! ### Room on a core (R95, R128, R129, R199, R200, R337) -/

/-- The workgroups that hold a slot of a core. -/
def holders (c : Core) : List (Nat × Wg) :=
  c.wgs.filterMap fun e => match e.2 with
    | none => none
    | some g => some (e.1, g)

def freeWgSlot (c : Core) : Option Nat := (List.range 32).find? fun n => (tgetD none c.wgs n).isNone

/-- Warps of a workgroup of n on partition p (R95). -/
def warpsOn (n p : Nat) : Nat := (n + 3 - p) / 4

/-- Register blocks that a header takes from bank p (R128). -/
def blocksOn (h : Header) (p : Nat) : Nat := h.regs / 16 * warpsOn h.warps p

/-- Lines of device memory that lease entries name (R238, R337). -/
def leaseLines (s : State) (ctx : Nat) (es : List WsEntry) : List (Nat × Nat) :=
  (es.filter WsEntry.lease).flatMap fun e =>
    ((physRanges s ctx e.source (e.source + e.length)).filter fun r => homeOf r.1 == .device).map fun r =>
      (r.1 / 128, (r.2 + 127) / 128)

/-- A task of a header with new leases can enter a shadow slot of a core (R199, R337). -/
def fits (s : State) (core : Nat) (h : Header) (leases : List (Nat × Nat)) : Bool :=
  let c := getCore s core
  let gs := (holders c).map Prod.snd
  !c.halting && decide (c.shadow.length < 2) && (freeWgSlot c).isSome && (c.split == h.split || gs.isEmpty)
    && ((List.range 4).all fun p =>
      decide (gs.foldl (fun n g => n + blocksOn g.hdr p) 0 + blocksOn h p ≤ Config.blocksPerBank))
    && decide (gs.foldl (fun n g => n + g.hdr.scratch) 0 + h.scratch ≤ Config.scratchOf h.split)
    && (leases.isEmpty || leasesFit (allLeases s ++ leases))

/-- The highest nonempty level of a queue. -/
def topLevel (q : List PondEnt) : Option Nat := q.foldl (fun m e => some (max (m.getD 0) e.level)) none

/-- A free slot of the core takes from its own queue, whose highest level is at least the pond's (R336). -/
def takesOwn (s : State) (core : Nat) : Bool :=
  match topLevel (getCore s core).localQ, topLevel (pondOf s (dieOf core)) with
  | some a, some b => decide (b ≤ a)
  | some _, none => true
  | none, _ => false

/-- The lowest-numbered core of a die that can take a task from its pond (R335, R336). -/
def coreFor (s : State) (die : Nat) (h : Header) (leases : List (Nat × Nat)) : Option Nat :=
  ((List.range Config.coresPerDie).map fun n => die * Config.coresPerDie + n).find? fun n =>
    !takesOwn s n && fits s n h leases

/-- The core takes a split code; a change writes back and drops its first-level cache (R199). -/
def takeSplit (s : State) (core split : Nat) : State :=
  if (getCore s core).split = split then s
  else updCore (flushLines s (mainOf core 32 0) true fun _ => true) core fun c => { c with split := split }

/-- A task's workgroup as it enters a shadow slot (R64, R101, R264, R337, R359). -/
def newWg (s : State) (e : PondEnt) (h : Header) (es : List WsEntry) : Wg :=
  let c := getCtx s e.ctx
  { Wg.init with
    ctx := e.ctx, record := e.record, addr := e.addr, tseq := e.tseq, entry := addrOf (recEntry e.record), hdr := h,
    sys := c.ctl.getLsbD 1, check := c.ctl.getLsbD 2, det := h.det || recDet e.record || c.ctl.getLsbD 3,
    qlog := bits c.ctl 12 8, farea := c.farea, saveNo := c.saveNo, ws := es }

/-- A task enters a shadow slot of a core (R337), and its warps are allotted their private regions (R241). -/
def enterShadow (s : State) (core : Nat) (e : PondEnt) (h : Header) (es : List WsEntry) : State :=
  match freeWgSlot (getCore s core) with
  | none => s
  | some n =>
    let p := allotPriv (takeSplit s core h.split) e.ctx h
    updCore p.1 core fun c =>
      let k := if c.shadow.any fun m => ((tgetD none c.wgs m).getD .init).shadow == 0 then 1 else 0
      { putWg c n (some { newWg s e h es with shadow := k, priv := p.2 }) with shadow := c.shadow ++ [n] }

/-! ### Checking and choosing entries (R335) -/

/-- What the check of an entry found: it was refused, or its header and declaration. -/
def checkEnt (e : PondEnt) : PM (Option (Header × List WsEntry)) := do
  match e.checked with
  | some x => return some x
  | none =>
    match ← checkTask e.ctx e.record with
    | .inl x => return some x
    | .inr n => do
      modify fun s => refuse s e.ctx none n e.tseq (recEntry e.record) e.addr.toNat
      return none

/-- Keep with the oldest entry of a level what its check found. -/
def noteChecked (die level : Nat) (x : Header × List WsEntry) (s : State) : State :=
  let es := pondOf s die
  let before := es.takeWhile fun e => e.level != level
  setPond s die (before ++ (es.drop before.length).zipIdx.map fun e =>
    if e.2 = 0 then { e.1 with checked := some x } else e.1)

/-- A saved workgroup of a number. -/
def findSaved (s : State) (id : Nat) : Option SavedWg := s.saved.find? fun v => v.id == id

/-- Warps of a partition that are resident (R95); the slots that a draining workgroup frees stay closed (R345). -/
def residentOn (c : Core) (p : Nat) : Nat :=
  (holders c).foldl (fun n g =>
    n + (g.2.warps.filter fun w => w.1 % 4 == p && (w.2.live != 0 || g.2.preempt == some .drain)).length) 0

/-- The lowest-numbered core of a die that a saved workgroup can resume on: it can enter, and its partitions have room for
its warps at once (R337, R338, R362). -/
def coreForSaved (s : State) (die : Nat) (g : Wg) : Option Nat :=
  ((List.range Config.coresPerDie).map fun n => die * Config.coresPerDie + n).find? fun n =>
    !takesOwn s n && fits s n g.hdr [] && (List.range 4).all fun p =>
      decide (residentOn (getCore s n) p + (g.warps.filter fun w => w.1 % 4 == p && w.2.live != 0).length
        ≤ Config.warpsPerPartition)

/-- What a pond does with its candidates: nothing, it has placed or refused one, or a saved workgroup comes next. -/
inductive Placed where
  | none | done | resume (e : PondEnt) (core : Nat)
  deriving DecidableEq, Repr

/-- The first candidate that is refused, fits on a core, or is a saved workgroup that fits (R335). Nodes need no core and are
taken by themselves (R332). -/
def placeFirst (die : Nat) : List PondEnt → PM Placed
  | [] => return .none
  | e :: es => do
    match e.saved with
    | some id =>
      match findSaved (← get) id with
      | none => placeFirst die es
      | some v =>
        match coreForSaved (← get) die v.wg with
        | none => placeFirst die es
        | some n => return .resume e n
    | none =>
      if recKind e.record ≠ 0 then placeFirst die es
      else do
        match ← checkEnt e with
        | none => do
          modify fun s => takePond s die e.level
          return .done
        | some x => do
          let s ← get
          match coreFor s die x.1 (leaseLines s e.ctx x.2) with
          | none => do
            set (noteChecked die e.level x s)
            placeFirst die es
          | some n => do
            set (enterShadow (takePond s die e.level) n e x.1 x.2)
            return .done

/-- TASK_PLACEMENT (R335). -/
def execTaskPlacement (die : Nat) (s : State) : Host.Outcome State Fault Refusal :=
  .next (runPond s do
    let _ ← placeFirst die (candidates s die))

/-! ### Local queues (R336) -/

/-- The oldest entry of the highest level of a queue, with its place in it. -/
def highest (q : List PondEnt) : Option (PondEnt × Nat) :=
  q.zipIdx.foldl (fun m e => match m with
    | none => some e
    | some x => if x.1.level < e.1.level then some e else some x) none

/-- A core takes an entry of a core's local queue, which is checked first (R335); it stays where it does not fit. A node needs
no core: it acts as in the pond of the core's die (R332; log entry 57). -/
def takeLocal (core owner : Nat) (e : PondEnt) (at_ : Nat) : PM Unit := do
  let drop := fun (s : State) => updCore s owner fun c => { c with localQ := c.localQ.eraseIdx at_ }
  if recKind e.record ≠ 0 then
    modify drop
    nodeAct (dieOf core) e
  else match ← checkEnt e with
  | none => modify drop
  | some x => do
    let s ← get
    if fits s core x.1 (leaseLines s e.ctx x.2) then set (enterShadow (drop s) core e x.1 x.2)

/-- The pond's work where a queue gives up an entry; a node among them may have let enqueues wait. -/
def runTake (s : State) (m : PM Unit) : State :=
  let t := runPond s m
  drainDeferred t t.deferred.length

/-- LOCAL_QUEUE_TAKE (R336): the core's own queue where its level is at least the highest of the pond, else the pond. -/
def execLocalQueueTake (core : Nat) (s : State) : Host.Outcome State Fault Refusal :=
  match highest (getCore s core).localQ with
  | none => execTaskPlacement (dieOf core) s
  | some e =>
    if takesOwn s core then .next (runTake s (takeLocal core core e.1 e.2)) else execTaskPlacement (dieOf core) s

/-- The cores of a die after a core, wrapping around. -/
def victimsOf (core : Nat) : List Nat :=
  (List.range (Config.coresPerDie - 1)).map fun k =>
    dieOf core * Config.coresPerDie + (core % Config.coresPerDie + 1 + k) % Config.coresPerDie

/-- A core steals (R336): no workgroup, both shadow slots empty, and an empty pond on its die. -/
def maySteal (s : State) (core : Nat) : Bool :=
  (holders (getCore s core)).isEmpty && (getCore s core).shadow.isEmpty && (pondOf s (dieOf core)).isEmpty

/-- The victim that a request has reached, after those that it has tried: its place and the core. -/
def victimAt (s : State) (core : Nat) (r : StealReq) : Option (Nat × Nat) :=
  (((victimsOf core).zipIdx.drop r.tried).find? fun v => !(getCore s v.1).localQ.isEmpty).map fun v => (v.2, v.1)

/-- The requests that have reached a victim, as their cores. A core that may not steal any more has none. -/
def contenders (s : State) (v : Nat) : List (Nat × StealReq) :=
  s.steals.filter fun e => maySteal s e.1 && ((victimAt s e.1 e.2).map Prod.snd) == some v

/-- A request beats another (R336): the lower logical time, then the lower core number. -/
def stealsBefore (a b : Nat × StealReq) : Bool :=
  decide (a.2.stamp < b.2.stamp) || (a.2.stamp == b.2.stamp && decide (a.1 < b.1))

/-- An empty result: the requests try their next victims. -/
def tryNext (s : State) (cs : List Nat) : State :=
  { s with steals := s.steals.map fun e =>
      match (if cs.contains e.1 then victimAt s e.1 e.2 else none) with
      | some v => (e.1, { e.2 with tried := v.1 + 1 })
      | none => e }

/-- STEAL (R336): a core's steal clock stamps its request; then the request comes to its victim, where the lowest stamp wins and
every other that has reached the same victim has an empty result. It ends when it has taken an entry or tried every victim. -/
def execSteal (core : Nat) (s : State) : Host.Outcome State Fault Refusal :=
  let done := fun (s : State) => { s with steals := tdel s.steals core }
  if !maySteal s core then .next (done s)
  else
    match tget? s.steals core with
    | none => .next { s with steals := tput s.steals core { stamp := tgetD 0 s.stealClock (dieOf core), tried := 0 } }
    | some r =>
      match victimAt s core r with
      | none => .next (done s)
      | some (_, v) =>
        let rivals := (contenders s v).filter fun e => e.1 != core
        if rivals.any fun e => stealsBefore e (core, r) then .next (tryNext s [core])
        else
          match highest (getCore s v).localQ with
          | none => .next (tryNext s [core])
          | some e => .next (done (runTake (tryNext s (rivals.map Prod.fst)) (takeLocal core v e.1 e.2)))

/-! ### The headrace (R341) -/

/-- An engine fault met in staging. -/
def stagingFault (c : BitVec 8) (a n : Nat) (malf : Bool) (level : Nat) : EngFault :=
  { cause := c, addr := BitVec.ofNat 64 a, done := n, malf := malf, level := level }

/-- The entry at hand is staged; its scoreboard entry is released (R211). -/
def nextEntry (s : State) (core slot : Nat) : State :=
  let s := updWg s core slot fun g => { g with stageEnt := g.stageEnt + 1, staged := 0 }
  updCore s core fun c => { c with sb := c.sb.filter fun x => x.slot != slot }

/-- A lease entry (R341): the next handle, a lease over its lines. -/
def stageLease (s : State) (core slot : Nat) (g : Wg) (e : WsEntry) : State :=
  let fault := fun (s : State) (f : EngFault) => updWg s core slot fun g => { g with stageFault := some f }
  if e.source + e.length > 2 ^ 56 then fault s (stagingFault 0x03 e.source 0 false 0)
  else
    let r := leasePages s (mainOf core slot 0) e.source (e.source + e.length) (e.length / 65536 + 2)
    match r.2.2 with
    | some (.inl t) =>
      fault r.1 (stagingFault t.cause (if t.cause = 0x03 then e.source else t.addr.toNat) 0 t.malf t.level)
    | some (.inr w) =>
      match w with
      | .pageFault va => updWg r.1 core slot fun g => { g with stagePaused := some va }
      | _ => r.1
    | none =>
      let lines := r.2.1
      if leasesFit (allLeases r.1 ++ lines) then
        let h := ((g.ws.take g.stageEnt).filter WsEntry.lease).length + 1
        nextEntry (updWg r.1 core slot fun g => { g with leases := tput g.leases h lines }) core slot
      else r.1

/-- Sixteen bytes of a scratchpad entry (R341). -/
def stageCopy (core slot : Nat) (g : Wg) (e : WsEntry) : EM Unit := do
  let env : EngEnv := { who := mainOf core slot 0, ctx := g.ctx, share := (0, 0), refused := none, pol := 1 }
  let bs ← engRead env 0 (e.source + g.staged) 16
  engWrite env 1 (e.dest + g.staged) bs e.dest (e.dest + e.length)

/-- A staging copy has its scoreboard entry, or takes one (R210); none while the scoreboard is full. -/
def stageEntry (s : State) (core slot : Nat) (e : WsEntry) : Option State :=
  let c := getCore s core
  if c.sb.any fun x => x.slot == slot then some s
  else if c.sb.length < Config.scoreboardEntries then
    some (updCore { s with nextId := s.nextId + 1 } core fun c =>
      { c with sb := c.sb ++ [{ op := s.nextId, slot := slot, floor := false, list := false, write := true, lo := e.dest,
                                hi := e.dest + e.length }] })
  else none

/-- Staging of a shadow task waits for page-fault service. -/
def stagingWaits (s : State) (g : Wg) : Bool :=
  match g.stagePaused with
  | some va => s.pf.any fun p => p.ctx == g.ctx && p.va == va.toNat / 65536 * 65536
  | none => false

/-- Stage a shadow task as far as it goes, at most n steps. -/
def stageTask (s : State) (core slot : Nat) : Nat → State
  | 0 => s
  | n + 1 =>
    let g := getWg s core slot
    if g.phase != .staging || g.stageFault.isSome || stagingWaits s g then s
    else
      let s := updWg s core slot fun g => { g with stagePaused := none }
      match g.ws[g.stageEnt]? with
      | none => updWg s core slot fun g => { g with phase := .staged }
      | some e =>
        if e.lease then
          let t := stageLease s core slot g e
          if (getWg t core slot).stageEnt = g.stageEnt then t else stageTask t core slot n
        else
          match stageEntry s core slot e with
          | none => s
          | some s =>
            let r := (stageCopy core slot g e).run s
            match r.1 with
            | .ok _ =>
              if g.staged + 16 < e.length then
                stageTask (updWg r.2 core slot fun g => { g with staged := g.staged + 16 }) core slot n
              else stageTask (nextEntry r.2 core slot) core slot n
            | .error (.fault c a malf level) =>
              updWg r.2 core slot fun w => { w with stageFault := some (stagingFault c a g.staged malf level) }
            | .error (.serve _ va) =>
              updWg (pfStart r.2 g.ctx va) core slot fun w => { w with stagePaused := some (BitVec.ofNat 64 va) }
            | .error (.held _) => r.2

/-- Steps that stage a task whole. -/
def stageSteps (g : Wg) : Nat := g.ws.foldl (fun n e => n + e.length / 16 + 1) 1

/-! ### Dispatch (R94, R137, R338) -/

/-- A warp at dispatch (R94, R137). -/
def startWarp (g : Wg) (w : Nat) : Warp :=
  let lanes := if w + 1 = g.hdr.warps then lowMask g.hdr.lanes else BitVec.allOnes 32
  { Warp.init with
    present := true, live := lanes, launched := lanes, main := { Stream.init with pc := g.entry, emask := lanes },
    budget := g.hdr.governor, seed := g.tseq, s := (List.range 8).map fun i => (i, BitVec.ofNat 64 (recArg g.record i)) }

/-- A staged task's warps start (R338). -/
def dispatch (s : State) (core slot : Nat) : State :=
  let s := updWg s core slot fun g =>
    { g with phase := .running, began := s.cycle, warps := (List.range g.hdr.warps).map fun w => (w, startWarp g w) }
  updCore s core fun c => { c with shadow := c.shadow.filter fun x => x != slot }

/-- A shadow task is staged and its partitions have room for its warps (R338). -/
def canDispatch (s : State) (core slot : Nat) : Bool :=
  let c := getCore s core
  let g := getWg s core slot
  g.phase == .staged && (List.range 4).all fun p =>
    decide (residentOn c p + warpsOn g.hdr.warps p ≤ Config.warpsPerPartition)

/-- TASK_DISPATCH (R338, R341, R367): the shadow tasks are staged as far as they go, and the first that can start does. -/
def execTaskDispatch (core : Nat) (s : State) : Host.Outcome State Fault Refusal :=
  let s := (getCore s core).shadow.foldl (fun s slot => stageTask s core slot (stageSteps (getWg s core slot))) s
  if (getCore s core).halting then .next s
  else
    match (getCore s core).shadow.find? fun slot => canDispatch s core slot with
    | none => .next s
    | some slot => .next (dispatch s core slot)

/-! ### The end of a workgroup (R341, R343, R356) -/

/-- A workgroup's slot is freed with all that it held: leases, registers, scratchpad, private regions and their lines,
scoreboard entries, the baton. -/
def freeWg (s : State) (core slot : Nat) : State :=
  let s := dropGroups (dropStep (dropPriv s core (regionsOf (getWg s core slot))) core slot) core slot
  let s := updCore s core fun c =>
    { c with wgs := tdel c.wgs slot, shadow := c.shadow.filter (fun x => x != slot), sb := c.sb.filter fun e => e.slot != slot }
  { s with coreChecks := s.coreChecks.filter fun e => !(e.1.1 == core && e.1.2.1 == some slot) }

/-- A task left its slot otherwise than as a request of its context asked: the request is met (R359). -/
def preGone (s : State) (core slot ctx : Nat) : State :=
  if preNames s ctx core slot then preMet s ctx (getCtx s ctx).pre.opt else s

/-- STAGING_ABORT (R341): the record of a refused or unserved fault; no successor is decremented. -/
def execStagingAbort (core slot : Nat) (s : State) : Host.Outcome State Fault Refusal :=
  let g := getWg s core slot
  match g.stageFault with
  | none => .next s
  | some f =>
    let e : EngRec := { pc := 0, opcode := 0, fault := f }
    let r := { unclaimed core slot g e false with kind := 5, tpc := addrWord g.entry, tlanes := 0 }
    .next (preGone (freeWg (postRecord s g.farea r) core slot) core slot g.ctx)

/-- Dirty first-level lines of a core that hold bytes a workgroup's task stored (R343). -/
def ownDirty (s : State) (core slot : Nat) (l : L1Line) : Bool :=
  l.dirty != 0 && (getWg s core slot).touched.contains l.line

/-- Nothing of a workgroup is under way: commands, writes with the write-backs of its stores, buffered entries (R115, R343). -/
def quiet (s : State) (core slot : Nat) : Bool :=
  let c := getCore s core
  let g := getWg s core slot
  !(c.ops.any fun p => p.who.slot == slot) && !(c.waiting.any fun p => p.who.slot == slot)
    && !(s.pend.any fun p => (p.who.core == core && p.who.slot == slot) || ownWriteBack g p)
    && g.warps.all fun w => w.2.buf.isEmpty

/-- The records that a workgroup still holds go to the fault area: barrier registers, then batches (R282, R313, R356). -/
def postLeft (s : State) (core slot : Nat) : State :=
  let g := getWg s core slot
  let s := g.bars.foldl (fun s b => postHeld s core slot b.2) s
  g.batches.foldl (fun s b =>
    b.recs.foldl (fun s r => postRecord s g.farea (unclaimed core slot g r (decide (1 < b.recs.length)))) s) s

/-- The arrivals that deterministic mode holds reach their registers (R265). -/
def applyArrivals (s : State) (core slot : Nat) : State :=
  let xs := (getWg s core slot).arrivals
  xs.foldl (fun s x => arrive s core slot x.1 x.2 true) (updWg s core slot fun g => { g with arrivals := [] })

/-- The end of a workgroup whose work is performed: its records, then its resources; the successor's decrement comes after
them, unless it aborted (R343, R356). -/
def endWg (core slot : Nat) (g : Wg) (s : State) : State :=
  let s := freeWg (postLeft (applyArrivals s core slot) core slot) core slot
  if g.phase = .ended then
    { s with finals := s.finals ++ [{ ctx := g.ctx, record := g.record, tseq := g.tseq, entry := g.entry,
                                      at_ := { core := core, slot := slot, farea := g.farea } }] }
  else s

/-- A core's own copy of the line of an atomic that it issues to a page that writes back is written back and dropped (R260);
whether no write-back of the line is left to be performed. -/
def ownDropped (s : State) (o : Who) (ctx va : Nat) : State × Bool :=
  match walk s ctx va with
  | .stop _ _ _ _ => (s, true)
  | .leaf level pte _ =>
    if pteState pte = 0 then (s, true)
    else
      let pa := pteAddr pte + va % 2 ^ pageBits level
      let s := dropLine s o ctx pa
      (s, !s.pend.any fun p => p.wb && p.who.core == o.core && p.pa / 128 == pa / 128)

/-- The decrement of a completed task's successor block; it stays to be made where the block's page is served or held, and
until its core's copy of the block is written back (R260). -/
def tryFinal (s : State) (f : Final) : State :=
  let later := fun (s : State) => { s with finals := s.finals ++ [f] }
  let r := if recSucc f.record = 0 then (s, true) else ownDropped s (mainOf f.at_.core f.at_.slot 0) f.ctx (recSucc f.record)
  if !r.2 then later r.1
  else
    let q := (decrementOwn f.ctx f.record (some f.at_) f.tseq f.entry.toNat (some (dieOf f.at_.core))).run r.1
    match q.1 with
    | .ok _ => q.2
    | .error (.serve ctx va) => later (pfPond r.1 ctx va)
    | .error .hold => later r.1

/-- The decrements that completed tasks still have to make, in order (R343). -/
def runFinals (s : State) : State :=
  let t := s.finals.foldl tryFinal { s with finals := [] }
  drainDeferred t t.deferred.length

/-- TASK_COMPLETE (R343, R356): of an aborted task once the stores that the scoreboard held back are performed (R216). -/
def execTaskComplete (core slot : Nat) (s : State) : Host.Outcome State Fault Refusal :=
  let s := runFinals s
  match getWg? s core slot with
  | none => .next s
  | some g =>
    if !(g.phase == .ended || g.phase == .aborted) then .next s
    else if g.phase == .ended && (getCore s core).l1.any (ownDirty s core slot) then
      .next (flushLines s (mainOf core slot 0) false (ownDirty s core slot))
    else
      let s := if g.phase == .aborted then flushStores s core slot else s
      if !quiet s core slot then .next s else .next (runFinals (endWg core slot (getWg s core slot) s))

/-! ### TSPAWN (R331, R336, R347) -/

/-- Enqueue what a TSPAWN names: the core's local queue, or a pond. -/
def spawnEnqueue (o : Who) (r : List Byte) (addr : Nat) (isLocal : Bool) : PM Enq := do
  let s ← get
  let g := wgOf s o
  let die := dieOf o.core
  let tseq := BitVec.ofNat 64 (g.tseq.toNat * 2 ^ 16 + g.spawned + 1)
  let count := fun (s : State) => updWgOf s o fun g => { g with spawned := g.spawned + 1 }
  if isLocal && recAff r != some (1 - die) then
    if (getCore s o.core).localQ.length < Config.localQueue then do
      set (count (updCore s o.core fun c => { c with localQ := c.localQ ++ [newEnt g.ctx r addr tseq] }))
      return .done
    else
      match pondFor s die with
      | none => return .full
      | some d => do
        set (count (pushPond s d (newEnt g.ctx r addr tseq)))
        return .done
  else do
    let q ← enqueue g.ctx r addr tseq (some die)
    if q = .done then modify count
    return q

/-- One attempt to enqueue, once the warp's earlier stores are performed; whether it succeeded. -/
def trySpawn (s : State) (o : Who) (r : List Byte) (addr : Nat) (isLocal : Bool) : State × Bool :=
  if !pendDone s o then (s, false)
  else
    let q := (spawnEnqueue o r addr isLocal).run s
    match q.1 with
    | .ok .done => (q.2, true)
    | .ok .full => (s, false)
    | .error (.serve ctx va) => (pfPond s ctx va, false)
    | .error .hold => (s, false)

/-- The record that TSPAWN reads by the core path, as the warp sees memory (R265, R347). -/
def spawnRead (s : State) (o : Who) (a : Nat) : Except (Trap ⊕ Wait) (List Byte) × State :=
  let q := (coreRead o a 64).run s
  match q.1, ((coreRead o a 64).run (ownView s o)).1 with
  | .ok _, .ok bs => (.ok bs, q.2)
  | r, _ => (r, q.2)

/-- TSPAWN's effect (R347). In deterministic mode its checks are made as it issues, and the commit enqueues the record
(log entry 58). -/
def spawnNow (s : State) (o : Who) (i : Instr) (mark : Bool) (a b : Word) : Res :=
  if bits b 63 1 ≠ 0 then .trap s (trapOf 0x03)
  else if bits a 5 0 ≠ 0 then .trap s (trapAt 0x08 a)
  else
    resOf (spawnRead s o a.toNat) fun s r =>
      if badRecord r then .trap s (trapAt 0x1A a)
      else if (wgOf s o).det then .done (progress (pushBuf s o (encode i) none (.tspawn r a (b.getLsbD 0))) o)
      else
        let q := trySpawn s o r a.toNat (b.getLsbD 0)
        if q.2 then .done (progress q.1 o) else .wait q.1 (.tspawn r a (b.getLsbD 0) mark)

/-- TSPAWN (R347). -/
def execTspawn (w : Bool) (a b : Reg) (s : State) : Host.Outcome State Fault Refusal :=
  runWord (.tspawn w a b) .warp (ab a b .warp) [a, b] false false
    (fun s o => spawnNow s o (.tspawn w a b) w (rdS s o a) (rdS s o b)) s

/-- TSPAWN_ENQUEUE (R347). -/
def execTspawnEnqueue (o : Who) (s : State) : Host.Outcome State Fault Refusal :=
  match (streamOf s o).wait with
  | .tspawn r a isLocal mark =>
    let q := trySpawn s o r a.toNat isLocal
    .next (if q.2 then endStep (retire (progress q.1 o) o mark ((streamOf q.1 o).pc + 4)) o else q.1)
  | _ => .next s

/-! ### TSUCC (R330, R348) -/

/-- One attempt to decrement, once the warp's earlier stores are performed and its core's copy of the block is written back
(R260); whether it succeeded. -/
def trySucc (s : State) (o : Who) (a : Word) (d : Nat) : State × Bool :=
  if !pendDone s o then (s, false)
  else
    let g := wgOf s o
    let r := ownDropped s o g.ctx a.toNat
    if !r.2 then (r.1, false)
    else
      let at_ : Origin := { core := o.core, slot := o.slot, farea := g.farea }
      let q := (decrement g.ctx a.toNat d (some at_) g.tseq g.entry.toNat (some (dieOf o.core))).run r.1
      match q.1 with
      | .ok _ => (drainDeferred q.2 q.2.deferred.length, true)
      | .error (.serve ctx va) => (pfPond r.1 ctx va, false)
      | .error .hold => (r.1, false)

/-- TSUCC's effect (R348). In deterministic mode its checks are made as it issues, and the commit decrements the block
(log entry 58). -/
def succNow (s : State) (o : Who) (i : Instr) (mark : Bool) (a b : Word) : Res :=
  if b = 0 ∨ b.toNat > 65536 then .trap s (trapOf 0x03)
  else if bits a 5 0 ≠ 0 ∨ bits a 63 48 ≠ 0 then .trap s (trapAt 0x08 a)
  else
    let ctx := (wgOf s o).ctx
    let r := translate s o.core ctx a.toNat .both (refusedTo s o a.toNat)
    match r.2 with
    | .serve => .wait (pfStart r.1 ctx a.toNat) (.pageFault a)
    | .held => .wait r.1 (.pgx a)
    | .refused => .trap r.1 (trapAt 0x09 a)
    | .fault c malf level => .trap r.1 { trapAt c a with malf := malf, level := level }
    | .ok pa wb =>
      let s := if wb then dropLine r.1 o ctx pa else r.1      -- step 3 of a commit drops it again (trySucc)
      if (wgOf s o).det then .done (progress (pushBuf s o (encode i) none (.tsucc a b.toNat)) o)
      else
        let q := trySucc s o a b.toNat
        if q.2 then .done (progress q.1 o) else .wait q.1 (.tsucc a b.toNat mark)

/-- TSUCC (R348). -/
def execTsucc (w : Bool) (a b : Reg) (s : State) : Host.Outcome State Fault Refusal :=
  runWord (.tsucc w a b) .warp (ab a b .warp) [a, b] false false
    (fun s o => succNow s o (.tsucc w a b) w (rdS s o a) (rdS s o b)) s

/-- TSUCC_DECREMENT (R348). -/
def execTsuccDecrement (o : Who) (s : State) : Host.Outcome State Fault Refusal :=
  match (streamOf s o).wait with
  | .tsucc a d mark =>
    let q := trySucc s o a d
    .next (if q.2 then endStep (retire (progress q.1 o) o mark ((streamOf q.1 o).pc + 4)) o else q.1)
  | _ => .next s

end Sys2Proof.Machine
end

