-- ==== Sys2Proof/Machine/Commit.lean ====
section
/-! DEFINITION. When a word that waits may be tried again (R97), and the commit of a round in deterministic mode (R264–R266,
R295, R325). -/

namespace Sys2Proof.Machine

/-! ### Waits -/

/-- Batches up to n have completed (R324). -/
def batchMet (g : Wg) (n : Nat) : Bool :=
  decide (n ≤ g.awaited) || g.batches.all fun b => decide (n < b.num) || b.done

/-- The wait of a word is over: it may be tried again. Waits that an event completes are never over by themselves. -/
def waitOver (s : State) (o : Who) (w : Wait) : Bool :=
  match w with
  | .none => true
  | .latch _ => false
  | .barrier _ => false
  | .bret _ => true
  | .baton g => (getCore s o.core).baton == some { slot := o.slot, g := g }
  | .batch n => batchMet (wgOf s o) n
  | .scoreboard lo hi store => !sbBlocks s o.core o.slot lo hi store
  | .accept => false
  | .icinv _ _ _ => false
  | .bfloor _ _ => false
  | .fence m => fenceMet s m o
  | .fenceCommit _ => false
  | .xfence paths cmds => xfenceMet s o paths cmds
  | .tspawn _ _ _ _ => false
  | .tsucc _ _ _ => false
  | .pageFault va => !s.pf.any fun p => p.ctx == (wgOf s o).ctx && p.va == va.toNat / 65536 * 65536
  | .pgx va => !pgxHolds s (wgOf s o).ctx va.toNat
  | .commit => false
  | .qsync _ => false

/-- The waits that end a quantum and may outlast its round (R265), and a buffered word that the next commit applies. -/
def longWait (s : State) (o : Who) (w : Wait) : Bool :=
  match w with
  | .barrier _ => true
  | .baton _ => !waitOver s o w
  | .batch _ => !waitOver s o w
  | .xfence _ _ => !waitOver s o w
  | .fence _ => !waitOver s o w
  | .commit => true
  | .none => false | .latch _ => false | .bret _ => false | .scoreboard _ _ _ => false | .accept => false
  | .icinv _ _ _ => false | .bfloor _ _ => false | .fenceCommit _ => false | .tspawn _ _ _ _ => false
  | .tsucc _ _ _ => false | .pageFault _ => false | .pgx _ => false | .qsync _ => false

/-- A warp still waits after a commit, so that it counts as ended in the next round (R265); at a latch, with every member for
what any of them waits for (R257). -/
def stillWaits (s : State) (o : Who) : Bool :=
  match (warpOf s o).main.wait with
  | .latch g =>
    match getLatch s o.core o.slot g with
    | none => false
    | some l =>
      !l.firing || l.wait == .none ||
        (members (wgOf s o) g).any fun n => longWait s (mainOf o.core o.slot n) l.wait
  | w => longWait s o w

/-! ### Entries of a commit -/

/-- Step of R265 that an entry belongs to (R266, R295, R325, R347). -/
def stepOf (e : BufEffect) : Nat :=
  match e with
  | .store _ _ => 1 | .atomic _ _ _ _ _ _ => 1 | .lateStore _ _ _ _ _ => 1 | .lateAtomic _ _ _ _ _ _ _ => 1
  | .barv _ => 2 | .binit _ _ => 2
  | .tdef _ _ => 3 | .engine _ => 3 | .cpyc _ => 3 | .mclose _ _ => 3 | .tspawn _ _ _ => 3 | .tsucc _ _ => 3

/-- The first entry of a step, in ascending WID and program order, with its warp and its place. -/
def nextOf (g : Wg) (k : Nat) : Option (Nat × Nat × BufEntry) :=
  g.warps.findSome? fun w =>
    (w.2.buf.zipIdx.find? fun e => stepOf e.1.effect == k).map fun e => (w.1, e.2, e.1)

/-- The old values of an atomic become outstanding results (R265 step 1), for every member at set and block scope. -/
def deliverOld (s : State) (o : Who) (latch : Option Nat) (d : Dst) (vals : List (Nat × Word)) : State :=
  let ms := match latch with
    | none => [o]
    | some g => (members (wgOf s o) g).map (mainOf o.core o.slot)
  ms.foldl (fun s m => updWarpOf s m fun w =>
    putStream (discardIn w m.split d (vals.map Prod.fst)) m.split fun st =>
      { st with out := st.out ++ [{ num := nextOut w, dst := d, vals := vals, flags := 0 }] }) s

/-- An access of set or block scope at the commit (R266): its checks, the scoreboard (R216), then its effect. -/
def lateAccess (s : State) (o : Who) (k : AccKind) (n : Nat) (acc : State → State × Acc) (go : State → Loc → Res) : Res :=
  checkAll s o .block k n (fun s _ => acc s) fun s ps =>
    match sbWait s o n true ps, ps with
    | some w, _ => .wait s w
    | none, p :: _ => go s p.2
    | none, [] => .done s

/-- An atomic at the commit: the lanes in order, and the old values where it returns them (R265 step 1). -/
def atomicEntry (s : State) (b : BufEntry) (op : AtOp) (pol : BitVec 2) (n : Nat) (ls : List AtLane) (dst : Option Dst) : Res :=
  let r := atomics s b.who pol op n ls
  match dst with
  | none => .done r.1
  | some .none => .done r.1
  | some d => .done (deliverOld r.1 b.who b.latch d r.2)

/-- The effect of an entry; a wait holds the commit. -/
def entryRes (s : State) (b : BufEntry) : Res :=
  let o := b.who
  match b.effect with
  | .store pol ls => .done (ls.foldl (fun s l => storeLoc s o pol l.1 l.2.1 l.2.2) s)
  | .atomic op pol n ls dst _ => atomicEntry s b op pol n ls dst
  | .lateStore scratch pol n a v =>
    lateAccess s o .store n (fun s => accessOf scratch .store s o n a) fun s l => .done (storeLoc s o pol l n v)
  | .lateAtomic op pol n a x y dst =>
    lateAccess s o .atomic n (fun s => accessA s o op dst.isSome n a) fun s l =>
      atomicEntry s b op pol n [{ lane := 0, loc := l, b := x, b1 := y }] dst
  | .barv x => .done (arrive s o.core o.slot x none false)
  | .binit x v => .done (applyBinit s o.core o.slot x v)
  | .tdef t a => resOf ((loadSlot o t a).run s) fun s _ => .done s
  | .engine op => resOf ((acceptOp op).run s) fun s _ => .done (accepted s op)
  | .cpyc x => resOf ((cancelCopies o x).run s) fun s _ => .done s
  | .mclose d sc => resOf ((closeBatch o).run s) fun s n => .done (lateScalar s o sc d (BitVec.ofNat 64 n))
  | .tspawn r a isLocal =>
    let q := trySpawn s o r a.toNat isLocal
    if q.2 then .done q.1 else .wait q.1 (.tspawn r a isLocal false)
  | .tsucc a d =>
    let q := trySucc s o a d
    if q.2 then .done q.1 else .wait q.1 (.tsucc a d false)

/-- TSPAWN and TSUCC end no quantum: their words have completed as they issued (R265, R347, R348; log entry 58). -/
def noQuantumEnd (e : BufEffect) : Bool :=
  match e with
  | .tspawn _ _ _ => true | .tsucc _ _ => true
  | .store _ _ => false | .atomic _ _ _ _ _ _ => false | .barv _ => false | .binit _ _ => false | .tdef _ _ => false
  | .engine _ => false | .cpyc _ => false | .mclose _ _ => false | .lateStore _ _ _ _ _ => false
  | .lateAtomic _ _ _ _ _ _ _ => false

/-- The word of an entry waited for the commit: a step-3 word, or any at set or block scope (R266). -/
def entryWaits (b : BufEntry) : Bool := b.latch.isSome || (stepOf b.effect == 3 && !noQuantumEnd b.effect)

/-- Apply an entry: the state after it, or the state in which the commit is held (R266). -/
def applyEntry (s : State) (w i : Nat) (b : BufEntry) : State ⊕ State :=
  if entryBlocked s b then .inr s
  else
    let s1 := updWarp s b.who.core b.who.slot w fun x => { x with buf := x.buf.eraseIdx i }
    match entryRes s1 b with
    | .wait t x =>
      let back := fun (t : State) =>
        updWarp t b.who.core b.who.slot w fun y => { y with buf := y.buf.take i ++ b :: y.buf.drop i }
      match x with
      | .pageFault va => .inr (back (finishWaited b.who b.latch b.word (.wait t (.pageFault va))))
      | .pgx va => .inr (back (finishWaited b.who b.latch b.word (.wait t (.pgx va))))
      | .accept => .inr s
      | _ => .inr (back t)
    | .done t => .inl (if entryWaits b then finishWaited b.who b.latch b.word (.done t) else t)
    | .trap t x => .inl (finishWaited b.who b.latch b.word (.trap t x))
    | .jump t _ => .inl t
    | .left t => .inl t
    | .moved t _ => .inl t

/-- The entries of a step, at most n of them; whether the commit may go on. -/
def commitStep (s : State) (core slot k : Nat) : Nat → State × Bool
  | 0 => (s, true)
  | n + 1 =>
    match nextOf (getWg s core slot) k with
    | none => (s, true)
    | some (w, i, b) =>
      match applyEntry s w i b with
      | .inl t => commitStep t core slot k n
      | .inr t => (t, false)

/-- Entries in a workgroup's commit buffers. -/
def bufTotal (g : Wg) : Nat := g.warps.foldl (fun n w => n + w.2.buf.length) 0

/-- The warp waits for a page that PGX holds, which may itself wait for the commit of stores to the page: it counts as ended
(R235, R265; log entry 56). -/
def heldBack (g : Wg) (w : Warp) : Bool :=
  let held := fun (x : Wait) => match x with
    | .pgx _ => true
    | _ => false
  match w.main.wait with
  | .latch k => ((tgetD none g.latches k).map fun l => held l.wait).getD false
  | x => held x

/-- Every live warp's quantum has ended (R265). -/
def roundDone (g : Wg) : Bool := g.warps.all fun w => w.2.live == 0 || w.2.qended || heldBack g w.2

/-- A latch of the workgroup has its word to execute (R105): every member is parked, and none is halted. `eager` asks for the
words that go into the commit buffer. -/
def latchDue (eager : Bool) (g : Wg) : Bool :=
  g.latches.any fun e => match e.2 with
    | none => false
    | some l => l.eager == eager && l.firing && !l.suspended && l.wait == .none && noneHalted g e.1

/-- The commit is complete: QSYNC retires, FENCE goes on to wait for its stores, and the next round begins (R125, R265). -/
def endCommit (s : State) (core slot : Nat) : State :=
  let s := updWg s core slot fun g => { g with firing := false }
  (getWg s core slot).warps.foldl (fun s w =>
    let o := mainOf core slot w.1
    let s := match (warpOf s o).main.wait with
      | .qsync mark => endStep (retire s o mark ((streamOf s o).pc + 4)) o
      | .fenceCommit m => updStream s o fun st => { st with wait := .fence m }
      | _ => s
    let wait := stillWaits s o
    updWarpOf s o fun w => { w with qended := wait, qcount := 0 }) s

/-- The steps of a commit are done: the latches whose words the commit executes fire (R266; log entry 7), then it ends. -/
def fireRest (s : State) (core slot : Nat) : State :=
  if latchDue false (getWg s core slot) then updWg s core slot fun g => { g with firing := true } else endCommit s core slot

/-- Steps 2 and 3 of a commit (R265). -/
def commitRest (s : State) (core slot : Nat) : State :=
  let r := commitStep s core slot 2 (bufTotal (getWg s core slot))
  let s := applyArrivals r.1 core slot
  let r := commitStep s core slot 3 (bufTotal (getWg s core slot))
  if r.2 && (getWg r.1 core slot).phase != .aborted then fireRest r.1 core slot else r.1

/-- DETERMINISTIC_COMMIT (R265): the latches that fire at this commit put their words into the commit buffers (R266), and the
three steps follow. A halted core commits nothing: its storage is stable (R367); nor does a restored workgroup until the baton
that it held is granted to it again, of which no word would have been issued yet (R310). -/
def execDeterministicCommit (core slot : Nat) (s : State) : Host.Outcome State Fault Refusal :=
  match getWg? s core slot with
  | none => .next s
  | some g =>
    if !g.det || !(g.phase == .running || g.phase == .ended) || !roundDone g || g.batonWait || (getCore s core).halting then .next s
    else if g.firing then .next (fireRest s core slot)
    else if latchDue true g then .next (updWg s core slot fun g => { g with entering := true })
    else
      let r := commitStep (updWg s core slot fun g => { g with entering := false }) core slot 1 (bufTotal g)
      if r.2 then .next (commitRest r.1 core slot) else .next r.1

end Sys2Proof.Machine
end

