-- ==== Sys2Proof/Machine/Flags.lean ====
section
/-! DEFINITION. The conditions of R82 in FFLAGS (R122, R153): gathered over sub-elements, lanes and splits. -/

namespace Sys2Proof.Machine

/-- Results and conditions of the sub-elements of width w, packed and gathered. -/
def perSub (w : Nat) (op : Nat → Nat × Flags) : Word × BitVec 5 :=
  (BitVec.ofNat 64 (packEls w (fun j => (op j).1) (64 / w)), (List.range (64 / w)).foldl (fun f j => f ||| (op j).2) 0)

/-- Conditions are ORed into the warp's FFLAGS (R153). -/
def setFlags (s : State) (o : Who) (f : BitVec 5) : State :=
  updWarpOf s o fun w => { w with fflags := w.fflags ||| f }

end Sys2Proof.Machine
end

