-- ==== Sys2Proof/Machine/CrossLane.lean ====
section
/-! DEFINITION. The cross-lane instructions, VOTE and the gate insertion (R167–R175). -/

namespace Sys2Proof.Machine

/-! ### Reading other lanes (R167) -/

/-- The outstanding results that a cross-lane word's source may hold: those of the issuing stream for a scalar, and for a
lane register those of every stream of the warp, whichever lanes they are due in (R167). -/
def crossOuts (s : State) (o : Who) (d : Dst) : List OutRes :=
  match d with
  | .lane _ => allOuts (warpOf s o)
  | .tag => allOuts (warpOf s o)
  | .s _ => outsOf s o | .k _ => outsOf s o | .none => []

/-- A result is outstanding in the source of a cross-lane word at a lane, active or not. -/
def crossLate (s : State) (o : Who) (r : Reg) (l : Nat) : Option Word :=
  let d := regDst (warpOf s o) r
  (crossOuts s o d).findSome? fun e => if e.dst = d then tget? e.vals (laneKey r l) else none

/-- Some present lane of the source holds an outstanding result (R101, R167). -/
def crossOpen (s : State) (o : Who) (r : Reg) : Bool :=
  (lanesOf (warpOf s o).live).any fun l => (crossLate s o r l).isSome

/-- The source value of a lane: its register's, old or new where a result is outstanding in it, a TAG's with MISS set or not
while that is not specified (R136); zero for a lane that has exited or was never launched (R138, R167). -/
def crossVal (s : State) (o : Who) (r : Reg) (l : Nat) : Word :=
  if !(warpOf s o).live.getLsbD l then 0
  else
    let v := match crossLate s o r l with
      | none => held s o r l
      | some v => if pick s (12288 + r.enc.toNat * 32 + laneKey r l) then asHeld r v else held s o r l
    if r = .tag then seenTag s o l v else v

/-- A choice of its own for a word that may read outstanding results, or a TAG whose MISS is not specified, of other lanes. -/
def freshCross (s : State) (o : Who) : State :=
  if (allOuts (warpOf s o)).isEmpty && !((lanesOf (warpOf s o).live).any (missOpen s o)) then s else bump s

/-- A cross-lane word `OPC D, A, B`: the result of each active lane from the lanes' values of A and its own B. In checked
mode an outstanding result in A at any present lane is a hazard, as at an active one (R101). -/
def crossWord (i : Instr) (d a b : Reg) (ok : Bool) (f : (Nat → Word) → Nat → Word → Word) (s : State) :
    Host.Outcome State Fault Refusal :=
  runWord i .lane (fun s o => abd d a b .lane s o && ok) [a, b] false false
    (fun s o =>
      if (wgOf s o).check && crossOpen s o a then .trap s (trapAt 0x1D (a.enc.setWidth 64))
      else
        let s := freshCross s o
        .done (lateLanes s o d ((actives s o).map fun l => (l, f (crossVal s o a) l (rd s o b l))) 0)) s

/-- A reduction `OPC D, A` over the active lanes: one result and its conditions, by lane. -/
def reduceWord (i : Instr) (d a : Reg) (f : List Nat → (Nat → Word) → Nat → Word × BitVec 5) (s : State) :
    Host.Outcome State Fault Refusal :=
  runWord i .lane (fun s o => ad d a .lane s o) [a] false false
    (fun s o =>
      let ls := actives s o
      let rs := ls.map fun l => (l, f ls (rd s o a) l)
      .done (lateLanes s o d (rs.map fun r => (r.1, r.2.1)) (rs.foldl (fun x r => x ||| r.2.2) 0))) s

/-! ### Permutes (R168, R169, R172) -/

/-- XPERM of one lane at width w (R168). -/
def permOf (w : Nat) (src : Nat → Word) (sel : Word) : Word :=
  let k := 64 / w
  BitVec.ofNat 64 (packEls w (fun j =>
    let e := subEl w sel.toNat j
    if e ≥ 32 * k then 0 else subEl w (src (e / k)).toNat (e % k)) k)

/-- XPERM.w (R168). -/
def execXperm (w : Bool) (t : Width) (d a b : Reg) (s : State) : Host.Outcome State Fault Refusal :=
  crossWord (.xperm w t d a b) d a b true (fun src _ sel => permOf (widthBits t) src sel) s

/-- The source lane of XSWZ, none where it falls outside 0–31 (R169). -/
def swzLane (pat : Nat) (l : Nat) : Option Nat :=
  let c := pat % 32
  match pat / 32 with
  | 0 => some (l ^^^ c)
  | 1 => some ((l + c) % 32)
  | 2 => if l + c < 32 then some (l + c) else none
  | _ => if c ≤ l then some (l - c) else none

/-- XSWZ (R169). -/
def execXswz (w : Bool) (d a : Reg) (i : BitVec 7) (s : State) : Host.Outcome State Fault Refusal :=
  crossWord (.xswz w d a i) d a .zr true
    (fun src l _ => match swzLane i.toNat l with
      | none => 0
      | some m => src m) s

/-- XBCAST (R172). -/
def execXbcast (w : Bool) (d a b : Reg) (s : State) : Host.Outcome State Fault Refusal :=
  crossWord (.xbcast w d a b) d a b true (fun src _ sel => src (bits sel 4 0)) s

/-! ### Reductions (R170, R171) -/

/-- One level of the tree: neighbours combined in pairs, conditions gathered. -/
def pairUp (op : Nat → Nat → Nat × Flags) : List (Nat × Flags) → List (Nat × Flags)
  | x :: y :: xs =>
    let r := op x.1 y.1
    (r.1, r.2 ||| x.2 ||| y.2) :: pairUp op xs
  | xs => xs

/-- The fixed binary tree over 32 lanes of one half (R170). -/
def treeOf (op : Nat → Nat → Nat × Flags) (ident : Nat) (ls : List Nat) (v : Nat → Word) (h : Nat) : Nat × Flags :=
  let leaves := (List.range 32).map fun l => (if ls.contains l then subEl 32 (v l).toNat h else ident, flNone)
  (pairUp op (pairUp op (pairUp op (pairUp op (pairUp op leaves))))).headD (ident, flNone)

/-- XSUM.f32 (R170). -/
def execXsumF32 (w : Bool) (d a : Reg) (s : State) : Host.Outcome State Fault Refusal :=
  reduceWord (.xsumF32 w d a) d a (fun ls v _ => perSub 32 (treeOf (fpAdd fmtF32) 0x80000000 ls v)) s

/-- XMAX.f32 (R170). -/
def execXmaxF32 (w : Bool) (d a : Reg) (s : State) : Host.Outcome State Fault Refusal :=
  reduceWord (.xmaxF32 w d a) d a (fun ls v _ => perSub 32 (treeOf (fpMinMax fmtF32 true) 0xFF800000 ls v)) s

/-- XSUM.64 (R171). -/
def execXsum64 (w : Bool) (d a : Reg) (s : State) : Host.Outcome State Fault Refusal :=
  reduceWord (.xsum64 w d a) d a (fun ls v _ => (ls.foldl (fun t l => t + v l) 0, 0)) s

/-- XSCAN.32 (R171). -/
def execXscan32 (w : Bool) (d a : Reg) (s : State) : Host.Outcome State Fault Refusal :=
  reduceWord (.xscan32 w d a) d a
    (fun ls v l => ((ls.filter fun m => decide (m ≤ l)).foldl (fun t m => perEl 32 (fun x y => (x + y) % 2 ^ 32) t (v m)) 0,
      0)) s

/-! ### VOTE (R173) -/

def voteOf (mode : Nat) (ls : List Nat) (v : Nat → Word) : Word :=
  let hit := ls.filter fun l => v l != 0
  let yes := fun (b : Bool) => if b then (1 : Word) else 0
  match mode with
  | 0 => (maskOf hit).setWidth 64
  | 1 => yes (!hit.isEmpty)
  | 2 => yes (ls.all fun l => v l != 0)
  | 3 => yes (ls.all fun l => v l == v (ls.headD 0))
  | _ => BitVec.ofNat 64 hit.length

/-- VOTE (R173). Va may be a scalar source too, as in CKEY and RDFL (R177) [DEDUCED: R173 says only the 64-bit Va of each active
lane; log entry 60]. -/
def execVote (w : Bool) (d a : Reg) (i : BitVec 7) (s : State) : Host.Outcome State Fault Refusal :=
  runWord (.vote w d a i) .warp (fun s o => scalarDst d && anyV s o a && decide (i.toNat ≤ 4)) [a] (isS d) false
    (fun s o => .done (lateScalar s o .warp d (voteOf i.toNat (actives s o) (rd s o a)))) s

/-! ### Gate insertion (R174, R175) -/

/-- A candidate beats a list entry (R175). -/
def beats (c e : Word) : Bool :=
  let cs := fpDecode fmtF32 (bits c 63 32)
  let es := fpDecode fmtF32 (bits e 63 32)
  if bits e 15 0 = 0xFFFF then !isNaN cs
  else if isNaN cs then false
  else if isNaN es then true
  else if valLt es cs then true
  else if valLt cs es then false
  else if bits c 31 16 ≠ bits e 31 16 then decide (bits c 31 16 < bits e 31 16)
  else decide (bits c 15 0 < bits e 15 0)

/-- The list after a candidate: it takes the first place it wins, and the last entry is dropped. -/
def insertTop (c : Word) : List Word → List Word
  | [] => []
  | e :: es => if beats c e then c :: (e :: es).take es.length else e :: insertTop c es

/-- The registers of a list of k from a V field value. -/
def listRegs (d : Reg) (k : Nat) : List Reg :=
  match d with
  | .v n => (List.range k).map fun i => .v (Fin.ofNat 64 (n.val + i))
  | .s _ => [] | .k _ => [] | .zr => [] | .lid => [] | .wid => [] | .emask => [] | .tile => [] | .tseq => []
  | .rcnt => [] | .tag => []

/-- The list is of V registers, does not pass V63, and lies in the allotment (R152, R174). -/
def listOk (s : State) (o : Who) (d : Reg) (k : Nat) : Bool :=
  match d with
  | .v n => decide (n.val + k ≤ 64) && (List.range k).all fun i => vInside s o (n.val + i)
  | .s _ => false | .k _ => false | .zr => false | .lid => false | .wid => false | .emask => false | .tile => false
  | .tseq => false | .rcnt => false | .tag => false

/-- A word of TKINS (R174, R175). -/
def tkins (i : Instr) (k : Nat) (d a b : Reg) (s : State) : Host.Outcome State Fault Refusal :=
  runWord i .lane (fun s o => listOk s o d k && ab a b .lane s o) (a :: b :: listRegs d k) false false
    (fun s o =>
      let regs := listRegs d k
      let lists := (actives s o).map fun l =>
        let c := BitVec.ofNat 64 (bits (rd s o a l) 31 0 * 2 ^ 32 + bits (rd s o b l) 31 0)
        (l, insertTop c (regs.map fun r => rd s o r l))
      let n := nextOut (warpOf s o)
      .done ((List.range k).foldl (fun s j =>
        updWarpOf s o (wrLateAs n o (regs.getD j .zr) (lists.map fun e => (e.1, e.2.getD j 0)) 0)) s)) s

/-- TKINS.2 (R174). -/
def execTkins2 (w : Bool) (d a b : Reg) (s : State) : Host.Outcome State Fault Refusal := tkins (.tkins2 w d a b) 2 d a b s

/-- TKINS.4 (R174). -/
def execTkins4 (w : Bool) (d a b : Reg) (s : State) : Host.Outcome State Fault Refusal := tkins (.tkins4 w d a b) 4 d a b s

/-- TKINS.8 (R174). -/
def execTkins8 (w : Bool) (d a b : Reg) (s : State) : Host.Outcome State Fault Refusal := tkins (.tkins8 w d a b) 8 d a b s

end Sys2Proof.Machine
end

