-- ==== Sys2Proof/Machine/Service.lean ====
section
/-! DEFINITION. Shootdowns (R230, R231, R359) and page-fault service (R236, R237). -/

namespace Sys2Proof.Machine

/-! ### Shootdown (R230) -/

/-- SHOOT as it reads. -/
def shootWord (s : State) : Word := s.shoot ||| (if s.shootOp.isSome then 0x8000000000000000#64 else 0)

/-- Bytes of a page of SHOOT.SIZE. -/
def shootSize (v : Word) : Nat := 2 ^ pageBits (4 - bits v 15 14)

/-- The buffered accesses of a context were translated before the shootdown that begins (R230). -/
def markBefore (s : State) (ctx : Nat) : State :=
  let warp := fun (w : Warp) => { w with buf := w.buf.map fun b => { b with before := true } }
  let wg := fun (g : Wg) => if g.ctx = ctx then { g with warps := tmap warp g.warps } else g
  { s with cores := tmap (fun c => { c with wgs := tmap (fun g => g.map wg) c.wgs }) s.cores,
           saved := s.saved.map fun v => { v with wg := wg v.wg } }

/-- A buffered store or atomic to memory that was translated before the shootdown under way is still to commit. -/
def bufferedBefore (s : State) : Bool :=
  let old := fun (b : BufEntry) => b.before && match b.effect with
    | .store _ ls => ls.any fun l => l.1.isPhys
    | .atomic _ _ _ ls _ _ => ls.any fun x => x.loc.isPhys
    | .barv _ => false | .binit _ _ => false | .tdef _ _ => false | .engine _ => false | .cpyc _ => false
    | .mclose _ _ => false | .tspawn _ _ _ => false | .tsucc _ _ => false | .lateStore _ _ _ _ _ => false
    | .lateAtomic _ _ _ _ _ _ _ => false
  (allWgs s).any fun g => g.warps.any fun w => w.2.buf.any old

/-- A write to SHOOT (R230); none where it raises cause 0x03. -/
def startShoot (s : State) (v : Word) : Option State :=
  if bits v 62 56 ≠ 0 ∨ bits v 7 1 ≠ 0 ∨ s.shootOp.isSome then none
  else
    let ctx := bits v 13 8
    let all := v.getLsbD 0
    let size := shootSize v
    let base := bits v 55 16 * 65536 / size * size
    let lo := if all then 0 else base
    let hi := if all then 2 ^ 56 else base + size
    let s := markBefore (shootPages s ctx lo hi) ctx
    some { s with shoot := v &&& 0x00FFFFFFFFFFFF01#64,
                  shootOp := some { ctx := ctx, lo := lo, hi := hi, all := all, pend := s.pend.length } }

/-- SHOOT (R230). -/
def execShoot (v : Word) (s : State) : Host.Outcome State Fault Refusal := .next ((startShoot s v).getD s)

/-- SHOOTDOWN_COMPLETE (R230, R359): every access through a removed translation has retired, those that commit buffers hold
included; a shootdown of every page lets walks use the context's PTROOT. -/
def execShootdownComplete (s : State) : Host.Outcome State Fault Refusal :=
  match s.shootOp with
  | none => .next s
  | some p =>
    if p.pend ≠ 0 || bufferedBefore s then .next s
    else
      let s := { s with shootOp := none }
      .next (if p.all then updCtx s p.ctx fun c => { c with root := c.ptroot } else s)

/-! ### Page-fault service (R236, R237) -/

/-- A stream that waits for service of a page will take its fault. -/
def refuseStream (page : Nat) (st : Stream) : Stream :=
  match st.wait with
  | .pageFault va => if va.toNat / 65536 * 65536 = page then { st with refused := some va } else st
  | _ => st

/-- A latch waits for service of a page; the address. -/
def latchPage (page : Nat) (l : Option Latch) : Option Word :=
  match l.map Latch.wait with
  | some (.pageFault va) => if va.toNat / 65536 * 65536 = page then some va else none
  | _ => none

/-- The streams, the lowest members of latches, and the staging of a workgroup that wait for a page take the fault. -/
def refuseWg (page : Nat) (g : Wg) : Wg :=
  let split := fun (p : Split) => { p with st := refuseStream page p.st }
  let warp := fun (w : Warp) => { w with main := refuseStream page w.main, splits := w.splits.map split }
  let lowest := fun (g : Wg) (e : Nat × Option Latch) =>
    match latchPage page e.2, members g e.1 with
    | some va, w :: _ =>
      { g with warps := tupd .init g.warps w fun x => { x with main := { x.main with refused := some va } } }
    | _, _ => g
  let g := g.latches.foldl lowest { g with warps := tmap warp g.warps }
  match g.stagePaused with
  | some va =>
    if va.toNat / 65536 * 65536 = page then
      { g with stagePaused := none,
               stageFault := some { cause := 0x09, addr := va, done := g.staged, malf := false, level := 4 } }
    else g
  | none => g

/-- Service of a page is refused: everything that waits for it takes the fault (R236), a saved workgroup as it resumes. -/
def refusePage (s : State) (p : PfReq) : State :=
  let op := fun (q : EngOp) => match q.paused with
    | some va => if q.pageCtx = p.ctx ∧ va.toNat / 65536 * 65536 = p.va then { q with refused := some va, paused := none } else q
    | none => q
  let wg := fun (g : Wg) => if g.ctx = p.ctx then refuseWg p.va g else g
  let core := fun (c : Core) => { c with ops := c.ops.map op, wgs := tmap (fun g => g.map wg) c.wgs }
  let word := fun (o : Who) => if (wgOf s o).ctx = p.ctx then some (BitVec.ofNat 64 p.va) else s.injectNo
  { s with cores := tmap core s.cores, saved := s.saved.map fun v => { v with wg := wg v.wg }, pfNo := if p.pond then s.pfNo ++ [(p.ctx, p.va)] else s.pfNo,
           injectNo := (s.inject.map fun x => word x.1).getD s.injectNo }

/-- A demand entry with its frame (R236). -/
def servedEntry (e : Word) (frame : Nat) : Word :=
  ((e &&& 0x3FF3000000000004#64) ||| 0xC000000000000000#64) ||| BitVec.ofNat 64 frame

/-- A stream or a latch of a workgroup waits for page-fault service. -/
def waitsService (g : Wg) : Bool :=
  let on := fun (w : Wait) => match w with
    | .pageFault _ => true
    | _ => false
  (g.warps.any fun w => on w.2.main.wait || w.2.splits.any fun p => on p.st.wait) ||
    g.latches.any fun l => l.2.any fun l => on l.wait

/-- An access that translated through an entry that a service's shootdown removes has not retired (R230). The commit buffers of
a workgroup that itself waits for service are passed over: its round, and so their commit, waits for the service (DESIGN
CHOICE, log entry 56). -/
def serviceHeld (s : State) (p : PfReq) : Bool :=
  let hits := mapsTo (shotEnts s p.ctx p.va (p.va + 65536))
  (s.pend.any fun x => hits x.pa) || (allWgs s).any fun g => !waitsService g && bufHits g hits

/-- The shootdown of a served page (R230, R231). -/
def shootServed (s : State) (p : PfReq) : State := shootPages s p.ctx p.va (p.va + 65536)

/-- PAGE_FAULT_SERVICE (R236): the n-th service under way. The control processors serve it in hardware mode; what the host has
resolved ends with its shootdown (R230). Where the walk meets a sector that fails its check the access, retried, takes cause
0x0E, and a pool whose head frame fails it gives the fault to the program (R408; log entry 55). -/
def execPageFaultService (n : Nat) (s : State) : Host.Outcome State Fault Refusal :=
  match s.pf[n]? with
  | none => .next s
  | some p =>
    let done := { s with pf := s.pf.eraseIdx n }
    if p.host && !p.answered || serviceHeld s p then .next s
    else if p.answered then .next (shootServed done p)
    else if (walkBad s p.ctx p.va).isSome then .next done
    else
      match walk s p.ctx p.va with
      | .leaf _ _ _ => .next done
      | .stop level malf pte at_ =>
        let frame := bits s.pgpool 47 16 * 65536
        if malf || level != 4 || !pteDemand pte || frame == 0 then .next (refusePage done p)
        else
          match badSector s frame 8 with
          | some b => .next (refusePage (integrityService done p.ctx b) p)
          | none =>
            let t := zeroBytes { done with pgpool := BitVec.ofNat 64 (nextFrame s frame) } frame 65536
            .next (shootServed (devWrite t at_ (bytesOfNat 8 (servedEntry pte frame).toNat)) p)

/-- PFREPLY (R236, R400): the host's reply; one that names no pending event is discarded. A resolved page's shootdown is made
at once where nothing holds it (R230). -/
def execPfreply (v : Word) (s : State) : Host.Outcome State Fault Refusal :=
  let isIt := fun (p : PfReq) => p.host && !p.answered && p.ctx == bits v 13 8 && p.va == bits v 55 16 * 65536
  match s.pf.find? isIt with
  | none => .next s
  | some p =>
    let done := { s with pf := s.pf.filter fun q => !isIt q }
    if !v.getLsbD 0 then .next (refusePage done p)
    else if serviceHeld s p then .next { s with pf := s.pf.map fun q => if isIt q then { q with answered := true } else q }
    else .next (shootServed done p)

end Sys2Proof.Machine
end

