-- ==== Sys2Proof/Machine/Preempt.lean ====
section
/-! DEFINITION. Pre-emption: requests and the choice (R342, R344, R345, R359, R388), saves, flushes and resumes (R360–R362),
and the unwinding of shadow-slot tasks (R342). -/

namespace Sys2Proof.Machine

/-! ### The choice (R344, R345) -/

/-- Work that a header estimates, and cycles run since dispatch, saved intervals left out. -/
def estimateOf (g : Wg) : Nat := g.hdr.estimate.toNat * 1024
def ranFor (s : State) (g : Wg) : Nat := g.earlier + (s.cycle - g.began)

/-- The state in bytes (R344). -/
def stateBytes (g : Wg) : Nat := 4096 * (g.hdr.regs / 16 * g.hdr.warps) + g.hdr.scratch + 8192 + 512 * g.hdr.warps

/-- Allowed options with latency and cost, in the order in which ties go. -/
def options (s : State) (g : Wg) : List (PreOpt × Nat × Nat) :=
  let e := estimateOf g
  let r := ranFor s g
  let l := (stateBytes g + 127) / 128
  (if r < e then [(.drain, e - r, 0)] else []) ++ [(.save, l, 2 * l)] ++ (if recIdem g.record then [(.flush, 256, r)] else [])

/-- The first of the least by a measure. -/
def leastBy (f : PreOpt × Nat × Nat → Nat) (xs : List (PreOpt × Nat × Nat)) : Option (PreOpt × Nat × Nat) :=
  xs.foldl (fun m x => match m with
    | none => some x
    | some y => if f x < f y then some x else some y) none

/-- The option chosen under a bound (R345). -/
def choose (s : State) (g : Wg) (bound : Nat) : PreOpt :=
  let os := options s g
  match leastBy (fun x => x.2.2) (os.filter fun x => decide (x.2.1 ≤ bound)) with
  | some x => x.1
  | none => ((leastBy (fun x => x.2.1) os).map Prod.fst).getD .save

def optCode (o : PreOpt) : Nat :=
  match o with
  | .drain => 1 | .save => 2 | .flush => 3

/-- An option begins (R345): under flush the copies and chains are cancelled as by CPYC, and what was not accepted goes. -/
def beginOpt (s : State) (ctx core slot : Nat) (o : PreOpt) : State :=
  let s := updCtx s ctx fun c => { c with pre := { c.pre with opt := optCode o, ask := false } }
  let s := updWg s core slot fun g => { g with preempt := some o }
  match o with
  | .drain => s
  | .save => s
  | .flush =>
    updCore s core fun c =>
      { c with
        ops := c.ops.map fun p => if p.who.slot == slot && !isMatrix p.kind && p.kind != .coll then { p with cancelled := true } else p
        waiting := c.waiting.filter fun p => p.who.slot != slot }

/-! ### Requests (R359, R388) -/

/-- The running workgroup of a context in a slot. -/
def target? (s : State) (ctx core slot : Nat) : Option Wg :=
  match getWg? s core slot with
  | none => none
  | some g => if g.ctx = ctx ∧ g.phase ≠ .staging ∧ g.phase ≠ .staged then some g else none

/-- The shadow task of a context in shadow slot k of a core, with its workgroup slot. -/
def shadowTask (s : State) (ctx core k : Nat) : Option Nat :=
  (getCore s core).shadow.find? fun n => (getWg s core n).shadow == k && (getWg s core n).ctx == ctx

/-- A request for a running workgroup: the device chooses, or asks the host (R345, R388). One that has ended has freed its
partition slots: its drain is met at once (log entry 57). -/
def requestRunning (s : State) (ctx core slot : Nat) (g : Wg) : State :=
  if g.phase ≠ .running then preMet s ctx (optCode .drain)
  else if s.dsplit.getLsbD 1 then
    let s := updCtx s ctx fun c => { c with pre := { c.pre with ask := true } }
    postEvent s ctx 8 (preWord (getCtx s ctx).pre)
  else beginOpt s ctx core slot (choose s g (bits (getCtx s ctx).pre.val 31 0))

/-- A write to PREEMPT (R359); none where it raises cause 0x03. -/
def startPreempt (s : State) (ctx : Nat) (v : Word) : Option State :=
  let core := bits v 47 40
  if bits v 60 48 ≠ 0 ∨ v.getLsbD 32 ∨ core > 159 ∨ (getCtx s ctx).pre.busy then none
  else
    let req := fun (s : State) (busy : Bool) (slot : Nat) =>
      updCtx s ctx fun c => { c with pre := { busy := busy, opt := 0, val := v, slot := slot, ask := false } }
    if !v.getLsbD 63 then some (req s false 0)
    else if v.getLsbD 34 then
      match shadowTask s ctx core (bits v 35 35) with
      | none => some (preMet (req s true 0) ctx 0)
      | some n => some (req s true n)
    else
      let slot := bits v 39 35
      match target? s ctx core slot with
      | none => some (preMet (req s true slot) ctx 0)
      | some g => some (requestRunning (req s true slot) ctx core slot g)

/-- PREEMPT_REQUEST (R345, R359). -/
def execPreemptRequest (ctx : Nat) (v : Word) (s : State) : Host.Outcome State Fault Refusal :=
  .next ((startPreempt s ctx v).getD s)

/-- PDECIDE (R388, R400): the host's choice for the request that it names. -/
def execPdecide (v : Word) (s : State) : Host.Outcome State Fault Refusal :=
  let asks := s.ctxs.find? fun e => e.2.pre.busy && e.2.pre.ask && bits e.2.pre.val 47 35 == bits v 47 35
  let o := match bits v 62 61 with
    | 1 => some PreOpt.drain
    | 2 => some .save
    | 3 => some .flush
    | _ => none
  match asks, o with
  | some e, some o =>
    match target? s e.1 (bits e.2.pre.val 47 40) e.2.pre.slot with
    | none => .next (preMet s e.1 0)
    | some _ => .next (beginOpt s e.1 (bits e.2.pre.val 47 40) e.2.pre.slot o)
  | _, _ => .next s

/-! ### Shadow-slot tasks (R342) -/

/-- The context whose request names shadow slot k of a core, to cancel it or to pre-empt it. -/
def shadowReq (s : State) (core k : Nat) (cancel : Bool) : Option (Nat × PreReq) :=
  (s.ctxs.find? fun e =>
    let p := e.2.pre
    p.busy && p.opt == 0 && !p.ask && p.val.getLsbD 34 && p.val.getLsbD 33 == cancel && bits p.val 47 40 == core
      && bits p.val 35 35 == k).map fun e => (e.1, e.2.pre)

/-- The entry that a task goes back as (R342, R345). -/
def entryOf (g : Wg) : PondEnt := newEnt g.ctx g.record g.addr.toNat g.tseq

/-- SHADOW_PREEMPT (R342): until an instruction of it has issued, the task is unwound and goes back to the head of its level,
once the pond has room; later it is pre-empted as a running workgroup. -/
def execShadowPreempt (core k : Nat) (s : State) : Host.Outcome State Fault Refusal :=
  match shadowReq s core k false with
  | none => .next s
  | some (ctx, p) =>
    match getWg? s core p.slot with
    | none => .next (preMet s ctx 0)
    | some g =>
      if g.started then .next (requestRunning s ctx core p.slot g)
      else if pondRoom s (dieOf core) then
        .next (preMet (pushFront (freeWg s core p.slot) (dieOf core) (entryOf g)) ctx 0)
      else .next s

/-- SHADOW_CANCEL (R342): the task is unwound and discarded; once an instruction of it has issued, cancellation does not
apply. -/
def execShadowCancel (core k : Nat) (s : State) : Host.Outcome State Fault Refusal :=
  match shadowReq s core k true with
  | none => .next s
  | some (ctx, p) =>
    .next (preMet (if (getWg s core p.slot).started then s else freeWg s core p.slot) ctx 0)

/-! ### The save frame (R361) -/

/-- Bytes of the 2 MiB frame. -/
abbrev frameSize : Nat := 0x200000

/-- The readable header of a frame. -/
def frameHeader (s : State) (g : Wg) (waiting : Bool) : List Byte :=
  bytesOfNat 2 0xC6F5 ++ bytesOfNat 1 1 ++ bytesOfNat 1 g.hdr.warps ++ bytesOfNat 1 (g.hdr.regs / 16) ++ bytesOfNat 1 g.hdr.split
    ++ bytesOfNat 1 ((if waiting then 1 else 0) + (if g.det then 2 else 0)) ++ bytesOfNat 1 g.ctx
    ++ bytesOfNat 4 g.hdr.scratch ++ bytesOfNat 4 0 ++ bytesOfNat 8 (ranFor s g) ++ bytesOfNat 8 g.tseq.toNat
    ++ bytesOfNat 32 0

/-- Bytes of a frame that are Ulimet's own encoding (R361), at an offset. -/
def ownBytes (id at_ n : Nat) : List Byte := (List.range n).map fun i => Config.frameByte id (at_ + i)

/-- The bytes of an accumulator row of a frame: those of a row that the save kept, by column. -/
def accBytes (id : Nat) (acc : Table (List (BitVec 32))) (j : Nat) : List Byte :=
  match tget? acc j with
  | some r => r.flatMap fun x => bytesOfNat 4 x.toNat
  | none => ownBytes id (0x1A6000 + 512 * j) 512

/-- The parts of a frame that software cannot read, as offset and contents (R361). -/
def closedParts (id : Nat) (g : Wg) : List (Nat × List Byte) :=
  (0x80, ownBytes id 0x80 8064)
    :: (List.range g.hdr.warps).map (fun w => (0x2000 + 512 * w + 448, ownBytes id (0x2000 + 512 * w + 448) 64))
    ++ (List.range 192).map (fun j => (0x1A6000 + 512 * j, accBytes id g.accSaved j))
    ++ [(0x1BE000, ownBytes id 0x1BE000 270336)]

/-- S0–S47 and K0–K7 of a warp. -/
def scalarBytes (w : Warp) : List Byte :=
  (List.range 48).flatMap (fun i => bytesOfNat 8 (tgetD 0 w.s i).toNat)
    ++ (List.range 8).flatMap fun i => bytesOfNat 8 (tgetD 0 w.main.k i).toNat

/-- The lane registers of a warp, by register and lane. -/
def laneBytes (w : Warp) (a : Nat) : List Byte := (List.range (a * 32)).flatMap fun k => bytesOfNat 8 (tgetD 0 w.v k).toNat

/-- Scratchpad bytes keep their checks in a frame (R408): a sector whose check does not match does not match there. -/
def carryChecks (s : State) (core slot frame : Nat) : State :=
  { s with checks := s.coreChecks.foldl (fun t e =>
      if e.1.1 = core ∧ e.1.2.1 = some slot then tput t ((frame + 0x106000) / 32 + e.1.2.2) e.2 else t) s.checks }

/-- Write a frame (R361); the workgroup's `accSaved` holds the accumulator rows that it keeps. -/
def writeFrame (s : State) (frame id : Nat) (g : Wg) (waiting : Bool) : State :=
  let n := g.hdr.warps
  let a := g.hdr.regs
  let s := devWrite s frame (frameHeader s g waiting)
  let s := devWrite s (frame + 0x40) g.record
  let s := (closedParts id g).foldl (fun s p => devWrite s (frame + p.1) p.2) s
  let s := (List.range n).foldl (fun s w =>
    let x := tgetD .init g.warps w
    let s := devWrite s (frame + 0x2000 + 512 * w) (scalarBytes x)
    devWrite s (frame + 0x6000 + w * a * 256) (laneBytes x a)) s
  devWrite s (frame + 0x106000) (g.scratch.rdN 0 g.hdr.scratch)

/-- The closed parts are as the save wrote them, and every sector's check holds (R362, R408). -/
def frameGood (s : State) (v : SavedWg) : Bool :=
  (badSector s v.frame frameSize).isNone &&
    (closedParts v.id v.wg).all fun p => devRead s (v.frame + p.1) p.2.length == p.2

/-- The state that a frame restores: registers, scalars and scratchpad as its readable parts hold them (R361). -/
def readFrame (s : State) (v : SavedWg) : Wg :=
  let a := v.wg.hdr.regs
  let word := fun (at_ : Nat) => BitVec.ofNat 64 (natOfBytes (devRead s (v.frame + at_) 8))
  let warp := fun (e : Nat × Warp) =>
    let w := e.1
    (w, { e.2 with
      s := (List.range 48).map fun i => (i, word (0x2000 + 512 * w + 8 * i))
      main := { e.2.main with k := (List.range 8).map fun i => (i, word (0x2000 + 512 * w + 384 + 8 * i)) }
      v := (List.range (a * 32)).map fun k => (k, word (0x6000 + (w * a * 32 + k) * 8)) })
  { v.wg with warps := v.wg.warps.map warp,
              scratch := Memory.wrN [] 0 (devRead s (v.frame + 0x106000) v.wg.hdr.scratch) }

/-- The head of the list of free frames that a workgroup uses (R359): that of SAVEA as it stood at placement. -/
def saveHead (s : State) (g : Wg) : Nat :=
  let c := getCtx s g.ctx
  bits (if g.saveNo = c.saveNo then c.savea else tgetD 0 c.saveOld g.saveNo) 47 21 * frameSize

/-- Another frame becomes the head of that list. -/
def setHead (s : State) (g : Wg) (frame : Nat) : State :=
  updCtx s g.ctx fun c =>
    if g.saveNo = c.saveNo then { c with savea := BitVec.ofNat 64 frame }
    else { c with saveOld := tput c.saveOld g.saveNo (BitVec.ofNat 64 frame) }

/-- The frame that a free frame names next; a link whose sector fails its check names none (R408; log entry 55). -/
def nextSaveFrame (s : State) (frame : Nat) : Nat :=
  if (badSector s frame 8).isSome then 0 else bits (BitVec.ofNat 64 (natOfBytes (devRead s frame 8))) 47 21 * frameSize

/-- The integrity service of the first sector of [pa, pa + n) that fails its check, if one does (R408). -/
def serviceBad (s : State) (ctx pa n : Nat) : State := ((badSector s pa n).map (integrityService s ctx)).getD s

/-- A frame goes back to the head of its list (R362). -/
def returnFrame (s : State) (g : Wg) (frame : Nat) : State :=
  setHead (devWrite s frame (bytesOfNat 8 (saveHead s g))) g frame

/-! ### Saving (R360) -/

/-- Outstanding results of every stream of a workgroup return, and the rows that its commands missed stand in its TAGs. -/
def settleWg (s : State) (core slot : Nat) : State :=
  updWg ((getWg s core slot).warps.foldl (fun s w => settleAll s (mainOf core slot w.1)) s) core slot endMisses

/-- What a save has to wait for (R360 steps 2 and 3), and room for its entry (R334). -/
def saveReady (s : State) (core slot : Nat) : Bool :=
  !((getCore s core).ops.any fun p => p.who.slot == slot)
    && !(s.pend.any fun p => (p.who.core == core && p.who.slot == slot) || ownWriteBack (getWg s core slot) p)
    && pondRoom s (dieOf core)

/-- Groups of a slot among the baton's waiters. -/
def waitsOf (c : Core) (slot : Nat) : List Nat := (c.waiters.filter fun q => q.slot == slot).map Group.g

/-- Rows that a save keeps (R302): those it still keeps from an earlier save, and those written since the last TAKE. -/
def keptRows (c : Core) (g : Wg) : Table (List (BitVec 32)) :=
  if g.batonWait || !g.accSaved.isEmpty then g.accSaved else g.accRows.map fun r => (r, tgetD zeroRow c.acc r)

/-- The workgroup leaves its core into a frame (R360 steps 2–7). -/
def saveWg (s : State) (core slot frame : Nat) : State :=
  let s := settleWg s core slot
  let c := getCore s core
  let g := getWg s core slot
  let baton := match c.baton with
    | some q => if q.slot = slot then some q.g else none
    | none => none
  let id := s.nextId
  let r := ranFor s g
  let s := serviceBad (setHead { s with nextId := id + 1 } g (nextSaveFrame s frame)) g.ctx frame 8
  let kept := { g with withdrawn := c.waiting.filter (fun p => p.who.slot == slot), accSaved := keptRows c g, preempt := none }
  let s := carryChecks (writeFrame s frame id kept (baton.isSome || g.batonWait)) core slot frame
  let kept := { kept with earlier := r }
  let v : SavedWg := { id := id, frame := frame, wg := kept, die := dieOf core, baton := baton, waits := waitsOf c slot }
  let s := updCore s core fun c => { c with waiting := c.waiting.filter fun p => p.who.slot != slot }
  let s := freeWg { s with saved := s.saved ++ [v] } core slot
  let s := pushFront s (dieOf core) { entryOf g with saved := some id }
  if preNames s g.ctx core slot then preMet s g.ctx 2 else s

/-- PREEMPT_SAVE (R360): first the dirty lines that its task stored go out; then it waits for its commands, its writes and a
frame. -/
def execPreemptSave (core slot : Nat) (s : State) : Host.Outcome State Fault Refusal :=
  match getWg? s core slot with
  | none => .next s
  | some g =>
    if g.preempt != some .save || g.phase != .running then .next s
    else if (getCore s core).l1.any (ownDirty s core slot) then
      .next (flushLines s (mainOf core slot 0) false (ownDirty s core slot))
    else if !saveReady s core slot || saveHead s g == 0 then .next s
    else .next (saveWg s core slot (saveHead s g))

/-- PREEMPT_FLUSH (R345): the workgroup is discarded, and its record goes back to the head of its level. -/
def execPreemptFlush (core slot : Nat) (s : State) : Host.Outcome State Fault Refusal :=
  match getWg? s core slot with
  | none => .next s
  | some g =>
    if g.preempt != some .flush || g.phase != .running || !saveReady s core slot then .next s
    else
      let s := pushFront (freeWg s core slot) (dieOf core) (entryOf g)
      .next (if preNames s g.ctx core slot then preMet s g.ctx 3 else s)

/-! ### Resuming (R362) -/

/-- The stream of a workgroup that moved to another core or slot. -/
def movedWho (core slot : Nat) (o : Who) : Who := { o with core := core, slot := slot }

def movedOp (core slot : Nat) (p : EngOp) : EngOp := { p with who := movedWho core slot p.who }

def movedEntry (core slot : Nat) (b : BufEntry) : BufEntry :=
  let e := match b.effect with
    | .engine op => .engine (movedOp core slot op)
    | .store p l => .store p l
    | .atomic a p n l d k => .atomic a p n l d k
    | .barv x => .barv x
    | .binit x v => .binit x v
    | .tdef t a => .tdef t a
    | .cpyc x => .cpyc x
    | .mclose d sc => .mclose d sc
    | .tspawn r a x => .tspawn r a x
    | .tsucc a x => .tsucc a x
    | .lateStore k p n a v => .lateStore k p n a v
    | .lateAtomic q p n a x y d => .lateAtomic q p n a x y d
  { b with who := movedWho core slot b.who, effect := e }

def movedWg (core slot : Nat) (g : Wg) : Wg :=
  { g with warps := tmap (fun w => { w with buf := w.buf.map (movedEntry core slot) }) g.warps }

/-- The halt of a core that the workgroup has left stops its warps no more (R367). -/
def leftHalt (g : Wg) : Wg := { g with warps := tmap (fun w => if w.stop = 1 then { w with stop := 0 } else w) g.warps }

/-- A saved workgroup in its new slot, with its groups waiting for the baton and its withdrawn commands presented again
(R310, R362). -/
def resumeWg (s : State) (core slot : Nat) (v : SavedWg) : State :=
  let g := leftHalt (movedWg core slot (readFrame s v))
  let ws := (v.baton.toList ++ v.waits).map fun n => ({ slot := slot, g := n } : Group)
  let s := updCore s core fun c =>
    { putWg c slot (some { g with began := s.cycle, batonWait := v.baton.isSome || g.batonWait, withdrawn := [] }) with
      waiters := c.waiters ++ ws, waiting := c.waiting ++ g.withdrawn.map (movedOp core slot) }
  updCore s core fun c =>
    match c.baton, lowestGroup ws with
    | none, some q => giveBaton c q
    | _, _ => c

/-- A workgroup whose frame does not check aborts with KIND 7 (R356, R362); a sector that fails its check is reported (R408). -/
def resumeBad (s : State) (core slot : Nat) (v : SavedWg) : State :=
  let at_ := (badSector s v.frame frameSize).getD v.frame
  let s := serviceBad s v.wg.ctx v.frame frameSize
  let s := updCore s core fun c => putWg c slot (some { movedWg core slot v.wg with withdrawn := [] })
  let s := stopWg (flushStores s core slot) core slot .aborted
  postRecord s v.wg.farea
    { cause := 0x0E, kind := 7, core := core, wid := 0xFF, slot := slot, ctx := v.wg.ctx, flags := 0, nsplit := 0,
      tseq := v.wg.tseq, tpc := addrWord v.wg.entry, taddr := BitVec.ofNat 64 at_, tlanes := 0, tinfo := 0, splits := [] }

/-- WORKGROUP_RESUME (R335, R362): a saved workgroup that comes first among the pond's candidates and fits on a core. -/
def execWorkgroupResume (die : Nat) (s : State) : Host.Outcome State Fault Refusal :=
  match ((placeFirst die (candidates s die)).run s).1 with
  | .ok (.resume e core) =>
    match e.saved.bind (findSaved s), freeWgSlot (getCore s core) with
    | some v, some slot =>
      let s := takeSplit (takePond { s with saved := s.saved.filter fun x => x.id != v.id } die e.level) core v.wg.hdr.split
      if frameGood s v then
        let s := resumeWg s core slot v
        .next (returnFrame s v.wg v.frame)
      else .next (resumeBad s core slot v)
    | _, _ => .next s
  | _ => .next s

end Sys2Proof.Machine
end

