-- ==== Sys2Proof/Machine/Micro.lean ====
section
/-! DEFINITION. The microcode store (R66, R389, R390), the security-version counter (R387, R411), microcoded words, and words
that raise a decode trap (R67). -/

namespace Sys2Proof.Machine

/-! ### Microcoded words (R66) -/

/-- Register positions D, A and B of a format code (R389, R51). -/
def regPositions (fmt : Nat) : Bool × Bool × Bool :=
  match fmt with
  | 1 => (true, true, true)
  | 2 => (true, true, false)
  | 3 => (false, true, true)
  | 5 => (true, false, false)
  | 6 => (true, false, false)
  | _ => (false, false, false)

/-- Positions that a format leaves unused (R53): N none of the three, I only B. -/
def unusedPositions (fmt : Nat) : Bool × Bool × Bool :=
  match fmt with
  | 0 => (true, true, true)
  | 4 => (true, true, false)
  | _ => (false, false, false)

/-- A position breaks R53: unused and not zero, or fixed and not ZR or zero. -/
def badPosition (unused fixed reg : Bool) (x : BitVec 7) : Bool :=
  (unused && x != 0) || (fixed && x != (if reg then 120 else 0))

/-- A word breaks R53 under its entry's format and fixed positions. -/
def microFixedBad (e : MicroEnt) (x : BitVec 32) : Bool :=
  let r := regPositions e.fmt
  let u := unusedPositions e.fmt
  badPosition u.1 (e.fixed.getLsbD 0) r.1 (fieldD x) || badPosition u.2.1 (e.fixed.getLsbD 1) r.2.1 (fieldA x)
    || badPosition u.2.2 (e.fixed.getLsbD 2) r.2.2 (fieldB x)

/-- The entry writes a register: formats R, RI and L, but for a fixed D. -/
def microWrites (e : MicroEnt) : Bool := (e.fmt == 1 || e.fmt == 2 || e.fmt == 5) && !e.fixed.getLsbD 0

/-- The operands that an entry reads: its register positions. D of a format R, RI or L is counted too, as a body may read what
stands in it [DESIGN CHOICE: the spec does not say what a body reads; log entry 60]. -/
def microSrcs (e : MicroEnt) (x : BitVec 32) : List Reg :=
  let r := regPositions e.fmt
  (if r.1 && !e.fixed.getLsbD 0 then [Reg.dec (fieldD x)] else [])
    ++ (if r.2.1 && !e.fixed.getLsbD 1 then [Reg.dec (fieldA x)] else [])
    ++ (if r.2.2 && !e.fixed.getLsbD 2 then [Reg.dec (fieldB x)] else [])

/-- The operands are of their classes (R55). -/
def microOperands (e : MicroEnt) (x : BitVec 32) (sc : Scope) (s : State) (o : Who) : Bool :=
  let r := regPositions e.fmt
  (!r.1 || e.fixed.getLsbD 0 || (if e.fmt = 6 then srcOk s o sc (Reg.dec (fieldD x)) else dstOk s o sc (Reg.dec (fieldD x))))
    && (!r.2.1 || e.fixed.getLsbD 1 || srcOk s o sc (Reg.dec (fieldA x)))
    && (!r.2.2 || e.fixed.getLsbD 2 || srcOk s o sc (Reg.dec (fieldB x)))

/-- What a patched instruction does: its body is Ulimet's own, so that the value it gives its destination is free; it is
variable-latency (R389, log entry 21). -/
def microEffect (e : MicroEnt) (x : BitVec 32) (sc : Scope) (s : State) (o : Who) : Res :=
  if !microWrites e then .done s
  else
    let d := Reg.dec (fieldD x)
    let r := regPositions e.fmt
    let src := fun (reg : Bool) (f : BitVec 7) (l : Nat) => if reg then rd s o (Reg.dec f) l else f.setWidth 64
    let val := fun (l : Nat) =>
      Config.microResult (s.free * 32 + l) (rd s o d l) (src r.2.1 (fieldA x) l) (src r.2.2 (fieldB x) l)
    if sc = .lane then .done (lateLanes (bump s) o d ((actives s o).map fun l => (l, val l)) 0)
    else .done (lateScalar (bump s) o sc d (val 0))

/-- A trap that comes before every other check, in the mode at hand (R67). -/
def earlyTrap (x : BitVec 32) (sc : Scope) (c : BitVec 8) (s : State) : State :=
  let o := s.cur.who
  match s.cur.mode with
  | .issue => trapHere s o (trapOf c) x
  | .inject m => finishInject s (if m = 0 then .done s else .trap s (trapOf c))
  | .fire =>
    match latchOf s o sc with
    | none => s
    | some g => finishFire o g x (.trap s (trapOf c))

/-- A word of opcode 0xF5–0xFF (R66, R67 steps 2 and 4). One that is parked at a latch reads its entry again as the latch fires,
and traps 0x05 where the entry has gone empty [DESIGN CHOICE: the spec does not say; log entry 60]. -/
def execMicrocoded (x : BitVec 32) (s : State) : Host.Outcome State Fault Refusal :=
  let sc := Scope.dec (fieldSC x)
  match tget? s.micro (fieldOP x).toNat with
  | none => .next (earlyTrap x sc 0x05 s)
  | some e =>
    if microFixedBad e x then .next (earlyTrap x sc 0x01 s)
    else runWord (.microcoded x) sc (microOperands e x sc) (microSrcs e x) (microWrites e && writesS sc (Reg.dec (fieldD x)))
      false (microEffect e x sc) s

/-! ### Words that are no instruction (R67) -/

/-- The cause of a word that is no instruction of the map, under the steps of R67. -/
def illegalCause (s : State) (o : Who) (x : BitVec 32) : BitVec 8 :=
  let sc := Scope.dec (fieldSC x)
  if unassigned (fieldOP x) then 0x01
  else if !fixedOk x then 0x01
  else if privileged x && !(wgOf s o).sys then 0x04
  else if !(scopesOf s (fieldOP x)).contains sc then 0x02
  else if (sc == .set || sc == .block) && inClass s o then 0x13
  else 0x03

/-- ILLEGAL_INSTRUCTION (R67): a word that is an instruction of the map is none of these. -/
def execIllegalInstruction (word : BitVec 32) (s : State) : Host.Outcome State Fault Refusal :=
  match decode word with
  | .instr _ => .next s
  | .reject _ =>
    let o := s.cur.who
    let t := trapOf (illegalCause s o word)
    match s.cur.mode with
    | .inject m => .next (finishInject s (if m = 0 then .done s else .trap s t))
    | .issue => .next (trapHere s o t word)
    | .fire => .next s

/-! ### Loading patches (R389, R390) -/

/-- MCODE (R66): the factory entries always, and the patched ones. -/
def mcodeWord (s : State) : Word :=
  BitVec.ofNat 64 (0x1F + (s.micro.filter fun e => decide (0xF5 ≤ e.1) && decide (e.1 ≤ 0xFF)).foldl (fun n e => n + 2 ^ (e.1 - 0xF0)) 0)

/-- The MCLOAD layout of a route. -/
def routeWord (r : McRoute) : Word := BitVec.ofNat 64 ((if r.busy then 2 ^ 63 else 0) + r.res * 2 ^ 60 + r.addr)

/-- Verification of a patch ends with a result, and event 7 is posted (R390, R398). -/
def postPatched (s : State) (r : McRoute) : State := postEvent s r.ctx 7 (routeWord r)

/-- A write to MCLOAD for a context (R390); none where it raises cause 0x03. -/
def startMcload (s : State) (ctx : Nat) (v : Word) : Option State :=
  if bits v 59 48 ≠ 0 ∨ bits v 5 0 ≠ 0 ∨ s.mcload.busy then none
  else
    let addr := bits v 47 6 * 64
    if s.dsplit.getLsbD 3 then
      let r : McRoute := { busy := false, res := 6, addr := addr, ctx := ctx }
      some (postPatched { s with mcload := r } r)
    else some { s with mcload := { busy := true, res := 0, addr := addr, ctx := ctx } }

/-- MCLOAD (R390). -/
def execMcload (v : Word) (s : State) : Host.Outcome State Fault Refusal := .next ((startMcload s s.ctxselW v).getD s)

/-- PATCH (R390, R400): the route of the management window. A write that the layout refuses is discarded. -/
def execPatch (v : Word) (s : State) : Host.Outcome State Fault Refusal :=
  if bits v 59 48 ≠ 0 ∨ bits v 5 0 ≠ 0 ∨ s.patch.busy then .next s
  else
    let addr := bits v 47 6 * 64
    if s.dsplit.getLsbD 3 then .next { s with patch := { busy := true, res := 0, addr := addr, ctx := s.ctxselW } }
    else
      let r : McRoute := { busy := false, res := 6, addr := addr, ctx := s.ctxselW }
      .next (postPatched { s with patch := r } r)

/-- The layout of R389 holds. -/
def patchLayout (bs : List Byte) : Bool :=
  field bs 0 1 == 0xC6AC && field bs 2 2 == 1 && decide (field bs 5 5 ≤ 7) && decide (field bs 6 6 < 16)
    && decide (field bs 7 7 < 8) && BitVec.ofNat 64 (field bs 8 15) &&& ~~~Config.feat0 == 0 && decide (field bs 4 4 ≤ 63)
    && field bs 20 63 == 0

/-- A patch's body length fits its layout (R389), and the patch lies in device memory. -/
def patchFits (addr blen : Nat) : Bool :=
  homeOf addr == .device && blen % 4 == 0 && decide (4 ≤ blen) && decide (blen ≤ 16384)
    && decide (addr + 160 + blen ≤ Config.deviceEnd)

/-- The first sector that a patch's verification reads and that fails its check (R408): of its header, then of the whole. -/
def patchBad (s : State) (addr : Nat) : Option Nat :=
  match badSector s addr 64 with
  | some b => some b
  | none =>
    let blen := field (physRead s 0 addr 64) 16 19
    if patchFits addr blen then badSector s addr (160 + blen) else none

/-- The result of verifying a patch (R390; the order of the checks is log entry 22), and the patch. -/
def verifyPatch (s : State) (addr : Nat) : Nat × List Byte :=
  let blen := field (physRead s 0 addr 64) 16 19
  if (patchBad s addr).isSome || !patchFits addr blen then (4, [])
  else
    let bs := devRead s addr (160 + blen)
    if !Config.patchSigned bs then (2, bs)
    else if field bs 4 4 < s.secver then (3, bs)
    else if !patchLayout bs then (4, bs)
    else if field bs 3 3 < 0xF5 then (5, bs)
    else (1, bs)

/-- An entry of the store. -/
def microOf (bs : List Byte) : MicroEnt :=
  { svn := field bs 4 4, fmt := field bs 5 5, scopes := BitVec.ofNat 4 (field bs 6 6), fixed := BitVec.ofNat 3 (field bs 7 7),
    bytes := bs }

/-- Verify and install the patch of a route. -/
def finishPatch (s : State) (r : McRoute) : State × McRoute :=
  let v := verifyPatch s r.addr
  let s := match patchBad s r.addr with
    | some b => integrityService s r.ctx b
    | none => s
  let s := if v.1 = 1 then { s with micro := tput s.micro (field v.2 3 3) (microOf v.2) } else s
  (s, { r with busy := false, res := v.1 })

/-- MICROCODE_PATCH_COMPLETE (R390). -/
def execMicrocodePatchComplete (s : State) : Host.Outcome State Fault Refusal :=
  if s.mcload.busy then
    let r := finishPatch s s.mcload
    .next (postPatched { r.1 with mcload := r.2 } r.2)
  else if s.patch.busy then
    let r := finishPatch s s.patch
    .next (postPatched { r.1 with patch := r.2 } r.2)
  else .next s

/-- SVRAISE (R400, R411): the counter never falls; a rise empties the entries below it. -/
def execSvraise (v : Word) (s : State) : Host.Outcome State Fault Refusal :=
  let n := bits v 6 0
  if bits v 15 8 ≠ 0x5A ∨ bits v 63 16 ≠ 0 ∨ v.getLsbD 7 ∨ n ≤ s.secver ∨ 64 < n then .next s
  else .next { s with secver := n, micro := s.micro.filter fun e => decide (n ≤ e.2.svn) }

end Sys2Proof.Machine
end

