-- ==== Sys2Proof/Machine/Debug.lean ====
section
/-! DEFINITION. The debugger (R366–R369): halts, breakpoints, stepping, injection and the selected register. -/

namespace Sys2Proof.Machine

/-! ### Cores -/

/-- Change every warp of a core. -/
def mapWarps (c : Core) (f : Warp → Warp) : Core :=
  { c with wgs := tmap (fun g => g.map fun g => { g with warps := tmap f g.warps }) c.wgs }

/-- A core halt begins (R367): issue stops, and commands that are not accepted are held. -/
def haltCore (s : State) (core : Nat) : State :=
  updCore s core fun c =>
    let c := mapWarps c fun w => if w.stop = 0 ∧ w.live ≠ 0 then { w with stop := 1 } else w
    { c with halting := true }

/-- HALT_CORE (R367). -/
def execHaltCore (core : Nat) (s : State) : Host.Outcome State Fault Refusal := .next (haltCore s core)

/-- CORE_HALT_COMPLETE (R367): the accepted commands have completed. -/
def execCoreHaltComplete (core : Nat) (s : State) : Host.Outcome State Fault Refusal :=
  let c := getCore s core
  if c.halting && c.ops.isEmpty then .next (updCore s core fun c => { c with halted := true }) else .next s

/-- The commands that a halt held are released in their order (R367): each in turn is accepted, or waits on as any does. -/
def releaseHeld (s : State) (core : Nat) : State :=
  (getCore s core).waiting.foldl (fun s op =>
    match (getCore s core).waiting.findIdx? (· == op) with
    | none => s
    | some n => acceptWaiting s core n) s

/-- A core resumes (R367): a word that waits to be injected into one of the warps that the halt stopped is given up. -/
def resumeCore (s : State) (core : Nat) : State :=
  let s := dropInject s fun o => o.core == core && (getWarp s o.core o.slot o.warp).stop == 1
  let s := updCore s core fun c =>
    let c := mapWarps c fun w => if w.stop = 1 then { w with stop := 0 } else w
    { c with halting := false, halted := false }
  releaseHeld s core

/-- RESUME_CORE (R367). -/
def execResumeCore (core : Nat) (s : State) : Host.Outcome State Fault Refusal := .next (resumeCore s core)

/-! ### Warps -/

/-- A warp that has started and has not exited. -/
def warpLives (s : State) (core slot warp : Nat) : Bool := (getWarp s core slot warp).live != 0

/-- A warp is halted. -/
def isHalted (s : State) (core slot warp : Nat) : Bool :=
  warpLives s core slot warp && (getWarp s core slot warp).stop != 0

/-- A warp halt (R367). -/
def haltWarp (s : State) (core slot warp : Nat) : State :=
  if warpLives s core slot warp && (getWarp s core slot warp).stop == 0 then
    updWarp s core slot warp fun w => { w with stop := 2 }
  else s

/-- HALT_WARP (R367). -/
def execHaltWarp (core slot warp : Nat) (s : State) : Host.Outcome State Fault Refusal := .next (haltWarp s core slot warp)

/-- A warp resumes (R368), which ends a step of it or an injection into it; on a halting core it stays in the core's halt. -/
def resumeWarp (s : State) (core slot warp : Nat) : State :=
  if isHalted s core slot warp then
    let s := dropInject s fun o => o.core == core && o.slot == slot && o.warp == warp
    let s := if (getWarp s core slot warp).step.isSome then { s with dbgBusy := false } else s
    updWarp s core slot warp fun w => { w with stop := if (getCore s core).halting then 1 else 0, step := none }
  else s

/-- RESUME_WARP (R368). -/
def execResumeWarp (core slot warp : Nat) (s : State) : Host.Outcome State Fault Refusal := .next (resumeWarp s core slot warp)

/-- A stream of the warp has the number; the one stream of a warp without splits has any. -/
def hasSplit (w : Warp) (split : Nat) : Bool := w.splits.isEmpty || (findSplit w split).isSome

/-- A step begins (R368): BUSY until the word completes. A step or an injection while BUSY stands is discarded (log entry 54). -/
def startStep (s : State) (core slot warp split : Nat) : State :=
  if isHalted s core slot warp && hasSplit (getWarp s core slot warp) split && !s.dbgBusy then
    { updWarp s core slot warp (fun w => { w with step := some split }) with dbgBusy := true }
  else s

/-- STEP_SPLIT (R368). -/
def execStepSplit (core slot warp split : Nat) (s : State) : Host.Outcome State Fault Refusal :=
  .next (startStep s core slot warp split)

/-- A breakpoint is armed for the stream's next word (R366, R368). -/
def breakpointDue (s : State) (o : Who) : Bool :=
  let w := warpOf s o
  w.stop == 0 && w.live != 0 && !(streamOf s o).skipBp && s.bps.any fun b =>
    b.2.1.getLsbD 63 && b.2.2 == o.core && bits b.2.1 61 56 == (wgOf s o).ctx && bits b.2.1 55 2 * 4 == (streamOf s o).pc.toNat

/-- BREAKPOINT_HIT (R368): the whole warp halts with the word not executed. -/
def execBreakpointHit (o : Who) (s : State) : Host.Outcome State Fault Refusal :=
  if breakpointDue s o then
    .next (updWarpOf s o fun w => putStream { w with stop := 4 } o.split fun st => { st with skipBp := true })
  else .next s

/-! ### Injection (R369) -/

/-- The word or its mask is rejected. -/
def injectBad (w : Warp) (x : BitVec 32) (m : Mask) : Bool :=
  let op := (fieldOP x).toNat
  let sc := Scope.dec (fieldSC x)
  (decide (0x01 ≤ op) && decide (op ≤ 0x1F)) || decide (0xE0 ≤ op) || sc == .set || sc == .block || m &&& ~~~w.live != 0

/-- The stream that an injected word acts for: the warp's, or its lowest split in class order. -/
def injectStream (w : Warp) : Option Nat := ((streamsInOrder w).head?.map Prod.fst).getD none

/-- An injection begins; a rejected one sets ERR with ECAUSE 0x01. -/
def startInject (s : State) (core slot warp : Nat) (v : Word) : State :=
  let w := getWarp s core slot warp
  let x : BitVec 32 := v.setWidth 32
  let m : Mask := (v >>> 32).setWidth 32
  if !isHalted s core slot warp || s.dbgBusy then s
  else if injectBad w x m then { s with dbgErr := true, dbgCause := 0x01 }
  else
    { s with dbgErr := false, dbgBusy := true,
             injectNo := none, inject := some ({ core := core, slot := slot, warp := warp, split := injectStream w }, x, m) }

/-- INJECT (R369): the step after it executes the word. -/
def execInject (core slot warp : Nat) (v : Word) (s : State) : Host.Outcome State Fault Refusal :=
  .next (startInject s core slot warp v)

/-! ### The selected register (R366) -/

/-- What DBGREG names for a workgroup: a physical lane register, a register by its field value, or nothing. -/
inductive DbgTarget where
  | lane (i l : Nat) | reg (r : Reg) (l : Nat) | bad
  deriving DecidableEq, Repr

def dbgTarget (g : Wg) (sel : Word) : DbgTarget :=
  let i := bits sel 7 0
  let l := bits sel 20 16
  if !sel.getLsbD 15 then (if i < g.hdr.regs then .lane i l else .bad)
  else if 64 ≤ i ∧ i ≤ 127 then .reg (Reg.dec (BitVec.ofNat 7 i)) l
  else .bad

/-- A register that the debugger may write. -/
def dbgWritable (r : Reg) : Bool :=
  match r with
  | .s _ => true | .k _ => true | .zr => true | .tag => true
  | .v _ => false | .lid => false | .wid => false | .emask => false | .tile => false | .tseq => false | .rcnt => false

/-- A write to DBGDATA for a warp and a DBGREG value (R366): discarded for a warp that runs, and where it names a register that
may not be written. -/
def writeDbg (s : State) (core slot warp : Nat) (sel v : Word) : State :=
  if !isHalted s core slot warp then s
  else
    let bad := { s with dbgErr := true, dbgCause := 0x03 }
    let s := { s with dbgdata := v }
    let o := { mainOf core slot warp with split := injectStream (getWarp s core slot warp) }
    match dbgTarget (getWg s core slot) sel with
    | .bad => bad
    | .lane i l =>
      updWarpOf s o fun w =>
        let w := discardIn w o.split (.lane i) [l]
        { w with v := tput w.v (i * 32 + l) v }
    | .reg r l => if dbgWritable r then updWarpOf s o (wrWarp o r [(if r = .tag then l else 0, v)]) else bad

/-- DBGDATA (R366). -/
def execDbgdata (core slot warp : Nat) (reg v : Word) (s : State) : Host.Outcome State Fault Refusal :=
  .next (writeDbg s core slot warp reg v)

/-- DBGDATA as it reads: the selected register of a halted warp, else 0. -/
def readDbg (s : State) (core slot warp : Nat) (sel : Word) : Word :=
  if !isHalted s core slot warp then 0
  else
    let o := { mainOf core slot warp with split := injectStream (getWarp s core slot warp) }
    match dbgTarget (getWg s core slot) sel with
    | .bad => 0
    | .lane i l => tgetD 0 (warpOf s o).v (i * 32 + l)
    | .reg r l => held s o r l

/-! ### DBGCTL and DBGBP (R366) -/

/-- The core, slot, warp and split of a DBGSEL value. -/
def selOf (sel : Word) : Nat × Nat × Nat × Nat := (bits sel 23 16, bits sel 14 10, bits sel 9 5, bits sel 1 0)

/-- DBGCTL as it reads under a DBGSEL value. -/
def dbgctlWord (s : State) (sel : Word) : Word :=
  let p := selOf sel
  let c := getCore s p.1
  let bit := fun (b : Bool) (n : Nat) => if b then 2 ^ n else 0
  BitVec.ofNat 64 (s.dbgCause.toNat * 2 ^ 32 + (getWarp s p.1 p.2.1 p.2.2.1).stop * 2 ^ 24 + bit s.dbgBusy 18
    + bit s.dbgErr 17 + bit c.halted 16 + bit c.attach 8)

/-- A write to DBGCTL (R366, R367); none where it raises cause 0x03. -/
def writeDbgctl (s : State) (sel v : Word) : Option State :=
  if bits v 63 40 ≠ 0 ∨ bits v 31 28 ≠ 0 ∨ bits v 23 19 ≠ 0 ∨ bits v 15 9 ≠ 0 ∨ bits v 7 3 ≠ 0 ∨ bits v 2 0 = 7 then none
  else
    let p := selOf sel
    let s := updCore s p.1 fun c => { c with attach := v.getLsbD 8 }
    some (match bits v 2 0 with
      | 1 => haltCore s p.1
      | 2 => resumeCore s p.1
      | 3 => haltWarp s p.1 p.2.1 p.2.2.1
      | 4 => resumeWarp s p.1 p.2.1 p.2.2.1
      | 5 => startStep s p.1 p.2.1 p.2.2.1 p.2.2.2
      | 6 => startInject s p.1 p.2.1 p.2.2.1 s.dbgdata
      | _ => s)

/-- A write to DBGBPn (R366): armed on the core selected as it is written. -/
def writeBp (s : State) (n : Nat) (sel v : Word) : Option State :=
  if v.getLsbD 62 ∨ bits v 1 0 ≠ 0 then none else some { s with bps := tput s.bps n (v, (selOf sel).1) }

end Sys2Proof.Machine
end

