-- ==== Sys2Proof/Machine/Float.lean ====
section
/-! DEFINITION. Floating-point instructions, conversions, random numbers, special functions (R151–R166) and the factory
microcode IDIV, IREM and FDIV (R391, R392). Each meaning is one of four shapes of word over one function of operands. -/

namespace Sys2Proof.Machine

/-- A fixed-latency floating-point word `OPC D, A, B` (R151); `old` where it reads its old D. -/
def fpWord (i : Instr) (sc : Scope) (d a b : Reg) (old : Bool) (f : Word → Word → Word → Word × BitVec 5) (s : State) :
    Host.Outcome State Fault Refusal :=
  runWord i sc (abd d a b sc) (if old then [d, a, b] else [a, b]) (writesS sc d) false (computeF d a b sc f) s

/-- A word `OPC D, A, #imm`, or `OPC D, A`, with a check of its immediate (R152). -/
def fpImm (i : Instr) (sc : Scope) (d a : Reg) (ok old : Bool) (f : Word → Word → Word → Word × BitVec 5) (s : State) :
    Host.Outcome State Fault Refusal :=
  runWord i sc (fun s o => ad d a sc s o && ok) (if old then [d, a] else [a]) (writesS sc d) false
    (computeF d a .zr sc f) s

/-- A special function (R165): both halves, variable-latency. -/
def sfWord (i : Instr) (sc : Scope) (d a : Reg) (f : Nat → Nat × Flags) (s : State) :
    Host.Outcome State Fault Refusal :=
  runWord i sc (ad d a sc) [a] (writesS sc d) false
    (computeLate d a .zr sc fun _ x _ => perSub 32 fun j => f (subEl 32 x.toNat j)) s

/-- A word of the factory microcode (R63, R391, R392). -/
def mcWord (i : Instr) (sc : Scope) (d a b : Reg) (f : Word → Word → Word × BitVec 5) (s : State) :
    Host.Outcome State Fault Refusal :=
  runWord i sc (abd d a b sc) [a, b] (writesS sc d) false (computeLate d a b sc fun _ x y => f x y) s

/-- A type of the type families (R57): format by the suffix. -/
def perType (f : Fmt) (op : Nat → Nat → Nat → Nat × Flags) (z x y : Word) : Word × BitVec 5 :=
  perSub (fmtWidth f) fun j =>
    op (subEl (fmtWidth f) z.toNat j) (subEl (fmtWidth f) x.toNat j) (subEl (fmtWidth f) y.toNat j)

/-! ### Arithmetic (R154–R157) -/

/-- FADD.f32 (R154, R155). -/
def execFaddF32 (w : Bool) (sc : Scope) (d a b : Reg) (s : State) : Host.Outcome State Fault Refusal :=
  fpWord (.faddF32 w sc d a b) sc d a b false (perType fmtF32 (fun _ x y => fpAdd fmtF32 x y)) s

/-- FADD.bf16 (R154, R155). -/
def execFaddBf16 (w : Bool) (sc : Scope) (d a b : Reg) (s : State) : Host.Outcome State Fault Refusal :=
  fpWord (.faddBf16 w sc d a b) sc d a b false (perType fmtBF16 (fun _ x y => fpAdd fmtBF16 x y)) s

/-- FADD.f16 (R154, R155). -/
def execFaddF16 (w : Bool) (sc : Scope) (d a b : Reg) (s : State) : Host.Outcome State Fault Refusal :=
  fpWord (.faddF16 w sc d a b) sc d a b false (perType fmtF16 (fun _ x y => fpAdd fmtF16 x y)) s

/-- FSUB.f32 (R154, R155). -/
def execFsubF32 (w : Bool) (sc : Scope) (d a b : Reg) (s : State) : Host.Outcome State Fault Refusal :=
  fpWord (.fsubF32 w sc d a b) sc d a b false (perType fmtF32 (fun _ x y => fpSub fmtF32 x y)) s

/-- FSUB.bf16 (R154, R155). -/
def execFsubBf16 (w : Bool) (sc : Scope) (d a b : Reg) (s : State) : Host.Outcome State Fault Refusal :=
  fpWord (.fsubBf16 w sc d a b) sc d a b false (perType fmtBF16 (fun _ x y => fpSub fmtBF16 x y)) s

/-- FSUB.f16 (R154, R155). -/
def execFsubF16 (w : Bool) (sc : Scope) (d a b : Reg) (s : State) : Host.Outcome State Fault Refusal :=
  fpWord (.fsubF16 w sc d a b) sc d a b false (perType fmtF16 (fun _ x y => fpSub fmtF16 x y)) s

/-- FMUL.f32 (R154, R155). -/
def execFmulF32 (w : Bool) (sc : Scope) (d a b : Reg) (s : State) : Host.Outcome State Fault Refusal :=
  fpWord (.fmulF32 w sc d a b) sc d a b false (perType fmtF32 (fun _ x y => fpMul fmtF32 x y)) s

/-- FMUL.bf16 (R154, R155). -/
def execFmulBf16 (w : Bool) (sc : Scope) (d a b : Reg) (s : State) : Host.Outcome State Fault Refusal :=
  fpWord (.fmulBf16 w sc d a b) sc d a b false (perType fmtBF16 (fun _ x y => fpMul fmtBF16 x y)) s

/-- FMUL.f16 (R154, R155). -/
def execFmulF16 (w : Bool) (sc : Scope) (d a b : Reg) (s : State) : Host.Outcome State Fault Refusal :=
  fpWord (.fmulF16 w sc d a b) sc d a b false (perType fmtF16 (fun _ x y => fpMul fmtF16 x y)) s

/-- FFMA.f32 (R154, R155). -/
def execFfmaF32 (w : Bool) (sc : Scope) (d a b : Reg) (s : State) : Host.Outcome State Fault Refusal :=
  fpWord (.ffmaF32 w sc d a b) sc d a b true (perType fmtF32 (fun z x y => fpFma fmtF32 z x y)) s

/-- FFMA.bf16 (R154, R155). -/
def execFfmaBf16 (w : Bool) (sc : Scope) (d a b : Reg) (s : State) : Host.Outcome State Fault Refusal :=
  fpWord (.ffmaBf16 w sc d a b) sc d a b true (perType fmtBF16 (fun z x y => fpFma fmtBF16 z x y)) s

/-- FFMA.f16 (R154, R155). -/
def execFfmaF16 (w : Bool) (sc : Scope) (d a b : Reg) (s : State) : Host.Outcome State Fault Refusal :=
  fpWord (.ffmaF16 w sc d a b) sc d a b true (perType fmtF16 (fun z x y => fpFma fmtF16 z x y)) s

/-- FMIN.f32 (R156). -/
def execFminF32 (w : Bool) (sc : Scope) (d a b : Reg) (s : State) : Host.Outcome State Fault Refusal :=
  fpWord (.fminF32 w sc d a b) sc d a b false (perType fmtF32 (fun _ x y => fpMinMax fmtF32 false x y)) s

/-- FMIN.bf16 (R156). -/
def execFminBf16 (w : Bool) (sc : Scope) (d a b : Reg) (s : State) : Host.Outcome State Fault Refusal :=
  fpWord (.fminBf16 w sc d a b) sc d a b false (perType fmtBF16 (fun _ x y => fpMinMax fmtBF16 false x y)) s

/-- FMIN.f16 (R156). -/
def execFminF16 (w : Bool) (sc : Scope) (d a b : Reg) (s : State) : Host.Outcome State Fault Refusal :=
  fpWord (.fminF16 w sc d a b) sc d a b false (perType fmtF16 (fun _ x y => fpMinMax fmtF16 false x y)) s

/-- FMAX.f32 (R156). -/
def execFmaxF32 (w : Bool) (sc : Scope) (d a b : Reg) (s : State) : Host.Outcome State Fault Refusal :=
  fpWord (.fmaxF32 w sc d a b) sc d a b false (perType fmtF32 (fun _ x y => fpMinMax fmtF32 true x y)) s

/-- FMAX.bf16 (R156). -/
def execFmaxBf16 (w : Bool) (sc : Scope) (d a b : Reg) (s : State) : Host.Outcome State Fault Refusal :=
  fpWord (.fmaxBf16 w sc d a b) sc d a b false (perType fmtBF16 (fun _ x y => fpMinMax fmtBF16 true x y)) s

/-- FMAX.f16 (R156). -/
def execFmaxF16 (w : Bool) (sc : Scope) (d a b : Reg) (s : State) : Host.Outcome State Fault Refusal :=
  fpWord (.fmaxF16 w sc d a b) sc d a b false (perType fmtF16 (fun _ x y => fpMinMax fmtF16 true x y)) s

/-- FCEQ.f32 (R157). -/
def execFceqF32 (w : Bool) (sc : Scope) (d a b : Reg) (s : State) : Host.Outcome State Fault Refusal :=
  fpWord (.fceqF32 w sc d a b) sc d a b false (perType fmtF32 (fun _ x y => fpCmp fmtF32 .eq x y)) s

/-- FCEQ.bf16 (R157). -/
def execFceqBf16 (w : Bool) (sc : Scope) (d a b : Reg) (s : State) : Host.Outcome State Fault Refusal :=
  fpWord (.fceqBf16 w sc d a b) sc d a b false (perType fmtBF16 (fun _ x y => fpCmp fmtBF16 .eq x y)) s

/-- FCEQ.f16 (R157). -/
def execFceqF16 (w : Bool) (sc : Scope) (d a b : Reg) (s : State) : Host.Outcome State Fault Refusal :=
  fpWord (.fceqF16 w sc d a b) sc d a b false (perType fmtF16 (fun _ x y => fpCmp fmtF16 .eq x y)) s

/-- FCLT.f32 (R157). -/
def execFcltF32 (w : Bool) (sc : Scope) (d a b : Reg) (s : State) : Host.Outcome State Fault Refusal :=
  fpWord (.fcltF32 w sc d a b) sc d a b false (perType fmtF32 (fun _ x y => fpCmp fmtF32 .lt x y)) s

/-- FCLT.bf16 (R157). -/
def execFcltBf16 (w : Bool) (sc : Scope) (d a b : Reg) (s : State) : Host.Outcome State Fault Refusal :=
  fpWord (.fcltBf16 w sc d a b) sc d a b false (perType fmtBF16 (fun _ x y => fpCmp fmtBF16 .lt x y)) s

/-- FCLT.f16 (R157). -/
def execFcltF16 (w : Bool) (sc : Scope) (d a b : Reg) (s : State) : Host.Outcome State Fault Refusal :=
  fpWord (.fcltF16 w sc d a b) sc d a b false (perType fmtF16 (fun _ x y => fpCmp fmtF16 .lt x y)) s

/-- FCLE.f32 (R157). -/
def execFcleF32 (w : Bool) (sc : Scope) (d a b : Reg) (s : State) : Host.Outcome State Fault Refusal :=
  fpWord (.fcleF32 w sc d a b) sc d a b false (perType fmtF32 (fun _ x y => fpCmp fmtF32 .le x y)) s

/-- FCLE.bf16 (R157). -/
def execFcleBf16 (w : Bool) (sc : Scope) (d a b : Reg) (s : State) : Host.Outcome State Fault Refusal :=
  fpWord (.fcleBf16 w sc d a b) sc d a b false (perType fmtBF16 (fun _ x y => fpCmp fmtBF16 .le x y)) s

/-- FCLE.f16 (R157). -/
def execFcleF16 (w : Bool) (sc : Scope) (d a b : Reg) (s : State) : Host.Outcome State Fault Refusal :=
  fpWord (.fcleF16 w sc d a b) sc d a b false (perType fmtF16 (fun _ x y => fpCmp fmtF16 .le x y)) s

/-! ### Scaling, fractions and integral rounding (R158) -/

/-- FSCL of one half by n. -/
def fscl (n : Int) (x : Nat) : Nat × Flags :=
  match fpDecode fmtF32 x with
  | .nan g => (canonNaN fmtF32, if g then flNV else flNone)
  | .inf _ => (x, flNone)
  | .fin s m e => if m = 0 then (x, flNone) else roundNe fmtF32 false s m (e + n) false

/-- FFRC of one half: mode 0 x − ⌊x⌋, mode 1 x − trunc(x). -/
def ffrc (mode : Nat) (x : Nat) : Nat × Flags :=
  match fpDecode fmtF32 x with
  | .nan g => (canonNaN fmtF32, if g then flNV else flNone)
  | .inf _ => (canonNaN fmtF32, flNV)
  | .fin s m e =>
    let k := (-e).toNat
    let r := if 0 ≤ e then 0 else m % 2 ^ k
    if mode = 1 then
      if r = 0 then (zeroPattern fmtF32 s, flNone) else roundNe fmtF32 false s r e false
    else if r = 0 then (zeroPattern fmtF32 false, flNone)
    else
      let v := roundNe fmtF32 false false (if s then 2 ^ k - r else r) e false
      if v.1 = 0x3F800000 then (0x3F7FFFFF, flNX) else v

/-- FRND of one half: to an integral value, mode 0 nearest even, 1 toward zero, 2 down, 3 up. -/
def frnd (mode : Nat) (x : Nat) : Nat × Flags :=
  match fpDecode fmtF32 x with
  | .nan g => (canonNaN fmtF32, if g then flNV else flNone)
  | .inf _ => (x, flNone)
  | .fin s m e =>
    if 0 ≤ e ∨ m = 0 then (x, flNone)
    else
      let k := (-e).toNat
      let q := m / 2 ^ k
      let r := m % 2 ^ k
      let up := match mode with
        | 0 => decide (2 ^ k < 2 * r) || (2 * r == 2 ^ k && q % 2 == 1)
        | 1 => false
        | 2 => s && r != 0
        | _ => !s && r != 0
      let v := if up then q + 1 else q
      if v = 0 then (zeroPattern fmtF32 s, flNone) else ((roundNe fmtF32 false s v 0 false).1, flNone)

/-- The exponent of FSCL for half j: the mode's, or half j of the old D clamped. -/
def fsclExp (i : BitVec 7) (z : Word) (j : Nat) : Int :=
  if i.getLsbD 6 then sat (signedOf 32 (subEl 32 z.toNat j)) (-400) 400 else signedOf 6 (i.toNat % 64)

/-- FSCL.f32 (R158). -/
def execFscl (w : Bool) (sc : Scope) (d a : Reg) (i : BitVec 7) (s : State) : Host.Outcome State Fault Refusal :=
  fpImm (.fscl w sc d a i) sc d a true (i.getLsbD 6)
    (fun z x _ => perSub 32 fun j => fscl (fsclExp i z j) (subEl 32 x.toNat j)) s

/-- FFRC.f32 (R158). -/
def execFfrc (w : Bool) (sc : Scope) (d a : Reg) (i : BitVec 7) (s : State) : Host.Outcome State Fault Refusal :=
  fpImm (.ffrc w sc d a i) sc d a (decide (i.toNat ≤ 1)) false
    (fun _ x _ => perSub 32 fun j => ffrc i.toNat (subEl 32 x.toNat j)) s

/-- FRND.f32 (R158). -/
def execFrnd (w : Bool) (sc : Scope) (d a : Reg) (i : BitVec 7) (s : State) : Host.Outcome State Fault Refusal :=
  fpImm (.frnd w sc d a i) sc d a (decide (i.toNat ≤ 3)) false
    (fun _ x _ => perSub 32 fun j => frnd i.toNat (subEl 32 x.toNat j)) s

/-! ### Paired dot product (R159) -/

/-- One half: inexact and underflow are judged against the exact real sum (DEDUCED, log entry 12). -/
def fdot2Half (z x y : Nat) : Nat × Flags :=
  let xs := [fpDecode fmtBF16 (x % 65536), fpDecode fmtBF16 (x / 65536)]
  let ys := [fpDecode fmtBF16 (y % 65536), fpDecode fmtBF16 (y / 65536)]
  let dz := fpDecode fmtF32 z
  let ps := (xs.zip ys).map fun p => mulVal p.1 p.2
  let r := exactChunkSum z ps (factorsBad (xs.zip ys))
  let ops := dz :: (xs ++ ys)
  let sn := if ops.any isSNaN then flNV else flNone
  match fpDecode fmtF32 r.1 with
  | .nan _ => (r.1, sn ||| (if ops.any isNaN then flNone else flNV))
  | .inf _ => (r.1, r.2 ||| sn)
  | .fin s m e =>
    let v := exactSum (ps ++ [dz])
    if valEq (.fin s m e) v then (r.1, sn)
    else
      let tiny := match v with
        | .fin _ m e => m != 0 && decide (expOf m e < -126)
        | .inf _ => false
        | .nan _ => false
      (r.1, sn ||| flNX ||| (if tiny then flUF else flNone))

/-- FDOT2.bf16 (R159). -/
def execFdot2 (w : Bool) (sc : Scope) (d a b : Reg) (s : State) : Host.Outcome State Fault Refusal :=
  fpWord (.fdot2 w sc d a b) sc d a b true
    (fun z x y => perSub 32 fun j => fdot2Half (subEl 32 z.toNat j) (subEl 32 x.toNat j) (subEl 32 y.toNat j)) s

/-! ### Conversions (R160–R162) -/

/-- Source and target of a conversion code (R161). -/
def cvtTypes (c : Nat) : Option (ElTy × ElTy) :=
  let rows : List (ElTy × List ElTy) :=
    [(.f32, [.bf16, .f16, .e4m3, .e5m2, .i32, .ui32, .i8, .ui8]),
     (.bf16, [.f32, .f16, .e4m3, .e5m2, .i32, .ui32, .i8, .ui8]),
     (.f16, [.f32, .bf16, .e4m3, .e5m2, .i32, .ui32, .i8, .ui8]),
     (.e4m3, [.f32, .bf16, .f16, .e5m2]), (.e5m2, [.f32, .bf16, .f16, .e4m3]),
     (.c4, [.f32, .bf16, .f16]), (.i32, [.f32, .bf16, .f16]), (.ui32, [.f32, .bf16, .f16]),
     (.i8, [.f32, .bf16, .f16]), (.ui8, [.f32, .bf16, .f16])]
  (rows.flatMap fun r => r.2.map fun t => (r.1, t))[c]?

/-- Codes that CVTSR accepts (R162). -/
def srCode (c : Nat) : Bool := decide (c ≤ 3) || (decide (9 ≤ c) && decide (c ≤ 11))

/-- Elements 0 to n − 1 of a conversion of widths ws to wd, with zeros above them (R160). -/
def convertEls (ts td : ElTy) (conv : FVal → Nat → Nat × Flags) (x : Word) : Word × BitVec 5 :=
  let ws := elWidth ts
  let wd := elWidth td
  let n := 64 / (if ws ≤ wd then wd else ws)
  let r := fun i => conv (elValue ts codebook0 (subEl ws x.toNat i)) i
  (BitVec.ofNat 64 (packEls wd (fun i => (r i).1) n), (List.range n).foldl (fun f i => f ||| (r i).2) 0)

def cvtOf (c : Nat) (satur : Bool) (x : Word) : Word × BitVec 5 :=
  match cvtTypes c with
  | none => (0, 0)
  | some (ts, td) => convertEls ts td (fun v _ => convertTo td satur v) x

/-- CVT (R160). -/
def execCvt (w : Bool) (sc : Scope) (d a : Reg) (x : Bool) (c : BitVec 6) (s : State) : Host.Outcome State Fault Refusal :=
  fpImm (.cvt w sc d a x c) sc d a (cvtTypes c.toNat).isSome false (fun _ v _ => cvtOf c.toNat x v) s

/-- CVTSR of one register with a draw (R162). -/
def cvtsrOf (c : Nat) (x g : Word) : Word × BitVec 5 :=
  match cvtTypes c with
  | none => (0, 0)
  | some (ts, td) =>
    convertEls ts td (fun v i => match elFmt td with
      | some f => stochastic f v (subEl 16 g.toNat i)
      | none => (0, flNone)) x

/-- The draw of a lane (R91). -/
def drawAt (s : State) (o : Who) (l : Nat) : Word :=
  let w := warpOf s o
  drawOf w.seed l (tgetD 0 w.ctr l)

/-- The counters of the lanes that drew advance (R91). -/
def advance (s : State) (o : Who) (ls : List Nat) : State :=
  updWarpOf s o fun w => { w with ctr := ls.foldl (fun t l => tupd 0 t l (fun c => c + 1)) w.ctr }

/-- The effect of a word that draws: each active lane, or the warp as its lowest active lane (R162, R163). -/
def drawing (d a : Reg) (sc : Scope) (f : Word → Word → Word × BitVec 5) (s : State) (o : Who) : Res :=
  let ls := actives s o
  match sc with
  | .lane =>
    let rs := ls.map fun l => (l, f (rd s o a l) (drawAt s o l))
    let s := advance (wrLanes s o d (rs.map fun r => (r.1, r.2.1))) o ls
    .done (setFlags s o (rs.foldl (fun x r => x ||| r.2.2) 0))
  | .warp =>
    let l := lowestLane (activeMask s o)
    let r := f (rdS s o a) (drawAt s o l)
    .done (setFlags (advance (wrScalar s o sc d r.1) o [l]) o r.2)
  | .set => .done s
  | .block => .done s

/-- CVTSR (R162). -/
def execCvtsr (w : Bool) (sc : Scope) (d a : Reg) (c : BitVec 6) (s : State) : Host.Outcome State Fault Refusal :=
  runWord (.cvtsr w sc d a c) sc (fun s o => ad d a sc s o && srCode c.toNat) [a] (writesS sc d) false
    (drawing d a sc fun x g => cvtsrOf c.toNat x g) s

/-! ### Random numbers (R163, R164) -/

/-- RAND (R163). -/
def execRand (w : Bool) (sc : Scope) (d : Reg) (s : State) : Host.Outcome State Fault Refusal :=
  runWord (.rand w sc d) sc (fun s o => dstOk s o sc d) [] (writesS sc d) false
    (drawing d .zr sc fun _ g => (g, 0)) s

/-- RSEED (R164). -/
def execRseed (w : Bool) (a : Reg) (s : State) : Host.Outcome State Fault Refusal :=
  runWord (.rseed w a) .warp (fun _ _ => scalarSrc a) [a] true false
    (fun s o => .done (updWarpOf s o fun w => { w with seed := rdS s o a, ctr := [] })) s

/-! ### Special functions (R165, R88, R89) -/

/-- RCP (R165). -/
def execRcp (w : Bool) (sc : Scope) (d a : Reg) (s : State) : Host.Outcome State Fault Refusal :=
  sfWord (.rcp w sc d a) sc d a (fnRcp fmtF32) s

/-- RSQ (R165). -/
def execRsq (w : Bool) (sc : Scope) (d a : Reg) (s : State) : Host.Outcome State Fault Refusal :=
  sfWord (.rsq w sc d a) sc d a (fnRsq fmtF32) s

/-- SQRT (R165). -/
def execSqrt (w : Bool) (sc : Scope) (d a : Reg) (s : State) : Host.Outcome State Fault Refusal :=
  sfWord (.sqrt w sc d a) sc d a (fnSqrt fmtF32) s

/-- EXP2 (R165). -/
def execExp2 (w : Bool) (sc : Scope) (d a : Reg) (s : State) : Host.Outcome State Fault Refusal :=
  sfWord (.exp2 w sc d a) sc d a (fnExp2 fmtF32) s

/-- LOG2 (R165). -/
def execLog2 (w : Bool) (sc : Scope) (d a : Reg) (s : State) : Host.Outcome State Fault Refusal :=
  sfWord (.log2 w sc d a) sc d a (fnLog2 fmtF32) s

/-- SINT (R165). -/
def execSint (w : Bool) (sc : Scope) (d a : Reg) (s : State) : Host.Outcome State Fault Refusal :=
  sfWord (.sint w sc d a) sc d a (fnTurn fmtF32 false) s

/-- COST (R165). -/
def execCost (w : Bool) (sc : Scope) (d a : Reg) (s : State) : Host.Outcome State Fault Refusal :=
  sfWord (.cost w sc d a) sc d a (fnTurn fmtF32 true) s

/-- TANH (R165). -/
def execTanh (w : Bool) (sc : Scope) (d a : Reg) (s : State) : Host.Outcome State Fault Refusal :=
  sfWord (.tanh w sc d a) sc d a (fnTanh fmtF32) s

/-- SIGM (R165). -/
def execSigm (w : Bool) (sc : Scope) (d a : Reg) (s : State) : Host.Outcome State Fault Refusal :=
  sfWord (.sigm w sc d a) sc d a (fnSigm fmtF32) s

/-! ### Division (R391, R392) -/

/-- Quotient and remainder of R391 on w bits. -/
def divEl (w x y : Nat) : Nat × Nat :=
  let a := signedOf w x
  let b := signedOf w y
  if b = 0 then (2 ^ w - 1, x)
  else if a = -(2 ^ (w - 1) : Nat) ∧ b = -1 then (x, 0)
  else (patternOf w (a.tdiv b), patternOf w (a.tmod b))

/-- IDIV.32 (R391). -/
def execIdiv32 (w : Bool) (sc : Scope) (d a b : Reg) (s : State) : Host.Outcome State Fault Refusal :=
  mcWord (.idiv32 w sc d a b) sc d a b (fun x y => (perEl 32 (fun x y => (divEl 32 x y).1) x y, 0)) s

/-- IDIV.64 (R391). -/
def execIdiv64 (w : Bool) (sc : Scope) (d a b : Reg) (s : State) : Host.Outcome State Fault Refusal :=
  mcWord (.idiv64 w sc d a b) sc d a b (fun x y => (perEl 64 (fun x y => (divEl 64 x y).1) x y, 0)) s

/-- IREM.32 (R391). -/
def execIrem32 (w : Bool) (sc : Scope) (d a b : Reg) (s : State) : Host.Outcome State Fault Refusal :=
  mcWord (.irem32 w sc d a b) sc d a b (fun x y => (perEl 32 (fun x y => (divEl 32 x y).2) x y, 0)) s

/-- IREM.64 (R391). -/
def execIrem64 (w : Bool) (sc : Scope) (d a b : Reg) (s : State) : Host.Outcome State Fault Refusal :=
  mcWord (.irem64 w sc d a b) sc d a b (fun x y => (perEl 64 (fun x y => (divEl 64 x y).2) x y, 0)) s

/-- FDIV.f32 (R392). -/
def execFdivF32 (w : Bool) (sc : Scope) (d a b : Reg) (s : State) : Host.Outcome State Fault Refusal :=
  mcWord (.fdivF32 w sc d a b) sc d a b
    (fun x y => perSub 32 fun j => fpDiv fmtF32 (subEl 32 x.toNat j) (subEl 32 y.toNat j)) s

end Sys2Proof.Machine
end

