-- ==== Sys2Proof/Machine/Integer.lean ====
section
/-! DEFINITION. The integer instructions (R139–R150) and the factory microcode's division (R391, R392 is in
Machine/Float.lean). Each meaning is `intWord`, `intAcc` or `intUnary` of one function of operand values. -/

namespace Sys2Proof.Machine

/-- A word `OPC D, A, B` with a fixed-latency result (R139). -/
def intWord (i : Instr) (sc : Scope) (d a b : Reg) (f : Word → Word → Word) (s : State) :
    Host.Outcome State Fault Refusal :=
  runWord i sc (abd d a b sc) [a, b] (writesS sc d) false (compute d a b sc fun _ x y => f x y) s

/-- The same for a word that reads its old D. -/
def intAcc (i : Instr) (sc : Scope) (d a b : Reg) (f : Word → Word → Word → Word) (s : State) :
    Host.Outcome State Fault Refusal :=
  runWord i sc (abd d a b sc) [d, a, b] (writesS sc d) false (compute d a b sc f) s

/-- A word `OPC D, A`. -/
def intUnary (i : Instr) (sc : Scope) (d a : Reg) (f : Word → Word) (s : State) :
    Host.Outcome State Fault Refusal :=
  runWord i sc (ad d a sc) [a] (writesS sc d) false (compute d a .zr sc fun _ x _ => f x) s

/-! ### The width family (R142): one operation on w-bit sub-elements -/

def addEl (w x y : Nat) : Nat := (x + y) % 2 ^ w
def subtractEl (w x y : Nat) : Nat := (x + 2 ^ w - y) % 2 ^ w
def mulEl (w x y : Nat) : Nat := (x * y) % 2 ^ w
def minEl (w x y : Nat) : Nat := if signedOf w x ≤ signedOf w y then x else y
def maxEl (w x y : Nat) : Nat := if signedOf w x ≥ signedOf w y then x else y
def minuEl (_w x y : Nat) : Nat := if x ≤ y then x else y
def maxuEl (_w x y : Nat) : Nat := if x ≥ y then x else y
def addsEl (w x y : Nat) : Nat :=
  patternOf w (sat (signedOf w x + signedOf w y) (-(2 ^ (w - 1) : Nat)) ((2 ^ (w - 1) : Nat) - 1))
def addsuEl (w x y : Nat) : Nat := if x + y ≤ 2 ^ w - 1 then x + y else 2 ^ w - 1
def subsEl (w x y : Nat) : Nat :=
  patternOf w (sat (signedOf w x - signedOf w y) (-(2 ^ (w - 1) : Nat)) ((2 ^ (w - 1) : Nat) - 1))
def shlEl (w x y : Nat) : Nat := if y ≥ w then 0 else (x * 2 ^ y) % 2 ^ w
def shrEl (w x y : Nat) : Nat := if y ≥ w then 0 else x / 2 ^ y
def sraEl (w x y : Nat) : Nat := patternOf w (signedOf w x / (2 ^ (if y ≤ w - 1 then y else w - 1) : Nat))
def ceqEl (w x y : Nat) : Nat := if x = y then 2 ^ w - 1 else 0
def cltEl (w x y : Nat) : Nat := if signedOf w x < signedOf w y then 2 ^ w - 1 else 0
def cltuEl (w x y : Nat) : Nat := if x < y then 2 ^ w - 1 else 0

/-- ADD.w (R142). -/
def execAdd (w : Bool) (sc : Scope) (t : Width) (d a b : Reg) (s : State) : Host.Outcome State Fault Refusal :=
  intWord (.add w sc t d a b) sc d a b (perEl (widthBits t) (addEl (widthBits t))) s

/-- SUB.w (R142). -/
def execSub (w : Bool) (sc : Scope) (t : Width) (d a b : Reg) (s : State) : Host.Outcome State Fault Refusal :=
  intWord (.sub w sc t d a b) sc d a b (perEl (widthBits t) (subtractEl (widthBits t))) s

/-- MUL.w (R142). -/
def execMul (w : Bool) (sc : Scope) (t : Width) (d a b : Reg) (s : State) : Host.Outcome State Fault Refusal :=
  intWord (.mul w sc t d a b) sc d a b (perEl (widthBits t) (mulEl (widthBits t))) s

/-- MIN.w (R142). -/
def execMin (w : Bool) (sc : Scope) (t : Width) (d a b : Reg) (s : State) : Host.Outcome State Fault Refusal :=
  intWord (.min w sc t d a b) sc d a b (perEl (widthBits t) (minEl (widthBits t))) s

/-- MAX.w (R142). -/
def execMax (w : Bool) (sc : Scope) (t : Width) (d a b : Reg) (s : State) : Host.Outcome State Fault Refusal :=
  intWord (.max w sc t d a b) sc d a b (perEl (widthBits t) (maxEl (widthBits t))) s

/-- MINU.w (R142). -/
def execMinu (w : Bool) (sc : Scope) (t : Width) (d a b : Reg) (s : State) : Host.Outcome State Fault Refusal :=
  intWord (.minu w sc t d a b) sc d a b (perEl (widthBits t) (minuEl (widthBits t))) s

/-- MAXU.w (R142). -/
def execMaxu (w : Bool) (sc : Scope) (t : Width) (d a b : Reg) (s : State) : Host.Outcome State Fault Refusal :=
  intWord (.maxu w sc t d a b) sc d a b (perEl (widthBits t) (maxuEl (widthBits t))) s

/-- ADDS.w (R142). -/
def execAdds (w : Bool) (sc : Scope) (t : Width) (d a b : Reg) (s : State) : Host.Outcome State Fault Refusal :=
  intWord (.adds w sc t d a b) sc d a b (perEl (widthBits t) (addsEl (widthBits t))) s

/-- ADDSU.w (R142). -/
def execAddsu (w : Bool) (sc : Scope) (t : Width) (d a b : Reg) (s : State) : Host.Outcome State Fault Refusal :=
  intWord (.addsu w sc t d a b) sc d a b (perEl (widthBits t) (addsuEl (widthBits t))) s

/-- SUBS.w (R142). -/
def execSubs (w : Bool) (sc : Scope) (t : Width) (d a b : Reg) (s : State) : Host.Outcome State Fault Refusal :=
  intWord (.subs w sc t d a b) sc d a b (perEl (widthBits t) (subsEl (widthBits t))) s

/-- SHL.w (R142). -/
def execShl (w : Bool) (sc : Scope) (t : Width) (d a b : Reg) (s : State) : Host.Outcome State Fault Refusal :=
  intWord (.shl w sc t d a b) sc d a b (perEl (widthBits t) (shlEl (widthBits t))) s

/-- SHR.w (R142). -/
def execShr (w : Bool) (sc : Scope) (t : Width) (d a b : Reg) (s : State) : Host.Outcome State Fault Refusal :=
  intWord (.shr w sc t d a b) sc d a b (perEl (widthBits t) (shrEl (widthBits t))) s

/-- SRA.w (R142). -/
def execSra (w : Bool) (sc : Scope) (t : Width) (d a b : Reg) (s : State) : Host.Outcome State Fault Refusal :=
  intWord (.sra w sc t d a b) sc d a b (perEl (widthBits t) (sraEl (widthBits t))) s

/-- CEQ.w (R142). -/
def execCeq (w : Bool) (sc : Scope) (t : Width) (d a b : Reg) (s : State) : Host.Outcome State Fault Refusal :=
  intWord (.ceq w sc t d a b) sc d a b (perEl (widthBits t) (ceqEl (widthBits t))) s

/-- CLT.w (R142). -/
def execClt (w : Bool) (sc : Scope) (t : Width) (d a b : Reg) (s : State) : Host.Outcome State Fault Refusal :=
  intWord (.clt w sc t d a b) sc d a b (perEl (widthBits t) (cltEl (widthBits t))) s

/-- CLTU.w (R142). -/
def execCltu (w : Bool) (sc : Scope) (t : Width) (d a b : Reg) (s : State) : Host.Outcome State Fault Refusal :=
  intWord (.cltu w sc t d a b) sc d a b (perEl (widthBits t) (cltuEl (widthBits t))) s

/-! ### Bitwise operations, move and select (R143–R145) -/

/-- AND (R143). -/
def execAnd (w : Bool) (sc : Scope) (d a b : Reg) (s : State) : Host.Outcome State Fault Refusal :=
  intWord (.and w sc d a b) sc d a b (fun x y => x &&& y) s

/-- OR (R143). -/
def execOr (w : Bool) (sc : Scope) (d a b : Reg) (s : State) : Host.Outcome State Fault Refusal :=
  intWord (.or w sc d a b) sc d a b (fun x y => x ||| y) s

/-- XOR (R143). -/
def execXor (w : Bool) (sc : Scope) (d a b : Reg) (s : State) : Host.Outcome State Fault Refusal :=
  intWord (.xor w sc d a b) sc d a b (fun x y => x ^^^ y) s

/-- ANDN (R143). -/
def execAndn (w : Bool) (sc : Scope) (d a b : Reg) (s : State) : Host.Outcome State Fault Refusal :=
  intWord (.andn w sc d a b) sc d a b (fun x y => x &&& ~~~y) s

/-- MOV (R144). -/
def execMov (w : Bool) (sc : Scope) (d a : Reg) (s : State) : Host.Outcome State Fault Refusal :=
  intUnary (.mov w sc d a) sc d a (fun x => x) s

/-- BSEL's choice by the old D (R145). -/
def bselOf (m x y : Word) : Word := (x &&& m) ||| (y &&& ~~~m)

/-- BSEL (R145). -/
def execBsel (w : Bool) (sc : Scope) (d a b : Reg) (s : State) : Host.Outcome State Fault Refusal :=
  intAcc (.bsel w sc d a b) sc d a b bselOf s

/-! ### Multiply high and multiply-add (R146, R147) -/

def mulhEl (w x y : Nat) : Nat := patternOf w (signedOf w x * signedOf w y / (2 ^ w : Nat))
def mulhuEl (w x y : Nat) : Nat := x * y / 2 ^ w

/-- MULH.64 (R146). -/
def execMulh64 (w : Bool) (sc : Scope) (d a b : Reg) (s : State) : Host.Outcome State Fault Refusal :=
  intWord (.mulh64 w sc d a b) sc d a b (perEl 64 (mulhEl 64)) s

/-- MULHU.64 (R146). -/
def execMulhu64 (w : Bool) (sc : Scope) (d a b : Reg) (s : State) : Host.Outcome State Fault Refusal :=
  intWord (.mulhu64 w sc d a b) sc d a b (perEl 64 (mulhuEl 64)) s

/-- MULH.32 (R146). -/
def execMulh32 (w : Bool) (sc : Scope) (d a b : Reg) (s : State) : Host.Outcome State Fault Refusal :=
  intWord (.mulh32 w sc d a b) sc d a b (perEl 32 (mulhEl 32)) s

/-- MULHU.32 (R146). -/
def execMulhu32 (w : Bool) (sc : Scope) (d a b : Reg) (s : State) : Host.Outcome State Fault Refusal :=
  intWord (.mulhu32 w sc d a b) sc d a b (perEl 32 (mulhuEl 32)) s

/-- MAD.32 (R147). -/
def execMad32 (w : Bool) (sc : Scope) (d a b : Reg) (s : State) : Host.Outcome State Fault Refusal :=
  intAcc (.mad32 w sc d a b) sc d a b (fun z x y => perEl 32 (addEl 32) z (perEl 32 (mulEl 32) x y)) s

/-- MAD.64 (R147). -/
def execMad64 (w : Bool) (sc : Scope) (d a b : Reg) (s : State) : Host.Outcome State Fault Refusal :=
  intAcc (.mad64 w sc d a b) sc d a b (fun z x y => perEl 64 (addEl 64) z (perEl 64 (mulEl 64) x y)) s

/-! ### Bit counts, reversal and fields (R148, R149) -/

def popcOf (x : Word) : Word := BitVec.ofNat 64 (popc x.toNat 64)
/-- Zero bits above the highest one bit of the low n bits. -/
def clzNat (v : Nat) : Nat → Nat
  | 0 => 0
  | n + 1 => if v.testBit n then 0 else clzNat v n + 1
def clzOf (x : Word) : Word := BitVec.ofNat 64 (clzNat x.toNat 64)
def brevOf (x : Word) : Word := x.reverse

/-- Position and length of a field control word (R149). -/
def bfPos (y : Word) : Nat := bits y 5 0
def bfLen (y : Word) : Nat := if bits y 14 8 ≤ 64 - bfPos y then bits y 14 8 else 64 - bfPos y

def bfxOf (x y : Word) : Word :=
  let p := bfPos y
  let n := bfLen y
  if n = 0 then 0
  else
    let f := (x.toNat >>> p) % 2 ^ n
    BitVec.ofNat 64 (if y.getLsbD 15 then patternOf 64 (signedOf n f) else f)

def bfiOf (d x y : Word) : Word :=
  let p := bfPos y
  let n := bfLen y
  let m : Word := BitVec.ofNat 64 ((2 ^ n - 1) * 2 ^ p)
  (d &&& ~~~m) ||| (BitVec.ofNat 64 ((x.toNat % 2 ^ n) * 2 ^ p))

/-- POPC (R148). -/
def execPopc (w : Bool) (sc : Scope) (d a : Reg) (s : State) : Host.Outcome State Fault Refusal :=
  intUnary (.popc w sc d a) sc d a popcOf s

/-- CLZ (R148). -/
def execClz (w : Bool) (sc : Scope) (d a : Reg) (s : State) : Host.Outcome State Fault Refusal :=
  intUnary (.clz w sc d a) sc d a clzOf s

/-- BREV (R148). -/
def execBrev (w : Bool) (sc : Scope) (d a : Reg) (s : State) : Host.Outcome State Fault Refusal :=
  intUnary (.brev w sc d a) sc d a brevOf s

/-- BFX (R149). -/
def execBfx (w : Bool) (sc : Scope) (d a b : Reg) (s : State) : Host.Outcome State Fault Refusal :=
  intWord (.bfx w sc d a b) sc d a b bfxOf s

/-- BFI (R149). -/
def execBfi (w : Bool) (sc : Scope) (d a b : Reg) (s : State) : Host.Outcome State Fault Refusal :=
  intAcc (.bfi w sc d a b) sc d a b bfiOf s

/-! ### Byte shuffle (R150) -/

/-- The byte that a selector picks from the table A, old D. -/
def shufByte (d x : Word) (sel : Nat) : Nat :=
  if sel.testBit 7 then 0
  else
    let c := subEl 8 (x.toNat + d.toNat * 2 ^ 64) (sel % 16)
    if sel.testBit 6 then (if c.testBit 7 then 0xFF else 0) else c

def shufbOf (d x y : Word) : Word := BitVec.ofNat 64 (packEls 8 (fun i => shufByte d x (subEl 8 y.toNat i)) 8)

/-- SHUFB (R150). -/
def execShufb (w : Bool) (sc : Scope) (d a b : Reg) (s : State) : Host.Outcome State Fault Refusal :=
  intAcc (.shufb w sc d a b) sc d a b shufbOf s

end Sys2Proof.Machine
end

