-- ==== Sys2Proof/Machine/Sha.lean ====
section
/-! DEFINITION. SHA-384, the hash that R409 and R410 name: the standard's compression of 128-byte blocks on eight 64-bit words,
with the constants as the standard derives them from primes (log entry 59). -/

namespace Sys2Proof.Machine

/-- The largest r below r₀ + 2^b with r^k at most n, found bit by bit. -/
def rootFrom (k n : Nat) : Nat → Nat → Nat
  | 0, r => r
  | b + 1, r => rootFrom k n b (if (r + 2 ^ b) ^ k ≤ n then r + 2 ^ b else r)

/-- The first 64 bits of the fractional part of the k-th root of p. -/
def rootFraction (k p : Nat) : Word := BitVec.ofNat 64 (rootFrom k (p * 2 ^ (64 * k)) 70 0)

/-- The first 80 primes. -/
def shaPrimes : List Nat := (List.range 410).filter fun n => decide (2 ≤ n) && (List.range n).all fun d => decide (d < 2) || n % d != 0

/-- The constant of each of the 80 rounds. -/
def shaRounds : List Word := shaPrimes.map (rootFraction 3)

/-- The eight words of a hash under way. -/
structure ShaWords where
  a : Word
  b : Word
  c : Word
  d : Word
  e : Word
  f : Word
  g : Word
  h : Word
  deriving DecidableEq, Repr

/-- The hash before any block: from the ninth to the sixteenth prime. -/
def shaStart : ShaWords :=
  let w := fun i => rootFraction 2 (shaPrimes.getD (8 + i) 0)
  { a := w 0, b := w 1, c := w 2, d := w 3, e := w 4, f := w 5, g := w 6, h := w 7 }

/-- Exclusive or of three rotations, and of two rotations and a shift. -/
def rotXor (i j k : Nat) (x : Word) : Word := x.rotateRight i ^^^ x.rotateRight j ^^^ x.rotateRight k
def rotShift (i j k : Nat) (x : Word) : Word := x.rotateRight i ^^^ x.rotateRight j ^^^ (x >>> k)

/-- The next word of a block's schedule, newest first. -/
def shaNext (ws : List Word) : List Word :=
  (rotShift 19 61 6 (ws.getD 1 0) + ws.getD 6 0 + rotShift 1 8 7 (ws.getD 14 0) + ws.getD 15 0) :: ws

/-- The 80 words of a block's schedule. -/
def shaSchedule (block : List Byte) : List Word :=
  let word := fun i => BitVec.ofNat 64 (natOfBytes ((block.drop (8 * i)).take 8).reverse)
  ((List.range 64).foldl (fun ws _ => shaNext ws) ((List.range 16).map word).reverse).reverse

/-- One round. -/
def shaRound (x : ShaWords) (kw : Word × Word) : ShaWords :=
  let t := x.h + rotXor 14 18 41 x.e + ((x.e &&& x.f) ^^^ (~~~x.e &&& x.g)) + kw.1 + kw.2
  let u := rotXor 28 34 39 x.a + ((x.a &&& x.b) ^^^ (x.a &&& x.c) ^^^ (x.b &&& x.c))
  { a := t + u, b := x.a, c := x.b, d := x.c, e := x.d + t, f := x.e, g := x.f, h := x.g }

/-- One block. -/
def shaBlock (x : ShaWords) (block : List Byte) : ShaWords :=
  let y := (shaRounds.zip (shaSchedule block)).foldl shaRound x
  { a := x.a + y.a, b := x.b + y.b, c := x.c + y.c, d := x.d + y.d, e := x.e + y.e, f := x.f + y.f, g := x.g + y.g, h := x.h + y.h }

/-- A message filled up to whole blocks, with its length in bits. -/
def shaPad (bs : List Byte) : List Byte :=
  bs ++ 0x80 :: List.replicate ((239 - bs.length % 128) % 128) 0 ++ (bytesOfNat 16 (8 * bs.length)).reverse

/-- The blocks of a list of bytes, n at most. -/
def shaBlocks (x : ShaWords) (bs : List Byte) : Nat → ShaWords
  | 0 => x
  | n + 1 => shaBlocks (shaBlock x (bs.take 128)) (bs.drop 128) n

/-- SHA-384 of a byte string: 48 bytes. -/
def sha384 (bs : List Byte) : List Byte :=
  let p := shaPad bs
  let x := shaBlocks shaStart p (p.length / 128)
  [x.a, x.b, x.c, x.d, x.e, x.f].flatMap fun w => (bytesOfNat 8 w.toNat).reverse

end Sys2Proof.Machine
end

