-- ==== Sys2Proof/Machine/Sys.lean ====
section
/-! DEFINITION. System registers (R64, R120–R123, R264, R303, R359, R366, R381, R399): the shared reads and writes, SYSR, SYSW,
and writes to BFLOOR and XLATE. -/

namespace Sys2Proof.Machine

/-! ### BFLOOR (R303) -/

/-- The share of a context as it will stand after the writes under way: base and size in units. -/
def nextShare (s : State) (ctx : Nat) : Nat × Nat :=
  match (s.bfloorOps.filter fun q => bits q.1 45 40 == ctx).getLast? with
  | some q => (bits q.1 22 16, bits q.1 6 0)
  | none => ((getCtx s ctx).shareBase, (getCtx s ctx).shareSize)

/-- A share would overlap another context's, as it will stand after the writes under way [DESIGN CHOICE, log entry 61: R303 does not
say whether a write under way counts]. -/
def shareClash (s : State) (ctx base size : Nat) : Bool :=
  size != 0 && (List.range 64).any fun c =>
    c != ctx && (nextShare s c).2 != 0 && decide (base < (nextShare s c).1 + (nextShare s c).2)
      && decide ((nextShare s c).1 < base + size)

/-- A write to BFLOOR begins, numbered where a SYSW waits for it (R303); none where it raises cause 0x03. -/
def startBfloor (s : State) (waits : Bool) (v : Word) : Option State :=
  let base := bits v 22 16
  let size := bits v 6 0
  if bits v 63 46 ≠ 0 ∨ bits v 39 23 ≠ 0 ∨ bits v 15 7 ≠ 0 ∨ base > 91 ∨ base + size > 92
      ∨ shareClash s (bits v 45 40) base size then none
  else
    let s := { s with bfloorCtx := bits v 45 40, bfloorOps := s.bfloorOps ++ [(v, if waits then some s.nextId else none)] }
    some (if waits then { s with nextId := s.nextId + 1 } else s)

/-- BFLOOR as it reads: the share of the context that the last write named. -/
def bfloorWord (s : State) : Word :=
  let c := getCtx s s.bfloorCtx
  BitVec.ofNat 64 (s.bfloorCtx * 2 ^ 40 + c.shareBase * 2 ^ 16 + c.shareSize)

/-- BFLOOR (R303, R400): a write through the management window. -/
def execBfloor (v : Word) (s : State) : Host.Outcome State Fault Refusal := .next ((startBfloor s false v).getD s)

/-- A command names a tensor in the bin floor. -/
def namesFloor (op : EngOp) : Bool :=
  [op.src, op.dst, op.idx].any fun bs => ((parseDesc bs false).map Desc.space) == some 2

/-- An accepted command of a context that names its share has not completed (R303). -/
def shareUsed (s : State) (ctx : Nat) : Bool := s.cores.any fun c => c.2.ops.any fun p => p.ctx == ctx && namesFloor p

/-- Bytes of the new share from outside the old one become zero on a core. -/
def clearShare (c : Core) (old new : Nat × Nat) : Core :=
  { c with floor := c.floor.filter fun e =>
      let u := e.1 / 65536
      !(decide (new.1 ≤ u) && decide (u < new.1 + new.2) && !(decide (old.1 ≤ u) && decide (u < old.1 + old.2))) }

/-- The SYSW of a warp that waits for share write `op`: its stream, and its wait mark. -/
def bfloorWait (op : Nat) (w : Warp) : Option (Option Nat × Bool) :=
  let of := fun (st : Stream) => match st.wait with
    | .bfloor mark n => if n = op then some mark else none
    | _ => none
  match of w.main with
  | some m => some (none, m)
  | none => w.splits.findSome? fun p => (of p.st).map fun m => (some p.num, m)

/-- The SYSW that waits for share write `op` completes in a warp, if it is there. -/
def endBfloor (op : Nat) (w : Warp) : Warp :=
  match bfloorWait op w with
  | none => w
  | some (sp, mark) => retireIn w sp mark ((streamIn w sp).pc + 4)

/-- The SYSW that waits for a share write completes, in a resident workgroup or in a saved one. -/
def finishBfloor (s : State) (op : Nat) : State :=
  let at_ := s.cores.findSome? fun c => c.2.wgs.findSome? fun g => (g.2.map Wg.warps).getD [] |>.findSome? fun w =>
    if (bfloorWait op w.2).isSome then some (mainOf c.1 g.1 w.1) else none
  match at_ with
  | some o => endStep (updWarpOf s o (endBfloor op)) { o with split := (bfloorWait op (warpOf s o)).bind Prod.fst }
  | none => { s with saved := s.saved.map fun v => { v with wg := { v.wg with warps := tmap (endBfloor op) v.wg.warps } } }

/-- BFLOOR_WRITE_COMPLETE (R303): the oldest write, once the old share is out of use. -/
def execBfloorWriteComplete (s : State) : Host.Outcome State Fault Refusal :=
  match s.bfloorOps with
  | [] => .next s
  | (v, waits) :: rest =>
    let ctx := bits v 45 40
    if shareUsed s ctx then .next s
    else
      let old := ((getCtx s ctx).shareBase, (getCtx s ctx).shareSize)
      let new := (bits v 22 16, bits v 6 0)
      let inNew := fun (sector : Nat) => decide (new.1 ≤ sector / 2048) && decide (sector / 2048 < new.1 + new.2)
        && !(decide (old.1 ≤ sector / 2048) && decide (sector / 2048 < old.1 + old.2))
      let s := { s with bfloorOps := rest, cores := tmap (fun c => clearShare c old new) s.cores,
                        coreChecks := s.coreChecks.filter fun e => !(e.1.2.1.isNone && inNew e.1.2.2) }
      let s := updCtx s ctx fun c => { c with shareBase := new.1, shareSize := new.2 }
      .next (match waits with
        | none => s
        | some op => finishBfloor s op)

/-! ### XLATE (R381, R388) -/

/-- A translation request of a context (R381); none where it raises cause 0x03. In host-assisted mode event 3 is posted
instead. -/
def startXlate (s : State) (ctx : Nat) (v : Word) : Option State :=
  if bits v 62 56 ≠ 0 ∨ bits v 5 0 ≠ 0 ∨ (s.xlateOps.any fun q => q.ctx == ctx && q.req.isNone) then none
  else
    let addr := bits v 55 6 * 64
    let s := updCtx s ctx fun c => { c with xlate := BitVec.ofNat 64 addr }
    if s.dsplit.getLsbD 2 then some (postEvent s ctx 3 (BitVec.ofNat 64 addr))
    else some { s with xlateOps := s.xlateOps ++ [{ ctx := ctx, addr := addr, req := none }] }

/-- XLATE (R381): a write through the management window. -/
def execXlate (v : Word) (s : State) : Host.Outcome State Fault Refusal := .next ((startXlate s s.ctxselW v).getD s)

/-! ### Reading -/

/-- DETQ (R264). -/
def detqWord (det : Bool) (qlog : Nat) : Word := BitVec.ofNat 64 ((if det then 2 ^ 63 else 0) + 2 ^ qlog)

/-- The registers of R359 and R399 for a context. -/
def ctxRead (s : State) (c : Ctx) (ctx n : Nat) : Word :=
  match n with
  | 81 => c.ctl
  | 82 => c.ptroot
  | 83 => c.farea
  | 84 => c.savea
  | 85 => preWord c.pre
  | 86 => c.evq
  | 87 => c.hostbase
  | _ => c.xlate ||| (if s.xlateOps.any fun q => q.ctx == ctx && q.req.isNone then 0x8000000000000000#64 else 0)

/-- A privileged register, 48–127, through the task's CTXSEL and DBGSEL or the window's; none for an undefined number. -/
def privRead (s : State) (win : Bool) (n : Nat) : Option Word :=
  let ctx := if win then s.ctxselW else s.ctxsel
  let sel := if win then s.dbgselW else s.dbgsel
  let p := selOf sel
  if n = 64 then some (shootWord s)
  else if n = 66 then some s.pgpool
  else if n = 68 then some (bfloorWord s)
  else if n = 74 then some (routeWord s.mcload)
  else if n = 80 then some (BitVec.ofNat 64 ctx)
  else if 81 ≤ n ∧ n ≤ 88 then some (ctxRead s (getCtx s ctx) ctx n)
  else if n = 89 then some s.chip
  else if n = 90 then some (BitVec.ofNat 64 s.secver)
  else if n = 91 then some s.eltb
  else if n = 96 then some sel
  else if n = 97 then some (dbgctlWord s sel)
  else if n = 98 then some s.dbgreg
  else if n = 99 then some (readDbg s p.1 p.2.1 p.2.2.1 s.dbgreg)
  else if 100 ≤ n ∧ n ≤ 103 then some (tgetD (0, 0) s.bps (n - 100)).1
  else none

/-- A system register as a task reads it (R120); none for an undefined number. -/
def sysRead (s : State) (o : Who) (n : Nat) : Option Word :=
  let w := warpOf s o
  match n with
  | 0 => some Config.isaver
  | 1 => some Config.feat0
  | 2 => some 0
  | 3 => some (mcodeWord s)
  | 4 => some (BitVec.ofNat 64 o.core)
  | 5 => some (s.dsplit.setWidth 64)
  | 6 => some (detqWord (wgOf s o).det (wgOf s o).qlog)
  | 16 => some w.trap.tcause
  | 17 => some w.trap.tpc
  | 18 => some w.trap.taddr
  | 19 => some w.trap.tlanes
  | 20 => some w.trap.tinfo
  | 32 => some (w.fflags.setWidth 64)
  | 33 => some (w.budget.setWidth 64)
  | _ => privRead s false n

/-- SYSR (R121). -/
def execSysr (w : Bool) (d : Reg) (i : BitVec 7) (s : State) : Host.Outcome State Fault Refusal :=
  runWord (.sysr w d i) .warp (fun s o => sdOk d && (sysRead s o i.toNat).isSome) [] (isS d) false
    (fun s o => .done (lateScalar s o .warp d ((sysRead s o i.toNat).getD 0))) s

/-! ### Writing -/

/-- Virtual bytes that a descriptor names: its tensor's elements, bitmap and scales, at least as many as the blocks that its
elements fill (R83, R272), and its codebook, whatever its space (R270). -/
def descBytes (d : Desc) : List (Nat × Nat) :=
  (if d.space ≠ 0 then []
   else extent d :: (if d.geom = 2 then [(d.bitmap, d.bitmap + (elemCount d + 7) / 8), (d.scaleb, d.scaleb + elemCount d / d.len + 1)]
     else if d.geom = 1 then [(d.scaleb, d.scaleb + elemCount d / dimOf d 0 * rowBlocks d)] else []))
    ++ if d.book = 0 then [] else [(d.book, d.book + 32)]

/-- Virtual bytes that a command updates beside its tensors: the amax and sum words of a chain (R293), the amax of an MSTORE
(R322). -/
def wordsOf (op : EngOp) : List (Nat × Nat) :=
  match op.kind with
  | .chain => (finals op).map fun t => ((tgetD 0 op.consts t.2.k).toNat, (tgetD 0 op.consts t.2.k).toNat + 4)
  | .mstore => if op.imm.testBit 1 then [(op.b.toNat, op.b.toNat + 4)] else []
  | .cpy => [] | .cpyg => [] | .cpyx => [] | .coll => [] | .mload => [] | .mma => [] | .mgrad => []

/-- An accepted command makes peer traffic (R399): a forward, a collective, or one that names bytes in the peer aperture. -/
def opOnPeer (s : State) (op : EngOp) : Bool :=
  let named := ([op.src, op.dst, op.idx].flatMap fun bs => ((parseDesc bs false).map descBytes).getD []) ++ wordsOf op
  op.kind == .cpyx || op.kind == .coll ||
    named.any fun r => (physRanges s op.ctx r.1 r.2).any fun p => homeOf p.1 == .peer

/-- Traffic to peers is under way (R399): of engine commands, writes to the peer aperture, and reads from it, by loads, atomics
and literals. -/
def peerBusy (s : State) : Bool :=
  (s.cores.any fun c => c.2.ops.any (opOnPeer s)) || (s.pend.any fun p => homeOf p.pa == .peer)
    || (allWgs s).any fun g => g.warps.any fun w => (allOuts w.2).any OutRes.peer

/-- Keep a value whose reserved bits are zero. -/
def keep (ok : Bool) (s : State) : Option State := if ok then some s else none

/-- The context is being brought up: it is not enabled and has had no table (R412). -/
def bringUp (c : Ctx) : Bool := !c.ctl.getLsbD 0 && c.ptroot == 0 && c.root == 0

/-- A write to one of the registers of a context (R359, R399). PTROOT acts for walks after a shootdown of every page, but for the
first root of a context that is brought up, which needs none (R412; log entry 15). -/
def ctxWrite (s : State) (ctx n : Nat) (v : Word) : Option State :=
  match n with
  | 81 =>
    keep (bits v 63 13 == 0 && bits v 7 4 == 0 && decide (8 ≤ bits v 12 8) && decide (bits v 12 8 ≤ 16))
      (updCtx s ctx fun c => { c with ctl := v })
  | 82 =>
    keep (bits v 63 48 == 0 && bits v 22 0 == 0)
      (updCtx s ctx fun c => { c with ptroot := v, root := if bringUp c then v else c.root })
  | 83 => keep (bits v 63 48 == 0 && bits v 11 4 == 0) (updCtx s ctx fun c => { c with farea := v })
  | 84 => keep (bits v 63 48 == 0 && bits v 20 0 == 0) (updCtx s ctx fun c =>
      { c with savea := v, saveNo := c.saveNo + 1, saveOld := tput c.saveOld c.saveNo c.savea })
  | 85 => startPreempt s ctx v
  | 86 => some (updCtx s ctx fun c => { c with evq := v })
  | 87 => keep (bits v 15 0 == 0) (updCtx s ctx fun c => { c with hostbase := v })
  | _ => startXlate s ctx v

/-- The bytes of an empty slot of the expert location table: its fields at their reset values (R407). -/
def eltEmpty : List Byte := bytesOfNat 8 0xFFFF

/-- A table of n slots at a physical address is laid out empty. -/
def layElt (s : State) (base n : Nat) : State := devWrite s base ((List.range n).flatMap fun _ => eltEmpty)

/-- ELTB names another table, which firmware lays out empty; the host lays out its own (R407; log entry 59). -/
def setEltb (s : State) (v : Word) : State :=
  let base := bits v 47 12 * 4096
  let n := 2 ^ (bits v 3 0 + 10)
  let t := { s with eltb := v }
  if v = s.eltb || s.dsplit.getLsbD 6 || decide (Config.deviceEnd < base + 8 * n) then t
  else layElt t base n

/-- A write to a privileged register (R359); none where it raises cause 0x03. `who` is the task that writes, none for the
management window. -/
def privWrite (s : State) (who : Option Who) (n : Nat) (v : Word) : Option State :=
  let win := who.isNone
  let ctx := if win then s.ctxselW else s.ctxsel
  let sel := if win then s.dbgselW else s.dbgsel
  let mine := match who with
    | none => s.ctxselW
    | some o => (wgOf s o).ctx
  let p := selOf sel
  if n = 64 then startShoot s v
  else if n = 66 then keep (bits v 63 48 == 0 && bits v 15 0 == 0) { s with pgpool := v }
  else if n = 68 then startBfloor s who.isSome v
  else if n = 74 then startMcload s mine v
  else if n = 80 then keep (bits v 63 6 == 0) (if win then { s with ctxselW := v.toNat } else { s with ctxsel := v.toNat })
  else if 81 ≤ n ∧ n ≤ 88 then ctxWrite s ctx n v
  else if n = 89 then keep (bits v 63 9 == 0 && !peerBusy s) { s with chip := v }
  else if n = 91 then keep (bits v 63 48 == 0 && bits v 11 4 == 0) (setEltb s v)
  else if n = 96 then
    keep (bits v 63 24 == 0 && bits v 15 15 == 0 && bits v 4 2 == 0 && decide (bits v 23 16 ≤ 159))
      (if win then { s with dbgselW := v } else { s with dbgsel := v })
  else if n = 97 then writeDbgctl s sel v
  else if n = 98 then keep (bits v 63 21 == 0 && bits v 14 8 == 0 && (!v.getLsbD 15 || (decide (64 ≤ bits v 7 0) && decide (bits v 7 0 ≤ 127))))
      { s with dbgreg := v }
  else if n = 99 then some (writeDbg s p.1 p.2.1 p.2.2.1 s.dbgreg v)
  else if 100 ≤ n ∧ n ≤ 103 then writeBp s (n - 100) sel v
  else none

/-- The register may be written (R64, R120). -/
def writable (n : Nat) : Bool :=
  n == 32 || n == 33 || n == 64 || n == 66 || n == 68 || n == 74 || (decide (80 ≤ n) && decide (n ≤ 89)) || n == 91
    || (decide (96 ≤ n) && decide (n ≤ 103))

/-- SYSW (R121–R123, R303): a write to BFLOOR leaves its warp not ready until it completes. -/
def execSysw (w : Bool) (a : Reg) (i : BitVec 7) (s : State) : Host.Outcome State Fault Refusal :=
  runWord (.sysw w a i) .warp (fun _ _ => scalarSrc a && writable i.toNat) [a] (i == 33) false
    (fun s o =>
      let n := i.toNat
      let v := rdS s o a
      if n = 32 then
        if bits v 63 5 ≠ 0 then .trap s (trapOf 0x03)
        else .done (updWarpOf s o fun w => { w with fflags := v.setWidth 5 })
      else if n = 33 then setBudget s o v
      else
        match privWrite s (some o) n v with
        | none => .trap s (trapOf 0x03)
        | some t => if n = 68 then .wait t (.bfloor w s.nextId) else .done t) s

end Sys2Proof.Machine
end

