-- ==== Sys2Proof/Machine/Links.lean ====
section
/-! DEFINITION. The host's side of the module: the links and BAR 2 (R396, R401), the management window (R400), power (R402), the
expert location table (R407), the attestation report (R410), and RESET (R409). -/

namespace Sys2Proof.Machine

/-! ### Links and BAR 2 -/

/-- The link is trained (R396). -/
def linkUp (s : State) (link : Nat) : Bool := tgetD 0 s.links link != 0

/-- LINK_TRAINING (R396): one of the two links trains at ×4, ×8 or ×16, or drops. -/
def execLinkTraining (link width : Nat) (s : State) : Host.Outcome State Fault Refusal :=
  if link < 2 ∧ (width = 0 ∨ width = 4 ∨ width = 8 ∨ width = 16) then .next { s with links := tput s.links link width }
  else .next s

/-- CLOCK_LOWERING (R402): no result depends on a clock. -/
def execClockLowering (level : Nat) (s : State) : Host.Outcome State Fault Refusal := .next { s with clock := level }

/-- HOST_WRITE (R396, R401, R408): bytes to device memory; what lies beyond it is discarded. -/
def execHostWrite (link off : Nat) (data : List Byte) (s : State) : Host.Outcome State Fault Refusal :=
  let bs := data.take (Config.deviceEnd - off)
  if !linkUp s link || bs.isEmpty then .next s
  else
    match mergeBad s off bs.length with
    | some b => .next (integrityService s s.ctxselW b)
    | none => .next (outerDev s off bs)

/-- HOST_READ (R396, R401, R408): the bytes of device memory, ones beyond it; no data where a sector fails its check. -/
def execHostRead (link off len : Nat) (s : State) : Host.Outcome State Fault Refusal :=
  if !linkUp s link then .next { s with hostRead := none }
  else
    let n := min len (Config.deviceEnd - off)
    match badSector s off n with
    | some b => .next { integrityService s s.ctxselW b with hostRead := none }
    | none => .next { s with hostRead := some (devRead s off n ++ List.replicate (len - n) 0xFF) }

/-! ### Power (R400, R402) -/

/-- PWR: a cap outside 1,200–2,600 W, or a reserved bit, is discarded. -/
def execPwr (v : Word) (s : State) : Host.Outcome State Fault Refusal :=
  if bits v 15 12 ≠ 0 ∨ bits v 63 28 ≠ 0 ∨ bits v 11 0 < 1200 ∨ 2600 < bits v 11 0 then .next s
  else .next { s with cap := bits v 11 0 }

/-! ### Attestation (R400, R410) -/

/-- ATTCTL: a write of 1 starts a report. -/
def execAttctl (v : Word) (s : State) : Host.Outcome State Fault Refusal :=
  if v = 1 ∧ !s.attBusy then .next { s with attBusy := true } else .next s

/-- A byte string of exactly n bytes. -/
def exactly (n : Nat) (bs : List Byte) : List Byte := (bs ++ List.replicate n 0).take n

/-- Bytes 0–159 of the report: header, firmware, patches in opcode order, nonce, serial number. -/
def reportBody (s : State) : List Byte :=
  bytesOfNat 2 0xC6A7 ++ bytesOfNat 1 1 ++ bytesOfNat 1 s.secver ++ bytesOfNat 4 0
    ++ sha384 Config.firmware ++ sha384 (s.micro.flatMap fun e => e.2.bytes)
    ++ exactly 48 s.nonce ++ exactly 8 Config.serial

/-- ATTESTATION_COMPLETE (R410). -/
def execAttestationComplete (s : State) : Host.Outcome State Fault Refusal :=
  if !s.attBusy then .next s
  else .next { s with attBusy := false, report := reportBody s ++ exactly 96 (Config.attest (reportBody s)) }

/-! ### The expert location table (R407) -/

/-- How the search for an expert ends: its slot; absent, at an empty slot or after every slot; a sector that fails its
check. -/
inductive EltFind where
  | found (i : Nat)
  | absent (i : Option Nat)
  | bad (pa : Nat)
  deriving DecidableEq, Repr

/-- Search a table of n slots at a physical address, from slot i on, for at most the given number of slots. -/
def eltSearch (s : State) (base n e : Nat) : Nat → Nat → EltFind
  | 0, _ => .absent none
  | k + 1, i =>
    match badSector s (base + 8 * i) 8 with
    | some b => .bad b
    | none =>
      let x := natOfBytes (devRead s (base + 8 * i) 8) % 65536
      if x = e then .found i else if x = 0xFFFF then .absent (some i) else eltSearch s base n e k ((i + 1) % n)

/-- Another slot than i is empty. -/
def eltRoom (s : State) (base n i : Nat) : Bool :=
  (List.range n).any fun j => j != i && natOfBytes (devRead s (base + 8 * j) 2) == 0xFFFF

/-- An entry of the table. -/
def eltEntry (e chip core version : Nat) : List Byte :=
  bytesOfNat 8 (e + chip % 256 * 2 ^ 16 + core % 256 * 2 ^ 24 + version % 65536 * 2 ^ 32)

/-- EXPERT_LOCATION_TABLE_UPKEEP (R407): in firmware mode an expert moves to a chip and core; its version rises by one. A table
without an empty slot, which a keeper never leaves, is one that no firmware has laid out, as at reset: its slots take their
reset value first (log entry 59). -/
def execExpertLocationTableUpkeep (expert chip core : Nat) (s : State) : Host.Outcome State Fault Refusal :=
  let base := bits s.eltb 47 12 * 4096
  let n := 2 ^ (bits s.eltb 3 0 + 10)
  if s.dsplit.getLsbD 6 || decide (0xFFFF ≤ expert) || decide (Config.deviceEnd < base + 8 * n) then .next s
  else
    let s := if eltRoom s base n n then s else layElt s base n
    match eltSearch s base n expert n (expert * 0x9E37 % n) with
    | .found i =>
      let v := natOfBytes (devRead s (base + 8 * i) 8) / 2 ^ 32 % 65536
      .next (devWrite s (base + 8 * i) (eltEntry expert chip core (v + 1)))
    | .absent (some i) =>
      if eltRoom s base n i then .next (devWrite s (base + 8 * i) (eltEntry expert chip core 0)) else .next s
    | .absent none => .next s
    | .bad b => .next (integrityService s s.ctxselW b)

/-! ### The management window (R400) -/

/-- A write to one of system registers 0–127 through the window: DSPLIT, and 48–127 as a privileged task would. -/
def windowSys (s : State) (n : Nat) (v : Word) : State :=
  if n = 5 then { s with dsplit := v.setWidth 7 }
  else if 48 ≤ n then (privWrite s none n v).getD s
  else s

/-- MGMT_WINDOW_WRITE (R400): an aligned write of eight bytes at an offset of the window. -/
def execMgmtWindowWrite (off : Nat) (v : Word) (s : State) : Host.Outcome State Fault Refusal :=
  if off % 8 ≠ 0 then .next s
  else if off < 0x400 then .next (windowSys s (off / 8) v)
  else if off = 0x1000 then execPwr v s
  else if off = 0x1008 then execSvraise v s
  else if 0x2000 ≤ off ∧ off < 0x2030 then
    let k := off - 0x2000
    let old := exactly 48 s.nonce
    .next { s with nonce := old.take k ++ bytesOfNat 8 v.toNat ++ old.drop (k + 8) }
  else if off = 0x2040 then execAttctl v s
  else if off = 0x3000 then execPatch v s
  else if off = 0x3008 then execPfreply v s
  else if off = 0x3010 then execPdecide v s
  else if 0x4000 ≤ off ∧ off < 0x4800 then
    .next { s with routes := tput s.routes ((off - 0x4000) / 8) (v &&& 0x800000000000FFFF) }
  else .next s

/-- A system register as the window reads it. -/
def windowSysRead (s : State) (n : Nat) : Word :=
  let c := getCtx s s.ctxselW
  match n with
  | 0 => Config.isaver
  | 1 => Config.feat0
  | 2 => 0
  | 3 => mcodeWord s
  | 4 => 0xFF
  | 5 => s.dsplit.setWidth 64
  | 6 => detqWord (c.ctl.getLsbD 3) (bits c.ctl 12 8)
  | _ => if 48 ≤ n then (privRead s true n).getD 0 else 0

/-- An aligned read of eight bytes at an offset of the window. -/
def windowRead (s : State) (off : Nat) : Word :=
  if off % 8 ≠ 0 then 0
  else if off < 0x400 then windowSysRead s (off / 8)
  else if off = 0x1000 then BitVec.ofNat 64 (s.cap + (Config.draw s.free).toNat * 2 ^ 16)
  else if 0x2000 ≤ off ∧ off < 0x2030 then wordOfBytes64 (((exactly 48 s.nonce).drop (off - 0x2000)).take 8)
  else if off = 0x2040 then if s.attBusy then 0x8000000000000000 else 0
  else if 0x2100 ≤ off ∧ off < 0x2200 then wordOfBytes64 (((exactly 256 s.report).drop (off - 0x2100)).take 8)
  else if off = 0x3000 then routeWord s.patch
  else if 0x4000 ≤ off ∧ off < 0x4800 then tgetD 0 s.routes ((off - 0x4000) / 8)
  else 0

/-- A read of eight bytes of a context's page (R397). -/
def pageRead (s : State) (ctx off : Nat) : Word :=
  let c := getCtx s ctx
  if off = 0x1000 then c.evw else if off = 0x1008 then c.evr else if off = 0x1010 then c.evlost else 0

/-- A read of eight bytes at an offset of BAR 0 (R396): the 64 pages of contexts, then the window. -/
def barRead (s : State) (off : Nat) : State :=
  let v := if off < 0x400000 then pageRead s (off / 65536) (off % 65536) else windowRead s (off - 0x400000)
  bump { s with hostRead := some (bytesOfNat 8 v.toNat) }

/-! ### RESET (R409) -/

/-- The boot ROM accepts the firmware image under a security-version counter (R409, R411). -/
def boots (secver : Nat) : Bool := Config.firmwareSigned && decide (secver ≤ Config.firmwareVersion)

/-- RESET (R409, log entry 28): every register at its reset value; the counter's fuses, memories and what has left the module stay; the
boot ROM checks the image. -/
def execReset (s : State) : Host.Outcome State Fault Refusal :=
  .next { State.reset with
    secver := s.secver, mem := s.mem, hostMem := s.hostMem, peerMem := s.peerMem, checks := s.checks, turns := s.turns,
    free := s.free, msix := s.msix, outbox := s.outbox, left := s.left, booted := boots s.secver }

end Sys2Proof.Machine
end

