-- ==== Sys2Proof/Machine/Translate.lean ====
section
/-! DEFINITION. The Storun translator as a function of an object and a request (R373–R386, R394, R395): the checks of the
object, register assignment, code and image. Where the rules leave the image open the choice is log entry 29. -/

namespace Sys2Proof.Machine

/-! ### The object (R373–R377) -/

/-- The type of a virtual register (R374). -/
structure VType where
  uni  : Bool
  cnt  : Nat
  elem : Nat
  deriving DecidableEq, Repr

/-- An affine expression (R376): its constant, and the coefficients of i0–i3, LID, WID and ARG0–ARG5. -/
structure Affine where
  k  : Nat
  cs : List Int
  deriving DecidableEq, Repr

/-- An operand word (R375); a constant with its entry's index and value. -/
inductive SOp where
  | virt (v : Nat) | const (i v : Nat) | lid | wid | arg (n : Nat) | iter (j : Nat) | tseq | map (f : Affine) | none
  deriving DecidableEq, Repr

/-- An instruction record (R375). -/
structure SRec where
  op  : Nat
  dom : Option Nat
  d   : SOp
  a   : SOp
  b   : SOp
  deriving DecidableEq, Repr

/-- An object that the checks accept: its domains hold a lower and an upper bound by dimension. -/
structure SObj where
  warps   : Nat
  lanes   : Nat
  det     : Bool
  needs   : Nat
  scratch : Nat
  types   : List VType
  recs    : List SRec
  doms    : List (List (Affine × Affine))
  deriving DecidableEq, Repr

/-- What a request says of the configuration (R381). -/
structure SConfig where
  regs     : Nat
  split    : Nat
  allSpill : Bool
  /-- the varying registers that hold intervals (R384) -/
  lanes    : Nat := 0
  deriving DecidableEq, Repr

/-- Element widths by ELEM (R374). -/
def elemWidth (e : Nat) : Nat := [32, 16, 16, 8, 8, 4, 32, 32, 8, 8, 64].getD e 0

/-- The type byte (R374). -/
def vtypeOf (b : Nat) : VType := { uni := b / 128 == 1, cnt := 2 ^ (b / 16 % 4), elem := b % 16 }

/-- The type is legal: an element that is not c4, in at most 64 bits. -/
def vtypeOk (t : VType) : Bool := decide (t.elem ≤ 10) && t.elem != 5 && decide (elemWidth t.elem * t.cnt ≤ 64)

/-- The affine expression at a byte offset (R376). -/
def affineAt (obj : List Byte) (off : Nat) : Affine :=
  { k := field obj off (off + 7), cs := (List.range 12).map fun i => signedOf 16 (field obj (off + 8 + 2 * i) (off + 9 + 2 * i)) }

/-- A coefficient; 0–3 the iterators, 4 LID, 5 WID, 6–11 ARG0–ARG5. -/
def Affine.coef (f : Affine) (i : Nat) : Int := f.cs.getD i 0

/-- The coefficients outside the first n are zero. -/
def onlyFirst (n : Nat) (f : Affine) : Bool := (f.cs.drop n).all fun c => c == 0

/-! ### Operations (R380) -/

/-- The operation is one of the table's. -/
def opLegal (op : Nat) : Bool :=
  let n := op - 0x100
  op == 1 || (decide (0x100 ≤ op) && ((decide (0x20 ≤ n) && decide (n ≤ 0x9D)) || (decide (0xA0 ≤ n) && decide (n ≤ 0xAF))
    || (decide (0xC0 ≤ n) && decide (n ≤ 0xCF)) || (decide (0xD0 ≤ n) && decide (n ≤ 0xDD)) || (decide (0xF0 ≤ n) && decide (n ≤ 0xF4))))

/-- LD or ST, whose B may hold a map (R375). -/
def takesMap (op : Nat) : Bool := decide (0x1A0 ≤ op) && decide (op ≤ 0x1A7)
/-- ST or STS, whose D is a source. -/
def storesD (n : Nat) : Bool := (decide (0xA4 ≤ n) && decide (n ≤ 0xA7)) || (decide (0xAC ≤ n) && decide (n ≤ 0xAF))
/-- Format RI: B is an immediate, which the record gives as a constant. -/
def takesImm (n : Nat) : Bool :=
  (decide (0x8D ≤ n) && decide (n ≤ 0x8F)) || n == 0x91 || n == 0x92 || n == 0xD4 || n == 0xD9
/-- The instruction reads its old D. -/
def readsD (n imm : Nat) : Bool :=
  n == 0x65 || n == 0x6A || n == 0x6B || n == 0x70 || n == 0x71 || (decide (0x7B ≤ n) && decide (n ≤ 0x7D))
    || (n == 0x8D && decide (64 ≤ imm)) || n == 0x90 || (decide (0xDB ≤ n) && decide (n ≤ 0xDD))

/-- The immediate is one of its entry's (R158, R161, R162, R171, R173). -/
def immOk (n imm : Nat) : Bool :=
  decide (imm < 128) && (match n with
    | 0x8E => decide (imm ≤ 1)
    | 0x8F => decide (imm ≤ 3)
    | 0x91 => (cvtTypes (imm % 64)).isSome
    | 0x92 => srCode imm
    | 0xD9 => decide (imm ≤ 4)
    | _ => true)

/-- Bytes that LD, ST, LDS or STS moves. -/
def accessBytes (n : Nat) : Nat := 8 / 2 ^ (n % 4)

/-- The result is variable-latency (R98). -/
def lateOp (n : Nat) (d : SOp) : Bool :=
  n == 0x12 || n == 0x0B || (decide (0x95 ≤ n) && decide (n ≤ 0x9D)) || (decide (0xA0 ≤ n) && decide (n ≤ 0xA3)) || (decide (0xA8 ≤ n) && decide (n ≤ 0xAB))
    || n == 0xB0 || (decide (0xC0 ≤ n) && decide (n ≤ 0xCF) && d != .none) || (decide (0xD0 ≤ n) && decide (n ≤ 0xDD))
    || decide (0xF0 ≤ n)

/-- What a register's elements must be: of a width, or of one FMT code. -/
inductive ElemNeed where
  | width (n : Nat) | code (n : Nat)
  deriving DecidableEq, Repr

def elemFits (t : VType) (e : ElemNeed) : Bool :=
  match e with
  | .width n => elemWidth t.elem == n
  | .code c => t.elem == c

/-- The widths and types of the atomics, from 0xC0 (R61). -/
def atomicElem (n : Nat) : ElemNeed :=
  if n = 0xCF then .code 0
  else .width ([64, 32, 64, 32, 64, 32, 64, 32, 64, 64, 64, 64, 32, 64, 32].getD (n - 0xC0) 64)

/-- The element of position 0 D, 1 A, 2 B (R380): by the suffix, 64 bits where there is none; an address is 64 bits. -/
def elemNeed (n imm pos : Nat) : ElemNeed :=
  if n < 0x60 then .width (64 / 2 ^ (n % 4))
  else if n = 0x68 ∨ n = 0x69 ∨ n = 0x6A then .width 32
  else if n < 0x72 then .width 64
  else if n < 0x8D then .code ((n - 0x72) % 3)
  else if n < 0x90 then .code 0
  else if n = 0x90 then .code (if pos = 0 then 0 else 1)
  else if n = 0x91 ∨ n = 0x92 then
    match cvtTypes (imm % 64) with
    | none => .code 11
    | some (ts, td) => .code (((List.range 10).find? fun c => elTyOf c == some (if pos = 0 then td else ts)).getD 11)
  else if n < 0xA0 then .width 64
  else if n < 0xB0 then .width (if pos = 0 then 8 * accessBytes n else 64)
  else if n < 0xD0 then if pos = 1 then .width 64 else atomicElem n
  else if n < 0xD4 then .width (64 / 2 ^ (n % 4))
  else if n = 0xD5 ∨ n = 0xD7 then .code 0
  else if n = 0xD8 then .width 32
  else if n < 0xF0 then .width 64
  else if n = 0xF4 then .code 0
  else .width (if n % 2 = 0 then 32 else 64)

/-! ### The checks of R382 -/

/-- The section of n entries of a size lies in the object. -/
def sectionOk (len off n size : Nat) : Bool := off % 8 == 0 && decide (off + n * size ≤ len)

/-- Walk the schedule tree from the nodes of a list (R379); each node is visited once. -/
def schedOk (obj : List Byte) (len off : Nat) : Nat → List Nat → List Nat → Bool
  | 0, _, todo => todo.isEmpty
  | _ + 1, _, [] => true
  | n + 1, seen, i :: todo =>
    if seen.contains i then schedOk obj len off n seen todo
    else
      let at_ := off + 16 * i
      if at_ + 16 > len ∨ field obj at_ at_ > 3 ∨ field obj (at_ + 8) (at_ + 15) ≠ 0 then false
      else
        let first := field obj (at_ + 4) (at_ + 7)
        schedOk obj len off n (i :: seen) ((List.range (field obj (at_ + 1) (at_ + 1))).map (fun k => first + k) ++ todo)

/-- The operand of an operand word in a record of a domain of some depth; none where it is illegal (R375). -/
def operandOf (obj : List Byte) (offConst nconst nvreg depth : Nat) (mapped : Bool) (x : Nat) : Option SOp :=
  let i := x % 2 ^ 30
  match x / 2 ^ 30 with
  | 0 => if i < nvreg then some (.virt i) else none
  | 1 =>
    if mapped then
      let f := affineAt obj (offConst + 8 * i)
      if i + 4 ≤ nconst ∧ ((List.range 4).all fun j => decide (j < depth) || f.coef j == 0) then some (.map f) else none
    else if i < nconst then some (.const i (field obj (offConst + 8 * i) (offConst + 8 * i + 7))) else none
  | 2 =>
    if i = 0 then some .lid else if i = 1 then some .wid
    else if i < 10 then some (.arg (i - 2))
    else if i < 14 then (if i - 10 < depth then some (.iter (i - 10)) else none)
    else if i = 14 then some .tseq else none
  | _ => if i = 0 then some .none else none

/-- A value that differs by lane (R375, R395). -/
def varies (tys : List VType) (x : SOp) : Bool :=
  match x with
  | .virt v => match tys[v]? with
    | some t => !t.uni
    | none => false
  | .lid => true
  | .map f => f.coef 4 != 0
  | .const _ _ => false | .wid => false | .arg _ => false | .iter _ => false | .tseq => false | .none => false

/-- The immediate of a record of format RI. -/
def immOf (r : SRec) : Nat :=
  match r.b with
  | .const _ v => v
  | .virt _ => 128 | .lid => 128 | .wid => 128 | .arg _ => 128 | .iter _ => 128 | .tseq => 128 | .map _ => 128 | .none => 128

/-- The execution scope of a record (R378): lane where D varies, warp where it is uniform. -/
def recScope (tys : List VType) (r : SRec) : Scope :=
  match r.d with
  | .none => if r.op = 0x194 then .warp else .lane
  | d => if varies tys d then .lane else .warp

/-- A register operand has the element that its position needs. -/
def typed (tys : List VType) (e : ElemNeed) (x : SOp) : Bool :=
  match x with
  | .virt v => match tys[v]? with
    | some t => elemFits t e
    | none => false
  | .const _ _ => true | .lid => true | .wid => true | .arg _ => true | .iter _ => true | .tseq => true | .map _ => true
  | .none => true

def isVirt (x : SOp) : Bool := match x with
  | .virt _ => true
  | .const _ _ => false | .lid => false | .wid => false | .arg _ => false | .iter _ => false | .tseq => false
  | .map _ => false | .none => false

def isConst (x : SOp) : Bool := match x with
  | .const _ _ => true
  | .virt _ => false | .lid => false | .wid => false | .arg _ => false | .iter _ => false | .tseq => false
  | .map _ => false | .none => false

/-- fdot2.f16 has its types (R380, R386): a uniform destination has uniform sources. -/
def fdotOk (tys : List VType) (r : SRec) : Bool :=
  let half := fun x => match x with
    | .virt v => match tys[v]? with
      | some t => t.elem == 2 && t.cnt == 2
      | none => false
    | .map _ => false | .none => false
    | .const _ _ => true | .lid => true | .wid => true | .arg _ => true | .iter _ => true | .tseq => true
  match r.d with
  | .virt v => match tys[v]? with
    | some t => t.elem == 0 && t.cnt == 1 && half r.a && half r.b && (!t.uni || (!varies tys r.a && !varies tys r.b))
    | none => false
  | .const _ _ => false | .lid => false | .wid => false | .arg _ => false | .iter _ => false | .tseq => false
  | .map _ => false | .none => false

/-- TKINS.2, TKINS.4 or TKINS.8. -/
def isTkins (op : Nat) : Bool := op == 0x1DB || op == 0x1DC || op == 0x1DD

/-- The registers of TKINS's list. -/
def tkinsSize (op : Nat) : Nat := if op = 0x1DB then 2 else if op = 0x1DC then 4 else 8

/-- The registers of an operand that names several (log entry 29): the list of TKINS from D on (R174), and B with the register
after it of ATCAS.64 (R261): virtual registers of consecutive numbers, or consecutive arguments; none for another record or
operand. -/
def severalOf (r : SRec) : List SOp :=
  let seq := fun (x : SOp) (k : Nat) => match x with
    | .virt v => (List.range k).map fun i => SOp.virt (v + i)
    | .arg n => (List.range k).map fun i => SOp.arg (n + i)
    | .const _ _ => [] | .lid => [] | .wid => [] | .iter _ => [] | .tseq => [] | .map _ => [] | .none => []
  if isTkins r.op then seq r.d (tkinsSize r.op) else if r.op == 0x1CD then seq r.b 2 else []

/-- Such an operand has all its registers, of 64 bits; those of a list differ by lane, and those of a uniform word do not. -/
def severalOk (tys : List VType) (r : SRec) : Bool :=
  let tk := isTkins r.op
  if !(tk || r.op == 0x1CD) then true
  else
    !(severalOf r).isEmpty && (severalOf r).all fun x => typed tys (.width 64) x && (match x with
      | .virt _ => if tk then varies tys x else recScope tys r == .lane || !varies tys x
      | .arg n => decide (n < 8)
      | .const _ _ => false | .lid => false | .wid => false | .iter _ => false | .tseq => false | .map _ => false
      | .none => false)

/-- A record names a legal operation with the operands of its entry (R375, R380). -/
def recOk (tys : List VType) (r : SRec) : Bool :=
  if r.op = 1 then fdotOk tys r
  else
    let n := r.op - 0x100
    let f := fixedFields (BitVec.ofNat 8 n)
    let imm := if takesImm n then immOf r else 0
    let sc := recScope tys r
    let shut := fun (fixed : Bool) (x : SOp) => fixed == (x == .none)
    let d := if storesD n then r.d != .none
      else if f.1.isSome then r.d == .none
      else isVirt r.d || (r.d == .none && decide (0xC0 ≤ n) && decide (n ≤ 0xCF))
    let b := if takesImm n then immOk n imm else shut f.2.2.isSome r.b
    let srcs := [r.a] ++ (if takesImm n then [] else [r.b])
    d && shut f.2.1.isSome r.a && b && severalOk tys r && (legalScopes (BitVec.ofNat 8 n)).contains sc
      && (sc == .lane || (srcs.all fun x => !varies tys x))
      && typed tys (elemNeed n imm 0) r.d && typed tys (elemNeed n imm 1) r.a && (takesImm n || typed tys (elemNeed n imm 2) r.b)

/-- The contiguous runs of records that name one domain (R378): domain, first and last record. -/
def runsOf : List SRec → Nat → List (Nat × Nat × Nat)
  | [], _ => []
  | r :: rs, i =>
    let rest := runsOf rs (i + 1)
    match r.dom with
    | none => rest
    | some d =>
      match rest with
      | (d', a, b) :: more => if d' = d ∧ a = i + 1 then (d, i, b) :: more else (d, i, i) :: rest
      | [] => [(d, i, i)]

/-- No two entries are equal. -/
def distinct : List Nat → Bool
  | [] => true
  | x :: xs => !xs.contains x && distinct xs

/-- The domain entry at an offset (R377); none where it breaks a rule. -/
def domainAt (obj : List Byte) (off : Nat) : Option (List (Affine × Affine)) :=
  let depth := field obj off off
  let dims := (List.range 4).map fun j => (affineAt obj (off + 8 + 64 * j), affineAt obj (off + 40 + 64 * j))
  if 1 ≤ depth ∧ depth ≤ 4 ∧ dims.zipIdx.all (fun x =>
      if x.2 < depth then onlyFirst x.2 x.1.1 && onlyFirst x.2 x.1.2
      else onlyFirst 0 x.1.1 && onlyFirst 0 x.1.2 && x.1.1.k == 0 && x.1.2.k == 0)
  then some (dims.take depth) else none

/-- The depth of a domain entry, as far as it can be read. -/
def depthAt (obj : List Byte) (offDom ndom : Nat) (dom : Nat) : Nat :=
  if dom < ndom then field obj (offDom + 264 * dom) (offDom + 264 * dom) else 0

/-- The object that a byte string of its LENGTH holds, or the reason of a refusal (R382, reasons 1–7). -/
def parseObject (obj : List Byte) (secver : Nat) : SObj ⊕ Nat :=
  let len := obj.length
  let f := fun lo hi => field obj lo hi
  let w := fun off => field obj off (off + 3)
  let nv := w 16
  let ni := w 20
  let nc := w 24
  let nd := w 28
  if len < 64 ∨ BitVec.ofNat 32 (w 60) ≠ crc32 (obj.take 60 ++ [0, 0, 0, 0] ++ obj.drop 64) then .inr 1
  else if f 0 1 ≠ 0xC65E ∨ f 2 3 ≠ 1 then .inr 2
  else if f 4 4 < secver then .inr 3
  else if BitVec.ofNat 64 (f 8 15) &&& ~~~Config.feat0 ≠ 0 ∨ f 6 6 < 1 ∨ 32 < f 6 6 ∨ f 7 7 < 1 ∨ 32 < f 7 7 then .inr 4
  else if 63 < f 4 4 ∨ 3 < f 5 5 ∨ nv < 1 ∨ 2 ^ 30 < nv ∨ 65535 < nd ∨ w 52 % 256 ≠ 0
      ∨ !sectionOk len (w 32) nv 1 ∨ !sectionOk len (w 36) ni 16 ∨ !sectionOk len (w 40) nc 8 ∨ !sectionOk len (w 44) nd 264
      ∨ (w 48 ≠ 0 ∧ (w 48 % 8 ≠ 0 ∨ !schedOk obj len (w 48) (len * 16 + 256) [] [0])) then .inr 5
  else
    let tbs := (obj.drop (w 32)).take nv
    if (tbs.any fun b => b.getLsbD 6) ∨ (List.range nd).any (fun d => f (w 44 + 264 * d + 1) (w 44 + 264 * d + 7) != 0) then .inr 5
    else
      let tys := tbs.map fun b => vtypeOf b.toNat
      let recAt := fun i =>
        let o := w 36 + 16 * i
        let op := f o (o + 1)
        let dom := f (o + 2) (o + 3)
        let depth := depthAt obj (w 44) nd dom
        let opd := fun (k : Nat) (m : Bool) => operandOf obj (w 40) nc nv depth m (f (o + 4 + 4 * k) (o + 7 + 4 * k))
        match opd 0 false, opd 1 false, opd 2 (takesMap op) with
        | some d, some a, some b => some ({ op := op, dom := if dom = 0xFFFF then none else some dom, d := d, a := a, b := b } : SRec)
        | _, _, _ => none
      let rs := (List.range ni).map recAt
      if tys.any (fun t => !vtypeOk t) ∨ rs.any (fun r => match r with
        | none => true
        | some r => !(opLegal r.op && recOk tys r)) then .inr 6
      else
        let recs := rs.filterMap id
        let doms := (List.range nd).map fun d => domainAt obj (w 44 + 264 * d)
        if doms.any Option.isNone ∨ recs.any (fun r => decide (nd ≤ r.dom.getD 0 ∧ r.dom.isSome)) ∨ !distinct ((runsOf recs 0).map Prod.fst)
        then .inr 7
        else .inl { warps := f 6 6, lanes := f 7 7, det := f 5 5 % 2 == 1, needs := f 8 15, scratch := w 52, types := tys,
                    recs := recs, doms := doms.filterMap id }

/-! ### Steps: the native instructions of a record, before registers (R386, R395) -/

/-- A register operand: a native register, an interval (a virtual register, or a fresh one numbered above them), or an iterator. -/
inductive Opd where
  | reg (r : Reg) | iv (v : Nat) | iter (j : Nat) | imm (n : Nat)
  deriving DecidableEq, Repr

/-- An instruction to emit; opcode 0x12 is `LDL.wt d, =lit`. -/
structure NStep where
  op   : Nat
  late : Bool
  sc   : Scope
  d    : Opd
  a    : Opd
  b    : Opd
  /-- D is read -/
  rd   : Bool
  /-- D is written -/
  wr   : Bool
  lit  : Nat
  deriving DecidableEq, Repr

def s45 : Reg := .s ⟨45, by decide⟩
def s44 : Reg := .s ⟨44, by decide⟩
def s43 : Reg := .s ⟨43, by decide⟩
def sreg (n : Nat) : Reg := if h : n < 48 then .s ⟨n, h⟩ else .zr
def vregOf (n : Nat) : Reg := if h : n < 64 then .v ⟨n, h⟩ else .zr

/-- `LDL.wt d, =v`. -/
def litStep (d : Opd) (v : Nat) : NStep :=
  { op := 0x12, late := true, sc := .warp, d := d, a := .reg .zr, b := .reg .zr, rd := false, wr := true, lit := v % 2 ^ 64 }

/-- `OPC d, a, b`, with d read or not. -/
def opStep (n : Nat) (sc : Scope) (d a b : Opd) (old : Bool) : NStep :=
  { op := n, late := false, sc := sc, d := d, a := a, b := b, rd := old, wr := true, lit := 0 }

/-- The term of an affine expression (R395). -/
def termOpd (i : Nat) : Opd :=
  if i < 4 then .iter i else if i = 4 then .reg .lid else if i = 5 then .reg .wid else .reg (sreg (i - 6))

/-- The terms with nonzero coefficients, in order. -/
def terms (f : Affine) : List (Nat × Int) :=
  (List.range 12).filterMap fun i => if f.coef i = 0 then none else some (i, f.coef i)

/-- An instruction with the constant that it reads in S45, if it does (R395). -/
structure NUnit where
  s45  : Option Nat
  step : NStep
  deriving DecidableEq, Repr

/-- `LDL.wt d, =v` by itself. -/
def litUnit (d : Opd) (v : Nat) : NUnit := { s45 := none, step := litStep d v }

/-- Terms times S45 into a register, the first by MUL, each later one by MAD. -/
def termUnits (sc : Scope) (r : Opd) : Bool → List (Nat × Int) → List NUnit
  | _, [] => []
  | first, (i, c) :: ts =>
    { s45 := some (patternOf 64 c),
      step := if first then opStep 0x28 sc r (termOpd i) (.reg s45) false else opStep 0x6B sc r (termOpd i) (.reg s45) true }
      :: termUnits sc r false ts

/-- An affine value into a register (R395), at a scope. -/
def affineUnits (sc : Scope) (r : Opd) (f : Affine) : List NUnit :=
  let ts := terms f
  if ts.isEmpty then [litUnit r f.k]
  else termUnits sc r true ts
    ++ (if f.k = 0 then [] else [{ s45 := some f.k, step := opStep 0x20 sc r r (.reg s45) false }])

/-- A bound into its register. -/
def boundUnits (r : Opd) (f : Affine) : List NUnit :=
  if (terms f).isEmpty && f.k == 0 then [{ s45 := none, step := opStep 0x64 .warp r (.reg .zr) (.reg .zr) false }]
  else affineUnits .warp r f

/-- A map scaled by the width of its access. -/
def scaled (f : Affine) (n : Nat) : Affine := { k := f.k * n % 2 ^ 64, cs := f.cs.map fun c => c * n }

/-- An instruction with what comes before it: units with whether each defines a fresh interval; they are left out where
`kept` lives in a register, since S45 then still holds the constant. -/
structure NGroup where
  pre  : List (NUnit × Bool)
  main : NStep
  kept : Option Opd
  deriving DecidableEq, Repr

/-- An instruction by itself. -/
def bare (m : NStep) : NGroup := { pre := [], main := m, kept := none }

/-- A fresh interval of a record: varying or uniform. -/
structure Fresh where
  num : Nat
  uni : Bool
  deriving DecidableEq, Repr

/-- The operand of a plain source. -/
def plainOpd (x : SOp) : Opd :=
  match x with
  | .virt v => .iv v
  | .const _ _ => .reg s45
  | .lid => .reg .lid | .wid => .reg .wid | .tseq => .reg .tseq
  | .arg n => .reg (sreg n)
  | .iter j => .iter j
  | .map _ => .reg .zr
  | .none => .reg .zr

/-- A constant operand: its entry and value. -/
def constOf (x : SOp) : Option (Nat × Nat) :=
  match x with
  | .const i v => some (i, v)
  | .virt _ => none | .lid => none | .wid => none | .arg _ => none | .iter _ => none | .tseq => none | .map _ => none
  | .none => none

/-- Where the constants of a record stand (R395; log entry 29): entries with their values and registers, in the order in which
they are loaded. The first takes S45 unless the map needs it; every other entry takes a fresh uniform interval. -/
def placeConsts (xs : List SOp) (s45Free : Bool) (n : Nat) : List (Nat × Nat × Opd) :=
  (xs.filterMap constOf).foldl (fun ps c =>
    if ps.any fun p => p.1 == c.1 then ps
    else if ps.isEmpty && s45Free then [(c.1, c.2, .reg s45)]
    else ps ++ [(c.1, c.2, .iv (n + (ps.filter fun p => p.2.2 != .reg s45).length))]) []

/-- The operand of a source, with the record's constants in their places. -/
def sourceOpd (ps : List (Nat × Nat × Opd)) (x : SOp) : Opd :=
  match constOf x with
  | none => plainOpd x
  | some c => ((ps.find? fun p => p.1 == c.1).map fun p => p.2.2).getD (.reg s45)

/-- The loads of constants, S45's last, since a spilled interval's store uses S45. -/
def constUnits (ps : List (Nat × Nat × Opd)) : List (NUnit × Bool) :=
  (ps.filter fun p => p.2.2 != .reg s45).map (fun p => (litUnit p.2.2 p.2.1, true))
    ++ (ps.filter fun p => p.2.2 == .reg s45).map fun p => (litUnit p.2.2 p.2.1, false)

/-- The fresh intervals of constants. -/
def constFresh (ps : List (Nat × Nat × Opd)) : List Fresh :=
  ps.filterMap fun p => match p.2.2 with
    | .iv v => some { num := v, uni := true }
    | .reg _ => none | .iter _ => none | .imm _ => none

/-- fdot2.f16 (R386), at lane scope, or at warp scope with uniform t1 and t2 where D is uniform (log entry 29). -/
def fdotGroups (tys : List VType) (r : SRec) (n : Nat) : List NGroup × List Fresh :=
  let uni := !varies tys r.d
  let sc : Scope := if uni then .warp else .lane
  let t1 : Opd := .iv n
  let t2 : Opd := .iv (n + 1)
  let d := plainOpd r.d
  let ps := placeConsts [r.a, r.b] true (n + 2)
  let cvt := fun (t : Opd) (x : SOp) (again : Bool) =>
    ({ pre := constUnits (ps.filter fun p => (constOf x).map Prod.fst == some p.1),
       main := opStep 0x91 sc t (sourceOpd ps x) (.imm 0x10) false, kept := if again then some t1 else none } : NGroup)
  ([cvt t1 r.a false, cvt t2 r.b (isConst r.a && r.a == r.b), bare (opStep 0x7B sc d t1 t2 true),
    bare (opStep 0x4C sc t1 t1 (.reg s43) false), bare (opStep 0x4C sc t2 t2 (.reg s43) false),
    bare (opStep 0x7B sc d t1 t2 true)],
   [{ num := n, uni := uni }, { num := n + 1, uni := uni }] ++ constFresh ps)

/-- The map stands in S45 (R395). -/
def mapInS45 (f : Affine) : Bool := (terms f).length == 1 && f.coef 4 == 0 && f.k == 0

/-- A map in B: its units, the register that it gives, and the fresh interval that it takes as number n (R395). -/
def mapUnits (f : Affine) (n : Nat) : List (NUnit × Bool) × Opd × List Fresh :=
  let ts := terms f
  if ts.isEmpty && f.k == 0 then ([], .reg .zr, [])
  else if mapInS45 f then
    ((affineUnits .warp (.reg s45) f).map fun x => (x, false), .reg s45, [])
  else
    let vary := f.coef 4 != 0
    ((affineUnits (if vary then .lane else .warp) (.iv n) f).map fun x => (x, true), .iv n, [{ num := n, uni := !vary }])

/-- The registers in which an operand of several registers stands for its instruction: the last lane registers that hold no
interval, from number `block` on; at warp scope S41 and S42, the temporaries of B and D (R384; log entry 29). -/
def blockRegs (tys : List VType) (block : Nat) (r : SRec) : List (Reg × Opd) :=
  (severalOf r).zipIdx.filterMap fun x => match x.1 with
    | .virt v => some (if recScope tys r = .lane then vregOf (block + x.2) else sreg (41 + x.2), .iv v)
    | .arg _ => none
    | .const _ _ => none | .lid => none | .wid => none | .iter _ => none | .tseq => none | .map _ => none | .none => none

/-- The groups of a record, whose fresh intervals are numbered from n, and those intervals (R386, R395). An operand of several
registers is moved into its registers before the instruction, and a list that it writes is moved back after it. -/
def groupsOf (tys : List VType) (block : Nat) (r : SRec) (n : Nat) : List NGroup × List Fresh :=
  if r.op = 1 then fdotGroups tys r n
  else
    let op := r.op - 0x100
    let imm := if takesImm op then immOf r else 0
    let main := fun (d a b : Opd) => ({ op := op, late := lateOp op r.d, sc := recScope tys r, d := d, a := a, b := b,
                                        rd := readsD op imm || storesD op, wr := !storesD op && r.d != .none, lit := 0 } : NStep)
    let dSrc := if storesD op then [r.d] else []
    match r.b with
    | .map f0 =>
      let f := scaled f0 (accessBytes op)
      let ps := placeConsts (r.a :: dSrc) (!mapInS45 f) n
      let m := mapUnits f (n + (constFresh ps).length)
      let cs := constUnits ps
      let own := fun (x : NUnit × Bool) => !x.2
      ([{ pre := if (terms f).isEmpty then cs ++ m.1 else cs.filter Prod.snd ++ m.1 ++ cs.filter own,
          main := main (sourceOpd ps r.d) (sourceOpd ps r.a) m.2.1, kept := none }], constFresh ps ++ m.2.2)
    | b =>
      let ps := placeConsts (r.a :: (if takesImm op then [] else [b]) ++ dSrc) true n
      let ls := blockRegs tys block r
      let sc := recScope tys r
      let first := fun (x : Opd) => ((ls.head?.map fun p => Opd.reg p.1)).getD x
      let d := if op = 0xCD then sourceOpd ps r.d else first (sourceOpd ps r.d)
      let b := if takesImm op then .imm imm else if op = 0xCD then first (sourceOpd ps b) else sourceOpd ps b
      (ls.map (fun p => bare (opStep 0x64 sc (.reg p.1) p.2 (.reg .zr) false))
        ++ [{ pre := constUnits ps, main := main d (sourceOpd ps r.a) b, kept := none }]
        ++ (if op = 0xCD then [] else ls.map fun p => bare (opStep 0x64 sc p.2 (.reg p.1) (.reg .zr) false)),
       constFresh ps)

/-- The groups of every record, with their fresh intervals by record. -/
def allGroups (tys : List VType) (block : Nat) : List SRec → Nat → List (List NGroup × List Fresh)
  | [], _ => []
  | r :: rs, n =>
    let g := groupsOf tys block r n
    g :: allGroups tys block rs (n + g.2.length)

/-- Lane registers that the program's operands of several registers need. -/
def listSize (o : SObj) : Nat :=
  o.recs.foldl (fun n r => max n (if recScope o.types r = .lane ∧ (severalOf r).any isVirt then (severalOf r).length else 0)) 0

/-! ### Intervals and their registers (R384, R385) -/

/-- The live interval of a register: first and last record, and the records that use it. -/
structure Interval where
  num   : Nat
  start : Nat
  stop  : Nat
  uses  : List Nat
  uni   : Bool
  deriving DecidableEq, Repr

/-- Definitions and uses of one virtual register, by record. -/
structure DefUse where
  defs : List Nat
  uses : List Nat
  deriving DecidableEq, Repr

/-- Record i uses, or defines, the register of an operand. -/
def noteOpd (i : Nat) (isUse : Bool) (x : SOp) (t : Table DefUse) : Table DefUse :=
  match x with
  | .virt v => tupd { defs := [], uses := [] } t v fun e =>
      if isUse then { e with uses := e.uses ++ [i] } else { e with defs := e.defs ++ [i] }
  | .const _ _ => t | .lid => t | .wid => t | .arg _ => t | .iter _ => t | .tseq => t | .map _ => t | .none => t

/-- Definitions and uses of the virtual registers, by number. -/
def defUses : List SRec → Nat → Table DefUse → Table DefUse
  | [], _, t => t
  | r :: rs, i, t =>
    let n := r.op - 0x100
    let old := r.op == 1 || storesD n || readsD n (immOf r)
    let t := noteOpd i true r.b (noteOpd i true r.a t)
    let t := if old then noteOpd i true r.d t else t
    let t := (severalOf r).foldl (fun t x => noteOpd i true x t) t
    let defs := if r.op != 1 && storesD n then [] else if r.op = 0x1CD then [r.d] else r.d :: (severalOf r).drop 1
    defUses rs (i + 1) (defs.foldl (fun t x => noteOpd i false x t) t)

/-- Extend an interval over the statements (first and last record) that it reaches into. -/
def extend (d : DefUse) (iv : Interval) (st : Nat × Nat) : Interval :=
  let a := st.1
  let b := st.2
  let iv := if iv.start < a ∧ a ≤ iv.stop ∧ iv.stop ≤ b then { iv with stop := b } else iv
  let inS := fun (x : Nat) => decide (a ≤ x) && decide (x ≤ b)
  let before := match (d.uses.find? inS), (d.defs.find? inS) with
    | some u, some f => decide (u ≤ f)
    | some _, none => false
    | none, _ => false
  if inS iv.start && before then { iv with start := a, stop := max iv.stop b } else iv

/-- The interval of a virtual register. -/
def intervalOf (tys : List VType) (sts : List (Nat × Nat)) (v : Nat) (d : DefUse) : Interval :=
  let all := d.defs ++ d.uses
  let iv : Interval := { num := v, start := all.foldl min (all.headD 0), stop := all.foldl max 0, uses := d.uses,
                         uni := match tys[v]? with
                           | some t => t.uni
                           | none => false }
  sts.foldl (extend d) iv

/-- Where an interval lives. -/
inductive IvLoc where
  | reg (r : Reg) | slot (n : Nat) (uni : Bool)
  deriving DecidableEq, Repr

/-- The scan: intervals that hold registers, counters and bounds of the statement, places so far, and slots in use. -/
structure Scan where
  active : List (Interval × Reg)
  ctrs   : List Reg
  loc    : Table IvLoc
  slots  : List (Nat × Nat × Nat)
  doms   : Table (List Reg)
  deriving DecidableEq, Repr

/-- The varying registers that the scan gives out: V0 to V(16 × REGS − 4) (R384), of which a word without a window names V0–V63;
where REGS is above 4 and a value is `spilled`, the temporaries are the last three of these (log entry 29). Operands of several
registers take `block` of them. -/
def varyingRegs (regs : Nat) (spilled : Bool) (block : Nat) : Nat :=
  (if spilled then min (16 * regs) 64 - 3 else min (16 * regs - 3) 64) - block

/-- The registers of a class, ascending: `lanes` varying ones. -/
def classRegs (lanes : Nat) (uni : Bool) : List Reg :=
  if uni then (List.range 32).map fun i => sreg (8 + i) else (List.range lanes).map vregOf

/-- The lowest free register of a class. -/
def freeReg (c : SConfig) (uni : Bool) (sc : Scan) : Option Reg :=
  (classRegs c.lanes uni).find? fun r => !(sc.ctrs.contains r) && !(sc.active.any fun x => x.2 == r)

/-- The next use of an interval from a record on; its end where there is none. -/
def nextUse (iv : Interval) (r : Nat) : Nat := (iv.uses.find? fun u => decide (r ≤ u)).getD iv.stop

/-- The lowest slot that no spilled interval of the same records holds; under ALLSPILL the next one. -/
def pickSlot (c : SConfig) (sc : Scan) (iv : Interval) : Nat :=
  if c.allSpill then sc.slots.length
  else ((List.range (sc.slots.length + 1)).find? fun n =>
    !(sc.slots.any fun x => x.1 == n && decide (x.2.1 ≤ iv.stop) && decide (iv.start ≤ x.2.2))).getD sc.slots.length

/-- Spill an interval. -/
def spill (c : SConfig) (sc : Scan) (iv : Interval) : Scan :=
  let n := pickSlot c sc iv
  { sc with loc := tput sc.loc iv.num (.slot n iv.uni), slots := sc.slots ++ [(n, iv.start, iv.stop)],
            active := sc.active.filter fun x => x.1.num != iv.num }

/-- The interval whose next use lies furthest ahead; on a tie the higher number. -/
def furthest (r : Nat) : List Interval → Option Interval
  | [] => none
  | x :: xs =>
    match furthest r xs with
    | none => some x
    | some y => if nextUse x r > nextUse y r ∨ (nextUse x r = nextUse y r ∧ x.num > y.num) then some x else some y

/-- Give an interval that starts at a record its place. -/
def placeInterval (c : SConfig) (r : Nat) (sc : Scan) (iv : Interval) : Scan :=
  let hold := fun (sc : Scan) (q : Reg) => { sc with active := sc.active ++ [(iv, q)], loc := tput sc.loc iv.num (.reg q) }
  if c.allSpill && !iv.uni then spill c sc iv
  else
    match freeReg c iv.uni sc with
    | some q => hold sc q
    | none =>
      let same := (sc.active.map Prod.fst).filter fun x => x.uni == iv.uni
      match furthest r (same ++ [iv]) with
      | none => sc
      | some x =>
        if x.num = iv.num then spill c sc iv
        else
          let sc := spill c sc x
          match freeReg c iv.uni sc with
          | some q => hold sc q
          | none => sc

/-- Take n registers for the counters and bounds of a statement (R394). -/
def takeCounters (c : SConfig) (r : Nat) : Nat → Scan → Scan
  | 0, sc => sc
  | n + 1, sc =>
    let sc := if (freeReg c true sc).isSome then sc
      else match furthest r ((sc.active.map Prod.fst).filter Interval.uni) with
        | none => sc
        | some x => spill c sc x
    match freeReg c true sc with
    | none => sc
    | some q => takeCounters c r n { sc with ctrs := sc.ctrs ++ [q] }

/-- One record of the scan: ends, the counters of a statement that begins, starts. -/
def scanRec (c : SConfig) (doms : List (List (Affine × Affine))) (runs : List (Nat × Nat × Nat)) (ivs : List Interval)
    (sc : Scan) (r : Nat) : Scan :=
  let sc := { sc with active := sc.active.filter fun x => decide (r ≤ x.1.stop) }
  let inRun := runs.find? fun x => decide (x.2.1 ≤ r) && decide (r ≤ x.2.2)
  let sc := match inRun with
    | none => { sc with ctrs := [] }
    | some x =>
      if x.2.1 = r then
        let sc := takeCounters c r (2 * (doms.getD x.1 []).length) { sc with ctrs := [] }
        { sc with doms := tput sc.doms x.1 sc.ctrs }
      else sc
  (ivs.filter fun iv => iv.start == r).foldl (placeInterval c r) sc

/-! ### Code -/

/-- What is emitted: a word; a literal load; a label, and branches to one. -/
inductive Em where
  | word (x : BitVec 32) | lit (d : Reg) (v : Nat) | lab (n : Nat) | br (n : Nat) | brz (d : Reg) (n : Nat)
  deriving DecidableEq, Repr

/-- The words of a spill, or a reload's first word: the slot's offset. -/
def slotLit (n : Nat) : Em := .lit s45 (8 * n)

/-- The varying temporary of position p (0 A, 1 B, 2 D): of the last three lane registers of the allotment (R384) that a word can
name. -/
def tempReg (regs p : Nat) : Reg := vregOf (min (16 * regs) 64 - 3 + p)

/-- The reload of position p from a slot, and the register that it gives (R385). -/
def reload (regs p n : Nat) (uni : Bool) : List Em × Reg :=
  let vt := tempReg regs p
  let su := sreg (40 + p)
  let base := [slotLit n, .word (mkWord true 0 0xB0 vt.enc s44.enc s45.enc)]
  if uni then (base ++ [.word (mkWord true 1 0x0B su.enc vt.enc 120)], su) else (base, vt)

/-- A source operand: its reload, and its register. -/
def source (regs p : Nat) (loc : Table IvLoc) (ctrs : List Reg) (x : Opd) : List Em × BitVec 7 :=
  match x with
  | .reg r => ([], r.enc)
  | .imm n => ([], BitVec.ofNat 7 n)
  | .iter j => ([], (ctrs.getD (2 * j) .zr).enc)
  | .iv v =>
    match tget? loc v with
    | some (.slot n uni) => let r := reload regs p n uni; (r.1, r.2.enc)
    | some (.reg r) => ([], r.enc)
    | none => ([], 120)

/-- A destination operand: its register, and the store after it. -/
def dest (regs : Nat) (loc : Table IvLoc) (ctrs : List Reg) (x : Opd) : Reg × List Em :=
  match x with
  | .reg r => (r, [])
  | .imm _ => (.zr, [])
  | .iter j => (ctrs.getD (2 * j) .zr, [])
  | .iv v =>
    match tget? loc v with
    | some (.slot n uni) =>
      let r := if uni then sreg 42 else tempReg regs 2
      (r, [slotLit n, .word (mkWord false 0 0xB2 r.enc s44.enc s45.enc)])
    | some (.reg r) => (r, [])
    | none => (.zr, [])

/-- The reloads of a step, in the order D, A, B. -/
def stepReloads (regs : Nat) (loc : Table IvLoc) (ctrs : List Reg) (t : NStep) : List Em :=
  (if t.rd then (source regs 2 loc ctrs t.d).1 else []) ++ (source regs 0 loc ctrs t.a).1 ++ (source regs 1 loc ctrs t.b).1

/-- A step without its reloads: its word or literal load, and the store of a spilled destination. -/
def stepCore (regs : Nat) (loc : Table IvLoc) (ctrs : List Reg) (t : NStep) : List Em :=
  let d := dest regs loc ctrs t.d
  let df := if t.rd && !t.wr then (source regs 2 loc ctrs t.d).2 else d.1.enc
  (if t.op = 0x12 then [.lit d.1 t.lit]
   else [.word (mkWord t.late t.sc.enc (BitVec.ofNat 8 t.op) df (source regs 0 loc ctrs t.a).2 (source regs 1 loc ctrs t.b).2)])
    ++ (if t.wr then d.2 else [])

/-- A unit in the order of R395: its reloads, its constant, itself and its store. -/
def unitEm (regs : Nat) (loc : Table IvLoc) (ctrs : List Reg) (u : NUnit) : List Em :=
  stepReloads regs loc ctrs u.step ++ (u.s45.toList.map fun v => Em.lit s45 v) ++ stepCore regs loc ctrs u.step

/-- The operand lives in a slot. -/
def inSlot (loc : Table IvLoc) (x : Opd) : Bool :=
  match x with
  | .iv v => match tget? loc v with
    | some (.slot _ _) => true
    | some (.reg _) => false
    | none => false
  | .reg _ => false | .imm _ => false | .iter _ => false

/-- An instruction with its reloads, constants and map, itself, and its store (R395); what defines a spilled fresh interval
comes before the reloads. -/
def groupEm (regs : Nat) (loc : Table IvLoc) (ctrs : List Reg) (g : NGroup) : List Em :=
  let em := fun (xs : List (NUnit × Bool)) => xs.flatMap fun x => unitEm regs loc ctrs x.1
  let pre := match g.kept with
    | some x => if inSlot loc x then g.pre else []
    | none => g.pre
  if pre.any fun x => x.2 && inSlot loc x.1.step.d then
    em (pre.filter Prod.snd) ++ stepReloads regs loc ctrs g.main ++ em (pre.filter fun x => !x.2) ++ stepCore regs loc ctrs g.main
  else stepReloads regs loc ctrs g.main ++ em pre ++ stepCore regs loc ctrs g.main

/-- The heads of a statement's loops, from dimension j on (R394); labels are numbered by domain and dimension. -/
def loopHeads (regs : Nat) (loc : Table IvLoc) (ctrs : List Reg) (dom : Nat) : List (Affine × Affine) → Nat → List Em
  | [], _ => []
  | (lo, hi) :: ds, j =>
    let c := ctrs.getD (2 * j) .zr
    let u := ctrs.getD (2 * j + 1) .zr
    (boundUnits (.reg c) lo ++ boundUnits (.reg u) hi).flatMap (unitEm regs loc ctrs)
      ++ [.lab (8 * dom + 2 * j), .word (mkWord false 1 0x58 s45.enc c.enc u.enc), .brz s45 (8 * dom + 2 * j + 1)]
      ++ loopHeads regs loc ctrs dom ds (j + 1)

/-- The ends of the loops, the innermost first. -/
def loopEnds (ctrs : List Reg) (dom : Nat) : Nat → List Em
  | 0 => []
  | j + 1 =>
    let c := ctrs.getD (2 * j) .zr
    [.lit s45 1, .word (mkWord false 1 0x20 c.enc c.enc s45.enc), .br (8 * dom + 2 * j), .lab (8 * dom + 2 * j + 1)]
      ++ loopEnds ctrs dom j

/-- The code of a program before EXIT. -/
def codeEm (c : SConfig) (o : SObj) (gs : List (List NGroup × List Fresh)) (runs : List (Nat × Nat × Nat)) (sc : Scan) : List Em :=
  (if o.recs.any fun r => r.op == 1 then [.lit s43 32] else [])
    ++ gs.zipIdx.flatMap fun x =>
      let i := x.2
      let run := runs.find? fun q => decide (q.2.1 ≤ i) && decide (i ≤ q.2.2)
      let ctrs := match run with
        | none => []
        | some q => tgetD [] sc.doms q.1
      let body := x.1.1.flatMap (groupEm c.regs sc.loc ctrs)
      match run with
      | none => body
      | some q =>
        let dims := o.doms.getD q.1 []
        (if q.2.1 = i then loopHeads c.regs sc.loc ctrs q.1 dims 0 else []) ++ body
          ++ (if q.2.2 = i then loopEnds ctrs q.1 dims.length else [])

/-! ### Pools, labels and the image (R383) -/

/-- A placed word. -/
inductive Cell where
  | word (x : BitVec 32) | lit (d : Reg) (v pool : Nat) | br (n : Nat) | brz (d : Reg) (n : Nat)
  deriving DecidableEq, Repr

/-- Code being laid out: the words so far, last first; pools that were emitted; pending literals and the oldest load. -/
structure Layout where
  n      : Nat
  cells  : List Cell
  labs   : Table Nat
  pools  : Table (Nat × List Nat)
  pend   : List Nat
  oldest : Option Nat
  deriving DecidableEq, Repr

/-- The two words of a literal. -/
def litCells (v : Nat) : List Cell := [.word (BitVec.ofNat 32 (v / 2 ^ 32)), .word (BitVec.ofNat 32 v)]

/-- Emit the pool of the pending literals, 8-aligned. -/
def putPool (l : Layout) : Layout :=
  let pad := l.n % 2
  let base := l.n + pad
  { l with n := base + 2 * l.pend.length,
           cells := (l.pend.reverse.flatMap litCells) ++ (List.replicate pad (.word 0)) ++ l.cells,
           pools := tput l.pools l.pools.length (base, l.pend), pend := [], oldest := none }

/-- An early pool, where 2,048 words have been emitted since the oldest pending load, behind a branch over it. -/
def earlyPool (l : Layout) : Layout :=
  match l.oldest with
  | none => l
  | some i =>
    if l.n < i + 1 + 2048 then l
    else
      let base := l.n + 1 + (l.n + 1) % 2
      let off := BitVec.ofNat 21 (base + 2 * l.pend.length - l.n)
      putPool { l with n := l.n + 1, cells := .word (encode (.br false off)) :: l.cells }

/-- Lay out one item. -/
def layOne (l : Layout) (e : Em) : Layout :=
  match e with
  | .lab k => { l with labs := tput l.labs k l.n }
  | .word x => earlyPool { l with n := l.n + 1, cells := .word x :: l.cells }
  | .br k => earlyPool { l with n := l.n + 1, cells := .br k :: l.cells }
  | .brz d k => earlyPool { l with n := l.n + 1, cells := .brz d k :: l.cells }
  | .lit d v =>
    earlyPool { l with n := l.n + 1, cells := .lit d v l.pools.length :: l.cells,
                       pend := if l.pend.contains v then l.pend else l.pend ++ [v], oldest := some (l.oldest.getD l.n) }

/-- The distance from a word to a label. -/
def toLabel (l : Layout) (i k : Nat) : Int := (tgetD 0 l.labs k : Nat) - (i : Nat)

/-- The word of a placed cell at an index. -/
def cellWord (l : Layout) (i : Nat) (c : Cell) : BitVec 32 :=
  match c with
  | .word x => x
  | .br k => encode (.br false (BitVec.ofNat 21 (patternOf 21 (toLabel l i k))))
  | .brz d k => encode (.brz false d (BitVec.ofNat 14 (patternOf 14 (toLabel l i k))))
  | .lit d v p =>
    let q := tgetD (0, []) l.pools p
    encode (.ldl true d (BitVec.ofNat 14 (q.1 + 2 * q.2.idxOf v - i)))

/-- A loop's exit branch cannot reach its end (R382, reason 8). -/
def farBranch (l : Layout) (i : Nat) (c : Cell) : Bool :=
  match c with
  | .brz _ k => decide (8191 < toLabel l i k)
  | .word _ => false | .br _ => false | .lit _ _ _ => false

/-- FEAT0 bits of a record's instruction (R42). -/
def recNeeds (r : SRec) : Nat :=
  let n := r.op - 0x100
  if r.op = 1 then 0
  else if n = 0x92 ∨ n = 0x93 ∨ n = 0x94 then 2 ^ 17
  else if 0xDB ≤ n ∧ n ≤ 0xDD then 2 ^ 16
  else if 0xF0 ≤ n then 2 ^ 13
  else 0

/-- FEAT0 bits of the code's instructions (R42) and of deterministic mode (R41). -/
def needsOf (o : SObj) : BitVec 64 :=
  o.recs.foldl (fun x r => x ||| BitVec.ofNat 64 (recNeeds r)) (BitVec.ofNat 64 o.needs ||| (if o.det then 1 else 0))

/-- The code header (R41, R383). -/
def headerBytes (c : SConfig) (o : SObj) (slots : Nat) : List Byte :=
  bytesOfNat 2 0xC6A5 ++ bytesOfNat 2 1 ++ bytesOfNat 2 0x0601 ++ bytesOfNat 2 0 ++ bytesOfNat 8 (needsOf o).toNat
    ++ bytesOfNat 1 o.warps ++ bytesOfNat 1 o.lanes ++ bytesOfNat 1 c.regs ++ bytesOfNat 1 (c.split + (if o.det then 128 else 0))
    ++ bytesOfNat 4 o.scratch ++ bytesOfNat 2 slots ++ List.replicate 38 0

/-- The scratchpad or the registers of the program are beyond the configuration (R382, reason 8). -/
def tooLarge (c : SConfig) (o : SObj) : Bool :=
  decide (Config.scratchOf c.split < o.scratch) || decide (Config.blocksPerBank < c.regs * ((o.warps + 3) / 4))

/-- A program with its registers assigned, as the code of its groups, the scan's result and the slots that it uses. -/
structure Assigned where
  groups : List (List NGroup × List Fresh)
  scan   : Scan
  slots  : Nat
  deriving DecidableEq, Repr

/-- The linear scan of a program (R384, R385), with the last three nameable lane registers kept for reloads or not. -/
def assign (c : SConfig) (o : SObj) (spilled : Bool) : Assigned :=
  let runs := runsOf o.recs 0
  let c := { c with lanes := varyingRegs c.regs spilled (listSize o) }
  let gs := allGroups o.types c.lanes o.recs o.types.length
  let sts := runs.map Prod.snd
  let virtual := (defUses o.recs 0 []).map fun e => intervalOf o.types sts e.1 e.2
  let fresh := gs.zipIdx.flatMap fun x => x.1.2.map fun f =>
    ({ num := f.num, start := x.2, stop := x.2, uses := [x.2], uni := f.uni } : Interval)
  let ivs := virtual ++ fresh
  let sc := (List.range o.recs.length).foldl (scanRec c o.doms runs ivs)
    { active := [], ctrs := [], loc := [], slots := [], doms := [] }
  { groups := gs, scan := sc, slots := sc.slots.foldl (fun (n : Nat) x => max n (x.1 + 1)) 0 }

/-- The image of an object under a configuration, or reason 8 (R382, R383). Above 4 of REGS the first assignment has no lane
register to name for reloads, so that one that spills is made again with three (log entry 29). -/
def translateObj (c : SConfig) (o : SObj) : List Byte ⊕ Nat :=
  let first := assign c o false
  let x := if first.slots = 0 then first else assign c o true
  let slots := x.slots
  let l0 := (codeEm c o x.groups (runsOf o.recs 0) x.scan).foldl layOne { n := 0, cells := [], labs := [], pools := [], pend := [], oldest := none }
  let l1 : Layout := { l0 with n := l0.n + 1, cells := .word (encode (.exit false .lane)) :: l0.cells }
  let l := if l1.pend.isEmpty then l1 else putPool l1
  let cells := l.cells.reverse.zipIdx
  if tooLarge c o then .inr 8
  else if 65536 < 8 * slots ∨ 1048575 < l.n ∨ cells.any (fun x => farBranch l x.2 x.1) then .inr 8
  else .inl (headerBytes c o slots ++ cells.flatMap fun x => bytesOfWord (cellWord l x.2 x.1))

end Sys2Proof.Machine
end

