-- ==== Sys2Proof/Machine/Storun.lean ====
section
/-! DEFINITION. The end of a translation (R381–R383, R388): the request, the object and the image in a context's memory. -/

namespace Sys2Proof.Machine

/-- Bytes at a virtual address of a context, page by page; `n` pages are left. -/
def spanRead (ctx va len : Nat) : Nat → PM (Option (List Byte))
  | 0 => return (if len = 0 then some [] else none)
  | n + 1 => do
    if len = 0 then return some []
    let k := min len (65536 - va % 65536)
    match ← pondRead ctx va k with
    | none => return none
    | some bs =>
      match ← spanRead ctx (va + k) (len - k) n with
      | none => return none
      | some rest => return some (bs ++ rest)

/-- Bytes written at a virtual address of a context, page by page; false where one cannot be. -/
def spanWrite (ctx va : Nat) (bs : List Byte) : Nat → PM Bool
  | 0 => return bs.isEmpty
  | n + 1 => do
    if bs.isEmpty then return true
    let k := 65536 - va % 65536
    let piece := bs.take k
    match ← pondPhys none ctx va 0 .write with
    | none => return false
    | some pa =>
      match mergeBad (← get) pa piece.length with
      | some b => do
        modify fun s => integrityService s ctx b
        return false
      | none => do
        modify fun s => outerWrite s ctx pa piece
        spanWrite ctx (va + k) (bs.drop k) n

/-- Pages that a span may touch. -/
def pagesOf (len : Nat) : Nat := len / 65536 + 2

/-- The object of a request, or reason 1 (R382). -/
def readObject (ctx obj objLen : Nat) : PM (Option (List Byte)) := do
  if objLen < 64 then return none
  match ← spanRead ctx obj 64 2 with
  | none => return none
  | some h =>
    let len := field h 56 59
    if objLen < len then return none
    spanRead ctx obj len (pagesOf len)

/-- The configuration of a request; none where a field breaks R381. -/
def requestConfig (q : List Byte) : Option SConfig :=
  let f := fun lo hi => field q lo hi
  if 1 ≤ f 12 12 ∧ f 12 12 ≤ 16 ∧ f 13 13 ≤ 3 ∧ f 14 14 ≤ 1 ∧ f 15 15 = 0 ∧ f 16 23 % 64 = 0 ∧ f 28 31 = 0 ∧ f 40 63 = 0 then
    some { regs := f 12 12, split := f 13 13, allSpill := f 14 14 == 1 }
  else none

/-- A request translated: the length of its image, or the reason of a refusal (R382). -/
def translateRequest (ctx : Nat) (q : List Byte) : PM (Nat ⊕ Nat) := do
  match ← readObject ctx (field q 0 7) (field q 8 11) with
  | none => return .inr 1
  | some obj =>
    match parseObject obj (← get).secver with
    | .inr r => return .inr r
    | .inl o =>
      match requestConfig q with
      | none => return .inr 8
      | some c =>
        match translateObj c o with
        | .inr r => return .inr r
        | .inl img =>
          let room := field q 24 27
          let out := field q 16 23
          if room < img.length then do
            -- a refused translation leaves the buffer partly written: how far is free
            let k := Config.freeNat (← get).free % (room + 1)
            modify bump
            let _ ← spanWrite ctx out (img.take k) (pagesOf room)
            return .inr 9
          else if ← spanWrite ctx out img (pagesOf img.length) then return .inl img.length
          else return .inr 9

/-- The status word (R382). -/
def statusWord (r : Nat ⊕ Nat) : Nat :=
  match r with
  | .inl n => 1 + n * 2 ^ 32
  | .inr n => 2 + n * 2 ^ 8

/-- A translation ends: event 3. -/
def endXlate (q : XlateOp) (rest : List XlateOp) (s : State) : State :=
  postEvent { s with xlateOps := rest } q.ctx 3 (BitVec.ofNat 64 q.addr)

/-- The request of a translation is read, and BUSY falls (R381); one that cannot be read ends it. -/
def readRequest (q : XlateOp) (rest : List XlateOp) : PM Unit := do
  match ← pondRead q.ctx q.addr 64 with
  | none => modify (endXlate q rest)
  | some r => modify fun s => { s with xlateOps := { q with req := some r } :: rest }

/-- A request that has been read is served: image, status word, event 3. -/
def serveXlate (q : XlateOp) (r : List Byte) (rest : List XlateOp) : PM Unit := do
  let x ← translateRequest q.ctx r
  let st := field r 32 39
  if st % 8 = 0 then do
    let _ ← spanWrite q.ctx st (bytesOfNat 8 (statusWord x)) 1
  modify (endXlate q rest)

/-- TRANSLATION_COMPLETE (R382, R383): of the oldest request; where that is still to be read, it is read (log entry 46). -/
def execTranslationComplete (s : State) : Host.Outcome State Fault Refusal :=
  match s.xlateOps with
  | [] => .next s
  | q :: rest =>
    .next (runPond s (match q.req with
      | none => readRequest q rest
      | some r => serveXlate q r rest))

end Sys2Proof.Machine
end

