-- ==== Sys2Proof/Machine/Dispatch.lean ====
section
/-! DEFINITION. One arm per row of spec/opcode_table.json: the meaning of each instruction and event. -/

namespace Sys2Proof.Machine

def exec (i : Instr) (s : State) : Host.Outcome State Fault Refusal :=
  match i with
  | .nop w sc => Sys2Proof.Machine.execNop w sc s
  | .br w o => Sys2Proof.Machine.execBr w o s
  | .brz w d o => Sys2Proof.Machine.execBrz w d o s
  | .brnz w d o => Sys2Proof.Machine.execBrnz w d o s
  | .call w o => Sys2Proof.Machine.execCall w o s
  | .callx w a => Sys2Proof.Machine.execCallx w a s
  | .jx w a => Sys2Proof.Machine.execJx w a s
  | .ckey w a im => Sys2Proof.Machine.execCkey w a im s
  | .klass w d o => Sys2Proof.Machine.execKlass w d o s
  | .cnext w => Sys2Proof.Machine.execCnext w s
  | .cbrk w im => Sys2Proof.Machine.execCbrk w im s
  | .rdfl w d a => Sys2Proof.Machine.execRdfl w d a s
  | .exit w sc => Sys2Proof.Machine.execExit w sc s
  | .yield w => Sys2Proof.Machine.execYield w s
  | .trap w im => Sys2Proof.Machine.execTrap w im s
  | .bkpt w im => Sys2Proof.Machine.execBkpt w im s
  | .win w im => Sys2Proof.Machine.execWin w im s
  | .sets w im => Sys2Proof.Machine.execSets w im s
  | .ldl w d o => Sys2Proof.Machine.execLdl w d o s
  | .ldlw w d o => Sys2Proof.Machine.execLdlw w d o s
  | .sysr w d im => Sys2Proof.Machine.execSysr w d im s
  | .sysw w a im => Sys2Proof.Machine.execSysw w a im s
  | .icinv w a b => Sys2Proof.Machine.execIcinv w a b s
  | .gov w a => Sys2Proof.Machine.execGov w a s
  | .qsync w => Sys2Proof.Machine.execQsync w s
  | .tspawn w a b => Sys2Proof.Machine.execTspawn w a b s
  | .tsucc w a b => Sys2Proof.Machine.execTsucc w a b s
  | .cpol w im => Sys2Proof.Machine.execCpol w im s
  | .eret w im => Sys2Proof.Machine.execEret w im s
  | .mbankQuery w d a => Sys2Proof.Machine.execMbankQuery w d a s
  | .mbankPin w d a => Sys2Proof.Machine.execMbankPin w d a s
  | .mbankUnpin w d a => Sys2Proof.Machine.execMbankUnpin w d a s
  | .mbankRelease w d a => Sys2Proof.Machine.execMbankRelease w d a s
  | .coll w sc im a b => Sys2Proof.Machine.execColl w sc im a b s
  | .mstore w sc im a b => Sys2Proof.Machine.execMstore w sc im a b s
  | .add w sc t d a b => Sys2Proof.Machine.execAdd w sc t d a b s
  | .sub w sc t d a b => Sys2Proof.Machine.execSub w sc t d a b s
  | .mul w sc t d a b => Sys2Proof.Machine.execMul w sc t d a b s
  | .min w sc t d a b => Sys2Proof.Machine.execMin w sc t d a b s
  | .max w sc t d a b => Sys2Proof.Machine.execMax w sc t d a b s
  | .minu w sc t d a b => Sys2Proof.Machine.execMinu w sc t d a b s
  | .maxu w sc t d a b => Sys2Proof.Machine.execMaxu w sc t d a b s
  | .adds w sc t d a b => Sys2Proof.Machine.execAdds w sc t d a b s
  | .addsu w sc t d a b => Sys2Proof.Machine.execAddsu w sc t d a b s
  | .subs w sc t d a b => Sys2Proof.Machine.execSubs w sc t d a b s
  | .shl w sc t d a b => Sys2Proof.Machine.execShl w sc t d a b s
  | .shr w sc t d a b => Sys2Proof.Machine.execShr w sc t d a b s
  | .sra w sc t d a b => Sys2Proof.Machine.execSra w sc t d a b s
  | .ceq w sc t d a b => Sys2Proof.Machine.execCeq w sc t d a b s
  | .clt w sc t d a b => Sys2Proof.Machine.execClt w sc t d a b s
  | .cltu w sc t d a b => Sys2Proof.Machine.execCltu w sc t d a b s
  | .and w sc d a b => Sys2Proof.Machine.execAnd w sc d a b s
  | .or w sc d a b => Sys2Proof.Machine.execOr w sc d a b s
  | .xor w sc d a b => Sys2Proof.Machine.execXor w sc d a b s
  | .andn w sc d a b => Sys2Proof.Machine.execAndn w sc d a b s
  | .mov w sc d a => Sys2Proof.Machine.execMov w sc d a s
  | .bsel w sc d a b => Sys2Proof.Machine.execBsel w sc d a b s
  | .mulh64 w sc d a b => Sys2Proof.Machine.execMulh64 w sc d a b s
  | .mulhu64 w sc d a b => Sys2Proof.Machine.execMulhu64 w sc d a b s
  | .mulh32 w sc d a b => Sys2Proof.Machine.execMulh32 w sc d a b s
  | .mulhu32 w sc d a b => Sys2Proof.Machine.execMulhu32 w sc d a b s
  | .mad32 w sc d a b => Sys2Proof.Machine.execMad32 w sc d a b s
  | .mad64 w sc d a b => Sys2Proof.Machine.execMad64 w sc d a b s
  | .popc w sc d a => Sys2Proof.Machine.execPopc w sc d a s
  | .clz w sc d a => Sys2Proof.Machine.execClz w sc d a s
  | .brev w sc d a => Sys2Proof.Machine.execBrev w sc d a s
  | .bfx w sc d a b => Sys2Proof.Machine.execBfx w sc d a b s
  | .bfi w sc d a b => Sys2Proof.Machine.execBfi w sc d a b s
  | .shufb w sc d a b => Sys2Proof.Machine.execShufb w sc d a b s
  | .faddF32 w sc d a b => Sys2Proof.Machine.execFaddF32 w sc d a b s
  | .faddBf16 w sc d a b => Sys2Proof.Machine.execFaddBf16 w sc d a b s
  | .faddF16 w sc d a b => Sys2Proof.Machine.execFaddF16 w sc d a b s
  | .fsubF32 w sc d a b => Sys2Proof.Machine.execFsubF32 w sc d a b s
  | .fsubBf16 w sc d a b => Sys2Proof.Machine.execFsubBf16 w sc d a b s
  | .fsubF16 w sc d a b => Sys2Proof.Machine.execFsubF16 w sc d a b s
  | .fmulF32 w sc d a b => Sys2Proof.Machine.execFmulF32 w sc d a b s
  | .fmulBf16 w sc d a b => Sys2Proof.Machine.execFmulBf16 w sc d a b s
  | .fmulF16 w sc d a b => Sys2Proof.Machine.execFmulF16 w sc d a b s
  | .ffmaF32 w sc d a b => Sys2Proof.Machine.execFfmaF32 w sc d a b s
  | .ffmaBf16 w sc d a b => Sys2Proof.Machine.execFfmaBf16 w sc d a b s
  | .ffmaF16 w sc d a b => Sys2Proof.Machine.execFfmaF16 w sc d a b s
  | .fminF32 w sc d a b => Sys2Proof.Machine.execFminF32 w sc d a b s
  | .fminBf16 w sc d a b => Sys2Proof.Machine.execFminBf16 w sc d a b s
  | .fminF16 w sc d a b => Sys2Proof.Machine.execFminF16 w sc d a b s
  | .fmaxF32 w sc d a b => Sys2Proof.Machine.execFmaxF32 w sc d a b s
  | .fmaxBf16 w sc d a b => Sys2Proof.Machine.execFmaxBf16 w sc d a b s
  | .fmaxF16 w sc d a b => Sys2Proof.Machine.execFmaxF16 w sc d a b s
  | .fceqF32 w sc d a b => Sys2Proof.Machine.execFceqF32 w sc d a b s
  | .fceqBf16 w sc d a b => Sys2Proof.Machine.execFceqBf16 w sc d a b s
  | .fceqF16 w sc d a b => Sys2Proof.Machine.execFceqF16 w sc d a b s
  | .fcltF32 w sc d a b => Sys2Proof.Machine.execFcltF32 w sc d a b s
  | .fcltBf16 w sc d a b => Sys2Proof.Machine.execFcltBf16 w sc d a b s
  | .fcltF16 w sc d a b => Sys2Proof.Machine.execFcltF16 w sc d a b s
  | .fcleF32 w sc d a b => Sys2Proof.Machine.execFcleF32 w sc d a b s
  | .fcleBf16 w sc d a b => Sys2Proof.Machine.execFcleBf16 w sc d a b s
  | .fcleF16 w sc d a b => Sys2Proof.Machine.execFcleF16 w sc d a b s
  | .fscl w sc d a im => Sys2Proof.Machine.execFscl w sc d a im s
  | .ffrc w sc d a im => Sys2Proof.Machine.execFfrc w sc d a im s
  | .frnd w sc d a im => Sys2Proof.Machine.execFrnd w sc d a im s
  | .fdot2 w sc d a b => Sys2Proof.Machine.execFdot2 w sc d a b s
  | .cvt w sc d a x c => Sys2Proof.Machine.execCvt w sc d a x c s
  | .cvtsr w sc d a c => Sys2Proof.Machine.execCvtsr w sc d a c s
  | .rand w sc d => Sys2Proof.Machine.execRand w sc d s
  | .rseed w a => Sys2Proof.Machine.execRseed w a s
  | .rcp w sc d a => Sys2Proof.Machine.execRcp w sc d a s
  | .rsq w sc d a => Sys2Proof.Machine.execRsq w sc d a s
  | .sqrt w sc d a => Sys2Proof.Machine.execSqrt w sc d a s
  | .exp2 w sc d a => Sys2Proof.Machine.execExp2 w sc d a s
  | .log2 w sc d a => Sys2Proof.Machine.execLog2 w sc d a s
  | .sint w sc d a => Sys2Proof.Machine.execSint w sc d a s
  | .cost w sc d a => Sys2Proof.Machine.execCost w sc d a s
  | .tanh w sc d a => Sys2Proof.Machine.execTanh w sc d a s
  | .sigm w sc d a => Sys2Proof.Machine.execSigm w sc d a s
  | .ld w sc t d a b => Sys2Proof.Machine.execLd w sc t d a b s
  | .st w sc t d a b => Sys2Proof.Machine.execSt w sc t d a b s
  | .lds w sc t d a b => Sys2Proof.Machine.execLds w sc t d a b s
  | .sts w sc t d a b => Sys2Proof.Machine.execSts w sc t d a b s
  | .ldp64 w d a b => Sys2Proof.Machine.execLdp64 w d a b s
  | .ldp32 w d a b => Sys2Proof.Machine.execLdp32 w d a b s
  | .stp64 w d a b => Sys2Proof.Machine.execStp64 w d a b s
  | .stp32 w d a b => Sys2Proof.Machine.execStp32 w d a b s
  | .pftch w sc a b => Sys2Proof.Machine.execPftch w sc a b s
  | .fence w sc im => Sys2Proof.Machine.execFence w sc im s
  | .xfence w im => Sys2Proof.Machine.execXfence w im s
  | .cflush w sc a b => Sys2Proof.Machine.execCflush w sc a b s
  | .cinv w sc a b => Sys2Proof.Machine.execCinv w sc a b s
  | .cdemote w a b => Sys2Proof.Machine.execCdemote w a b s
  | .lease w sc d a b => Sys2Proof.Machine.execLease w sc d a b s
  | .lrel w sc a => Sys2Proof.Machine.execLrel w sc a s
  | .pgx w a b => Sys2Proof.Machine.execPgx w a b s
  | .atadd64 w sc d a b => Sys2Proof.Machine.execAtadd64 w sc d a b s
  | .atadd32 w sc d a b => Sys2Proof.Machine.execAtadd32 w sc d a b s
  | .atmin64 w sc d a b => Sys2Proof.Machine.execAtmin64 w sc d a b s
  | .atmin32 w sc d a b => Sys2Proof.Machine.execAtmin32 w sc d a b s
  | .atmax64 w sc d a b => Sys2Proof.Machine.execAtmax64 w sc d a b s
  | .atmax32 w sc d a b => Sys2Proof.Machine.execAtmax32 w sc d a b s
  | .atmaxu64 w sc d a b => Sys2Proof.Machine.execAtmaxu64 w sc d a b s
  | .atmaxu32 w sc d a b => Sys2Proof.Machine.execAtmaxu32 w sc d a b s
  | .atand64 w sc d a b => Sys2Proof.Machine.execAtand64 w sc d a b s
  | .ator64 w sc d a b => Sys2Proof.Machine.execAtor64 w sc d a b s
  | .atxor64 w sc d a b => Sys2Proof.Machine.execAtxor64 w sc d a b s
  | .atxch64 w sc d a b => Sys2Proof.Machine.execAtxch64 w sc d a b s
  | .atxch32 w sc d a b => Sys2Proof.Machine.execAtxch32 w sc d a b s
  | .atcas64 w sc d a b => Sys2Proof.Machine.execAtcas64 w sc d a b s
  | .atcas32 w sc d a b => Sys2Proof.Machine.execAtcas32 w sc d a b s
  | .atfaddF32 w sc d a b => Sys2Proof.Machine.execAtfaddF32 w sc d a b s
  | .xperm w t d a b => Sys2Proof.Machine.execXperm w t d a b s
  | .xswz w d a im => Sys2Proof.Machine.execXswz w d a im s
  | .xsumF32 w d a => Sys2Proof.Machine.execXsumF32 w d a s
  | .xsum64 w d a => Sys2Proof.Machine.execXsum64 w d a s
  | .xmaxF32 w d a => Sys2Proof.Machine.execXmaxF32 w d a s
  | .xscan32 w d a => Sys2Proof.Machine.execXscan32 w d a s
  | .vote w d a im => Sys2Proof.Machine.execVote w d a im s
  | .xbcast w d a b => Sys2Proof.Machine.execXbcast w d a b s
  | .tkins2 w d a b => Sys2Proof.Machine.execTkins2 w d a b s
  | .tkins4 w d a b => Sys2Proof.Machine.execTkins4 w d a b s
  | .tkins8 w d a b => Sys2Proof.Machine.execTkins8 w d a b s
  | .cpy w sc im a b => Sys2Proof.Machine.execCpy w sc im a b s
  | .cpyg w sc im a b => Sys2Proof.Machine.execCpyg w sc im a b s
  | .cpyx w sc im a b => Sys2Proof.Machine.execCpyx w sc im a b s
  | .cpyc w sc im => Sys2Proof.Machine.execCpyc w sc im s
  | .binit w sc im a => Sys2Proof.Machine.execBinit w sc im a s
  | .barv w sc im => Sys2Proof.Machine.execBarv w sc im s
  | .bwait w im => Sys2Proof.Machine.execBwait w im s
  | .btest w d im => Sys2Proof.Machine.execBtest w d im s
  | .chain w sc im a b => Sys2Proof.Machine.execChain w sc im a b s
  | .tdef w sc im a => Sys2Proof.Machine.execTdef w sc im a s
  | .mload w sc im a b => Sys2Proof.Machine.execMload w sc im a b s
  | .mma w sc im a b => Sys2Proof.Machine.execMma w sc im a b s
  | .mgrad w sc im a b => Sys2Proof.Machine.execMgrad w sc im a b s
  | .mclose w sc d => Sys2Proof.Machine.execMclose w sc d s
  | .mwait w sc a => Sys2Proof.Machine.execMwait w sc a s
  | .mbatonTake w sc d => Sys2Proof.Machine.execMbatonTake w sc d s
  | .mbatonPass w sc d => Sys2Proof.Machine.execMbatonPass w sc d s
  | .mbatonQuery w sc d => Sys2Proof.Machine.execMbatonQuery w sc d s
  | .idiv32 w sc d a b => Sys2Proof.Machine.execIdiv32 w sc d a b s
  | .idiv64 w sc d a b => Sys2Proof.Machine.execIdiv64 w sc d a b s
  | .irem32 w sc d a b => Sys2Proof.Machine.execIrem32 w sc d a b s
  | .irem64 w sc d a b => Sys2Proof.Machine.execIrem64 w sc d a b s
  | .fdivF32 w sc d a b => Sys2Proof.Machine.execFdivF32 w sc d a b s
  | .microcoded word => Sys2Proof.Machine.execMicrocoded word s
  | .reset => Sys2Proof.Machine.execReset s
  | .resultReturn who n => Sys2Proof.Machine.execResultReturn who n s
  | .storePerformed n => Sys2Proof.Machine.execStorePerformed n s
  | .governorTrap who => Sys2Proof.Machine.execGovernorTrap who s
  | .l1ReadLeaseExpiry core line => Sys2Proof.Machine.execL1ReadLeaseExpiry core line s
  | .engineBankPriority core => Sys2Proof.Machine.execEngineBankPriority core s
  | .cdemoteWalk core => Sys2Proof.Machine.execCdemoteWalk core s
  | .icinvComplete who => Sys2Proof.Machine.execIcinvComplete who s
  | .pgxComplete n => Sys2Proof.Machine.execPgxComplete n s
  | .shoot v => Sys2Proof.Machine.execShoot v s
  | .shootdownComplete => Sys2Proof.Machine.execShootdownComplete s
  | .pageFaultService n => Sys2Proof.Machine.execPageFaultService n s
  | .pfreply v => Sys2Proof.Machine.execPfreply v s
  | .quantumExpiry who => Sys2Proof.Machine.execQuantumExpiry who s
  | .commitBufferFull who => Sys2Proof.Machine.execCommitBufferFull who s
  | .deterministicCommit core slot => Sys2Proof.Machine.execDeterministicCommit core slot s
  | .engineCommandAccept core n => Sys2Proof.Machine.execEngineCommandAccept core n s
  | .scoreboardEntryRelease core n => Sys2Proof.Machine.execScoreboardEntryRelease core n s
  | .copyComplete core n => Sys2Proof.Machine.execCopyComplete core n s
  | .cpyxComplete core n peer => Sys2Proof.Machine.execCpyxComplete core n peer s
  | .chainComplete core n => Sys2Proof.Machine.execChainComplete core n s
  | .mloadComplete core => Sys2Proof.Machine.execMloadComplete core s
  | .mmaComplete core => Sys2Proof.Machine.execMmaComplete core s
  | .mgradComplete core => Sys2Proof.Machine.execMgradComplete core s
  | .mstoreComplete core => Sys2Proof.Machine.execMstoreComplete core s
  | .bfloor v => Sys2Proof.Machine.execBfloor v s
  | .bfloorWriteComplete => Sys2Proof.Machine.execBfloorWriteComplete s
  | .xlate v => Sys2Proof.Machine.execXlate v s
  | .translationComplete => Sys2Proof.Machine.execTranslationComplete s
  | .mcload v => Sys2Proof.Machine.execMcload v s
  | .patch v => Sys2Proof.Machine.execPatch v s
  | .microcodePatchComplete => Sys2Proof.Machine.execMicrocodePatchComplete s
  | .attctl v => Sys2Proof.Machine.execAttctl v s
  | .attestationComplete => Sys2Proof.Machine.execAttestationComplete s
  | .svraise v => Sys2Proof.Machine.execSvraise v s
  | .pwr v => Sys2Proof.Machine.execPwr v s
  | .preemptRequest ctx v => Sys2Proof.Machine.execPreemptRequest ctx v s
  | .shadowPreempt core k => Sys2Proof.Machine.execShadowPreempt core k s
  | .shadowCancel core k => Sys2Proof.Machine.execShadowCancel core k s
  | .pdecide v => Sys2Proof.Machine.execPdecide v s
  | .preemptSave core slot => Sys2Proof.Machine.execPreemptSave core slot s
  | .preemptFlush core slot => Sys2Proof.Machine.execPreemptFlush core slot s
  | .workgroupResume die => Sys2Proof.Machine.execWorkgroupResume die s
  | .haltCore core => Sys2Proof.Machine.execHaltCore core s
  | .coreHaltComplete core => Sys2Proof.Machine.execCoreHaltComplete core s
  | .resumeCore core => Sys2Proof.Machine.execResumeCore core s
  | .haltWarp core slot warp => Sys2Proof.Machine.execHaltWarp core slot warp s
  | .resumeWarp core slot warp => Sys2Proof.Machine.execResumeWarp core slot warp s
  | .stepSplit core slot warp split => Sys2Proof.Machine.execStepSplit core slot warp split s
  | .inject core slot warp v => Sys2Proof.Machine.execInject core slot warp v s
  | .dbgdata core slot warp reg v => Sys2Proof.Machine.execDbgdata core slot warp reg v s
  | .breakpointHit who => Sys2Proof.Machine.execBreakpointHit who s
  | .intakePost ctx off data => Sys2Proof.Machine.execIntakePost ctx off data s
  | .intakeQueueDrain ctx => Sys2Proof.Machine.execIntakeQueueDrain ctx s
  | .hostWrite link off data => Sys2Proof.Machine.execHostWrite link off data s
  | .hostRead link off len => Sys2Proof.Machine.execHostRead link off len s
  | .mgmtWindowWrite off v => Sys2Proof.Machine.execMgmtWindowWrite off v s
  | .peerFlit msg => Sys2Proof.Machine.execPeerFlit msg s
  | .collContribution core n rank tag digest vals => Sys2Proof.Machine.execCollContribution core n rank tag digest vals s
  | .collComplete core n => Sys2Proof.Machine.execCollComplete core n s
  | .collMemberLeft chip => Sys2Proof.Machine.execCollMemberLeft chip s
  | .taskPlacement die => Sys2Proof.Machine.execTaskPlacement die s
  | .localQueueTake core => Sys2Proof.Machine.execLocalQueueTake core s
  | .steal core => Sys2Proof.Machine.execSteal core s
  | .pondAgingExpiry die level => Sys2Proof.Machine.execPondAgingExpiry die level s
  | .deferredEnqueue => Sys2Proof.Machine.execDeferredEnqueue s
  | .taskDispatch core => Sys2Proof.Machine.execTaskDispatch core s
  | .stagingAbort core slot => Sys2Proof.Machine.execStagingAbort core slot s
  | .joinNode die => Sys2Proof.Machine.execJoinNode die s
  | .condNode die => Sys2Proof.Machine.execCondNode die s
  | .loopNode die => Sys2Proof.Machine.execLoopNode die s
  | .taskComplete core slot => Sys2Proof.Machine.execTaskComplete core slot s
  | .tspawnEnqueue who => Sys2Proof.Machine.execTspawnEnqueue who s
  | .tsuccDecrement who => Sys2Proof.Machine.execTsuccDecrement who s
  | .illegalInstruction word => Sys2Proof.Machine.execIllegalInstruction word s
  | .instructionFetchFault who => Sys2Proof.Machine.execInstructionFetchFault who s
  | .linkTraining link width => Sys2Proof.Machine.execLinkTraining link width s
  | .clockLowering level => Sys2Proof.Machine.execClockLowering level s
  | .expertLocationTableUpkeep expert chip core => Sys2Proof.Machine.execExpertLocationTableUpkeep expert chip core s

end Sys2Proof.Machine
end

