-- ==== Sys2Proof/Machine/Issue.lean ====
section
/-! DEFINITION. What executes next: the scheduler (R95–R97, R192), the governor, quanta and breakpoints before a word, fetching
and decoding it (R48, R52, R67), injected words (R369), turns of the tape, and the model's own order where the tape is
empty (log entry 4). -/

namespace Sys2Proof.Machine

/-! ### Ready streams (R97, R192) -/

/-- The latch fires now: its lowest member is the warp, no member is halted, and the word's wait is over for every member (R104,
R105, R257). In deterministic mode a word first executes at a commit, where it goes into the commit buffer before steps 1 to 3
or acts after them; one that waited goes on within a quantum (R266; log entry 7). -/
def latchReady (s : State) (o : Who) (k : Nat) : Bool :=
  match getLatch s o.core o.slot k with
  | none => false
  | some l =>
    let g := wgOf s o
    let ms := members g k
    l.firing && !l.suspended && ms.head? == some o.warp && (ms.all fun n => waitOver s (mainOf o.core o.slot n) l.wait)
      && noneHalted g k && (!g.det ||
        if l.wait = .none then (if l.eager then g.entering else g.firing)
        else ms.all fun n => !(tgetD .init g.warps n).qended)

/-- None of the conditions of R97 holds for a stream alone, nor has its quantum ended (R265), nor is its next word the one whose
place the governor takes (R108). -/
def streamReady (s : State) (o : Who) : Bool :=
  !parkedByMark s o && !(governorDue s o && atNextWord s o) &&
    match (streamOf s o).wait with
    | .latch k => latchReady s o k
    | w => waitOver s o w && !quantumOver s o

/-- The streams of a warp that may take its chance, in their turn (R192): while a handler runs in a split, that split; under a
step, the selected one (R196, R197). As a loop starts, the split after the one that issued
last is taken from the warp's latest loop, and is split 1 in a warp that has had none (DESIGN CHOICE, log entry 61). -/
def streamsOf (w : Warp) : List (Option Nat) :=
  if w.splits.isEmpty then [none]
  else
    let ps := if w.splits.any fun p => p.st.frame.isSome then w.splits.filter fun p => p.st.frame.isSome else w.splits
    let ps : List Split := match w.step with
      | some n => ps.filter fun p => p.num == n
      | none => ps
    ((ps.filter fun p => decide (w.lastSplit < p.num)) ++ ps.filter fun p => decide (p.num ≤ w.lastSplit)).map
      fun p => some p.num

/-- The stream that takes a warp's chance. -/
def pickStream (s : State) (core slot warp : Nat) : Option Who :=
  let w := getWarp s core slot warp
  if !warpRuns (getWg s core slot) warp w then none
  else ((streamsOf w).map fun p => ({ core := core, slot := slot, warp := warp, split := p } : Who)).find? (streamReady s)

/-- The warps of a partition, in the order of its ring (R95). -/
def ringOf (c : Core) (part : Nat) : List (Nat × Nat) :=
  (holders c).flatMap fun g => (g.2.warps.filter fun w => w.1 % 4 == part).map fun w => (g.1, w.1)

/-- The same, from the warp after the one that issued last. -/
def ringFrom (c : Core) (part : Nat) : List (Nat × Nat) :=
  let at_ := tgetD 0 c.ring part
  let ws := ringOf c part
  (ws.filter fun x => decide (at_ ≤ ringPos x.1 x.2)) ++ ws.filter fun x => decide (ringPos x.1 x.2 < at_)

/-- What takes a warp's chance: the governor's trap, for the whole warp, or a stream that is ready. -/
def takerOf (s : State) (core slot warp : Nat) : Option Who :=
  if governed s (mainOf core slot warp) then some (mainOf core slot warp) else pickStream s core slot warp

/-- The stream that issues at a chance of a partition: of the first warp of its ring that can (R95). -/
def pickOf (s : State) (core part : Nat) : Option Who :=
  (ringFrom (getCore s core) part).findSome? fun x => takerOf s core x.1 x.2

/-! ### One word -/

/-- The event of a word that is no instruction. -/
def wordOf (x : BitVec 32) : Instr :=
  match decode x with
  | .instr i => i
  | .reject _ => .illegalInstruction x

/-- A stream acts. -/
def actAs (s : State) (o : Who) (m : Mode) : State := { s with cur := { who := o, mode := m } }

/-- The word that a stream waits with, fetched before. -/
def heldWord (st : Stream) : Option (BitVec 32) := if st.wait = .none then none else st.held

/-- What a stream that takes a chance does: a breakpoint, a fetch fault, or its word (R368, R67). -/
def nextInstr (s : State) (o : Who) : State × Instr :=
  let st := streamOf s o
  match heldWord st with
  | some x => (s, wordOf x)
  | none =>
    if breakpointDue s o then (s, .breakpointHit o)
    else
      match fetchWords s o st.pc 1 .fetch with
      | (t, .inl ws) => (updWgOf t o (fun g => { g with started := true }), wordOf (ws.headD 0))
      | (_, .inr _) => (s, .instructionFetchFault o)

/-- The chance of a stream: a fired latch executes its word once (R104), else the stream's next word. -/
def chance (s : State) (o : Who) : State × Instr :=
  match (streamOf s o).wait with
  | .latch k =>
    match getLatch s o.core o.slot k with
    | some l => (actAs s o .fire, l.instr)
    | none => (s, .nop false .lane)
  | _ => nextInstr (actAs s o .issue) o

/-- The stream that issues goes to the end of its ring, and its split to the end of its warp's. -/
def tookChance (s : State) (o : Who) : State :=
  updWarpOf (ringEnd s o) o fun w => { w with lastSplit := o.split.getD w.lastSplit }

/-- An issue chance of a partition (R95, R96): what executes, if anything does. -/
def issueChance (s : State) (core part : Nat) : State × Option Instr :=
  match pickOf s core part with
  | none => (s, none)
  | some o =>
    if governed s o then (tookChance s o, some (.governorTrap o))
    else
      let r := chance (tookChance s o) o
      (r.1, some r.2)

/-! ### The clock (R108, R202) -/

/-- A warp in one cycle. -/
def tickWarp (g : Wg) (n : Nat) (w : Warp) : Warp :=
  if governorCounts g n w then { w with gcount := w.gcount + 1 } else w

/-- A workgroup in one cycle. -/
def tickWg (g : Wg) : Wg := endMisses { g with warps := g.warps.map fun e => (e.1, tickWarp g e.1 e.2) }

/-- A core in one cycle. -/
def tickCore (c : Core) : Core :=
  { c with wgs := tmap (fun g => g.map tickWg) c.wgs, bankReq := if c.ops.isEmpty then 0 else c.bankReq + 1 }

/-- A cycle of the main clock, with the steal clock of each die (R336; log entry 57). -/
def tick (s : State) : State :=
  { s with cycle := s.cycle + 1, cores := tmap tickCore s.cores,
           stealClock := [(0, tgetD 0 s.stealClock 0 + 1), (1, tgetD 0 s.stealClock 1 + 1)] }

/-! ### Turns -/

/-- The row is an event that comes only in a stream's issue chance. -/
def byChance (i : Instr) : Bool :=
  match i with
  | .governorTrap _ => true | .breakpointHit _ => true | .instructionFetchFault _ => true
  | _ => false

/-- The row is an event that comes by itself: no instruction word, and nothing that takes an issue chance. -/
def isEvent (i : Instr) : Bool := encode i == 0 && i != .nop false .lane && !byChance i

/-- A turn: the state it leaves, and what executes in it. -/
def takeTurn (s : State) (t : Turn) : State × Option Instr :=
  match t with
  | .event i => (s, if isEvent i then some i else none)
  | .issue core part => issueChance s core part
  | .tick => (tick s, none)
  | .progress core n count => (progressOp s core n count, none)
  | .hostMem addr data => (settled { s with hostMem := s.hostMem.wrN addr data } (2 ^ 64 + addr) data, none)
  | .peerMem addr data => (settled { s with peerMem := s.peerMem.wrN addr data } (Config.peerBase + addr) data, none)
  | .corrupt addr crc =>
    (if addr < Config.deviceEnd then { s with checks := tput s.checks (addr / 32) crc } else s, none)
  | .corruptCore core slot sector crc =>
    let k := (core, slot, sector)
    ({ s with coreChecks := (k, crc) :: s.coreChecks.filter fun e => e.1 != k }, none)
  | .barRead off => (barRead s off, none)

/-! ### The order of an empty tape (log entry 4) -/

/-- Issue chances that would be used. -/
def dueIssues (s : State) : List Turn :=
  s.cores.flatMap fun c => (List.range 4).filterMap fun p =>
    if (pickOf s c.1 p).isSome then some (.issue c.1 p) else none

/-- What a stream's wait leaves to an event. -/
def waitEvents (o : Who) (st : Stream) : List Turn :=
  (if st.out.isEmpty then [] else [.event (.resultReturn o 0)])
    ++ (match st.wait with
      | .icinv _ _ _ => [.event (.icinvComplete o)]
      | .tspawn _ _ _ _ => [.event (.tspawnEnqueue o)]
      | .tsucc _ _ _ => [.event (.tsuccDecrement o)]
      | _ => [])

/-- The ends of a quantum that no word brings (R265). -/
def quantumEvents (core slot : Nat) (g : Wg) (n : Nat) (w : Warp) : List Turn :=
  let o := mainOf core slot n
  if !g.det || w.live == 0 || w.qended then []
  else (if 2 ^ g.qlog ≤ w.qcount then [.event (.quantumExpiry o)] else [])
    ++ if 512 ≤ bufCount w then [.event (.commitBufferFull o)] else []

/-- Events of a workgroup that may be due. -/
def wgEvents (core slot : Nat) (g : Wg) : List Turn :=
  (g.warps.flatMap fun w => (streamsInOrder w.2).flatMap fun x =>
    waitEvents { core := core, slot := slot, warp := w.1, split := x.1 } x.2.2)
    ++ (g.warps.flatMap fun w => quantumEvents core slot g w.1 w.2)
    ++ (if g.det then [.event (.deterministicCommit core slot)] else [])
    ++ (if g.stageFault.isSome then [.event (.stagingAbort core slot)] else [])
    ++ (if g.phase == .ended || g.phase == .aborted then [.event (.taskComplete core slot)] else [])
    ++ (match g.preempt with
      | some .save => [.event (.preemptSave core slot)]
      | some .flush => [.event (.preemptFlush core slot)]
      | some .drain => []
      | none => [])

/-- The completion of a command. -/
def opEvent (core n : Nat) (p : EngOp) : Instr :=
  match p.kind with
  | .cpy => .copyComplete core n | .cpyg => .copyComplete core n | .cpyx => .cpyxComplete core n none
  | .chain => .chainComplete core n | .mload => .mloadComplete core | .mma => .mmaComplete core
  | .mgrad => .mgradComplete core | .mstore => .mstoreComplete core | .coll => .collComplete core n

/-- Events of a core that may be due. -/
def coreEvents (core : Nat) (c : Core) : List Turn :=
  ((holders c).flatMap fun g => wgEvents core g.1 g.2)
    ++ (List.range c.waiting.length).map (fun n => .event (.engineCommandAccept core n))
    ++ (c.ops.zipIdx.flatMap fun x => [.progress core x.2 16, .event (opEvent core x.2 x.1)])
    ++ (if c.demotes.isEmpty then [] else [.event (.cdemoteWalk core)])
    ++ (if c.halting && !c.halted then [.event (.coreHaltComplete core)] else [])
    ++ (if c.shadow.isEmpty then [] else [.event (.taskDispatch core), .event (.shadowPreempt core 0),
          .event (.shadowPreempt core 1), .event (.shadowCancel core 0), .event (.shadowCancel core 1)])
    ++ (if c.localQ.isEmpty then [] else [.event (.localQueueTake core)])
    ++ (if (holders c).isEmpty then [.event (.steal core)] else [])

/-- Events of a die's pond that may be due. -/
def pondEvents (s : State) (die : Nat) : List Turn :=
  if (pondOf s die).isEmpty then []
  else [.event (.taskPlacement die), .event (.joinNode die), .event (.condNode die), .event (.loopNode die),
        .event (.workgroupResume die)]
    ++ (List.range 16).map fun l => .event (.pondAgingExpiry die l)

/-- Events of the module that may be due. -/
def moduleEvents (s : State) : List Turn :=
  let when_ := fun (b : Bool) (i : Instr) => if b then [Turn.event i] else []
  when_ (!s.pend.isEmpty) (.storePerformed 0) ++ when_ (!s.pgx.isEmpty) (.pgxComplete 0)
    ++ ((List.range s.pf.length).map fun n => .event (.pageFaultService n)) ++ when_ s.shootOp.isSome .shootdownComplete
    ++ when_ (!s.bfloorOps.isEmpty) .bfloorWriteComplete ++ when_ (!s.xlateOps.isEmpty) .translationComplete
    ++ when_ (s.mcload.busy || s.patch.busy) .microcodePatchComplete ++ when_ s.attBusy .attestationComplete
    ++ when_ (!s.deferred.isEmpty) .deferredEnqueue
    ++ (s.finals.map fun f => .event (.taskComplete f.at_.core f.at_.slot))
    ++ (s.ctxs.flatMap fun c => when_ (!c.2.intake.isEmpty) (.intakeQueueDrain c.1))
    ++ pondEvents s 0 ++ pondEvents s 1

/-- What may be done next, where the tape is empty. -/
def dueTurns (s : State) : List Turn := dueIssues s ++ (s.cores.flatMap fun c => coreEvents c.1 c.2) ++ moduleEvents s

/-- The turn of an empty tape: what may be due, each in its turn by the cycle. -/
def ownTurn (s : State) : Turn :=
  let ts := dueTurns s
  (ts[s.cycle % ts.length]?).getD .tick

/-- The next turn, and the state without it; with an empty tape a cycle passes with it. -/
def nextTurn (s : State) : State × Turn :=
  match s.turns with
  | t :: ts => ({ s with turns := ts }, t)
  | [] =>
    match ownTurn s with
    | .tick => (s, .tick)
    | t => (tick s, t)

/-! ### A step -/

/-- Execute what a turn gave, if anything. -/
def runOpt (p : State × Option Instr) : Host.Outcome State Fault Refusal :=
  match p.2 with
  | none => .next p.1
  | some i => exec i p.1

/-- A step with no word to inject. -/
def turnStep (s : State) : Host.Outcome State Fault Refusal :=
  let n := nextTurn s
  runOpt (takeTurn n.1 n.2)

/-- A step: a word that the debugger injects executes first (R369); while it waits, the turns go on. -/
def stepOnce (s : State) : Host.Outcome State Fault Refusal :=
  match s.inject with
  | none => turnStep s
  | some (o, x, m) =>
    match exec (wordOf x) (actAs s o (.inject m)) with
    | .next t => if t.inject.isSome then turnStep t else .next t
    | e => e

/-! ### A program for the host's question (log entry 3) -/

/-- Where `placed` puts a word: virtual and physical address 0x10040. -/
def placedAt : Nat := 0x10040

/-- Where its warp's private region begins in device memory. -/
def placedPriv : Nat := 0x900000

/-- A workgroup of one warp of 32 lanes that has started at an address, with every right, in context 0. -/
def placedWg : Wg :=
  let h : Header :=
    { Header.init with warps := 1, lanes := 32, regs := 16, scratch := 256, priv := 64, rights := 1, sets := [1, 0, 0, 0] }
  let g : Wg := { Wg.init with phase := .running, entry := addrOf placedAt, hdr := h, priv := [(0, placedPriv)], started := true }
  { g with warps := [(0, startWarp g 0)] }

/-- A state whose next step issues the word of some bytes: the workgroup in slot 0 of core 0, one page that maps virtual
addresses below 64 GiB to themselves, the bytes, and an issue chance of partition 0. -/
def placed (s : State) (bs : List Byte) : State :=
  let root := 0x800000
  let s := setWg s 0 0 placedWg
  let s := updCtx s 0 fun c => { c with ptroot := BitVec.ofNat 64 root, root := BitVec.ofNat 64 root }
  let s := devWrite s root (bytesOfNat 8 0xC003000000000004)
  let s := devWrite s placedAt bs
  { s with turns := .issue 0 0 :: s.turns, inject := none }

end Sys2Proof.Machine
end

