-- ==== Sys2Proof/Machine/Step.lean ====
section
/-! DEFINITION. One step of the module, and the state whose next step runs a given word. -/

namespace Sys2Proof.Machine

/-- One step (log entry 4). -/
def step (s : State) : Host.Outcome State Fault Refusal := stepOnce s

/-- The state whose next step fetches and runs the instruction of some bits (log entry 3). -/
def State.withFetchWord (s : State) (_nbits w : Nat) : State := placed s (bytesOfWord (BitVec.ofNat 32 w))

end Sys2Proof.Machine
end

