-- ==== Sys2Proof/Safety.lean ====
section
/-! DEFINITION. What counts as a safe run, and the terms in which the statements speak of a word that completes: when a
stream issues, what a completed word leaves, and what it leaves alone. -/

namespace Sys2Proof

open Sys2Proof.Machine

/-- The step answers a next state: no fault and no refusal. -/
def GoesOn (s : State) : Prop := ∃ t, step s = .next t

/-! ### Invariants -/

/-- The memory of a workgroup that may be resident: its scratchpad. -/
def wgCanonical (g : Option Wg) : Bool :=
  match g with
  | none => true
  | some g => g.scratch.wf

/-- Every memory of the module is in its canonical form (log entry 2): device, host and peer memory, each core's bin
floor, each resident or saved workgroup's scratchpad. Private words stand in device memory (R241). -/
def MemoriesCanonical (s : State) : Prop :=
  s.mem.wf = true ∧ s.hostMem.wf = true ∧ s.peerMem.wf = true ∧
  (∀ e ∈ s.cores, e.2.floor.wf = true ∧ ∀ g ∈ e.2.wgs, wgCanonical g.2 = true) ∧
  ∀ v ∈ s.saved, wgCanonical (some v.wg) = true

/-- The security-version counter is one that its fuses can hold (R411). -/
def CounterInRange (s : State) : Prop := s.secver ≤ 64

/-- The power cap is one that PWR takes (R400, R402). -/
def CapInRange (s : State) : Prop := 1200 ≤ s.cap ∧ s.cap ≤ 2600

/-! ### A word that its stream issues -/

/-- The stream `o` issues its own word (R67): it is the stream at hand and exists, and no debugger step is under way in
its warp (R368). -/
structure Issues (s : State) (o : Who) : Prop where
  who    : s.cur.who = o
  mode   : s.cur.mode = .issue
  stream : ∀ k, o.split = some k → (findSplit (warpOf s o) k).isSome = true
  step   : (warpOf s o).step = none

/-- In a checked task none of the word's sources holds an outstanding result (R101). -/
def Settled (s : State) (o : Who) (srcs : List Reg) : Prop :=
  (wgOf s o).check = true → ∀ r ∈ srcs, outstanding s o r = false

/-- The state whose values the word reads: where a source holds an outstanding result the choice of R100 is a new one. -/
def reading (s : State) (o : Who) (srcs : List Reg) : State := if openReads s o srcs then bump s else s

/-- The word completes (R99, R134): its stream goes on at `pc`, parked only by its own wait mark, and RCNT counts it. -/
structure Retires (s t : State) (o : Who) (mark : Bool) (pc : Addr) : Prop where
  pc   : (streamOf t o).pc = pc
  mark : (streamOf t o).marked = mark
  wait : (streamOf t o).wait = .none
  rcnt : (warpOf t o).rcnt = (warpOf s o).rcnt + 1

/-- Nothing outside one warp changes, the counter of free values aside: no other warp, workgroup, core or context, no
register of the module. -/
def OnlyWarp (s t : State) (o : Who) : Prop := t = { updWarpOf s o (fun _ => warpOf t o) with free := t.free }

/-- Every byte reads as before: physical memory as each context reaches it (private words among it, R241), each workgroup's
scratchpad, each core's bin floor; and every private region lies where it lay. -/
structure SameMemory (s t : State) : Prop where
  phys    : ∀ ctx pa, physRead t ctx pa 1 = physRead s ctx pa 1
  scratch : ∀ core slot a, (getWg t core slot).scratch.rd a = (getWg s core slot).scratch.rd a
  priv    : ∀ core slot, (getWg t core slot).priv = (getWg s core slot).priv
  floor   : ∀ core a, (getCore t core).floor.rd a = (getCore s core).floor.rd a

/-- What a word that only computes a register leaves alone in its warp, which otherwise stands as `w0`: everything but
registers, outstanding results, the stream's own progress and the counts of words; and of every other stream all but the
results that the write discards (R100). -/
structure OnlyRegisters (s t : State) (o : Who) (w0 : Warp) : Prop where
  warp : ∃ v r tag main splits, warpOf t o =
    { w0 with v := v, s := r, tag := tag, main := main, splits := splits, rcnt := (warpOf t o).rcnt,
              qcount := (warpOf s o).qcount + 1 }
  stream : ∃ k out, streamOf t o =
    { streamOf s o with k := k, out := out, pc := (streamOf t o).pc, marked := (streamOf t o).marked, wait := .none,
                        refused := none, skipBp := false }
  main : o.split.isSome = true →
    (warpOf t o).main = { (warpOf s o).main with out := (warpOf t o).main.out }
  splits : ∀ k, o.split ≠ some k → findSplit (warpOf t o) k = findSplit (warpOf s o) k

/-- What reading a register gives after a value was written to it: ZR reads zero (R133), and TAG keeps only KEY (R135). -/
def landed (d : Reg) (v : Word) : Word :=
  match d with
  | .zr => 0
  | .tag => v &&& 0xFFF
  | .v _ => v | .s _ => v | .k _ => v | .lid => v | .wid => v | .emask => v | .tile => v | .tseq => v | .rcnt => v

/-- The registers of a warp but RCNT, those at lanes that `d` and `ls` name aside, hold what they held. -/
def SameRegs (s t : State) (o : Who) (d : Reg) (ls : Nat → Bool) : Prop :=
  ∀ r l, l < 32 → r ≠ .rcnt → r ≠ d ∨ ls l = false → held t o r l = held s o r l

/-- The fixed-latency result of a word at lane scope (R98, R139): D holds it at each active lane, the next word reads it there
(TAG, unless whether MISS stands in it is not specified, R136), and every other register, and D at every other lane, is as
before. -/
structure LaneResult (s t : State) (o : Who) (d : Reg) (val : Nat → Word) : Prop where
  value  : ∀ l, (activeMask s o).getLsbD l = true → held t o d l = landed d (val l)
  read   : ∀ l, (activeMask s o).getLsbD l = true → (d = .tag → missOpen t o l = false) → rd t o d l = landed d (val l)
  others : SameRegs s t o d fun l => (activeMask s o).getLsbD l

/-- The fixed-latency result of a word at warp scope (R98, R139): the next word reads it from D, and every other register
is as before. -/
structure ScalarResult (s t : State) (o : Who) (d : Reg) (val : Word) : Prop where
  value  : rdS t o d = landed d val
  others : SameRegs s t o d fun _ => true

/-- A variable-latency result at lane scope (R98): it is the last one outstanding, with the conditions it reports; no
register has changed yet; and when the stream's results return, D holds it at each active lane and every register without
an earlier outstanding result is as before. -/
structure LateLanes (s t : State) (o : Who) (d : Reg) (val : Nat → Word) (fl : BitVec 5) : Prop where
  flags   : ((streamOf t o).out.getLast?.map OutRes.flags) = some fl
  pending : SameRegs s t o .zr fun _ => false
  value   : ∀ l, (activeMask s o).getLsbD l = true → held (settle t o) o d l = landed d (val l)
  others  : (streamOf s o).out = [] → SameRegs s (settle t o) o d fun l => (activeMask s o).getLsbD l

/-- A variable-latency result at warp scope (R98). -/
structure LateScalar (s t : State) (o : Who) (d : Reg) (val : Word) (fl : BitVec 5) : Prop where
  flags   : ((streamOf t o).out.getLast?.map OutRes.flags) = some fl
  pending : SameRegs s t o .zr fun _ => false
  value   : held (settle t o) o d 0 = landed d val
  others  : (streamOf s o).out = [] → SameRegs s (settle t o) o d fun _ => true

/-- The word completes, its stream goes on at `pc`, and nothing changes but registers of its warp, which otherwise stands as
`w0`. -/
structure Goes (s t : State) (o : Who) (mark : Bool) (pc : Addr) (w0 : Warp) : Prop where
  retires : Retires s t o mark pc
  regs    : OnlyRegisters s t o w0
  only    : OnlyWarp s t o
  memory  : SameMemory s t

/-- The same for a word that falls through to the next. -/
abbrev Computes (s t : State) (o : Who) (mark : Bool) (w0 : Warp) : Prop :=
  Goes s t o mark ((streamOf s o).pc + 4) w0

/-- No register of the stream changes: V, S, TAG and K registers, and the splits' copies of Sd. -/
structure SameFile (s t : State) (o : Who) : Prop where
  v   : (warpOf t o).v = (warpOf s o).v
  sreg : (warpOf t o).s = (warpOf s o).s
  tag : (warpOf t o).tag = (warpOf s o).tag
  k   : (streamOf t o).k = (streamOf s o).k
  sd  : ∀ n, (findSplit (warpOf t o) n).map Split.sd = (findSplit (warpOf s o) n).map Split.sd

/-! ### A word at any scope -/

/-- The single execution of a set or block word is at hand (R104): its latch fires it in a whole warp. -/
structure Fires (s : State) (o : Who) (sc : Scope) : Prop where
  cur   : s.cur = { who := o, mode := .fire }
  whole : o.split = none
  latch : (latchOf s o sc).isSome = true

/-- The word executes its effect (R67, R104): its stream issues it at lane or warp scope, or its latch fires it. -/
def Runs (s : State) (o : Who) (sc : Scope) : Prop :=
  match sc with
  | .lane => Issues s o
  | .warp => Issues s o
  | .set => Fires s o sc
  | .block => Fires s o sc

/-- How the word that ran in `s` completes once its effect has left `s1`: its stream goes on at the next word, or the latch
releases every member there (R104). -/
def after (s s1 : State) (o : Who) (sc : Scope) (mark : Bool) : State :=
  match latchOf s o sc with
  | none => retire s1 o mark ((streamOf s1 o).pc + 4)
  | some g => releaseLatch s1 o.core o.slot g mark ((streamOf s1 o).pc + 4)

/-- The word does not complete: its stream waits with it, or its latch keeps firing (R104). -/
def waiting (s s1 : State) (o : Who) (sc : Scope) (x : BitVec 32) (w : Wait) : State :=
  match latchOf s o sc with
  | none => updStream s1 o fun st => { st with wait := w, held := some x }
  | some g =>
    match getLatch s1 o.core o.slot g with
    | none => s1
    | some l => setLatch s1 o.core o.slot g (some { l with firing := true, wait := w })

/-- Nothing but some warps changes, the counter of free values aside. -/
structure OnlyWarps (s t : State) (os : List Who) : Prop where
  module : { t with cores := s.cores, free := s.free } = s
  core   : ∀ c, { getCore t c with wgs := [] } = { getCore s c with wgs := [] }
  wg     : ∀ c k, { getWg t c k with warps := [] } = { getWg s c k with warps := [] }
  warp   : ∀ c k n, (∀ q ∈ os, ¬ (q.core = c ∧ q.slot = k ∧ q.warp = n)) → getWarp t c k n = getWarp s c k n

/-- The lanes that a word acts for: the active ones at lane scope, and one (0) for the warp, set or block. -/
def actsFor (s : State) (o : Who) (sc : Scope) (l : Nat) : Prop :=
  if sc = .lane then (activeMask s o).getLsbD l = true else l = 0

/-- A + B of the word, of a lane or of the warp. -/
def sumOf (s : State) (o : Who) (sc : Scope) (a b : Reg) (l : Nat) : Word :=
  if sc = .lane then rd s o a l + rd s o b l else rdS s o a + rdS s o b

/-- A register of the word, of a lane or of the warp. -/
def valueOf (s : State) (o : Who) (sc : Scope) (r : Reg) (l : Nat) : Word :=
  if sc = .lane then rd s o r l else rdS s o r

/-- A variable-latency result of a word at any scope: by lane, or one scalar to the warp or to every member (R98, R104). -/
structure LateResult (s s1 : State) (o : Who) (sc : Scope) (d : Reg) (val : Nat → Word) : Prop where
  lanes  : sc = .lane → LateLanes s s1 o d val 0
  scalar : sc ≠ .lane → ∀ q ∈ targets s o sc, LateScalar s s1 q d (val 0) 0

/-- The stream takes a trap and enters its handler at `h` (R353, R354): the trap registers are written, the frame holds the
return PC, mask and depth, the warp's outstanding results have returned, and nothing outside the warp changes. -/
structure EntersHandler (s t : State) (o : Who) (tr : TrapRegs) (h : Addr) (latch : Option Nat) : Prop where
  regs  : (warpOf t o).trap = tr
  pc    : (streamOf t o).pc = h
  frame : (streamOf t o).frame =
    some { pc := tr.tpc.setWidth 56, mask := (streamOf s o).emask, depth := (warpOf s o).stack.length, latch := latch }
  emask : (streamOf t o).emask = (streamOf s o).emask
  ready : (streamOf t o).wait = .none ∧ (streamOf t o).out = [] ∧ (streamOf t o).marked = false
  rcnt  : (warpOf t o).rcnt = (warpOf s o).rcnt
  file  : SameFile (settleAll s o) t o
  only  : t = updWarpOf s o fun _ => warpOf t o
  memory : SameMemory s t

/-- The trap registers of a trap that a stream's own word raises (R352, R353). -/
def ownTrap (s : State) (o : Who) (cause : BitVec 8) (addr : Word) (word : BitVec 32) : TrapRegs :=
  { tcause := cause.setWidth 64, tpc := ((streamOf s o).pc).setWidth 64, taddr := addr,
    tlanes := ((streamOf s o).emask).setWidth 64, tinfo := word.setWidth 64 }

/-- The stream has a handler at `h` and is not running it (R354, R355). -/
structure HasHandler (s : State) (o : Who) (h : Addr) : Prop where
  at_ : (wgOf s o).hdr.trap ≠ 0 ∧ h = (wgOf s o).entry + (wgOf s o).hdr.trap.signExtend 56
  own : (streamOf s o).frame = none
  main : o.split.isSome = true → (warpOf s o).main.frame = none

end Sys2Proof
end

