-- ==== Sys2Proof/Certificates/Slice0/Obligations.lean ====
section
/-! DEFINITION. The statements for the provers. Before each group stand the tables, read from the spec, that say what each
instruction of the group computes. -/

namespace Sys2Proof.Claim

open Sys2Proof.Machine

/-! ### Integer words: what each sub-element of D becomes -/

/-- Bits w × j + w − 1 down to w × j of a value: sub-element j at width w (R70, R141). -/
def piece (w j : Nat) (x : Word) : BitVec w := x.extractLsb' (w * j) w

/-- A word `OPC D, A, B`: its wait mark, scope and registers, the sources it reads, its sub-element width, and the value
of sub-element j of D from the old D, A and B. -/
structure WordOp where
  mark : Bool
  sc   : Scope
  d    : Reg
  a    : Reg
  b    : Reg
  srcs : List Reg
  w    : Nat
  op   : Nat → Word → Word → Word → BitVec w

/-- An operation on each sub-element of A and B. -/
def pair (m : Bool) (sc : Scope) (d a b : Reg) (w : Nat) (f : BitVec w → BitVec w → BitVec w) : WordOp :=
  { mark := m, sc := sc, d := d, a := a, b := b, srcs := [a, b], w := w,
    op := fun j _ x y => f (piece w j x) (piece w j y) }

/-- An operation on each sub-element of the old D, A and B. -/
def triple (m : Bool) (sc : Scope) (d a b : Reg) (w : Nat) (f : BitVec w → BitVec w → BitVec w → BitVec w) : WordOp :=
  { mark := m, sc := sc, d := d, a := a, b := b, srcs := [d, a, b], w := w,
    op := fun j z x y => f (piece w j z) (piece w j x) (piece w j y) }

/-- An operation on all 64 bits of A. -/
def single (m : Bool) (sc : Scope) (d a : Reg) (f : Word → Word) : WordOp :=
  { mark := m, sc := sc, d := d, a := a, b := .zr, srcs := [a], w := 64, op := fun _ _ x _ => f x }

/-- The width of a suffix in bits (R57). -/
def bitsOf : Width → Nat
  | .w64 => 64 | .w32 => 32 | .w16 => 16 | .w8 => 8

/-- A mask of ones where a test holds. -/
def onesIf (w : Nat) (c : Bool) : BitVec w := if c then BitVec.allOnes w else 0

/-- The high half of a product of two values widened to twice their width. -/
def highHalf (w : Nat) (x y : BitVec (2 * w)) : BitVec w := (x * y).extractLsb' w w

/-- Modular arithmetic, bitwise words, multiply-add and multiply high (R142–R147). -/
def arithmetic : Instr → Option WordOp
  | .add m sc t d a b => some (pair m sc d a b (bitsOf t) fun x y => x + y)
  | .sub m sc t d a b => some (pair m sc d a b (bitsOf t) fun x y => x - y)
  | .mul m sc t d a b => some (pair m sc d a b (bitsOf t) fun x y => x * y)
  | .and m sc d a b => some (pair m sc d a b 64 fun x y => x &&& y)
  | .or m sc d a b => some (pair m sc d a b 64 fun x y => x ||| y)
  | .xor m sc d a b => some (pair m sc d a b 64 fun x y => x ^^^ y)
  | .andn m sc d a b => some (pair m sc d a b 64 fun x y => x &&& ~~~y)
  | .mov m sc d a => some (single m sc d a fun x => x)
  | .bsel m sc d a b => some (triple m sc d a b 64 fun z x y => (x &&& z) ||| (y &&& ~~~z))
  | .mulh64 m sc d a b => some (pair m sc d a b 64 fun x y => highHalf 64 (x.signExtend 128) (y.signExtend 128))
  | .mulhu64 m sc d a b => some (pair m sc d a b 64 fun x y => highHalf 64 (x.setWidth 128) (y.setWidth 128))
  | .mulh32 m sc d a b => some (pair m sc d a b 32 fun x y => highHalf 32 (x.signExtend 64) (y.signExtend 64))
  | .mulhu32 m sc d a b => some (pair m sc d a b 32 fun x y => highHalf 32 (x.setWidth 64) (y.setWidth 64))
  | .mad32 m sc d a b => some (triple m sc d a b 32 fun z x y => z + x * y)
  | .mad64 m sc d a b => some (triple m sc d a b 64 fun z x y => z + x * y)
  | _ => none

/-- Minima, maxima, saturating words, shifts and compares (R142). -/
def ordering : Instr → Option WordOp
  | .min m sc t d a b => some (pair m sc d a b (bitsOf t) fun x y => if x.sle y then x else y)
  | .max m sc t d a b => some (pair m sc d a b (bitsOf t) fun x y => if y.sle x then x else y)
  | .minu m sc t d a b => some (pair m sc d a b (bitsOf t) fun x y => if x.ule y then x else y)
  | .maxu m sc t d a b => some (pair m sc d a b (bitsOf t) fun x y => if y.ule x then x else y)
  | .adds m sc t d a b => some (pair m sc d a b (bitsOf t) fun x y =>
      if BitVec.saddOverflow x y then (if x.msb then BitVec.intMin _ else BitVec.intMax _) else x + y)
  | .addsu m sc t d a b => some (pair m sc d a b (bitsOf t) fun x y =>
      if BitVec.uaddOverflow x y then BitVec.allOnes _ else x + y)
  | .subs m sc t d a b => some (pair m sc d a b (bitsOf t) fun x y =>
      if BitVec.ssubOverflow x y then (if x.msb then BitVec.intMin _ else BitVec.intMax _) else x - y)
  | .shl m sc t d a b => some (pair m sc d a b (bitsOf t) fun x y =>
      if bitsOf t ≤ y.toNat then 0 else x <<< y.toNat)
  | .shr m sc t d a b => some (pair m sc d a b (bitsOf t) fun x y =>
      if bitsOf t ≤ y.toNat then 0 else x >>> y.toNat)
  | .sra m sc t d a b => some (pair m sc d a b (bitsOf t) fun x y =>
      x.sshiftRight (Nat.min y.toNat (bitsOf t - 1)))
  | .ceq m sc t d a b => some (pair m sc d a b (bitsOf t) fun x y => onesIf _ (x == y))
  | .clt m sc t d a b => some (pair m sc d a b (bitsOf t) fun x y => onesIf _ (x.slt y))
  | .cltu m sc t d a b => some (pair m sc d a b (bitsOf t) fun x y => onesIf _ (x.ult y))
  | _ => none

/-- Length of a field under a control word (R149). -/
def fieldLen (y : Word) : Nat := Nat.min (piece 7 0 (y >>> 8)).toNat (64 - (piece 6 0 y).toNat)

/-- BFX (R149). -/
def extracted (x y : Word) : Word :=
  let f : BitVec (fieldLen y) := x.extractLsb' (piece 6 0 y).toNat (fieldLen y)
  if y.getLsbD 15 then f.signExtend 64 else f.setWidth 64

/-- BFI (R149): bit i of D. -/
def insertedBit (z x y : Word) (i : Nat) : Bool :=
  let p := (piece 6 0 y).toNat
  if p ≤ i ∧ i < p + fieldLen y then x.getLsbD (i - p) else z.getLsbD i

/-- SHUFB (R150): byte i of D. -/
def shuffled (i : Nat) (z x y : Word) : BitVec 8 :=
  let sel := piece 8 i y
  let table : BitVec 128 := z ++ x
  let c : BitVec 8 := table.extractLsb' (8 * (sel.toNat % 16)) 8
  if sel.msb then 0 else if sel.getLsbD 6 then onesIf 8 c.msb else c

/-- Counts, reversal, fields and the byte shuffle (R148–R150). -/
def fields : Instr → Option WordOp
  | .popc m sc d a => some (single m sc d a fun x => BitVec.ofNat 64 ((List.range 64).countP fun i => x.getLsbD i))
  | .clz m sc d a => some (single m sc d a fun x =>
      BitVec.ofNat 64 (((List.range 64).map fun i => 63 - i).takeWhile fun i => !x.getLsbD i).length)
  | .brev m sc d a =>
      some { single m sc d a (fun x => x) with w := 1, op := fun j _ x _ => BitVec.ofBool (x.getLsbD (63 - j)) }
  | .bfx m sc d a b => some (pair m sc d a b 64 fun x y => extracted x y)
  | .bfi m sc d a b =>
      some { triple m sc d a b 1 (fun _ _ _ => 0) with w := 1, op := fun j z x y => BitVec.ofBool (insertedBit z x y j) }
  | .shufb m sc d a b => some { triple m sc d a b 8 (fun _ _ _ => 0) with w := 8, op := shuffled }
  | _ => none

/-- A word of a table, under its conditions, completes at lane or warp scope with the table's value in D, sub-element by
sub-element, and changes nothing else. -/
def CompletesAs (table : Instr → Option WordOp) : Prop :=
  ∀ (s : State) (o : Who) (i : Instr) (p : WordOp), table i = some p → Issues s o → Settled s o p.srcs →
    dstOk s o p.sc p.d = true → srcOk s o p.sc p.a = true → srcOk s o p.sc p.b = true →
    let s1 := reading s o p.srcs
    (p.sc = .lane → ∃ t val, exec i s = .next t ∧ Computes s t o p.mark (warpOf s o) ∧ LaneResult s t o p.d val ∧
      ∀ l j, (activeMask s o).getLsbD l = true → p.w * (j + 1) ≤ 64 →
        piece p.w j (val l) = p.op j (rd s1 o p.d l) (rd s1 o p.a l) (rd s1 o p.b l)) ∧
    (p.sc = .warp → (isS p.d = true → inConc s o = false) →
      ∃ t val, exec i s = .next t ∧ Computes s t o p.mark (warpOf s o) ∧ ScalarResult s t o p.d val ∧
      ∀ j, p.w * (j + 1) ≤ 64 → piece p.w j val = p.op j (rdS s1 o p.d) (rdS s1 o p.a) (rdS s1 o p.b))

end Sys2Proof.Claim

open Sys2Proof Sys2Proof.Machine Sys2Proof.Claim

/-- R139, R141–R147: modular arithmetic, bitwise words, multiply-add and multiply high. -/
def Obligations.IntegerArithmetic : Prop := CompletesAs arithmetic

/-- R139, R141, R142, R148–R150: minima, maxima, saturation, shifts and compares; counts, reversal, fields and the byte
shuffle. -/
def Obligations.IntegerOrderAndFields : Prop := CompletesAs ordering ∧ CompletesAs fields

namespace Sys2Proof.Claim

/-! ### Floating-point words, special functions, division -/

/-- Sub-element j of width w as a number. -/
def part (w j : Nat) (x : Word) : Nat := (piece w j x).toNat

/-- A floating-point word: as `WordOp`, with what its immediate needs, and the conditions that sub-element j reports. -/
structure FloatOp where
  mark : Bool
  sc   : Scope
  d    : Reg
  a    : Reg
  b    : Reg
  srcs : List Reg
  ok   : Bool
  w    : Nat
  op   : Nat → Word → Word → Word → Nat × Flags

/-- A two-operand operation of a format on each of its sub-elements (R57, R151). -/
def binary (m : Bool) (sc : Scope) (d a b : Reg) (f : Fmt) (g : Nat → Nat → Nat × Flags) : FloatOp :=
  { mark := m, sc := sc, d := d, a := a, b := b, srcs := [a, b], ok := true, w := fmtWidth f,
    op := fun j _ x y => g (part (fmtWidth f) j x) (part (fmtWidth f) j y) }

/-- A multiply-add of a format: the old D is a source (R154). -/
def fused (m : Bool) (sc : Scope) (d a b : Reg) (f : Fmt) : FloatOp :=
  { mark := m, sc := sc, d := d, a := a, b := b, srcs := [d, a, b], ok := true, w := fmtWidth f,
    op := fun j z x y => fpFma f (part (fmtWidth f) j z) (part (fmtWidth f) j x) (part (fmtWidth f) j y) }

/-- An operation on the two FP32 halves of A. -/
def halves (m : Bool) (sc : Scope) (d a : Reg) (ok : Bool) (g : Nat → Nat × Flags) : FloatOp :=
  { mark := m, sc := sc, d := d, a := a, b := .zr, srcs := [a], ok := ok, w := 32, op := fun j _ x _ => g (part 32 j x) }

/-- The arithmetic words of the three formats (R154–R157). -/
def floatArith : Instr → Option FloatOp
  | .faddF32 m sc d a b => some (binary m sc d a b fmtF32 (fpAdd fmtF32))
  | .faddBf16 m sc d a b => some (binary m sc d a b fmtBF16 (fpAdd fmtBF16))
  | .faddF16 m sc d a b => some (binary m sc d a b fmtF16 (fpAdd fmtF16))
  | .fsubF32 m sc d a b => some (binary m sc d a b fmtF32 (fpSub fmtF32))
  | .fsubBf16 m sc d a b => some (binary m sc d a b fmtBF16 (fpSub fmtBF16))
  | .fsubF16 m sc d a b => some (binary m sc d a b fmtF16 (fpSub fmtF16))
  | .fmulF32 m sc d a b => some (binary m sc d a b fmtF32 (fpMul fmtF32))
  | .fmulBf16 m sc d a b => some (binary m sc d a b fmtBF16 (fpMul fmtBF16))
  | .fmulF16 m sc d a b => some (binary m sc d a b fmtF16 (fpMul fmtF16))
  | .ffmaF32 m sc d a b => some (fused m sc d a b fmtF32)
  | .ffmaBf16 m sc d a b => some (fused m sc d a b fmtBF16)
  | .ffmaF16 m sc d a b => some (fused m sc d a b fmtF16)
  | .fminF32 m sc d a b => some (binary m sc d a b fmtF32 (fpMinMax fmtF32 false))
  | .fminBf16 m sc d a b => some (binary m sc d a b fmtBF16 (fpMinMax fmtBF16 false))
  | .fminF16 m sc d a b => some (binary m sc d a b fmtF16 (fpMinMax fmtF16 false))
  | .fmaxF32 m sc d a b => some (binary m sc d a b fmtF32 (fpMinMax fmtF32 true))
  | .fmaxBf16 m sc d a b => some (binary m sc d a b fmtBF16 (fpMinMax fmtBF16 true))
  | .fmaxF16 m sc d a b => some (binary m sc d a b fmtF16 (fpMinMax fmtF16 true))
  | .fceqF32 m sc d a b => some (binary m sc d a b fmtF32 (fpCmp fmtF32 .eq))
  | .fceqBf16 m sc d a b => some (binary m sc d a b fmtBF16 (fpCmp fmtBF16 .eq))
  | .fceqF16 m sc d a b => some (binary m sc d a b fmtF16 (fpCmp fmtF16 .eq))
  | .fcltF32 m sc d a b => some (binary m sc d a b fmtF32 (fpCmp fmtF32 .lt))
  | .fcltBf16 m sc d a b => some (binary m sc d a b fmtBF16 (fpCmp fmtBF16 .lt))
  | .fcltF16 m sc d a b => some (binary m sc d a b fmtF16 (fpCmp fmtF16 .lt))
  | .fcleF32 m sc d a b => some (binary m sc d a b fmtF32 (fpCmp fmtF32 .le))
  | .fcleBf16 m sc d a b => some (binary m sc d a b fmtBF16 (fpCmp fmtBF16 .le))
  | .fcleF16 m sc d a b => some (binary m sc d a b fmtF16 (fpCmp fmtF16 .le))
  | _ => none

/-- The exponent of FSCL: the immediate's, or sub-element j of the old D clamped to ±400 (R158). -/
def scaleExp (i : BitVec 7) (j : Nat) (z : Word) : Int :=
  if i.getLsbD 6 then max (-400) (min 400 (piece 32 j z).toInt) else (i.setWidth 6).toInt

/-- Element j of CVT code c (R160, R161): a conversion of element j of A, or zero above the elements there are. -/
def convElement (ts td : ElTy) (satur : Bool) (j : Nat) (x : Word) : Nat × Flags :=
  if j < 64 / Nat.max (elWidth ts) (elWidth td) then convertTo td satur (elValue ts codebook0 (part (elWidth ts) j x))
  else (0, 0)

/-- Scaling, fractions, integral rounding, the paired dot product and conversions (R158–R161). -/
def floatShape : Instr → Option FloatOp
  | .fscl m sc d a i =>
      some { halves m sc d a true (fun _ => (0, 0)) with
              srcs := if i.getLsbD 6 then [d, a] else [a], op := fun j z x _ => fscl (scaleExp i j z) (part 32 j x) }
  | .ffrc m sc d a i => some (halves m sc d a (i.toNat ≤ 1) (ffrc i.toNat))
  | .frnd m sc d a i => some (halves m sc d a (i.toNat ≤ 3) (frnd i.toNat))
  | .fdot2 m sc d a b =>
      some { fused m sc d a b fmtF32 with
              w := 32, op := fun j z x y => fdot2Half (part 32 j z) (part 32 j x) (part 32 j y) }
  | .cvt m sc d a x c =>
      (cvtTypes c.toNat).map fun t =>
        { halves m sc d a true (fun _ => (0, 0)) with w := elWidth t.2, op := fun j _ v _ => convElement t.1 t.2 x j v }
  | _ => none

/-- The quotient of R391. -/
def quotient {w : Nat} (x y : BitVec w) : BitVec w := if y = 0 then BitVec.allOnes w else x.sdiv y

/-- A division of R391 on each sub-element: no conditions. -/
def divide (m : Bool) (sc : Scope) (d a b : Reg) (w : Nat) (f : BitVec w → BitVec w → BitVec w) : FloatOp :=
  { mark := m, sc := sc, d := d, a := a, b := b, srcs := [a, b], ok := true, w := w,
    op := fun j _ x y => ((f (piece w j x) (piece w j y)).toNat, 0) }

/-- The words with a variable-latency result: special functions and the factory microcode (R165, R391, R392). -/
def lateWords : Instr → Option FloatOp
  | .rcp m sc d a => some (halves m sc d a true (fnRcp fmtF32))
  | .rsq m sc d a => some (halves m sc d a true (fnRsq fmtF32))
  | .sqrt m sc d a => some (halves m sc d a true (fnSqrt fmtF32))
  | .exp2 m sc d a => some (halves m sc d a true (fnExp2 fmtF32))
  | .log2 m sc d a => some (halves m sc d a true (fnLog2 fmtF32))
  | .sint m sc d a => some (halves m sc d a true (fnTurn fmtF32 false))
  | .cost m sc d a => some (halves m sc d a true (fnTurn fmtF32 true))
  | .tanh m sc d a => some (halves m sc d a true (fnTanh fmtF32))
  | .sigm m sc d a => some (halves m sc d a true (fnSigm fmtF32))
  | .idiv32 m sc d a b => some (divide m sc d a b 32 quotient)
  | .idiv64 m sc d a b => some (divide m sc d a b 64 quotient)
  | .irem32 m sc d a b => some (divide m sc d a b 32 BitVec.srem)
  | .irem64 m sc d a b => some (divide m sc d a b 64 BitVec.srem)
  | .fdivF32 m sc d a b => some (binary m sc d a b fmtF32 (fpDiv fmtF32))
  | _ => none

/-- The conditions of a word at lane scope: those of every sub-element of every active lane (R82, R153). -/
def laneFlags (s1 : State) (o : Who) (p : FloatOp) (fl : BitVec 5) : Prop :=
  ∀ c, fl.getLsbD c = true ↔ ∃ l j, (activeMask s1 o).getLsbD l = true ∧ p.w * (j + 1) ≤ 64 ∧
    (p.op j (rd s1 o p.d l) (rd s1 o p.a l) (rd s1 o p.b l)).2.getLsbD c = true

/-- The conditions of a word at warp scope. -/
def warpFlags (s1 : State) (o : Who) (p : FloatOp) (fl : BitVec 5) : Prop :=
  ∀ c, fl.getLsbD c = true ↔ ∃ j, p.w * (j + 1) ≤ 64 ∧
    (p.op j (rdS s1 o p.d) (rdS s1 o p.a) (rdS s1 o p.b)).2.getLsbD c = true

/-- The value of D at lane scope, sub-element by sub-element. -/
def laneValue (s1 : State) (o : Who) (p : FloatOp) (val : Nat → Word) : Prop :=
  ∀ l j, (activeMask s1 o).getLsbD l = true → p.w * (j + 1) ≤ 64 →
    piece p.w j (val l) = BitVec.ofNat p.w (p.op j (rd s1 o p.d l) (rd s1 o p.a l) (rd s1 o p.b l)).1

/-- The value of D at warp scope. -/
def warpValue (s1 : State) (o : Who) (p : FloatOp) (val : Word) : Prop :=
  ∀ j, p.w * (j + 1) ≤ 64 → piece p.w j val = BitVec.ofNat p.w (p.op j (rdS s1 o p.d) (rdS s1 o p.a) (rdS s1 o p.b)).1

/-- The conditions under which a floating-point word runs: its immediate, its operands, and its sources settled. -/
structure FloatRuns (s : State) (o : Who) (p : FloatOp) : Prop where
  ok   : p.ok = true
  at_  : Issues s o
  set  : Settled s o p.srcs
  d    : dstOk s o p.sc p.d = true
  a    : srcOk s o p.sc p.a = true
  b    : srcOk s o p.sc p.b = true
  conc : p.sc = .warp → isS p.d = true → inConc s o = false

/-- A fixed-latency word of a table completes with its value in D and its conditions ORed into FFLAGS, and nothing else. -/
def FloatCompletes (table : Instr → Option FloatOp) : Prop :=
  ∀ (s : State) (o : Who) (i : Instr) (p : FloatOp), table i = some p → FloatRuns s o p →
    let s1 := reading s o p.srcs
    (p.sc = .lane → ∃ t val fl, exec i s = .next t ∧
      Computes s t o p.mark { warpOf s o with fflags := (warpOf s o).fflags ||| fl } ∧ LaneResult s t o p.d val ∧
      laneValue s1 o p val ∧ laneFlags s1 o p fl) ∧
    (p.sc = .warp → ∃ t val fl, exec i s = .next t ∧
      Computes s t o p.mark { warpOf s o with fflags := (warpOf s o).fflags ||| fl } ∧ ScalarResult s t o p.d val ∧
      warpValue s1 o p val ∧ warpFlags s1 o p fl)

/-- A variable-latency word of a table completes with its value and its conditions outstanding, and nothing else. -/
def LateCompletes (table : Instr → Option FloatOp) : Prop :=
  ∀ (s : State) (o : Who) (i : Instr) (p : FloatOp), table i = some p → FloatRuns s o p →
    let s1 := reading s o p.srcs
    (p.sc = .lane → ∃ t val fl, exec i s = .next t ∧ Computes s t o p.mark (warpOf s o) ∧ LateLanes s t o p.d val fl ∧
      laneValue s1 o p val ∧ laneFlags s1 o p fl) ∧
    (p.sc = .warp → ∃ t val fl, exec i s = .next t ∧ Computes s t o p.mark (warpOf s o) ∧ LateScalar s t o p.d val fl ∧
      warpValue s1 o p val ∧ warpFlags s1 o p fl)

/-! ### Random numbers -/

/-- The draw of a lane of a warp (R91): 64 bits from the seed, the lane and the lane's counter. -/
def drawOfLane (w : Warp) (l : Nat) : Word := drawOf w.seed l (tgetD 0 w.ctr l)

/-- The counters after the lanes `drew` drew once each. -/
def Drew (w : Warp) (ctr : Table Word) (drew : Nat → Bool) : Prop :=
  ∀ l, tgetD 0 ctr l = tgetD 0 w.ctr l + if drew l then 1 else 0

/-- A word that draws (R162, R163): sub-element j of D from A and the draw. -/
structure DrawOp where
  mark : Bool
  sc   : Scope
  d    : Reg
  a    : Reg
  srcs : List Reg
  ok   : Bool
  w    : Nat
  op   : Nat → Word → Word → Nat × Flags

/-- RAND and CVTSR: element j of a conversion takes 16 bits of the draw, and there are zeros above the elements (R162). -/
def drawWord : Instr → Option DrawOp
  | .rand m sc d => some { mark := m, sc := sc, d := d, a := .zr, srcs := [], ok := true, w := 64, op := fun _ _ g => (g.toNat, 0) }
  | .cvtsr m sc d a c =>
    match cvtTypes c.toNat with
    | none => none
    | some (ts, td) =>
      (elFmt td).map fun f =>
        { mark := m, sc := sc, d := d, a := a, srcs := [a], ok := srCode c.toNat, w := elWidth td,
          op := fun j x g =>
            if j < 64 / Nat.max (elWidth ts) (elWidth td) then
              stochastic f (elValue ts codebook0 (part (elWidth ts) j x)) (part 16 j g)
            else (0, 0) }
  | _ => none

/-! ### Cross-lane words -/

/-- The value of a lane as the cross-lane words read it, no result of the warp being outstanding: zero for a lane that has
exited or was never launched (R138, R167). -/
def laneValueOf (s : State) (o : Who) (r : Reg) (l : Nat) : Word :=
  if (warpOf s o).live.getLsbD l then held s o r l else 0

/-- A binary tree of depth n over leaves 2^n × i on, with its conditions (R170). -/
def tree (op : Nat → Nat → Nat × Flags) (leaf : Nat → Nat) : Nat → Nat → Nat × Flags
  | 0, i => (leaf i, 0)
  | n + 1, i =>
    let x := tree op leaf n (2 * i)
    let y := tree op leaf n (2 * i + 1)
    ((op x.1 y.1).1, (op x.1 y.1).2 ||| x.2 ||| y.2)

/-- The tree of half h over the active lanes' values of A; an inactive lane counts as the identity. -/
def treeHalf (op : Nat → Nat → Nat × Flags) (ident : Nat) (s : State) (o : Who) (a : Reg) (h : Nat) : Nat × Flags :=
  tree op (fun l => if (activeMask s o).getLsbD l then part 32 h (held s o a l) else ident) 5 0

/-- The active lanes, ascending. -/
def activeLanes (s : State) (o : Who) : List Nat := (List.range 32).filter fun l => (activeMask s o).getLsbD l

/-- A cross-lane word: its sub-element width, and sub-element j of D at lane l. -/
structure CrossOp where
  mark : Bool
  d    : Reg
  a    : Reg
  b    : Reg
  w    : Nat
  op   : State → Who → Nat → Nat → Nat × Flags

/-- The lane that XSWZ reads (R169): XOR, rotate, or a shift up or down by c. -/
def swizzled (i : BitVec 7) (l : Nat) : Option Nat :=
  let c := (i.setWidth 5).toNat
  match (i >>> 5).toNat with
  | 0 => some (l ^^^ c)
  | 1 => some ((l + c) % 32)
  | 2 => if l + c < 32 then some (l + c) else none
  | _ => if c ≤ l then some (l - c) else none

/-- XPERM: sub-element j of D takes the element that its selector numbers among the lanes' sub-elements; zero beyond
them (R168). -/
def permuted (w : Nat) (s : State) (o : Who) (a b : Reg) (l j : Nat) : Nat :=
  let k := 64 / w
  let e := part w j (held s o b l)
  if e < 32 * k then part w (e % k) (laneValueOf s o a (e / k)) else 0

/-- Permutes, reductions and the scan (R168–R172). -/
def crossLane : Instr → Option CrossOp
  | .xperm m t d a b =>
      some { mark := m, d := d, a := a, b := b, w := bitsOf t, op := fun s o l j => (permuted (bitsOf t) s o a b l j, 0) }
  | .xswz m d a i =>
      some { mark := m, d := d, a := a, b := .zr, w := 64,
             op := fun s o l _ => (((swizzled i l).map fun n => (laneValueOf s o a n).toNat).getD 0, 0) }
  | .xbcast m d a b =>
      some { mark := m, d := d, a := a, b := b, w := 64,
             op := fun s o l _ => ((laneValueOf s o a ((held s o b l).setWidth 5).toNat).toNat, 0) }
  | .xsumF32 m d a =>
      some { mark := m, d := d, a := a, b := .zr, w := 32, op := fun s o _ j => treeHalf (fpAdd fmtF32) 0x80000000 s o a j }
  | .xmaxF32 m d a =>
      some { mark := m, d := d, a := a, b := .zr, w := 32,
             op := fun s o _ j => treeHalf (fpMinMax fmtF32 true) 0xFF800000 s o a j }
  | .xsum64 m d a =>
      some { mark := m, d := d, a := a, b := .zr, w := 64,
             op := fun s o _ _ => ((((activeLanes s o).map fun l => (held s o a l).toNat).sum) % 2 ^ 64, 0) }
  | .xscan32 m d a =>
      some { mark := m, d := d, a := a, b := .zr, w := 32,
             op := fun s o l j =>
               ((((activeLanes s o).filter fun n => n ≤ l).map fun n => part 32 j (held s o a n)).sum % 2 ^ 32, 0) }
  | _ => none

/-- VOTE's modes (R173) over the active lanes' values. -/
def voted (i : BitVec 7) (s : State) (o : Who) (a : Reg) (v : Word) : Prop :=
  let hit := fun l => held s o a l ≠ 0
  (i = 0 → ∀ l, v.getLsbD l = true ↔ l ∈ activeLanes s o ∧ hit l) ∧
  (i = 1 → v = if ∃ l ∈ activeLanes s o, hit l then 1 else 0) ∧
  (i = 2 → v = if ∀ l ∈ activeLanes s o, hit l then 1 else 0) ∧
  (i = 3 → v = if ∀ l ∈ activeLanes s o, ∀ n ∈ activeLanes s o, held s o a l = held s o a n then 1 else 0) ∧
  (i = 4 → v.toNat = (activeLanes s o).countP fun l => held s o a l ≠ 0)

/-- The length of the list of a TKINS word, its mark and its registers (R174). -/
def gateWord : Instr → Option (Bool × Nat × Reg × Reg × Reg)
  | .tkins2 m d a b => some (m, 2, d, a, b)
  | .tkins4 m d a b => some (m, 4, d, a, b)
  | .tkins8 m d a b => some (m, 8, d, a, b)
  | _ => none

/-- The candidate's place among the entries: the first that it beats (R174, R175). -/
def place (c : Word) (es : List Word) : Nat := (es.takeWhile fun e => !beats c e).length

/-- The sign bit of a pattern of a format (R71). -/
def negative (f : Fmt) (x : Nat) : Bool := decide (x / 2 ^ (f.ebits + f.man) % 2 = 1)

/-- The pattern stands for a finite number: its exponent field is not all ones (R72). -/
def finite (f : Fmt) (x : Nat) : Prop := x < 2 ^ fmtWidth f ∧ x / 2 ^ f.man % 2 ^ f.ebits ≠ 2 ^ f.ebits - 1

/-- Its value, counted in units of the smallest spacing 2^(1 − bias − man) (R72): a whole number of them. -/
def unitsOf (f : Fmt) (x : Nat) : Int :=
  let e := x / 2 ^ f.man % 2 ^ f.ebits
  let m := x % 2 ^ f.man
  let mag := if e = 0 then m else (2 ^ f.man + m) * 2 ^ (e - 1)
  if negative f x then -(mag : Int) else mag

/-- Units of a product, which are the squares of units, in one unit. -/
def perUnit (f : Fmt) : Nat := 2 ^ (f.bias + f.man - 1)

/-- The largest finite value, in units (R73). -/
def largest (f : Fmt) : Nat := (2 ^ (f.man + 1) - 1) * 2 ^ (2 ^ f.ebits - 3)

/-- Pattern `r` is the exact nonzero value `q`, counted in the u-th parts of a unit, rounded once (R79): to a multiple of the spacing
of its binade, to the nearest and of two to the even one; and past the largest finite value to infinity. The sign is kept. -/
def RoundsIn (f : Fmt) (u : Nat) (q : Int) (r : Nat) : Prop :=
  let p := Nat.max (2 ^ (Nat.log2 q.natAbs - f.man)) u
  ∃ k : Nat, 2 * ((k * p : Nat) - (q.natAbs : Int)).natAbs ≤ p ∧
    (2 * ((k * p : Nat) - (q.natAbs : Int)).natAbs = p → k % 2 = 0) ∧ negative f r = decide (q < 0) ∧
    (k * p ≤ largest f * u → finite f r ∧ (unitsOf f r).natAbs * u = k * p) ∧
    (largest f * u < k * p → r % 2 ^ (f.ebits + f.man) = (2 ^ f.ebits - 1) * 2 ^ f.man)

/-- The same of a value counted in squares of units. -/
abbrev RoundsTo (f : Fmt) (q : Int) (r : Nat) : Prop := RoundsIn f (perUnit f) q r

/-- Pattern `r` is the exact positive value v, counted in units, with v^e = n / d (e = 1 of a quotient, 2 of a square root), and the
sign `neg`, rounded once (R79): `2^b` is the binade of v, and the powers of the half-way points beside the multiple k of its spacing p
enclose v^e. -/
def RoundsPower (f : Fmt) (neg : Bool) (e n d r : Nat) : Prop :=
  ∃ b k : Nat, (b = 0 ∨ (2 ^ b) ^ e * d ≤ n) ∧ n < (2 ^ (b + 1)) ^ e * d ∧
    let p := 2 ^ (b - f.man)
    let below := ((2 * k - 1) * p) ^ e * d
    let above := ((2 * k + 1) * p) ^ e * d
    below ≤ 2 ^ e * n ∧ 2 ^ e * n ≤ above ∧ (below = 2 ^ e * n ∨ above = 2 ^ e * n → k % 2 = 0) ∧ negative f r = neg ∧
    (k * p ≤ largest f → finite f r ∧ (unitsOf f r).natAbs = k * p) ∧
    (largest f < k * p → r % 2 ^ (f.ebits + f.man) = (2 ^ f.ebits - 1) * 2 ^ f.man)

/-- A zero of a sign (R155). -/
def zeroOf (f : Fmt) (neg : Bool) : Nat := if neg then 2 ^ (f.ebits + f.man) else 0

/-- Sums, differences, products and multiply-adds of finite operands form the exact value and round it once (R154); an exact
zero sum is −0 only where both addends are, and a zero product takes the signs' difference (R155). -/
def RoundsOnce (f : Fmt) : Prop :=
  ∀ x y z, finite f x → finite f y → finite f z →
    let vx := unitsOf f x
    let vy := unitsOf f y
    let vz := unitsOf f z
    let sg := negative f x != negative f y
    (vx + vy ≠ 0 → RoundsTo f ((vx + vy) * perUnit f) (fpAdd f x y).1) ∧
    (vx + vy = 0 → (fpAdd f x y).1 = zeroOf f (vx == 0 && negative f x && negative f y)) ∧
    (vx - vy ≠ 0 → RoundsTo f ((vx - vy) * perUnit f) (fpSub f x y).1) ∧
    (vx - vy = 0 → (fpSub f x y).1 = zeroOf f (vx == 0 && negative f x && !negative f y)) ∧
    (vx * vy ≠ 0 → RoundsTo f (vx * vy) (fpMul f x y).1) ∧
    (vx * vy = 0 → (fpMul f x y).1 = zeroOf f sg) ∧
    (vz * perUnit f + vx * vy ≠ 0 → RoundsTo f (vz * perUnit f + vx * vy) (fpFma f z x y).1) ∧
    (vz * perUnit f + vx * vy = 0 → (fpFma f z x y).1 = zeroOf f (vz == 0 && negative f z && sg))

/-- An infinity of a sign. -/
def infinityOf (f : Fmt) (neg : Bool) : Nat := zeroOf f neg + (2 ^ f.ebits - 1) * 2 ^ f.man

/-- 1 / x, 1 / √x, √x and x / y of finite operands form the exact value and round it once, and the zero operands and negative roots have
the results and conditions of their tables (R88, R392). -/
def RootsAndQuotients (f : Fmt) : Prop :=
  ∀ x y, finite f x → finite f y →
    let vx := unitsOf f x
    let vy := unitsOf f y
    let sg := negative f x != negative f y
    (vx ≠ 0 → RoundsPower f (negative f x) 1 (perUnit f * perUnit f) vx.natAbs (fnRcp f x).1) ∧
    (vx = 0 → fnRcp f x = (infinityOf f (negative f x), flDZ)) ∧
    (0 < vx → RoundsPower f false 2 (perUnit f ^ 3) vx.natAbs (fnRsq f x).1) ∧
    (vx = 0 → fnRsq f x = (infinityOf f (negative f x), flDZ)) ∧
    (0 < vx → RoundsPower f false 2 (vx.natAbs * perUnit f) 1 (fnSqrt f x).1) ∧
    (vx = 0 → fnSqrt f x = (x, 0)) ∧
    (vx < 0 → fnSqrt f x = (canonNaN f, flNV) ∧ fnRsq f x = (canonNaN f, flNV)) ∧
    (vx ≠ 0 → vy ≠ 0 → RoundsPower f sg 1 (vx.natAbs * perUnit f) vy.natAbs (fpDiv f x y).1) ∧
    (vx ≠ 0 → vy = 0 → fpDiv f x y = (infinityOf f sg, flDZ)) ∧
    (vx = 0 → vy ≠ 0 → fpDiv f x y = (zeroOf f sg, 0)) ∧
    (vx = 0 → vy = 0 → fpDiv f x y = (canonNaN f, flNV))

end Sys2Proof.Claim

/-- R79, R151, R153–R161, R82: FADD, FSUB, FMUL, FFMA, FMIN, FMAX, FCEQ, FCLT and FCLE in three formats; FSCL, FFRC, FRND,
FDOT2 and CVT. The sums, products and multiply-adds of finite operands are their exact values, rounded once. NX and UF of
FDOT2 are the model's reading (log entry 12). -/
def Obligations.FloatWords : Prop :=
  FloatCompletes floatArith ∧ FloatCompletes floatShape ∧ ∀ f ∈ [fmtF32, fmtBF16, fmtF16], RoundsOnce f

/-- R79, R88, R165, R391, R392: the special functions, IDIV, IREM and FDIV. Of finite operands RCP, RSQ, SQRT and FDIV are their
exact values, rounded once, with the tables' results at zeros. A special function whose enclosure does not decide is a free value
(log entry 52). -/
def Obligations.LateResults : Prop := LateCompletes lateWords ∧ RootsAndQuotients fmtF32

/-- R91, R162, R163: RAND and CVTSR draw once for each active lane, or once for the warp at its lowest active lane. -/
def Obligations.RandomDraws : Prop :=
  ∀ (s : State) (o : Who) (i : Instr) (p : DrawOp), drawWord i = some p → Issues s o → Settled s o p.srcs → p.ok = true →
    srcOk s o p.sc p.a = true → dstOk s o p.sc p.d = true →
    let s1 := reading s o p.srcs
    let el := fun (x : Word) (l j : Nat) => p.op j x (drawOfLane (warpOf s o) l)
    let low := lowestLane (activeMask s o)
    (p.sc = .lane → ∃ t val fl ctr, exec i s = .next t ∧
      Computes s t o p.mark { warpOf s o with ctr := ctr, fflags := (warpOf s o).fflags ||| fl } ∧
      LaneResult s t o p.d val ∧ (Drew (warpOf s o) ctr fun l => (activeMask s o).getLsbD l) ∧
      (∀ l j, (activeMask s o).getLsbD l = true → p.w * (j + 1) ≤ 64 →
        piece p.w j (val l) = BitVec.ofNat p.w (el (rd s1 o p.a l) l j).1) ∧
      ∀ c, fl.getLsbD c = true ↔ ∃ l j, (activeMask s o).getLsbD l = true ∧ p.w * (j + 1) ≤ 64 ∧
        (el (rd s1 o p.a l) l j).2.getLsbD c = true) ∧
    (p.sc = .warp → (isS p.d = true → inConc s o = false) → ∃ t val fl ctr, exec i s = .next t ∧
      Computes s t o p.mark { warpOf s o with ctr := ctr, fflags := (warpOf s o).fflags ||| fl } ∧
      ScalarResult s t o p.d val ∧ (Drew (warpOf s o) ctr fun l => l == low) ∧
      (∀ j, p.w * (j + 1) ≤ 64 → piece p.w j val = BitVec.ofNat p.w (el (rdS s1 o p.a) low j).1) ∧
      ∀ c, fl.getLsbD c = true ↔ ∃ j, p.w * (j + 1) ≤ 64 ∧ (el (rdS s1 o p.a) low j).2.getLsbD c = true)

/-- R167–R172: the permutes, the fixed trees, the integer sum and the scan, where no result of the warp is outstanding and no
MISS of a TAG that they read is open (R136). -/
def Obligations.CrossLaneWords : Prop :=
  ∀ (s : State) (o : Who) (i : Instr) (p : CrossOp), crossLane i = some p → Issues s o → allOuts (warpOf s o) = [] →
    (p.a = .tag ∨ p.b = .tag → ∀ l, missOpen s o l = false) → laneDst s o p.d = true → laneSrc s o p.a = true → laneSrc s o p.b = true →
    ∃ t val fl, exec i s = .next t ∧ Computes s t o p.mark (warpOf s o) ∧ LateLanes s t o p.d val fl ∧
      (∀ l j, (activeMask s o).getLsbD l = true → p.w * (j + 1) ≤ 64 →
        piece p.w j (val l) = BitVec.ofNat p.w (p.op s o l j).1) ∧
      ∀ c, fl.getLsbD c = true ↔ ∃ l j, (activeMask s o).getLsbD l = true ∧ p.w * (j + 1) ≤ 64 ∧
        (p.op s o l j).2.getLsbD c = true

/-- R173: VOTE writes a scalar from the active lanes. That Va may be a scalar, which every lane then holds, is the model's reading
(log entry 60). -/
def Obligations.Votes : Prop :=
  ∀ (s : State) (o : Who) (m : Bool) (d a : Reg) (i : BitVec 7), Issues s o → allOuts (warpOf s o) = [] → i.toNat ≤ 4 →
    scalarDst d = true → anyV s o a = true → (isS d = true → inConc s o = false) →
    ∃ t v, exec (.vote m d a i) s = .next t ∧ Computes s t o m (warpOf s o) ∧ LateScalar s t o d v 0 ∧ voted i s o a v

/-- R174, R175: TKINS puts the candidate before the first entry that it beats and drops the last entry, or leaves the
list. -/
def Obligations.GateInsertion : Prop :=
  ∀ (s : State) (o : Who) (i : Instr) (m : Bool) (k : Nat) (n : Fin 64) (a b : Reg),
    gateWord i = some (m, k, .v n, a, b) → Issues s o → allOuts (warpOf s o) = [] → n.val + k ≤ 64 →
    (∀ j, j < k → vInside s o (n.val + j) = true) → laneSrc s o a = true → laneSrc s o b = true →
    (a = .tag ∨ b = .tag → ∀ l, missOpen s o l = false) →
    let own := fun r : Reg => ∃ j, j < k ∧ r = .v (Fin.ofNat 64 (n.val + j))
    ∃ t, exec i s = .next t ∧ Computes s t o m (warpOf s o) ∧ (SameRegs s t o .zr fun _ => false) ∧
      (∀ r l, l < 32 → r ≠ .rcnt → ¬ own r ∨ (activeMask s o).getLsbD l = false → held (settle t o) o r l = held s o r l) ∧
      ∀ l, (activeMask s o).getLsbD l = true →
        let c : Word := (held s o a l).setWidth 32 ++ (held s o b l).setWidth 32
        let es := (List.range k).map fun j => held s o (.v (Fin.ofNat 64 (n.val + j))) l
        ∀ j, j < k → held (settle t o) o (.v (Fin.ofNat 64 (n.val + j))) l =
          if j < place c es then es.getD j 0 else if j = place c es then c else es.getD (j - 1) 0

namespace Sys2Proof.Claim

/-! ### Control -/

/-- Every register but RCNT reads as before. -/
abbrev NoRegs (s t : State) (o : Who) : Prop := SameRegs s t o .zr fun _ => false

/-- The branches of a scalar that jump to a 14-bit offset (R112): the mark, the register, the offset, and whether a value
takes them. -/
def condBranch : Instr → Option (Bool × Reg × BitVec 14 × (Word → Bool))
  | .brz m d off => some (m, d, off, fun v => v = 0)
  | .brnz m d off => some (m, d, off, fun v => v ≠ 0)
  | _ => none

/-- The jumps to a register's address (R114): the mark, the register, and whether the return address goes to S47. -/
def jumpWord : Instr → Option (Bool × Reg × Bool)
  | .callx m a => some (m, a, true)
  | .jx m a => some (m, a, false)
  | _ => none

/-- The words that set a control of their warp, or nothing (R91, R111, R117, R118, R124–R126): the mark, the sources, what the
word needs, whether a concurrent body forbids it (R191), and the warp after it, from the value of the source. -/
structure ControlWord where
  mark : Bool
  srcs : List Reg
  ok   : State → Who → Word → Prop
  conc : Bool
  warp : Word → Warp → Warp

/-- The source of a control word. -/
def ControlWord.value (p : ControlWord) (s : State) (o : Who) : Word :=
  rdS (reading s o p.srcs) o (p.srcs.headD .zr)

/-- The table of those words; QSYNC outside deterministic mode. -/
def controlWord : Instr → Option ControlWord
  | .nop m sc =>
    some { mark := m, srcs := [], ok := fun _ _ _ => sc = .lane ∨ sc = .warp, conc := false, warp := fun _ w => w }
  | .win m i =>
    some { mark := m, srcs := [], ok := fun _ _ _ => i.toNat ≤ 15, conc := true,
           warp := fun _ w => { w with window := i.toNat } }
  | .sets m i =>
    some { mark := m, srcs := [],
           ok := fun s o _ => i.toNat ≤ 3 ∧ o.warp ∈ members (wgOf s o) i.toNat, conc := true,
           warp := fun _ w => { w with curSet := some i.toNat } }
  | .gov m a =>
    some { mark := m, srcs := [a], ok := fun _ _ v => scalarSrc a = true ∧ v.toNat < 2 ^ 16, conc := true,
           warp := fun v w => { w with budget := v.setWidth 16, gcount := 0 } }
  | .rseed m a =>
    some { mark := m, srcs := [a], ok := fun _ _ _ => scalarSrc a = true, conc := true,
           warp := fun v w => { w with seed := v, ctr := [] } }
  | .qsync m =>
    some { mark := m, srcs := [], ok := fun s o _ => (wgOf s o).det = false, conc := false, warp := fun _ w => w }
  | .cpol m i =>
    some { mark := m, srcs := [], ok := fun _ _ _ => i.toNat ≤ 3, conc := true,
           warp := fun _ w => { w with cpol := i.setWidth 2 } }
  | _ => none

/-- What a system register holds, by its number (R120): ISAVER, FEAT0 and FEAT1 (R13, R14), CORE and DSPLIT, DETQ (R264), the
trap registers (R353), FFLAGS and GOVB; SHOOT, PGPOOL, and the registers of the context that CTXSEL names (R359), CHIP, SECVER
and ELTB, DBGSEL, DBGREG and the breakpoints (R366). -/
def registerValue (s : State) (o : Who) : Nat → Option Word
  | 0 => some 0x60601
  | 1 => some 0x3FFFF
  | 2 => some 0
  | 4 => some (BitVec.ofNat 64 o.core)
  | 5 => some (s.dsplit.setWidth 64)
  | 6 => some ((if (wgOf s o).det then 0x8000000000000000 else 0) + BitVec.ofNat 64 (2 ^ (wgOf s o).qlog))
  | 16 => some (warpOf s o).trap.tcause
  | 17 => some (warpOf s o).trap.tpc
  | 18 => some (warpOf s o).trap.taddr
  | 19 => some (warpOf s o).trap.tlanes
  | 20 => some (warpOf s o).trap.tinfo
  | 32 => some ((warpOf s o).fflags.setWidth 64)
  | 33 => some ((warpOf s o).budget.setWidth 64)
  | 64 => some (s.shoot ||| if s.shootOp.isSome then 0x8000000000000000 else 0)
  | 66 => some s.pgpool
  | 80 => some (BitVec.ofNat 64 s.ctxsel)
  | 81 => some (getCtx s s.ctxsel).ctl
  | 82 => some (getCtx s s.ctxsel).ptroot
  | 83 => some (getCtx s s.ctxsel).farea
  | 84 => some (getCtx s s.ctxsel).savea
  | 86 => some (getCtx s s.ctxsel).evq
  | 87 => some (getCtx s s.ctxsel).hostbase
  | 89 => some s.chip
  | 90 => some (BitVec.ofNat 64 s.secver)
  | 91 => some s.eltb
  | 96 => some s.dbgsel
  | 98 => some s.dbgreg
  | 100 => some (tgetD (0, 0) s.bps 0).1
  | 101 => some (tgetD (0, 0) s.bps 1).1
  | 102 => some (tgetD (0, 0) s.bps 2).1
  | 103 => some (tgetD (0, 0) s.bps 3).1
  | _ => none

/-- The register holds a value whole that its layout lets a write give it (R230, R359, R366, R399, R407). -/
def fitsRegister (s : State) (n : Nat) (v : Word) : Prop :=
  match n with
  | 66 => v.extractLsb' 48 16 = 0 ∧ v.extractLsb' 0 16 = 0
  | 80 => v.extractLsb' 6 58 = 0
  | 81 => v.extractLsb' 13 51 = 0 ∧ v.extractLsb' 4 4 = 0 ∧ 8 ≤ (v.extractLsb' 8 5).toNat ∧ (v.extractLsb' 8 5).toNat ≤ 16
  | 82 => v.extractLsb' 48 16 = 0 ∧ v.extractLsb' 0 23 = 0
  | 83 => v.extractLsb' 48 16 = 0 ∧ v.extractLsb' 4 8 = 0
  | 84 => v.extractLsb' 48 16 = 0 ∧ v.extractLsb' 0 21 = 0
  | 86 => True
  | 87 => v.extractLsb' 0 16 = 0
  | 89 => v.extractLsb' 9 55 = 0 ∧ peerBusy s = false
  | 91 => v.extractLsb' 48 16 = 0 ∧ v.extractLsb' 4 8 = 0
  | 96 => v.extractLsb' 24 40 = 0 ∧ v.getLsbD 15 = false ∧ v.extractLsb' 2 3 = 0 ∧ (v.extractLsb' 16 8).toNat ≤ 159
  | 98 => v.extractLsb' 21 43 = 0 ∧ v.extractLsb' 8 7 = 0 ∧
      (v.getLsbD 15 = true → 64 ≤ (v.extractLsb' 0 8).toNat ∧ (v.extractLsb' 0 8).toNat ≤ 127)
  | 100 => v.getLsbD 62 = false ∧ v.extractLsb' 0 2 = 0
  | 101 => v.getLsbD 62 = false ∧ v.extractLsb' 0 2 = 0
  | 102 => v.getLsbD 62 = false ∧ v.extractLsb' 0 2 = 0
  | 103 => v.getLsbD 62 = false ∧ v.extractLsb' 0 2 = 0
  | _ => False

/-- A write to a register that commands (R230, R359, R366), where its layout admits it: the event `w` that it is, and the state
`s0` that the event happens in. -/
def Commanded (s : State) (n : Nat) (v : Word) (w : Instr) (s0 : State) : Prop :=
  let core := (s.dbgsel.extractLsb' 16 8).toNat
  let slot := (s.dbgsel.extractLsb' 10 5).toNat
  let warp := (s.dbgsel.extractLsb' 5 5).toNat
  match n with
  | 64 => w = .shoot v ∧ s0 = s ∧ v.extractLsb' 56 7 = 0 ∧ v.extractLsb' 1 7 = 0 ∧ s.shootOp = none
  | 85 => w = .preemptRequest s.ctxsel v ∧ s0 = s ∧ v.extractLsb' 48 13 = 0 ∧ v.getLsbD 32 = false ∧
      (v.extractLsb' 40 8).toNat ≤ 159 ∧ (getCtx s s.ctxsel).pre.busy = false
  | 97 => v.extractLsb' 40 24 = 0 ∧ v.extractLsb' 28 4 = 0 ∧ v.extractLsb' 19 5 = 0 ∧ v.extractLsb' 9 7 = 0 ∧
      v.extractLsb' 3 5 = 0 ∧ (s0 = updCore s core fun c => { c with attach := v.getLsbD 8 }) ∧
      match (v.extractLsb' 0 3).toNat with
      | 1 => w = .haltCore core
      | 2 => w = .resumeCore core
      | 3 => w = .haltWarp core slot warp
      | 4 => w = .resumeWarp core slot warp
      | 5 => w = .stepSplit core slot warp (s.dbgsel.extractLsb' 0 2).toNat
      | 6 => w = .inject core slot warp s.dbgdata
      | _ => False
  | 99 => w = .dbgdata core slot warp s.dbgreg v ∧ s0 = s
  | _ => False

/-- The literal loads (R119): mark, register, offset, and the words that the literal spans. -/
def literalWord : Instr → Option (Bool × Reg × BitVec 14 × Nat)
  | .ldl m d off => some (m, d, off, 2)
  | .ldlw m d off => some (m, d, off, 1)
  | _ => none

/-- C is the first class of the lanes p in class order, and key its key (R179): the least key, or with mode bit 2 the key
of the lowest lane, and every lane of p that holds it. -/
structure FirstClass (keys : Table Word) (mode : BitVec 4) (p c : Mask) (key : Word) : Prop where
  lanes : ∀ l, c.getLsbD l = true ↔ p.getLsbD l = true ∧ tgetD 0 keys l = key
  some_ : c ≠ 0
  least : mode.getLsbD 2 = false → ∀ l, p.getLsbD l = true → key ≤ tgetD 0 keys l
  first : mode.getLsbD 2 = true → ∀ l, p.getLsbD l = true → ∃ n, n ≤ l ∧ c.getLsbD n = true

/-- A class of the level `e` has begun in the stream (R180): the mask is its lanes, Sd its key, and the PC the body's start; `key`
is the key snapshot that is left pending. -/
structure Begins (s t : State) (o : Who) (mark : Bool) (e : ClassEntry) (rest : List ClassEntry) (key : Option KeySnap) : Prop where
  cls : ∃ c key, FirstClass e.keys e.mode e.p c key ∧
    (warpOf t o).stack = { e with p := e.p &&& ~~~c, c := c } :: rest ∧ (streamOf t o).emask = c ∧
    rdS t o e.sd = landed e.sd key
  retires : Retires s t o mark e.body
  others : ∀ r l, l < 32 → r ≠ .rcnt → r ≠ .emask → r ≠ e.sd → held t o r l = held s o r l
  pending : (warpOf t o).pending = key
  only : OnlyWarp s t o
  memory : SameMemory s t

/-- The level `e` has popped (R181): the lanes of M that have not departed go on after the loop. -/
structure Pops (s t : State) (o : Who) (mark : Bool) (e : ClassEntry) (rest : List ClassEntry) (key : Option KeySnap) : Prop where
  stack : (warpOf t o).stack = rest
  emask : (streamOf t o).emask = e.m &&& ~~~e.a
  retires : Retires s t o mark (e.cn + 4)
  others : ∀ r l, l < 32 → r ≠ .rcnt → r ≠ .emask → held t o r l = held s o r l
  pending : (warpOf t o).pending = key
  only : OnlyWarp s t o
  memory : SameMemory s t

/-- The warp runs outside splits and handlers, with class levels `levels`. -/
structure InNest (s : State) (o : Who) (levels : List ClassEntry) : Prop where
  main  : o.split = none
  frame : (warpOf s o).main.frame = none
  stack : (warpOf s o).stack = levels

/-- The level of a sequential loop (R176). -/
def Sequential (e : ClassEntry) : Prop := e.mode.getLsbD 3 = false ∧ e.serial = none ∧ scalarDst e.sd = true

/-- The levels, once the current class is empty, are `gone`, which have no lane pending and none left, so that each pops and hands on
(R187), and then the sequential loop `e` and those around it. -/
def Unwinds (levels gone : List ClassEntry) (e : ClassEntry) (rest : List ClassEntry) : Prop :=
  levels = gone ++ e :: rest ∧ (∀ x ∈ gone ++ [e], Sequential x) ∧ ∀ x ∈ gone, x.p = 0 ∧ x.m &&& ~~~x.a = 0

/-- The CNEXT action of those levels (R181, R187): `e` begins its next class, or pops to the lanes that are left. -/
def Continues (s t : State) (o : Who) (mark : Bool) (e : ClassEntry) (rest : List ClassEntry) (key : Option KeySnap) : Prop :=
  (e.p ≠ 0 → Begins s t o mark e rest key ∧ (warpOf t o).gcount = 0) ∧
  (e.p = 0 → e.m &&& ~~~e.a ≠ 0 → Pops s t o mark e rest key)

/-- The warp has exited (R115): no lane, level or split of it is left, its private memory is given up, and of the other warps nothing
changes but that members of a set which its handler held back go on; where no pre-emption waits for the workgroup, memory
stays. -/
structure Exits (s t : State) (o : Who) : Prop where
  gone   : (warpOf t o).live = 0 ∧ (warpOf t o).stack = [] ∧ (warpOf t o).splits = [] ∧ (warpOf t o).main.emask = 0
  ended  : (∀ w ∈ (wgOf t o).warps, w.2.live = 0) → (wgOf t o).phase = .ended
  warps  : ∀ c k n, ¬ (c = o.core ∧ k = o.slot ∧ n = o.warp) →
    ∃ b, getWarp t c k n = { getWarp s c k n with suspended := b }
  priv   : ∀ c k n, tget? (getWg t c k).priv n =
    if c = o.core ∧ k = o.slot ∧ n = o.warp then none else tget? (getWg s c k).priv n
  memory : preNames s (wgOf s o).ctx o.core o.slot = false → t.mem = s.mem ∧ t.hostMem = s.hostMem ∧ t.peerMem = s.peerMem ∧
    (∀ c k, (getWg t c k).scratch = (getWg s c k).scratch) ∧ ∀ c, (getCore t c).floor = (getCore s c).floor

end Sys2Proof.Claim

/-- R52, R112–R114: BR, BRZ, BRNZ, CALL, CALLX and JX. -/
def Obligations.Branches : Prop :=
  ∀ (s : State) (o : Who), Issues s o →
    let pc := (streamOf s o).pc
    let w := warpOf s o
    (∀ m (off : BitVec 21), ∃ t, exec (.br m off) s = .next t ∧ Goes s t o m (pc + 4 * off.signExtend 56) w ∧ NoRegs s t o) ∧
    (∀ i m d off taken, condBranch i = some (m, d, off, taken) → scalarSrc d = true → Settled s o [d] →
      ∃ t, exec i s = .next t ∧ NoRegs s t o ∧
        Goes s t o m (if taken (rdS (reading s o [d]) o d) then pc + 4 * off.signExtend 56 else pc + 4) w) ∧
    (∀ m (off : BitVec 21), inConc s o = false → ∃ t, exec (.call m off) s = .next t ∧
      Goes s t o m (pc + 4 * off.signExtend 56) w ∧ ScalarResult s t o (.s 47) ((pc + 4).setWidth 64)) ∧
    (∀ i m a link, jumpWord i = some (m, a, link) → scalarSrc a = true → Settled s o [a] →
      (link = true → inConc s o = false) →
      let v := rdS (reading s o [a]) o a
      v.toNat < 2 ^ 56 → v.toNat % 4 = 0 →
      ∃ t, exec i s = .next t ∧ Goes s t o m (v.setWidth 56) w ∧
        if link then ScalarResult s t o (.s 47) ((pc + 4).setWidth 64) else NoRegs s t o)

/-- R91, R111, R117, R118, R124–R126, R164: NOP at lane and warp scope, WIN, SETS, GOV, RSEED, QSYNC outside deterministic
mode, CPOL. -/
def Obligations.WarpControls : Prop :=
  ∀ (s : State) (o : Who) (i : Instr) (p : ControlWord), controlWord i = some p → Issues s o → Settled s o p.srcs →
    p.ok s o (p.value s o) → (p.conc = true → inConc s o = false) →
    ∃ t, exec i s = .next t ∧ Computes s t o p.mark (p.warp (p.value s o) (warpOf s o)) ∧ SameFile s t o

/-- R116, R125: YIELD makes the warp the last of its partition's ring, and YIELD and QSYNC end a deterministic quantum,
which QSYNC waits out. -/
def Obligations.YieldAndQsync : Prop :=
  ∀ (s : State) (o : Who) (m : Bool), Issues s o →
    (∃ t, exec (.yield m) s = .next t ∧ Retires s t o m ((streamOf s o).pc + 4) ∧ SameFile s t o ∧ SameMemory s t ∧
      (∀ p, tget? (getCore t o.core).ring p =
        if p = o.warp % 4 then some (o.slot * 32 + o.warp + 1) else tget? (getCore s o.core).ring p) ∧
      (warpOf t o).qended = ((wgOf s o).det || (warpOf s o).qended)) ∧
    ((wgOf s o).det = true → ∃ t, exec (.qsync m) s = .next t ∧ (streamOf t o).wait = .qsync m ∧
      (streamOf t o).pc = (streamOf s o).pc ∧ (warpOf t o).qended = true ∧ (warpOf t o).rcnt = (warpOf s o).rcnt ∧
      SameFile s t o ∧ OnlyWarp s t o ∧ SameMemory s t)

/-- R119: LDL and LDLW bring the literal at their aligned address, which the instruction fetch path reads, to D. The
permission of a literal read is the model's reading (log entry 18). -/
def Obligations.LiteralLoads : Prop :=
  ∀ (s : State) (o : Who) (i : Instr) (m : Bool) (d : Reg) (off : BitVec 14) (n : Nat),
    literalWord i = some (m, d, off, n) → Issues s o → sdOk d = true → (isS d = true → inConc s o = false) →
    let a := (streamOf s o).pc + 4 * off.signExtend 56
    a.toNat % (4 * n) = 0 →
    ∀ s1 ws, fetchWords s o a n .read = (s1, .inl ws) →
    ∃ t, exec i s = .next t ∧ Computes s1 t o m (warpOf s1 o) ∧
      LateScalar s1 t o d (((ws.getD 1 0) ++ (ws.getD 0 0)).setWidth (if n = 2 then 64 else 32) |>.setWidth 64) 0

/-- R13, R14, R120, R121, R64, R264, R353, R359: SYSR gives a defined register's value, a privileged one only to a privileged
task: of every register that holds a value whole, the one written out in `registerValue`; of MCODE, BFLOOR, MCLOAD, the
debug windows and the other views, the model's own reading of their layouts. -/
def Obligations.SystemReads : Prop :=
  ∀ (s : State) (o : Who) (m : Bool) (d : Reg) (i : BitVec 7) (v : Word), Issues s o → sdOk d = true →
    (isS d = true → inConc s o = false) → (48 ≤ i.toNat → (wgOf s o).sys = true) →
    registerValue s o i.toNat = some v ∨ sysRead s o i.toNat = some v →
    ∃ t, exec (.sysr m d i) s = .next t ∧ Computes s t o m (warpOf s o) ∧ LateScalar s t o d v 0

/-- R121–R123, R359: SYSW to FFLAGS, GOVB and a privileged register of a privileged task whose write is accepted. A register that
holds its value whole reads as it was written, and no other register changes but those of the context that CTXSEL comes to name;
a command register does what its write through the host's window does. -/
def Obligations.SystemWrites : Prop :=
  ∀ (s : State) (o : Who) (m : Bool) (a : Reg), Issues s o → scalarSrc a = true → Settled s o [a] →
    let s1 := reading s o [a]
    let v := rdS s1 o a
    (v.toNat < 32 → ∃ t, exec (.sysw m a 32) s = .next t ∧
      Computes s t o m { warpOf s o with fflags := v.setWidth 5 } ∧ SameFile s t o) ∧
    (v.toNat < 2 ^ 16 → inConc s o = false → ∃ t, exec (.sysw m a 33) s = .next t ∧
      Computes s t o m { warpOf s o with budget := v.setWidth 16, gcount := 0 } ∧ SameFile s t o) ∧
    (∀ (i : BitVec 7) (s2 : State), 48 ≤ i.toNat → writable i.toNat = true → i.toNat ≠ 68 → (wgOf s o).sys = true →
      privWrite s1 (some o) i.toNat v = some s2 → (warpOf s2 o).step = none →
      exec (.sysw m a i) s = .next (retire s2 o m ((streamOf s2 o).pc + 4))) ∧
    ((wgOf s o).sys = true →
      (∀ i : BitVec 7, fitsRegister s1 i.toNat v → ∃ t, exec (.sysw m a i) s = .next t ∧
        Retires s t o m ((streamOf s o).pc + 4) ∧ SameFile s t o ∧ registerValue t o i.toNat = some v ∧
        (∀ k, k ≠ i.toNat → ¬ (i = 80 ∧ 81 ≤ k ∧ k ≤ 87) → registerValue t o k = registerValue s1 o k) ∧
        (100 ≤ i.toNat → (tgetD (0, 0) t.bps (i.toNat - 100)).2 = (s.dbgsel.extractLsb' 16 8).toNat) ∧
        (i ≠ 91 → t.mem = s.mem ∧ t.hostMem = s.hostMem ∧ t.peerMem = s.peerMem)) ∧
      (v.extractLsb' 48 12 = 0 → v.extractLsb' 0 6 = 0 → s.mcload.busy = false → s.dsplit.getLsbD 3 = false →
        ∃ t, exec (.sysw m a 74) s = .next t ∧ Retires s t o m ((streamOf s o).pc + 4) ∧ SameFile s t o ∧
          t.mcload = { busy := true, res := 0, addr := (v.extractLsb' 6 42).toNat * 64, ctx := (wgOf s o).ctx }) ∧
      (v.extractLsb' 56 7 = 0 → v.extractLsb' 0 6 = 0 → s.dsplit.getLsbD 2 = false →
        (∀ q ∈ s.xlateOps, q.ctx = s.ctxsel → q.req ≠ none) →
        ∃ t, exec (.sysw m a 88) s = .next t ∧ Retires s t o m ((streamOf s o).pc + 4) ∧ SameFile s t o ∧
          let addr := (v.extractLsb' 6 50).toNat * 64
          (getCtx t s.ctxsel).xlate.toNat = addr ∧
            t.xlateOps = s.xlateOps ++ [{ ctx := s.ctxsel, addr := addr, req := none }]) ∧
      ∀ (i : BitVec 7) (w : Instr) (s0 s2 : State), Commanded s1 i.toNat v w s0 → exec w s0 = .next s2 →
        (warpOf s2 o).step = none → exec (.sysw m a i) s = .next (retire s2 o m ((streamOf s2 o).pc + 4)))

/-- R127: ICINV drops every word of the lines that overlap its range from both dies' instruction caches once the warp's
stores are performed, and waits until then; ICINV_COMPLETE ends the wait. -/
def Obligations.InstructionCacheInvalidation : Prop :=
  ∀ (s : State) (o : Who) (m : Bool) (a b : Reg), Issues s o → scalarSrc a = true → scalarSrc b = true →
    Settled s o [a, b] →
    let s1 := reading s o [a, b]
    let lo := (rdS s1 o a).toNat
    let n := (rdS s1 o b).toNat
    lo + n ≤ 2 ^ 56 →
    (n = 0 → ∃ t, exec (.icinv m a b) s = .next t ∧ Computes s t o m (warpOf s o) ∧ SameFile s t o) ∧
    (n ≠ 0 → storesDone s o = true → ∃ t, exec (.icinv m a b) s = .next t ∧
      Computes s { t with icache := s.icache } o m (warpOf s o) ∧ SameFile s t o ∧
      ∀ e ∈ t.icache, e ∈ s.icache ∧
        ¬ (e.ctx = (wgOf s o).ctx ∧ e.va / 128 * 128 < lo + n ∧ lo < e.va / 128 * 128 + 128)) ∧
    (n ≠ 0 → storesDone s o = false → ∃ t, exec (.icinv m a b) s = .next t ∧ NoRegs s t o ∧ SameMemory s t ∧
      OnlyWarp s t o ∧ (streamOf t o).pc = (streamOf s o).pc ∧ (streamOf t o).wait = .icinv (rdS s1 o a) (rdS s1 o b) m) ∧
    (∀ lo n : Word, storesDone s o = true → (streamOf s o).wait = .icinv lo n m →
      ∃ t, exec (.icinvComplete o) s = .next t ∧ Computes s { t with icache := s.icache } o m (warpOf s o) ∧
        ∀ e ∈ t.icache, e ∈ s.icache ∧
          ¬ (e.ctx = (wgOf s o).ctx ∧ e.va / 128 * 128 < lo.toNat + n.toNat ∧ lo.toNat < e.va / 128 * 128 + 128))

/-- R353, R354: what taking a trap does, in a task that has a handler and outside it. That every outstanding result of the
warp returns is the model's reading (log entry 10). -/
def Obligations.TrapEntry : Prop :=
  ∀ (s : State) (o : Who) (h : Addr) (tr : Trap) (word : BitVec 32) (tpc : Addr) (latch : Option Nat),
    (∀ k, o.split = some k → (findSplit (warpOf s o) k).isSome = true) → HasHandler s o h →
    EntersHandler s (takeTrap s o tr word tpc latch) o
      { tcause := tcauseOf tr latch.isSome, tpc := tpc.setWidth 64, taddr := tr.addr,
        tlanes := tr.lanes.getD ((streamOf s o).emask.setWidth 64), tinfo := tr.info.getD (word.setWidth 64) } h latch

/-- R363, R364: TRAP takes cause 0x1F and BKPT without a debugger cause 0x20, with TADDR n and TPC their own address; BKPT
with a debugger attached halts the warp with STOP 3, and executes as nothing where a resume goes past it. -/
def Obligations.TrapAndBreakpoint : Prop :=
  ∀ (s : State) (o : Who) (m : Bool) (i : BitVec 7), Issues s o →
    (∀ h, HasHandler s o h → ∃ t, exec (.trap m i) s = .next t ∧
      EntersHandler s t o (ownTrap s o 0x1F (i.setWidth 64) (encode (.trap m i))) h none) ∧
    (∀ h, HasHandler s o h → (getCore s o.core).attach = false → (streamOf s o).skipBp = false →
      ∃ t, exec (.bkpt m i) s = .next t ∧
      EntersHandler s t o (ownTrap s o 0x20 (i.setWidth 64) (encode (.bkpt m i))) h none) ∧
    ((getCore s o.core).attach = true → (streamOf s o).skipBp = false →
      exec (.bkpt m i) s = .next (updWarpOf s o fun w =>
        putStream { w with stop := 3 } o.split fun st => { st with skipBp := true })) ∧
    ((streamOf s o).skipBp = true →
      ∃ t, exec (.bkpt m i) s = .next t ∧ Computes s t o m (warpOf s o) ∧ SameFile s t o)

/-- R365, R196: ERET #k gives the frame's mask and depth back and goes on at the return PC, or with k = 1 after it. ERET in a
split is the model's reading (log entry 10). -/
def Obligations.ReturnFromTrap : Prop :=
  ∀ (s : State) (o : Who) (m : Bool) (i : BitVec 7) (f : Frame), Issues s o → i.toNat ≤ 1 →
    (streamOf s o).frame = some f → f.latch = none →
    ∃ t, exec (.eret m i) s = .next t ∧ Retires s t o m (if i = 1 then f.pc + 4 else f.pc) ∧
      (streamOf t o).emask = f.mask ∧ (streamOf t o).frame = none ∧ (streamOf t o).out = [] ∧
      (warpOf t o).stack = (warpOf s o).stack.drop ((warpOf s o).stack.length - f.depth) ∧
      (warpOf t o).gcount = 0 ∧ SameFile (settleAll s o) t o ∧ (warpOf t o).trap = (warpOf s o).trap ∧
      OnlyWarp s t o ∧ SameMemory s t

/-- R177, R183: CKEY snapshots the key of each active lane, and RDFL brings the value of the lowest active lane to a
scalar. -/
def Obligations.KeysAndFirstLane : Prop :=
  ∀ (s : State) (o : Who) (m : Bool) (d a : Reg) (i : BitVec 7), Issues s o → anyV s o a = true → Settled s o [a] →
    (i.toNat ≤ 15 → inConc s o = false → ∃ t k, exec (.ckey m a i) s = .next t ∧
      Computes s t o m { warpOf s o with pending := some k } ∧ SameFile s t o ∧ k.lanes = activeMask s o ∧
      k.mode = i.setWidth 4 ∧
      ∀ l, (activeMask s o).getLsbD l = true →
        tget? k.keys l = some (((rd (reading s o [a]) o a l).setWidth (64 / 2 ^ (i.toNat % 4))).setWidth 64)) ∧
    (scalarDst d = true → (isS d = true → inConc s o = false) → ∃ t, exec (.rdfl m d a) s = .next t ∧
      Computes s t o m (warpOf s o) ∧
      LateScalar s t o d (rd (reading s o [a]) o a (lowestLane (activeMask s o))) 0)

namespace Sys2Proof.Claim

/-- The first classes of a set of lanes, in class order, and the lanes left over. -/
inductive Classes (keys : Table Word) (mode : BitVec 4) : Mask → List (Mask × Word) → Mask → Prop where
  | nil (p : Mask) : Classes keys mode p [] p
  | cons (p c q : Mask) (key : Word) (cs : List (Mask × Word)) : FirstClass keys mode p c key →
      Classes keys mode (p &&& ~~~c) cs q → Classes keys mode p ((c, key) :: cs) q

/-- A split that has started a class (R189, R190): its mask, its copies of Sd and of K0–K7, which are those of `k0` but
for Sd, and its PC. -/
structure Started (sp : Split) (e : ClassEntry) (k0 : Nat → Word) (c : Mask) (key : Word) : Prop where
  mask : sp.st.emask = c
  sd   : sp.sd = key
  pc   : sp.st.pc = e.body
  k    : ∀ j : Fin 8, tgetD 0 sp.st.k j.val = if e.sd = .k j then key else k0 j.val
  wait : sp.st.wait = .none ∧ sp.st.frame = none

/-- The number of an outstanding result of an S or K register is no other outstanding result's in the warp (R98, R153). -/
abbrev ScalarsNumbered (w : Warp) : Prop :=
  (allOuts w).Pairwise fun x y => isScalarOut x = true ∨ isScalarOut y = true → x.num ≠ y.num

/-- The final K and Sd copies of the split's class are kept, if it is last in class order among those that have ended (R132,
R190): its copies as they stand once its outstanding results have returned. -/
structure Kept (s : State) (o : Who) (e : ClassEntry) (sp : Split) (cs cs2 : ConcState) : Prop where
  ord : cs2.lastOrd = max cs.lastOrd sp.ord
  k   : ∀ j : Fin 8, tgetD 0 cs2.lastK j.val =
    if cs.lastOrd ≤ sp.ord then held (settle s o) o (.k j) 0 else tgetD 0 cs.lastK j.val
  sd  : isS e.sd = true → cs2.lastSd = if cs.lastOrd ≤ sp.ord then held (settle s o) o e.sd 0 else cs.lastSd

/-- The words that end a split's class (R187, R190): CNEXT at the level's cn, and CBRK #1. -/
def endsClass (s : State) (o : Who) (e : ClassEntry) (m : Bool) (i : Instr) : Prop :=
  (i = .cnext m ∧ (streamOf s o).pc = e.cn) ∨ i = .cbrk m 1

end Sys2Proof.Claim

/-- R132, R180, R181, R187, R189, R190, R194: CLASS of a sequential loop, or of a concurrent one in deterministic mode, pushes a
level and begins its first class; CLASS of a concurrent loop starts up to four splits on its first classes. CNEXT begins the
next class of the level while lanes are pending, which is progress, and then pops it, and the levels around it while no
lane is left. The end of a split's class starts the next class in the split, or ends it, and with the last one the
loop: then K0–K7 and Sd are the final copies of the class last in class order. -/
def Obligations.ClassLoops : Prop :=
  (∀ (s : State) (o : Who) (m : Bool) (d : Reg) (off : BitVec 14) (k : KeySnap), Issues s o → scalarDst d = true →
    1 ≤ off.toNat → off.toNat ≤ 8191 → inConc s o = false → (warpOf s o).pending = some k →
    (warpOf s o).stack.length < 8 → (streamOf s o).emask ≠ 0 →
    let e : ClassEntry :=
      { m := (streamOf s o).emask, p := (streamOf s o).emask, a := 0, keys := k.keys, body := (streamOf s o).pc + 4,
        cn := (streamOf s o).pc + 4 * off.signExtend 56, sd := d, mode := k.mode, c := 0, serial := none }
    let k0 := (List.range 8).map fun n => (n, rdS s o (.k (Fin.ofNat 8 n)))
    (k.mode.getLsbD 3 = false → ∃ t, exec (.klass m d off) s = .next t ∧ Begins s t o m e (warpOf s o).stack none) ∧
    (k.mode.getLsbD 3 = true → (wgOf s o).det = true → o.split = none → (streamOf s o).out = [] →
      ∃ t, exec (.klass m d off) s = .next t ∧ Begins s t o m { e with serial := some k0 } (warpOf s o).stack none) ∧
    (k.mode.getLsbD 3 = true → (wgOf s o).det = false → o.split = none → (warpOf s o).splits = [] →
      ∃ t cs left, exec (.klass m d off) s = .next t ∧ Classes k.keys k.mode e.m cs left ∧ cs ≠ [] ∧ cs.length ≤ 4 ∧
        (cs.length < 4 → left = 0) ∧ (warpOf t o).stack = { e with p := left } :: (warpOf s o).stack ∧
        (∀ (n : Nat) (c : Mask) (key : Word), cs[n]? = some (c, key) →
          ∃ sp, findSplit (warpOf t o) n = some sp ∧ Started sp e (fun j => tgetD 0 k0 j) c key ∧ sp.ord = n) ∧
        (∃ st, (warpOf t o).conc = some st ∧ st.k0 = k0 ∧ st.started = cs.length ∧ st.lastOrd = 0) ∧
        (∀ n, cs.length ≤ n → findSplit (warpOf t o) n = none) ∧ (warpOf t o).rcnt = (warpOf s o).rcnt + 1 ∧
        (warpOf t o).pending = none ∧ (warpOf t o).v = (warpOf s o).v ∧ (warpOf t o).s = (warpOf s o).s ∧
        OnlyWarp s t o ∧ SameMemory s t)) ∧
  (∀ (s : State) (o : Who) (m : Bool) (top : ClassEntry) (around gone : List ClassEntry) (e : ClassEntry)
    (rest : List ClassEntry), Issues s o → InNest s o (top :: around) → (streamOf s o).pc = top.cn →
    Unwinds (top :: around) gone e rest → ∃ t, exec (.cnext m) s = .next t ∧ Continues s t o m e rest none) ∧
  ∀ (s : State) (o : Who) (i : Instr) (m : Bool) (n : Nat) (e : ClassEntry) (rest : List ClassEntry) (cs : ConcState)
    (sp0 : Split), Issues s o → o.split = some n → findSplit (warpOf s o) n = some sp0 → (streamOf s o).frame = none → (warpOf s o).main.frame = none →
    (warpOf s o).stack = e :: rest → (warpOf s o).conc = some cs → endsClass s o e m i → ScalarsNumbered (warpOf s o) →
    (e.p ≠ 0 → ∃ t c key sp, exec i s = .next t ∧ FirstClass e.keys e.mode e.p c key ∧ findSplit (warpOf t o) n = some sp ∧
      Started sp e (fun j => tgetD 0 cs.k0 j) c key ∧ Retires s t o m e.body ∧ (warpOf t o).gcount = 0 ∧
      (∃ cs2, (warpOf t o).conc = some cs2 ∧ Kept s o e sp0 cs cs2 ∧ sp.ord = cs.started ∧ cs2.started = cs.started + 1) ∧
      (warpOf t o).stack = { e with p := e.p &&& ~~~c } :: rest ∧
      (∀ k, k ≠ n → findSplit (warpOf t o) k = findSplit (warpOf s o) k) ∧ OnlyWarp s t o ∧ SameMemory s t) ∧
    (e.p = 0 → (∃ k, k ≠ n ∧ (findSplit (warpOf s o) k).isSome = true) → ∃ t, exec i s = .next t ∧
      findSplit (warpOf t o) n = none ∧ (warpOf t o).stack = e :: rest ∧
      (∃ cs2, (warpOf t o).conc = some cs2 ∧ Kept s o e sp0 cs cs2) ∧
      (∀ k, k ≠ n → findSplit (warpOf t o) k = findSplit (warpOf s o) k) ∧ OnlyWarp s t o ∧ SameMemory s t) ∧
    (e.p = 0 → (∀ q ∈ (warpOf s o).splits, q.num = n) → e.m &&& ~~~e.a ≠ 0 → ∃ t, exec i s = .next t ∧
      (warpOf t o).splits = [] ∧ (warpOf t o).stack = rest ∧ (warpOf t o).main.emask = e.m &&& ~~~e.a ∧
      (∃ cs2, Kept s o e sp0 cs cs2 ∧ (∀ j : Fin 8, rdS t { o with split := none } (.k j) = tgetD 0 cs2.lastK j.val) ∧
        (isS e.sd = true → rdS t { o with split := none } e.sd = cs2.lastSd)) ∧
      (warpOf t o).main.pc = e.cn + 4 ∧ OnlyWarp s t o ∧ SameMemory s t)

/-- R115, R182, R186, R187: CBRK #n adds the lanes of the current class to the departed set of the innermost n − 1 loops, and the
level whose class is empty moves on: levels with no lane pending and none left pop one after another, up to one that begins
another class or pops to lanes that remain. EXIT at warp scope, and at lane scope where the active lanes are all the live ones,
as outside a class body, ends every lane of the warp, and the last warp's exit ends the workgroup; EXIT at lane scope in a
class body removes the class's lanes from every level and the pending key, and the levels move on in the same way. -/
def Obligations.BreaksAndExits : Prop :=
  (∀ (s : State) (o : Who) (m : Bool) (i : BitVec 7) (levels gone : List ClassEntry) (e : ClassEntry) (rest : List ClassEntry),
    Issues s o → InNest s o levels → 1 ≤ i.toNat → i.toNat ≤ 8 → i.toNat ≤ levels.length → (i ≠ 1 → inConc s o = false) →
    let left := fun e : ClassEntry => { e with a := e.a ||| (streamOf s o).emask }
    Unwinds ((levels.take (i.toNat - 1)).map left ++ levels.drop (i.toNat - 1)) gone e rest →
    ∃ t, exec (.cbrk m i) s = .next t ∧ Continues s t o m e rest none) ∧
  ∀ (s : State) (o : Who) (m : Bool), Issues s o →
    let x := (streamOf s o).emask
    (∃ t, exec (.exit m .warp) s = .next t ∧ Exits s t o) ∧
    ((warpOf s o).live &&& ~~~x = 0 → ∃ t, exec (.exit m .lane) s = .next t ∧ Exits s t o) ∧
    (∀ levels gone e rest, InNest s o levels → (warpOf s o).live &&& ~~~x ≠ 0 →
      Unwinds (levels.map fun e =>
        { e with m := e.m &&& ~~~x, p := e.p &&& ~~~x, a := e.a &&& ~~~x, c := e.c &&& ~~~x }) gone e rest →
      ∃ t, exec (.exit m .lane) s = .next t ∧ (warpOf t o).live = (warpOf s o).live &&& ~~~x ∧ (warpOf t o).gcount = 0 ∧
        Continues s t o m e rest ((warpOf s o).pending.map fun k => { k with lanes := k.lanes &&& ~~~x }))

namespace Sys2Proof.Claim

/-! ### The core path -/

/-- Bytes of a width suffix. -/
def bytesOf (t : Width) : Nat := bitsOf t / 8

/-- The little-endian value of bytes (R1). -/
def leValue : List Byte → Nat
  | [] => 0
  | b :: bs => b.toNat + 256 * leValue bs

/-- Scratchpad bytes [off, off + n) of the workgroup may be accessed now: in the scratchpad, aligned, sound (R408), and not
held by the scoreboard (R212). -/
structure ScratchFree (s : State) (o : Who) (off n : Nat) (store : Bool) : Prop where
  aligned : off % n = 0
  inside  : off + n ≤ (wgOf s o).hdr.scratch
  sound   : badCoreSector s o.core (some o.slot) (wgOf s o).scratch off n = none
  clear   : sbBlocks s o.core o.slot off (off + n) store = false

/-- A private offset of n bytes is aligned and inside the lane's private memory (R242, R243). -/
def PrivateFree (s : State) (o : Who) (off n : Nat) : Prop := off % n = 0 ∧ off + n ≤ (wgOf s o).hdr.priv

/-- The virtual range [a, a + n) is one that a load, store or atomic may reach at once: aligned, and translated to the
place `l` with every right it needs, in a state that holds the translation. -/
def Reaches (s : State) (o : Who) (k : AccKind) (n : Nat) (a : Word) (l : Loc) : Prop :=
  access s o k n a = (s, .ok l) ∧
  match l with
  | .scratch off => sbBlocks s o.core o.slot off (off + n) (k != .load) = false
  | .phys _ _ => True

/-- Every byte of device memory outside the ranges [f l, f l + n) of the acting lanes reads as before. -/
def OutsideDevice (s t : State) (acts : Nat → Prop) (f : Nat → Nat) (n : Nat) : Prop :=
  ∀ x, (∀ l, acts l → ¬ (f l ≤ x ∧ x < f l + n)) → t.mem.rd x = s.mem.rd x

/-- Byte by byte, as `read` gives them, the range of the last of the acting lanes that covers a byte gives it its data. -/
def Stored (read : Nat → Byte) (acts : Nat → Prop) (f : Nat → Nat) (n : Nat) (data : Nat → Word) : Prop :=
  ∀ l i, acts l → i < n → (∀ k, acts k → l < k → ¬ (f k ≤ f l + i ∧ f l + i < f k + n)) →
    read (f l + i) = (data l).extractLsb' (8 * i) 8

/-- Byte x is in none of the ranges [f l, f l + n) of the acting lanes. -/
def Outside (acts : Nat → Prop) (f : Nat → Nat) (n x : Nat) : Prop := ∀ l, acts l → ¬ (f l ≤ x ∧ x < f l + n)

/-- A byte of device memory as a core that writes it back holds it: in its own line of it, else in memory (R207, R242). -/
def ownByte (s : State) (core x : Nat) : Byte :=
  match l1Find (getCore s core) 0 x with
  | some l => (l.data.getD (s.mem.rdN (x / 128 * 128) 128)).getD (x % 128) 0
  | none => s.mem.rd x

/-- The first-level lines of a core are sound (R204, R205, R207): one for an address, whole, filled from sectors that passed their
checks, and equal to memory where no store has written them; and its dirty lines are of device memory by its own addresses. -/
structure LinesSound (s : State) (core : Nat) : Prop where
  unique : (getCore s core).l1.Pairwise fun a b => ¬ (a.line = b.line ∧ a.ctx = b.ctx)
  whole  : ∀ e ∈ (getCore s core).l1, ∀ d, e.data = some d → d.length = 128
  clean  : ∀ e ∈ (getCore s core).l1, ∀ d i, e.data = some d → i < 128 → e.dirty.getLsbD i = false →
    128 * e.line + 128 ≤ Config.deviceEnd → d.getD i 0 = s.mem.rd (128 * e.line + i)
  intact : ∀ e ∈ (getCore s core).l1, e.bad = 0
  device : ∀ e ∈ (getCore s core).l1, e.dirty = 0 ∨ (e.ctx = 0 ∧ 128 * e.line + 128 ≤ Config.deviceEnd)

/-- What loads on the core path leave (R207): every byte of device memory as the core has it, where a line that they evict gives its
stored bytes to memory; memory itself where no line holds stored bytes; and every scratchpad and private region. -/
structure LoadKeeps (s t : State) (core : Nat) : Prop where
  own    : LinesSound s core → s.checks = [] → t.hostMem = s.hostMem ∧ t.peerMem = s.peerMem ∧
    ∀ x, x < Config.deviceEnd → ownByte t core x = ownByte s core x
  clean  : (∀ e ∈ (getCore s core).l1, e.dirty = 0) →
    t.mem = s.mem ∧ t.hostMem = s.hostMem ∧ t.peerMem = s.peerMem ∧ t.pend = s.pend
  stores : ∀ c k, (getWg t c k).scratch = (getWg s c k).scratch ∧ (getWg t c k).priv = (getWg s c k).priv

/-- The integer reducing atomics, which deterministic mode admits in device memory (R267). -/
def reducing : Instr → Bool
  | .atadd64 _ _ d _ _ => d == .zr | .atadd32 _ _ d _ _ => d == .zr
  | .atmin64 _ _ d _ _ => d == .zr | .atmin32 _ _ d _ _ => d == .zr
  | .atmax64 _ _ d _ _ => d == .zr | .atmax32 _ _ d _ _ => d == .zr
  | .atmaxu64 _ _ d _ _ => d == .zr | .atmaxu32 _ _ d _ _ => d == .zr
  | .atand64 _ _ d _ _ => d == .zr | .ator64 _ _ d _ _ => d == .zr | .atxor64 _ _ d _ _ => d == .zr
  | _ => false

/-- Words of private memory (R243): load or store, mark, registers and bytes. -/
def privateWord : Instr → Option (Bool × Bool × Reg × Reg × Reg × Nat)
  | .ldp64 m d a b => some (true, m, d, a, b, 8)
  | .ldp32 m d a b => some (true, m, d, a, b, 4)
  | .stp64 m d a b => some (false, m, d, a, b, 8)
  | .stp32 m d a b => some (false, m, d, a, b, 4)
  | _ => none

/-- An atomic word (R261): its operation, its bytes, whether it reads the register after B, and the new value from the old one, B, and
the register after B; none where nothing is written. -/
structure AtomOp where
  op   : AtOp
  mark : Bool
  sc   : Scope
  d    : Reg
  a    : Reg
  b    : Reg
  pair : Bool
  w    : Nat
  f    : BitVec w → BitVec w → Word → Word → Option (BitVec w)

/-- An atomic whose new value is a function of the old one and B's. -/
def atom (op : AtOp) (m : Bool) (sc : Scope) (d a b : Reg) (w : Nat) (g : BitVec w → BitVec w → BitVec w) : AtomOp :=
  { op := op, mark := m, sc := sc, d := d, a := a, b := b, pair := false, w := w, f := fun x y _ _ => some (g x y) }

/-- The sixteen atomics (R261). -/
def atomicWords : Instr → Option AtomOp
  | .atadd64 m sc d a b => some (atom .add m sc d a b 64 fun x y => x + y)
  | .atadd32 m sc d a b => some (atom .add m sc d a b 32 fun x y => x + y)
  | .atmin64 m sc d a b => some (atom .min m sc d a b 64 fun x y => if x.sle y then x else y)
  | .atmin32 m sc d a b => some (atom .min m sc d a b 32 fun x y => if x.sle y then x else y)
  | .atmax64 m sc d a b => some (atom .max m sc d a b 64 fun x y => if y.sle x then x else y)
  | .atmax32 m sc d a b => some (atom .max m sc d a b 32 fun x y => if y.sle x then x else y)
  | .atmaxu64 m sc d a b => some (atom .maxu m sc d a b 64 fun x y => if y.ule x then x else y)
  | .atmaxu32 m sc d a b => some (atom .maxu m sc d a b 32 fun x y => if y.ule x then x else y)
  | .atand64 m sc d a b => some (atom .and m sc d a b 64 fun x y => x &&& y)
  | .ator64 m sc d a b => some (atom .or m sc d a b 64 fun x y => x ||| y)
  | .atxor64 m sc d a b => some (atom .xor m sc d a b 64 fun x y => x ^^^ y)
  | .atxch64 m sc d a b => some (atom .xch m sc d a b 64 fun _ y => y)
  | .atxch32 m sc d a b => some (atom .xch m sc d a b 32 fun _ y => y)
  | .atcas64 m sc d a b =>
    some { atom .cas m sc d a b 64 (fun x _ => x) with pair := true, w := 64, f := fun x y _ n => if x = y then some n else none }
  | .atcas32 m sc d a b =>
    some { atom .cas m sc d a b 32 (fun x _ => x) with
            w := 32, f := fun x y b _ => if x = y then some (b.extractLsb' 32 32) else none }
  | .atfaddF32 m sc d a b => some (atom .fadd m sc d a b 32 fun x y => BitVec.ofNat 32 (fpAdd fmtF32 x.toNat y.toNat).1)
  | _ => none

/-- The lanes of a word in the order in which they act. -/
def laneOrder (s : State) (o : Who) (sc : Scope) : List Nat := if sc = .lane then activeLanes s o else [0]

/-- The value at an address after the atomics of some lanes, one after another, from the value before. -/
def folded (p : AtomOp) (b b1 : Nat → Word) (at_ : Nat → Nat) (x : Nat) (ls : List Nat) (v : BitVec p.w) : BitVec p.w :=
  ls.foldl (fun v l => if at_ l = x then (p.f v ((b l).setWidth p.w) (b l) (b1 l)).getD v else v) v

/-- The write under way is a write-back of a line that the workgroup's task stored to, whoever had it written back. -/
abbrev OfTask (g : Wg) (p : Pend) : Prop := p.wb = true ∧ p.pa / 128 ∈ g.touched

/-- Every access that a FENCE at memory scope m covers for a stream is performed there (R257): its outstanding loads have
returned, and of its writes under way, its workgroup's write-backs, and the write-backs of lines that its task stored to, those
that are left are performed at the device's memory scope and it asks no more. A warp's writes are those of its splits too. -/
def Performed (s : State) (m : Nat) (q : Who) : Prop :=
  (streamOf s q).out = [] ∧ ∀ p ∈ s.pend,
    OfTask (wgOf s q) p ∨ (p.who.core = q.core ∧ p.who.slot = q.slot ∧
      (p.wb = true ∨ (p.who.warp = q.warp ∧ (q.split = none ∨ p.who.split = q.split)))) → m ≠ 2 ∧ p.atDev = true

/-- The path of an engine command, as XFENCE numbers paths (R251): copy, chain, matrix, collective. -/
def enginePath : EngKind → Nat
  | .cpy => 1 | .cpyg => 1 | .cpyx => 1 | .chain => 2 | .mload => 3 | .mma => 3 | .mgrad => 3 | .mstore => 3 | .coll => 4

/-- What an XFENCE over some paths waits for is done (R258): the commands `cmds` accepted before it, and with bit 0 every
access of the workgroup's core path and every write-back of a line that its task stored to. -/
def PathsClear (s : State) (o : Who) (paths : Nat) (cmds : List Nat) : Prop :=
  (∀ p ∈ (getCore s o.core).ops, p.id ∉ cmds) ∧
  (paths.testBit 0 = true → (∀ p ∈ s.pend, ¬ (p.who.core = o.core ∧ p.who.slot = o.slot) ∧ ¬ OfTask (wgOf s o) p) ∧
    ∀ e ∈ (wgOf s o).warps, e.2.main.out = [] ∧ ∀ p ∈ e.2.splits, p.st.out = [])

/-- Two writes under way have a byte in common (R252). -/
def Overlapping (p q : Pend) : Prop :=
  lineCtx p.ctx p.pa = lineCtx q.ctx q.pa ∧ p.pa < q.pa + q.old.length ∧ q.pa < p.pa + p.old.length

/-- A value that a register holds after results returned: of a lane register, TAG, an S register (or the split's copy of
Sd) or a K register. -/
def returnedTo (t : State) (o : Who) (d : Dst) (l : Nat) : Word :=
  match d with
  | .lane x => tgetD 0 (warpOf t o).v (x * 32 + l)
  | .tag => (tagOf (warpOf t o) l).setWidth 64
  | .s k => (sdCopy (warpOf t o) o.split k).getD (tgetD 0 (warpOf t o).s k)
  | .k k => tgetD 0 (streamOf t o).k k
  | .none => 0

/-- The words that keep the first-level cache (R246): whether they drop lines, mark, scope and registers. -/
def cacheLines : Instr → Option (Bool × Bool × Scope × Reg × Reg)
  | .cflush m sc a b => some (false, m, sc, a, b)
  | .cinv m sc a b => some (true, m, sc, a, b)
  | _ => none

end Sys2Proof.Claim

/-- R201, R218, R265, R98: LDS reads n bytes of the scratchpad at A + B for each lane, or once for the warp, set or block;
in deterministic mode a warp sees its own buffered stores. -/
def Obligations.ScratchpadLoads : Prop :=
  ∀ (s : State) (o : Who) (m : Bool) (sc : Scope) (t : Width) (d a b : Reg), Runs s o sc → Settled s o [a, b] →
    dstOk s o sc d = true → srcOk s o sc a = true → srcOk s o sc b = true →
    (sc = .warp → isS d = true → inConc s o = false) →
    let s1 := reading s o [a, b]
    let n := bytesOf t
    let off := fun l => (sumOf s1 o sc a b l).toNat
    (∀ l, actsFor s o sc l → ScratchFree s o (off l) n false) →
    ∃ s2, exec (.lds m sc t d a b) s = .next (after s s2 o sc m) ∧ SameMemory s s2 ∧
      OnlyWarps s s2 (targets s o sc) ∧
      LateResult s s2 o sc d fun l => BitVec.ofNat 64 (leValue ((wgOf (ownView s1 o) o).scratch.rdN (off l) n))

/-- R218, R265, R266: STS stores the low n bytes of D at A + B for each lane in turn, or once, outside deterministic mode; in
deterministic mode its lanes' bytes join the warp's commit buffer and memory stays as it was, and at set and block scope the
word joins that of the lowest member and waits there for the commit, which checks it. -/
def Obligations.ScratchpadStores : Prop :=
  ∀ (s : State) (o : Who) (m : Bool) (sc : Scope) (t : Width) (d a b : Reg), Runs s o sc → Settled s o [d, a, b] →
    dataOk s o sc d = true → srcOk s o sc a = true → srcOk s o sc b = true →
    let s1 := reading s o [d, a, b]
    let n := bytesOf t
    let off := fun l => (sumOf s1 o sc a b l).toNat
    ((wgOf s o).det = true → sc = .set ∨ sc = .block →
      ∃ u e, exec (.sts m sc t d a b) s = .next (waiting s u o sc (encode (.sts m sc t d a b)) .commit) ∧ NoRegs s u o ∧
        SameMemory s u ∧ OnlyWarp s u o ∧ (warpOf u o).buf = (warpOf s o).buf ++ [e] ∧ e.who = o ∧
        e.latch = latchOf s o sc ∧
        e.effect = .lateStore true (warpOf s o).cpol n (sumOf s1 o sc a b 0) (valueOf s1 o sc d 0)) ∧
    ((∀ l, actsFor s o sc l → ScratchFree s o (off l) n true) →
    ((wgOf s o).det = false → ∃ s2, exec (.sts m sc t d a b) s = .next (after s s2 o sc m) ∧ NoRegs s s2 o ∧
      (∀ x, (∀ l, actsFor s o sc l → ¬ (off l ≤ x ∧ x < off l + n)) →
        (wgOf s2 o).scratch.rd x = (wgOf s o).scratch.rd x) ∧
      Stored (wgOf s2 o).scratch.rd (actsFor s o sc) off n (valueOf s1 o sc d) ∧
      { s2 with cores := s.cores, free := s.free, coreChecks := s.coreChecks } = s ∧
      (∀ c k, c ≠ o.core ∨ k ≠ o.slot → getWg s2 c k = getWg s c k) ∧ (wgOf s2 o).priv = (wgOf s o).priv) ∧
    ((wgOf s o).det = true → sc = .lane ∨ sc = .warp →
      ∃ u e, exec (.sts m sc t d a b) s = .next u ∧ NoRegs s u o ∧ SameMemory s u ∧ OnlyWarp s u o ∧
        Retires s u o m ((streamOf s o).pc + 4) ∧ (warpOf u o).buf = (warpOf s o).buf ++ [e] ∧ e.who = o ∧
        e.effect = .store (warpOf s o).cpol
          ((laneOrder s o sc).map fun l => (.scratch (off l), n, valueOf s1 o sc d l))))

/-- R204, R207, R241–R243: the private loads and stores act on each lane's own private bytes, in its warp's region of device
memory, through the core's first-level cache; no other lane's words reach them. -/
def Obligations.PrivateMemory : Prop :=
  ∀ (s : State) (o : Who) (i : Instr) (ld m : Bool) (d a b : Reg) (n : Nat), privateWord i = some (ld, m, d, a, b, n) →
    Issues s o → laneSrc s o a = true → laneSrc s o b = true →
    (∀ l, (activeMask s o).getLsbD l = true →
      PrivateFree s o (sumOf (reading s o (if ld then [a, b] else [d, a, b])) o .lane a b l).toNat n) →
    let s1 := reading s o (if ld then [a, b] else [d, a, b])
    let base := tgetD 0 (wgOf s o).priv o.warp
    let acts := fun l => (activeMask s o).getLsbD l = true
    let at_ := fun l =>
      let off := (sumOf s1 o .lane a b l).toNat
      base + (off / 8 * 32 + l) * 8 + off % 8
    base % 256 = 0 → base + 32 * (wgOf s o).hdr.priv ≤ Config.deviceEnd → LinesSound s o.core → s.checks = [] →
    (ld = true → laneDst s o d = true → Settled s o [a, b] → ∃ s2, exec i s = .next (after s s2 o .lane m) ∧
      LateLanes s s2 o d (fun l => BitVec.ofNat 64 (leValue ((List.range n).map fun k => ownByte s o.core (at_ l + k)))) 0 ∧
      (∀ x, x < Config.deviceEnd → ownByte s2 o.core x = ownByte s o.core x) ∧
      ∀ c k, (getWg s2 c k).scratch = (getWg s c k).scratch ∧ (getWg s2 c k).priv = (getWg s c k).priv) ∧
    (ld = false → laneSrc s o d = true → Settled s o [d, a, b] → ∃ s2, exec i s = .next (after s s2 o .lane m) ∧
      NoRegs s s2 o ∧ (warpOf s2 o).gcount = 0 ∧ Stored (ownByte s2 o.core) acts at_ n (rd s1 o d) ∧
      (∀ x, x < Config.deviceEnd → Outside acts at_ n x → ownByte s2 o.core x = ownByte s o.core x) ∧
      ∀ c k, (getWg s2 c k).scratch = (getWg s c k).scratch ∧ (getWg s2 c k).priv = (getWg s c k).priv)

/-- R207, R227, R244, R254, R255: LD from a coherent or software-managed page of device memory, or from the scratchpad window,
whose translations are at hand; on a coherent page it gives the bytes that memory holds, also under a live lease, where R232 allows
older ones too (the model's choice, log entry 61), and on a software-managed one, outside deterministic mode, those of the core's
own line, where it has one, stored bytes among them. The load changes no byte as the core has it: where it evicts a line whose bytes
a store has written, these go to memory. What an unspecified read gives is a free value (log entry 5). -/
def Obligations.VirtualLoads : Prop :=
  ∀ (s : State) (o : Who) (m : Bool) (sc : Scope) (t : Width) (d a b : Reg) (loc : Nat → Loc), Runs s o sc →
    Settled s o [a, b] → dstOk s o sc d = true → srcOk s o sc a = true → srcOk s o sc b = true →
    (sc = .warp → isS d = true → inConc s o = false) →
    let s1 := reading s o [a, b]
    let n := bytesOf t
    (∀ l, actsFor s o sc l → Reaches s1 o .load n (sumOf s1 o sc a b l) (loc l)) →
    ∃ s2 val, exec (.ld m sc t d a b) s = .next (after s s2 o sc m) ∧ LateResult s s2 o sc d val ∧
      LoadKeeps s s2 o.core ∧
      ∀ l, actsFor s o sc l →
        (∀ off, loc l = .scratch off →
          val l = BitVec.ofNat 64 (leValue ((wgOf (ownView s1 o) o).scratch.rdN off n))) ∧
        (∀ pa, loc l = .phys pa false →
          val l = BitVec.ofNat 64 (leValue (physRead (ownView s1 o) (wgOf s o).ctx pa n))) ∧
        ∀ pa, loc l = .phys pa true → (wgOf s o).det = false → LinesSound s o.core → pa % n = 0 →
          pa + n ≤ Config.deviceEnd →
          val l = BitVec.ofNat 64 (leValue ((List.range n).map fun k => ownByte s o.core (pa + k)))

/-- R201, R207, R244, R252: ST outside deterministic mode: each lane's n bytes go to the physical address that its virtual
address translates to, in ascending lanes, and nowhere else. On a coherent page of device memory they go to memory, and each
store is then under way until it is performed; on a software-managed one to the core's own line, or to memory past a missing
line under a policy that allocates none; in the scratchpad window to the workgroup's scratchpad. -/
def Obligations.VirtualStores : Prop :=
  ∀ (s : State) (o : Who) (m : Bool) (sc : Scope) (t : Width) (d a b : Reg) (pa : Nat → Nat), Runs s o sc →
    Settled s o [d, a, b] → dataOk s o sc d = true → srcOk s o sc a = true → srcOk s o sc b = true →
    (wgOf s o).det = false →
    let s1 := reading s o [d, a, b]
    let n := bytesOf t
    ((∀ l, actsFor s o sc l →
        Reaches s1 o .store n (sumOf s1 o sc a b l) (.phys (pa l) false) ∧ pa l + n ≤ Config.deviceEnd) →
      ∃ s2, exec (.st m sc t d a b) s = .next (after s s2 o sc m) ∧ NoRegs s s2 o ∧
        OutsideDevice s s2 (actsFor s o sc) pa n ∧ Stored s2.mem.rd (actsFor s o sc) pa n (valueOf s1 o sc d) ∧
        s2.hostMem = s.hostMem ∧ s2.peerMem = s.peerMem ∧
        (∀ c k, (getWg s2 c k).scratch = (getWg s c k).scratch ∧ (getWg s2 c k).priv = (getWg s c k).priv) ∧
        ∃ news, s2.pend = s.pend ++ news ∧
          news.map (fun p => (p.who, p.pa, p.atDev, p.wb)) = (laneOrder s o sc).map fun l => (o, pa l, false, false)) ∧
    ((∀ l, actsFor s o sc l → Reaches s1 o .store n (sumOf s1 o sc a b l) (.phys (pa l) true) ∧
        pa l % n = 0 ∧ pa l + n ≤ Config.deviceEnd) → LinesSound s o.core → s.checks = [] →
      ∃ s2, exec (.st m sc t d a b) s = .next (after s s2 o sc m) ∧ NoRegs s s2 o ∧
        Stored (ownByte s2 o.core) (actsFor s o sc) pa n (valueOf s1 o sc d) ∧
        (∀ x, x < Config.deviceEnd → Outside (actsFor s o sc) pa n x → ownByte s2 o.core x = ownByte s o.core x) ∧
        s2.hostMem = s.hostMem ∧ s2.peerMem = s.peerMem ∧
        ∀ c k, (getWg s2 c k).scratch = (getWg s c k).scratch ∧ (getWg s2 c k).priv = (getWg s c k).priv) ∧
    ((∀ l, actsFor s o sc l → Reaches s1 o .store n (sumOf s1 o sc a b l) (.scratch (pa l))) →
      ∃ s2, exec (.st m sc t d a b) s = .next (after s s2 o sc m) ∧ NoRegs s s2 o ∧
        Stored (wgOf s2 o).scratch.rd (actsFor s o sc) pa n (valueOf s1 o sc d) ∧
        (∀ x, Outside (actsFor s o sc) pa n x → (wgOf s2 o).scratch.rd x = (wgOf s o).scratch.rd x) ∧
        { s2 with cores := s.cores, free := s.free, coreChecks := s.coreChecks } = s ∧
        (∀ c k, c ≠ o.core ∨ k ≠ o.slot → getWg s2 c k = getWg s c k) ∧ (wgOf s2 o).priv = (wgOf s o).priv)

/-- R260, R261, R267: an atomic on scratchpad words through the window, or on words of device memory, outside deterministic
mode: the lanes act one after another in ascending order, each on the value the one before left, and D receives the value
that its lane found; on a software-managed page the core's own line of the word is written back and dropped before. In
deterministic mode an atomic that the rule admits joins the commit buffer with its lanes and operands, returns nothing yet,
and ends the quantum if it returns a value; at set and block scope it joins the buffer of the lowest member and waits there
for the commit, which checks it. -/
def Obligations.Atomics : Prop :=
  (∀ (s : State) (o : Who) (i : Instr) (p : AtomOp) (off : Nat → Nat), atomicWords i = some p → Runs s o p.sc →
    Settled s o (if p.pair then [p.a, p.b, nextReg p.b] else [p.a, p.b]) → dstOk s o p.sc p.d = true →
    srcOk s o p.sc p.a = true → srcOk s o p.sc p.b = true → (p.pair = true → pairOk s o p.sc p.b = true) →
    (p.sc = .warp → isS p.d = true → inConc s o = false) → (wgOf s o).det = false →
    let s1 := reading s o (if p.pair then [p.a, p.b, nextReg p.b] else [p.a, p.b])
    let n := p.w / 8
    let b := valueOf s1 o p.sc p.b
    let b1 := fun l => if p.pair then valueOf s1 o p.sc (nextReg p.b) l else 0
    let old := fun x => BitVec.ofNat p.w (leValue ((wgOf s o).scratch.rdN x n))
    (∀ l, actsFor s o p.sc l → Reaches s1 o .atomic n (valueOf s1 o p.sc p.a l) (.scratch (off l))) →
    ∃ s2, exec i s = .next (after s s2 o p.sc p.mark) ∧ (warpOf s2 o).gcount = 0 ∧
      (∀ l, actsFor s o p.sc l →
        leValue ((wgOf s2 o).scratch.rdN (off l) n) =
          (folded p b b1 off (off l) (laneOrder s o p.sc) (old (off l))).toNat) ∧
      (∀ x, (∀ l, actsFor s o p.sc l → ¬ (off l ≤ x ∧ x < off l + n)) →
        (wgOf s2 o).scratch.rd x = (wgOf s o).scratch.rd x) ∧
      { s2 with cores := s.cores, free := s.free, coreChecks := s.coreChecks } = s ∧
      (p.d = .zr → NoRegs s s2 o) ∧
      (p.d ≠ .zr → LateResult s s2 o p.sc p.d fun l =>
        (folded p b b1 off (off l) ((laneOrder s o p.sc).takeWhile fun k => k < l) (old (off l))).setWidth 64)) ∧
  (∀ (s : State) (o : Who) (i : Instr) (p : AtomOp) (pa : Nat → Nat) (wb : Bool), atomicWords i = some p → Runs s o p.sc →
    Settled s o (if p.pair then [p.a, p.b, nextReg p.b] else [p.a, p.b]) → dstOk s o p.sc p.d = true →
    srcOk s o p.sc p.a = true → srcOk s o p.sc p.b = true → (p.pair = true → pairOk s o p.sc p.b = true) →
    (p.sc = .warp → isS p.d = true → inConc s o = false) → (wgOf s o).det = false →
    let s1 := reading s o (if p.pair then [p.a, p.b, nextReg p.b] else [p.a, p.b])
    let n := p.w / 8
    let b := valueOf s1 o p.sc p.b
    let b1 := fun l => if p.pair then valueOf s1 o p.sc (nextReg p.b) l else 0
    let read := fun (s : State) x => if wb then ownByte s o.core x else s.mem.rd x
    let word := fun (s : State) x => leValue ((List.range n).map fun k => read s (x + k))
    (∀ l, actsFor s o p.sc l → Reaches s1 o .atomic n (valueOf s1 o p.sc p.a l) (.phys (pa l) wb) ∧ pa l % n = 0 ∧
      pa l + n ≤ Config.deviceEnd) → (wb = true → LinesSound s o.core ∧ s.checks = []) →
    ∃ s2, exec i s = .next (after s s2 o p.sc p.mark) ∧ (warpOf s2 o).gcount = 0 ∧
      (∀ l, actsFor s o p.sc l →
        word s2 (pa l) = (folded p b b1 pa (pa l) (laneOrder s o p.sc) (BitVec.ofNat p.w (word s (pa l)))).toNat) ∧
      (∀ x, x < Config.deviceEnd → Outside (actsFor s o p.sc) pa n x → read s2 x = read s x) ∧
      s2.hostMem = s.hostMem ∧ s2.peerMem = s.peerMem ∧
      (∀ c k, (getWg s2 c k).scratch = (getWg s c k).scratch ∧ (getWg s2 c k).priv = (getWg s c k).priv) ∧
      (p.d = .zr → NoRegs s s2 o) ∧
      (p.d ≠ .zr → LateResult s s2 o p.sc p.d fun l =>
        (folded p b b1 pa (pa l) ((laneOrder s o p.sc).takeWhile fun k => k < l)
          (BitVec.ofNat p.w (word s (pa l)))).setWidth 64)) ∧
  ∀ (s : State) (o : Who) (i : Instr) (p : AtomOp), atomicWords i = some p → Runs s o p.sc →
    Settled s o (if p.pair then [p.a, p.b, nextReg p.b] else [p.a, p.b]) → dstOk s o p.sc p.d = true →
    srcOk s o p.sc p.a = true → srcOk s o p.sc p.b = true → (p.pair = true → pairOk s o p.sc p.b = true) →
    (p.sc = .warp → isS p.d = true → inConc s o = false) → (wgOf s o).det = true →
    let s1 := reading s o (if p.pair then [p.a, p.b, nextReg p.b] else [p.a, p.b])
    let b := valueOf s1 o p.sc p.b
    let b1 := fun l => if p.pair then valueOf s1 o p.sc (nextReg p.b) l else 0
    let dst := if p.d = .zr then none else some (regDst (warpOf s o) p.d)
    (∀ loc : Nat → Loc, p.sc = .lane ∨ p.sc = .warp →
      (∀ l, actsFor s o p.sc l → Reaches s1 o .atomic (p.w / 8) (valueOf s1 o p.sc p.a l) (loc l) ∧
        ((loc l).isPhys = true → reducing i = true)) →
      ∃ t e, exec i s = .next t ∧ NoRegs s t o ∧ SameMemory s t ∧ OnlyWarp s t o ∧
        Retires s t o p.mark ((streamOf s o).pc + 4) ∧ (warpOf t o).buf = (warpOf s o).buf ++ [e] ∧ e.who = o ∧
        e.effect = .atomic p.op (warpOf s o).cpol (p.w / 8)
          ((laneOrder s o p.sc).map fun l => { lane := l, loc := loc l, b := b l, b1 := b1 l }) dst false ∧
        (p.d ≠ .zr → (warpOf t o).qended = true) ∧ (p.d = .zr → (warpOf t o).qended = (warpOf s o).qended)) ∧
    (p.sc = .set ∨ p.sc = .block →
      ∃ u e, exec i s = .next (waiting s u o p.sc (encode i) .commit) ∧ NoRegs s u o ∧ SameMemory s u ∧ OnlyWarp s u o ∧
        (warpOf u o).buf = (warpOf s o).buf ++ [e] ∧ e.who = o ∧ e.latch = latchOf s o p.sc ∧
        e.effect = .lateAtomic p.op (warpOf s o).cpol (p.w / 8) (valueOf s1 o p.sc p.a 0) (b 0) (b1 0) dst)

/-- R207, R242, R245, R246: PFTCH changes no register and no byte of memory that the core's dirty lines do not change; CFLUSH
leaves no dirty line of the range in the core's first-level cache, and CINV no line of it, private lines aside; every byte that
stores wrote into the lines of the range has reached memory, and no other byte of it changes. -/
def Obligations.CacheMaintenance : Prop :=
  ∀ (s : State) (o : Who) (m : Bool) (sc : Scope) (a b : Reg), srcOk s o sc a = true → srcOk s o sc b = true →
    Settled s o [a, b] →
    let s1 := reading s o [a, b]
    let lo := (rdS s1 o a).toNat
    let n := (rdS s1 o b).toNat
    (sc = .lane ∨ sc = .warp → Issues s o → ∃ s2, exec (.pftch m sc a b) s = .next (after s s2 o sc m) ∧ NoRegs s s2 o ∧
      ((∀ e ∈ (getCore s o.core).l1, e.dirty = 0) → SameMemory s s2)) ∧
    (∀ i drop, cacheLines i = some (drop, m, sc, a, b) → sc ≠ .lane → Runs s o sc → lo + n ≤ 2 ^ 56 →
      ∃ s2, exec i s = .next (after s s2 o sc m) ∧ NoRegs s s2 o ∧
        let hit := fun (e : L1Line) => n ≠ 0 ∧ lineOf (privRegions s) e.line = false ∧
          lineIn (wgOf s o).ctx (physRanges s (wgOf s o).ctx lo (lo + n)) e.line e.ctx = true
        (∀ e ∈ (getCore s2 o.core).l1, hit e → drop = false ∧ e.dirty = 0) ∧
        (∀ e ∈ (getCore s o.core).l1, ¬ hit e → e ∈ (getCore s2 o.core).l1) ∧
        (LinesSound s o.core → s.checks = [] →
          (∀ e ∈ (getCore s o.core).l1, hit e → ∀ d i, e.data = some d → i < 128 → e.dirty.getLsbD i = true →
            s2.mem.rd (128 * e.line + i) = d.getD i 0) ∧
          (∀ x, (∀ e ∈ (getCore s o.core).l1, hit e → ∀ i, e.dirty.getLsbD i = true → x ≠ 128 * e.line + i) →
            s2.mem.rd x = s.mem.rd x) ∧ s2.hostMem = s.hostMem ∧ s2.peerMem = s.peerMem))

/-- R220, R232: CDEMOTE starts a walk, which demotes the first-level and L2 lines of its range that are present when it
comes to them; a read lease that has run out ends. -/
def Obligations.DemotionAndLeaseExpiry : Prop :=
  ∀ (s : State) (o : Who) (m : Bool) (a b : Reg),
    (Issues s o → scalarSrc a = true → scalarSrc b = true → Settled s o [a, b] →
      let lo := (rdS (reading s o [a, b]) o a).toNat
      let n := (rdS (reading s o [a, b]) o b).toNat
      lo + n ≤ 2 ^ 56 → ∃ s2, exec (.cdemote m a b) s = .next (after s s2 o .warp m) ∧ NoRegs s s2 o ∧ SameMemory s s2 ∧
        (getCore s2 o.core).demotes =
          (getCore s o.core).demotes ++ if n = 0 then [] else [((wgOf s o).ctx, lo, lo + n)]) ∧
    (∀ core ctx lo hi rest, (getCore s core).demotes = (ctx, lo, hi) :: rest →
      ∃ t, exec (.cdemoteWalk core) s = .next t ∧ (getCore t core).demotes = rest ∧ SameMemory s t ∧
        (∀ e ∈ (getCore t core).l1, lineIn ctx (physRanges s ctx lo hi) e.line e.ctx = true → e.prio = 0) ∧
        ∀ e ∈ t.l2, lineIn ctx (physRanges s ctx lo hi) e.1 (lineCtx ctx (128 * e.1)) = true → e.2.prio = 0) ∧
    (∀ core line, ∃ t, exec (.l1ReadLeaseExpiry core line) s = .next t ∧ SameMemory s t ∧
      (∀ e ∈ (getCore t core).l1, e.line = line → ∀ c, e.lease = some c → s.cycle < c) ∧
      (getCore t core).l1.map (fun e => (e.line, e.ctx, e.data, e.dirty)) =
        (getCore s core).l1.map fun e => (e.line, e.ctx, e.data, e.dirty))

/-- R238–R240: LEASE gives the lowest free handle of 1–255 and records the lines, or gives 0 and records nothing where no handle
is free or the budget would be passed; LREL ends the lease of a standing handle. Which sets the budget looks at is the model's
reading (log entry 31). -/
def Obligations.Leases : Prop :=
  ∀ (s : State) (o : Who) (m : Bool) (sc : Scope) (d a b : Reg), sc ≠ .lane → Runs s o sc → dstOk s o sc d = true →
    sdOk d = true → srcOk s o sc a = true → srcOk s o sc b = true → Settled s o [a, b] →
    (sc = .warp → isS d = true → inConc s o = false) →
    let s1 := reading s o [a, b]
    let lo := (rdS s1 o a).toNat
    let n := (rdS s1 o b).toNat
    (lo + n ≤ 2 ^ 56 → ∀ s2 rs, leasePages s1 o lo (lo + n) (n / 65536 + 2) = (s2, rs, none) → n ≠ 0 →
      ∃ s3 h, exec (.lease m sc d a b) s = .next (after s s3 o sc m) ∧ h ≤ 255 ∧
        (∀ q ∈ targets s2 o sc, LateScalar s2 s3 q d (BitVec.ofNat 64 h) 0) ∧ SameMemory s2 s3 ∧
        (h = 0 → (wgOf s3 o).leases = (wgOf s2 o).leases ∧
          ((∀ k, 1 ≤ k → k ≤ 255 → tget? (wgOf s2 o).leases k ≠ none) ∨ leasesFit (allLeases s2 ++ rs) = false)) ∧
        (h ≠ 0 → tget? (wgOf s2 o).leases h = none ∧ (∀ k, 1 ≤ k → k < h → tget? (wgOf s2 o).leases k ≠ none) ∧
          tget? (wgOf s3 o).leases h = some rs ∧ leasesFit (allLeases s2 ++ rs) = true ∧
          ∀ k, k ≠ h → tget? (wgOf s3 o).leases k = tget? (wgOf s2 o).leases k)) ∧
    (∀ h ls, rdS (reading s o [a]) o a = BitVec.ofNat 64 h → 1 ≤ h → h ≤ 255 → tget? (wgOf s o).leases h = some ls →
      ∃ s3, exec (.lrel m sc a) s = .next (after s s3 o sc m) ∧ NoRegs s s3 o ∧ SameMemory s s3 ∧
        ∀ k, tget? (wgOf s3 o).leases k = if k = h then none else tget? (wgOf s o).leases k)

/-- R230, R231, R235: PGX begins the change of a mapped page, and accesses to the page are held from then on; its completion,
once no access that translated before it is left, through the entry or through a translation that it removes, and where the
entry's sector is sound (R408), writes the entry's STATE and OWNER, and the translations of every address of the page are gone,
and the banks loaded from it are source-stale. That two changes of one page go in the order of their PGX is the model's choice
(log entry 56). -/
def Obligations.PageStateChange : Prop :=
  ∀ (s : State) (o : Who) (m : Bool) (a b : Reg),
    (Issues s o → scalarSrc a = true → scalarSrc b = true → Settled s o [a, b] → (wgOf s o).sys = true →
      let va := rdS (reading s o [a, b]) o a
      let c := rdS (reading s o [a, b]) o b
      ∀ st (owner : BitVec 8) level pte at_, c = BitVec.ofNat 64 (st + 256 * owner.toNat) → st ≤ 2 →
        (st = 2 → owner.toNat ≤ 159) → va.toNat < Config.windowBase →
        walkBad s (wgOf s o).ctx va.toNat = none → walk s (wgOf s o).ctx va.toNat = .leaf level pte at_ → inAperture (pteAddr pte) = false →
        ∃ t, exec (.pgx m a b) s = .next t ∧ Retires s t o m ((streamOf s o).pc + 4) ∧ NoRegs s t o ∧ SameMemory s t ∧
          t.pgx = s.pgx ++ [{ who := o, ctx := (wgOf s o).ctx, va := va.toNat, level := level, pteAt := at_,
                              state := BitVec.ofNat 2 st, owner := owner }] ∧
          pgxHolds t (wgOf s o).ctx va.toNat = true) ∧
    (∀ n p, s.pgx[n]? = some p →
      (∀ q ∈ s.pgx.take n, ¬ (q.ctx = p.ctx ∧ q.va / 2 ^ pageBits p.level = p.va / 2 ^ pageBits p.level)) →
      let size := 2 ^ pageBits p.level
      let lo := p.va / size * size
      let meets := fun e : TlbEnt =>
        e.ctx = p.ctx ∧ e.page * 2 ^ pageBits e.level < lo + size ∧ lo < (e.page + 1) * 2 ^ pageBits e.level
      (∀ x ∈ s.pend, (x.pa < (pgxBytes s p).1 ∨ (pgxBytes s p).2 ≤ x.pa) ∧
        ∀ e, (∃ c ∈ s.cores, e ∈ c.2.tlb) ∨ (∃ d ∈ s.tlb2, e ∈ d.2) → meets e →
          x.pa < pteAddr e.pte ∨ pteAddr e.pte + 2 ^ pageBits e.level ≤ x.pa) →
      (∀ g ∈ allWgs s, ∀ w ∈ g.warps, w.2.buf = []) →
      (∀ e ∈ s.cores, ∀ l ∈ e.2.l1, l.dirty = 0) → p.pteAt + 8 ≤ Config.deviceEnd → badSector s p.pteAt 8 = none →
      ∃ t, exec (.pgxComplete n) s = .next t ∧ t.pgx = s.pgx.eraseIdx n ∧
        (∀ c k, let bank := fun (s : State) => tgetD .reset (getCore s c).banks k
           (bank s).state ≠ .empty → (bank s).ctx = p.ctx → (∃ r ∈ (bank s).src, r.1 < lo + size ∧ lo < r.2) →
             (bank t).stale = true) ∧
        (∀ x, x < p.pteAt ∨ p.pteAt + 8 ≤ x → t.mem.rd x = s.mem.rd x) ∧
        (let e := BitVec.ofNat 64 (leValue (t.mem.rdN p.pteAt 8))
         let e0 := BitVec.ofNat 64 (leValue (s.mem.rdN p.pteAt 8))
         pteState e = p.state.toNat ∧ pteOwner e = (if p.state = 2 then p.owner.toNat else 0) ∧
         e.setWidth 52 = e0.setWidth 52 ∧ e.extractLsb' 62 2 = e0.extractLsb' 62 2) ∧
        (∀ c ∈ t.cores, ∀ e ∈ c.2.tlb, ¬ meets e) ∧ ∀ d ∈ t.tlb2, ∀ e ∈ d.2, ¬ meets e)

/-- R257, R258, R265: a FENCE or XFENCE whose accesses are performed completes and changes nothing; else its stream waits;
in deterministic mode a FENCE first waits for the commit of its round. Which accesses each covers is spelled out in
`Performed` and `PathsClear`; that they reach the write-backs of the whole workgroup and of the lines that its task stored to,
and all its outstanding results for an XFENCE, is the model's reading (log entry 30). -/
def Obligations.Fences : Prop :=
  ∀ (s : State) (o : Who) (m : Bool) (sc : Scope) (i : BitVec 7),
    (sc ≠ .lane → Runs s o sc → i.toNat ≤ 2 →
      (wgOf s o).det = false ∨ latchOf s o sc ≠ none ∨ (streamOf s o).wait = .fence i.toNat →
      ((∀ q ∈ targets s o sc, Performed s i.toNat q) → exec (.fence m sc i) s = .next (after s s o sc m)) ∧
      ((∃ q ∈ targets s o sc, ¬ Performed s i.toNat q) →
        exec (.fence m sc i) s = .next (waiting s s o sc (encode (.fence m sc i)) (.fence i.toNat)))) ∧
    (Issues s o → i.toNat ≤ 2 → (wgOf s o).det = true → (streamOf s o).wait = .none →
      ∃ t, exec (.fence m .warp i) s = .next t ∧ (streamOf t o).wait = .fenceCommit i.toNat ∧
        (warpOf t o).qended = true ∧ NoRegs s t o ∧ OnlyWarp s t o ∧ SameMemory s t) ∧
    (Fires s o .block → 1 ≤ i.toNat → i.toNat ≤ 31 →
      (∀ l, getLatch s o.core o.slot 4 = some l → l.wait = .none) → (getLatch s o.core o.slot 4).isSome = true →
      let cmds := ((getCore s o.core).ops.filter fun p => p.who.slot == o.slot && i.toNat.testBit (enginePath p.kind)).map EngOp.id
      (PathsClear s o i.toNat cmds → exec (.xfence m i) s = .next (after s s o .block m)) ∧
      (¬ PathsClear s o i.toNat cmds →
        exec (.xfence m i) s = .next (waiting s s o .block (encode (.xfence m i)) (.xfence i.toNat cmds))))

/-- R98, R99, R153, R252: an instruction's outstanding results in a stream return together to their registers, lane by lane,
with their conditions; the last ones release the wait mark, unless the commit is still to deliver one (R265). A store is
performed at device memory scope, one to an aperture then at system scope, and no write before an earlier one of the same
byte. -/
def Obligations.ResultsAndStoresReturn : Prop :=
  ∀ (s : State) (o : Who) (n : Nat),
    (∀ r, (∀ k, o.split = some k → (findSplit (warpOf s o) k).isSome = true) → (streamOf s o).out[n]? = some r →
      let now := (streamOf s o).out.filter fun e => e.num == r.num
      let rest := (streamOf s o).out.filter fun e => e.num != r.num
      ∃ t, exec (.resultReturn o n) s = .next t ∧ (streamOf t o).out = rest ∧
        (∀ c, (warpOf t o).fflags.getLsbD c = true ↔
          (warpOf s o).fflags.getLsbD c = true ∨ ∃ e ∈ now, e.flags.getLsbD c = true) ∧
        ((streamOf t o).marked = true ↔ (streamOf s o).marked = true ∧ (rest ≠ [] ∨ ∃ b ∈ (warpOf s o).buf, b.who = o ∧
          ∃ op pol k ls d blk, b.effect = .atomic op pol k ls (some d) blk)) ∧
        (streamOf t o).pc = (streamOf s o).pc ∧ (warpOf t o).rcnt = (warpOf s o).rcnt ∧
        ((∀ e ∈ now, (∀ v ∈ e.vals, v.1 < 32) ∧ (e.vals.map Prod.fst).Nodup) → (now.map OutRes.dst).Nodup →
          ∀ e ∈ now, ∀ l v, (l, v) ∈ e.vals → (∀ k, e.dst = .s k ∨ e.dst = .k k → e.vals = [(l, v)]) → e.dst ≠ .none →
            returnedTo t o e.dst l = if e.dst = .tag then v &&& 0xFFF else v) ∧
        OnlyWarp s t o ∧ SameMemory s t) ∧
    (∀ p, s.pend[n]? = some p → inAperture p.pa = false ∨ p.atDev = true → (∀ q ∈ s.pend.take n, ¬ Overlapping p q) →
      ∃ t, exec (.storePerformed n) s = .next t ∧ t.pend = s.pend.eraseIdx n ∧
        { t with pend := s.pend, shootOp := s.shootOp } = s) ∧
    (∀ p, s.pend[n]? = some p → inAperture p.pa = true → p.atDev = false →
      (∀ q ∈ s.pend.take n, Overlapping p q → q.atDev = true) →
      exec (.storePerformed n) s = .next { s with pend := s.pend.set n { p with atDev := true } }) ∧
    (∀ p q, s.pend[n]? = some p → q ∈ s.pend.take n → Overlapping p q → q.atDev = false →
      exec (.storePerformed n) s = .next s)

namespace Sys2Proof.Claim

/-! ### Barrier registers, engines and the matrix unit -/

/-- TINFO of a delivered engine record (R353): inner cause, opcode, MORE, MALF, LEVEL and DONE. -/
def engineInfo (e : EngRec) (more : Bool) : Word :=
  BitVec.ofNat 64 (e.fault.cause.toNat + 256 * e.opcode.toNat + (if more then 65536 else 0)
    + (if e.fault.malf then 131072 else 0) + 262144 * e.fault.level + 16777216 * (e.fault.done % 2 ^ 40))

/-- The commands of two scalar operands (R274): kind, mark, scope, immediate with the largest value it takes, and the
registers. -/
def commandWord : Instr → Option (EngKind × Bool × Scope × BitVec 7 × Nat × Reg × Reg)
  | .cpy m sc i a b => some (.cpy, m, sc, i, 15, a, b)
  | .cpyg m sc i a b => some (.cpyg, m, sc, i, 15, a, b)
  | .cpyx m sc i a b => some (.cpyx, m, sc, i, 15, a, b)
  | .chain m sc i a b => some (.chain, m, sc, i, 15, a, b)
  | .coll m sc i a b => some (.coll, m, sc, i, 15, a, b)
  | .mload m sc i a b => some (.mload, m, sc, i, 3, a, b)
  | .mstore m sc i a b => some (.mstore, m, sc, i, 63, a, b)
  | _ => none

/-- The commands that take a set-wide register block (R314): kind, mark, scope, flags and registers. -/
def rowsCommand : Instr → Option (EngKind × Bool × Scope × BitVec 7 × Reg × Reg)
  | .mma m sc i a b => some (.mma, m, sc, i, a, b)
  | .mgrad m sc i a b => some (.mgrad, m, sc, i, a, b)
  | _ => none

/-- The bytes that a core-path load of n bytes at a place gives (R207, R244). -/
def bytesAt (s : State) (o : Who) (l : Loc) (n : Nat) : List Byte :=
  match l with
  | .scratch off => (wgOf s o).scratch.rdN off n
  | .phys pa false => physRead s (wgOf s o).ctx pa n
  | .phys pa true => (List.range n).map fun k => ownByte s o.core (pa + k)

/-- A load of n bytes at a place that writes back finds the core's first-level lines sound, and stays within one. -/
def LoadsWhole (s : State) (o : Who) (l : Loc) (n : Nat) : Prop :=
  match l with
  | .scratch _ => True
  | .phys pa wb => wb = true → LinesSound s o.core ∧ pa % n = 0 ∧ pa + n ≤ Config.deviceEnd

/-- MCLOSE closes the batch x (R312, R323): the open one, or a new one of the next number where none is open and fewer than 8
are not awaited; `bs` are the batches as it leaves them, before any completes. -/
def Closing (g : Wg) (x : Batch) (bs : List Batch) : Prop :=
  (g.batches.find? (fun b => !b.closed) = some x ∧
      bs = g.batches.map fun b => if b.num = x.num then { b with closed := true } else b) ∨
  ((∀ b ∈ g.batches, b.closed = true) ∧ g.batches.length < 8 ∧
    x = { num := g.closedTo + 1, closed := true, running := 0, recs := [], missed := [], done := false, marked := false } ∧
    bs = g.batches ++ [x])

/-- Batches complete in order (R312): a closed one with no command left, once every earlier one has; nothing else of them
changes. -/
def Completed (bs cs : List Batch) : Prop :=
  (cs.map fun b => { b with done := true }) = (bs.map fun b => { b with done := true }) ∧
  ∀ (k : Nat) (b c : Batch), bs[k]? = some b → cs[k]? = some c → (c.done = true ↔ b.done = true ∨
    ∀ j a, j ≤ k → bs[j]? = some a → a.done = true ∨ (a.closed = true ∧ a.running = 0))

/-- What an accepted command leaves: it is the last of its core's commands, with what its word gave it. -/
def Accepted (s2 : State) (op : EngOp) : Prop :=
  ∃ p, (getCore s2 op.who.core).ops.getLast? = some p ∧ p.kind = op.kind ∧ p.who = op.who ∧ p.pc = op.pc ∧
    p.word = op.word ∧ p.imm = op.imm ∧ p.a = op.a ∧ p.b = op.b ∧ p.latch = op.latch

/-- A word that deterministic mode holds for the commit (R266, R325): it joins the warp's commit buffer with its effect, ends
the quantum and waits, and nothing else changes. -/
def Buffered (s : State) (o : Who) (i : Instr) (sc : Scope) (eff : BufEffect) : Prop :=
  ∃ s2, exec i s = .next (waiting s s2 o sc (encode i) .commit) ∧ NoRegs s s2 o ∧ SameMemory s s2 ∧ OnlyWarp s s2 o ∧
    (warpOf s2 o).qended = true ∧ ∃ e, (warpOf s2 o).buf = (warpOf s o).buf ++ [e] ∧ e.who = o ∧ e.effect = eff

/-- How a word that issues the command `op` goes on from `s1`, its operands read (R108, R266, R274, R320): accepted at once, it
completes and is progress; turned away until it may be accepted, it waits, which is progress too but for an MMA; in
deterministic mode it waits for the commit of its round. -/
structure Commands (s s1 : State) (o : Who) (i : Instr) (sc : Scope) (m : Bool) (op : EngOp) : Prop where
  now : (wgOf s o).det = false → ∀ s2, (acceptOp op).run s1 = (.ok (), s2) → (warpOf s2 o).step = none →
    exec i s = .next (after s (progress s2 o) o sc m) ∧ Accepted s2 op
  later : (wgOf s o).det = false → ∀ s2 w, (acceptOp op).run s1 = (.error (.inr w), s2) →
    exec i s = .next (waiting s (if op.kind = .mma then s2 else progress s2 o) o sc (encode i) w)
  det : (wgOf s o).det = true → Buffered s o i sc (.engine op)

end Sys2Proof.Claim

/-- R277–R279, R282: outside deterministic mode BINIT sets EXP and INIT, clears CNT and the held records, and keeps PHASE,
which every warp has then seen; BARV counts an arrival, and the one that reaches EXP flips the phase and releases every
stream that waits there. -/
def Obligations.BarrierArrivals : Prop :=
  ∀ (s : State) (o : Who) (m : Bool) (sc : Scope) (i : BitVec 7), sc ≠ .lane → Runs s o sc → i.toNat ≤ 15 →
    (wgOf s o).det = false →
    let b := i.toNat
    let r := getBar s o.core o.slot b
    let bar := fun t : State => getBar t o.core o.slot
    (∀ a, srcOk s o sc a = true → Settled s o [a] →
      let v := rdS (reading s o [a]) o a
      1 ≤ v.toNat → v.toNat < 65536 → r.pend = 0 →
      ∃ s2, exec (.binit m sc i a) s = .next (after s s2 o sc m) ∧ NoRegs s s2 o ∧
        bar s2 b = { Barrier.reset with exp := v.setWidth 16, phase := r.phase, init := true } ∧
        (∀ c, c ≠ b → bar s2 c = bar s c) ∧ (∀ e ∈ (wgOf s2 o).warps, e.2.seen.getLsbD b = r.phase) ∧
        (r.crec = none → r.prec = none → SameMemory s s2)) ∧
    (r.init = true →
      ∃ s2, exec (.barv m sc i) s = .next (after s s2 o sc m) ∧ NoRegs s s2 o ∧ (∀ c, c ≠ b → bar s2 c = bar s c) ∧
        (r.crec = none → SameMemory s s2) ∧ (r.cnt + 1 ≠ r.exp → bar s2 b = { r with cnt := r.cnt + 1 }) ∧
        (r.cnt + 1 = r.exp →
          (let q := bar s2 b
           q.phase = !r.phase ∧ q.cnt = 0 ∧ q.exp = r.exp ∧ q.init = true ∧ q.pend = r.pend ∧ q.crec = r.prec ∧
           q.more = r.pmore ∧ q.prec = none ∧ q.pmore = false) ∧
          (∀ e ∈ (wgOf s2 o).warps, parkedAt e.2 b = false) ∧
          ∀ n w, tget? (wgOf s o).warps n = some w → parkedAt w b = true →
            (getWarp s2 o.core o.slot n).seen.getLsbD b = !r.phase ∧ (getWarp s2 o.core o.slot n).gcount = 0))

/-- R280–R282, R353: BWAIT completes where the phase is not the one its warp has seen, which it then has; waits where it is;
and traps with cause 0x1E where the completed phase holds a record, which it takes. BTEST gives the register's state. SEEN
after a release is the model's reading (log entry 11). -/
def Obligations.BarrierWaits : Prop :=
  ∀ (s : State) (o : Who) (m : Bool) (i : BitVec 7), Issues s o → i.toNat ≤ 15 →
    let b := i.toNat
    let r := getBar s o.core o.slot b
    let seen := (warpOf s o).seen.getLsbD b
    ((streamOf s o).wait = .bret none →
      ∃ t, exec (.bwait m i) s = .next t ∧ Computes s t o m (warpOf s o) ∧ SameFile s t o) ∧
    ((∀ x, (streamOf s o).wait ≠ .bret x) → r.init = true → initBuffered s o b = false →
      (r.phase ≠ seen → r.crec = none → ∃ t, exec (.bwait m i) s = .next t ∧ SameFile s t o ∧
        (warpOf t o).seen.getLsbD b = r.phase ∧
        Computes s t o m { warpOf s o with gcount := 0, seen := (warpOf t o).seen,
                                           qended := (wgOf s o).det || (warpOf s o).qended }) ∧
      (r.phase = seen → ∃ t, exec (.bwait m i) s = .next t ∧ (streamOf t o).wait = .barrier b ∧
        (streamOf t o).pc = (streamOf s o).pc ∧ (warpOf t o).rcnt = (warpOf s o).rcnt ∧ NoRegs s t o ∧ OnlyWarp s t o ∧
        SameMemory s t) ∧
      (∀ e h, r.phase ≠ seen → r.crec = some e → HasHandler s o h →
        ∃ s2 t, exec (.bwait m i) s = .next t ∧ SameFile s s2 o ∧ getBar s2 o.core o.slot b = { r with taken := true } ∧
          (warpOf s2 o).seen.getLsbD b = r.phase ∧
          EntersHandler s2 t o
            { tcause := 0x1E, tpc := ((streamOf s o).pc).setWidth 64, taddr := e.fault.addr, tlanes := e.pc.setWidth 64,
              tinfo := engineInfo e r.more } h none)) ∧
    (∀ d, scalarDst d = true → (isS d = true → inConc s o = false) →
      ∃ t v, exec (.btest m d i) s = .next t ∧ Computes s t o m (warpOf s o) ∧ LateScalar s t o d v 0 ∧
        v.extractLsb' 0 16 = r.cnt ∧ v.extractLsb' 16 16 = r.exp ∧ v.getLsbD 32 = r.phase ∧ v.getLsbD 33 = seen ∧
        v.getLsbD 34 = r.init ∧ v.getLsbD 35 = r.crec.isSome ∧ v.getLsbD 36 = r.more ∧ v.getLsbD 37 = r.prec.isSome ∧
        v.getLsbD 38 = r.pmore ∧ v.getLsbD 39 = false ∧ v.extractLsb' 40 8 = BitVec.ofNat 8 (min r.pend 255) ∧
        v.extractLsb' 48 16 = 0)

/-- R108, R266, R274, R314: CPY, CPYG, CPYX, CHAIN, COLL, MLOAD, MSTORE, MMA and MGRAD issue a command with the operands that
the word reads and, for MMA and MGRAD, the rows of the set's registers as the latch fires; a command that waited is
accepted later, but in a workgroup that waits for the baton it held as it was saved (R310), and its word completes then. -/
def Obligations.EngineCommands : Prop :=
  (∀ (s : State) (o : Who) (i : Instr) (k : EngKind) (m : Bool) (sc : Scope) (n : BitVec 7) (top : Nat) (a b : Reg),
    commandWord i = some (k, m, sc, n, top, a, b) → sc ≠ .lane → Runs s o sc → n.toNat ≤ top →
    (k = .mstore → n.toNat % 2 = 0 → n.toNat / 8 % 4 = 0) →
    srcOk s o sc a = true → srcOk s o sc b = true → Settled s o [a, b] →
    let s1 := reading s o [a, b]
    Commands s s1 o i sc m (newOp s1 o k sc (encode i) n.toNat (rdS s1 o a) (rdS s1 o b))) ∧
  (∀ (s : State) (o : Who) (i : Instr) (k : EngKind) (m : Bool) (sc : Scope) (fl : BitVec 7) (a b : Reg),
    rowsCommand i = some (k, m, sc, fl, a, b) → sc = .set ∨ sc = .block → Runs s o sc →
    let s1 := reading s o (rowSrcs fl a b)
    let ms := targets s1 o sc
    let choices := if ms.any fun q => openReads s1 q (rowSrcs fl a b) then ms.length else 0
    Commands s { s1 with free := s1.free + choices } o i sc m
      { newOp s1 o k sc (encode i) fl.toNat 0 (rdS s1 o b) with
          count := 32 * ms.length, rows := captureRows s1 ms (blockBase a) (aRegs fl) }) ∧
  ∀ (s : State) (core n : Nat) (op : EngOp), (getCore s core).waiting[n]? = some op → op.who.core = core →
    (wgOf s op.who).batonWait = false →
    let c := getCore s core
    ∀ s2, (acceptOp op).run (setCore s core { c with waiting := c.waiting.eraseIdx n }) = (.ok (), s2) →
      (warpOf s2 op.who).step = none →
      let s3 := if op.kind = .mma then progress s2 op.who else s2
      let pc := (streamOf s3 op.who).pc + 4
      Accepted s2 op ∧
      (op.latch = none → exec (.engineCommandAccept core n) s = .next (retire s3 op.who (fieldW op.word) pc)) ∧
      ∀ g, op.latch = some g →
        exec (.engineCommandAccept core n) s = .next (releaseLatch s3 op.who.core op.who.slot g (fieldW op.word) pc)

namespace Sys2Proof.Claim

/-! ### What engine commands read and write -/

/-- No data changes: memory, scratchpads and bin floors (`SameMemory`), and the accumulators, weights and gradients of every core
(R300). -/
structure Unwritten (s t : State) : Prop where
  memory : SameMemory s t
  matrix : ∀ c, (getCore t c).acc = (getCore s c).acc ∧ (getCore t c).accOld = (getCore s c).accOld ∧
    (getCore t c).weights = (getCore s c).weights ∧ (getCore t c).grad = (getCore s c).grad

/-- The n-th accepted command of a core has done one unit of its work, from s to t; it is `op` before and `q` after. The stores of
the core path that it could read have all been performed (R256). -/
structure Advances (s t : State) (core n : Nat) (op q : EngOp) : Prop where
  at_   : (getCore s core).ops[n]? = some op
  own   : op.who.core = core
  alone : ∀ m x, (getCore s core).ops[m]? = some x → x.id = op.id → m = n
  seen  : ∀ p ∈ s.pend, p.atDev = true
  runs  : t = progressOp s core n 1
  after : (getCore t core).ops[n]? = some q
  fault : q.fault = none
  moved : q.pos = op.pos + 1 ∨ q.row.length < op.row.length

/-- Where bytes that an engine accesses stand: in a scratchpad, a bin floor, or memory. -/
inductive Spot where
  | pad | floor | mem

/-- n bytes at `a` of a tensor's space stand at `x` for the command (R226, R256, R270, R303): a scratchpad offset within the
allotment, a bin-floor offset within its share, or the place that translation gives a virtual address. -/
def At (s : State) (op : EngOp) (need : Need) (space a n : Nat) (k : Spot) (x : Nat) : Prop :=
  if space = 1 then k = .pad ∧ x = a ∧ a + n ≤ (wgOf s op.who).hdr.scratch
  else if space = 2 then k = .floor ∧ x = op.share.1 + a ∧ a + n ≤ op.share.2
  else k = .mem ∧ ∃ s1 s2, Unwritten s s1 ∧ (engPhys (envOf op) need a).run s1 = (.ok x, s2)

/-- The n bytes that stand there, as a little-endian number (R1). -/
def numberAt (s : State) (op : EngOp) (k : Spot) (x n : Nat) : Nat :=
  match k with
  | .pad => leValue (scratchRead s op.who.core op.who.slot x n)
  | .floor => leValue (floorRead s op.who.core x n)
  | .mem => leValue (physRead s op.ctx x n)

/-- The n bytes that stand there become f of what they were, and no other byte changes. -/
structure Changes (op : EngOp) (k : Spot) (x n : Nat) (f : Nat → Nat) (s t : State) : Prop where
  value  : (k = .mem → homeOf x ≠ .unbacked) → numberAt t op k x n = f (numberAt s op k x n) % 2 ^ (8 * n)
  pad    : ∀ core slot a, ¬ (k = .pad ∧ core = op.who.core ∧ slot = op.who.slot ∧ x ≤ a ∧ a < x + n) →
    (getWg t core slot).scratch.rd a = (getWg s core slot).scratch.rd a
  floor  : ∀ core a, ¬ (k = .floor ∧ core = op.who.core ∧ x ≤ a ∧ a < x + n) →
    (getCore t core).floor.rd a = (getCore s core).floor.rd a
  mem    : ∀ ctx pa,
    ¬ (k = .mem ∧ placeOf s op.ctx x ≤ placeOf s ctx pa ∧ placeOf s ctx pa < placeOf s op.ctx x + n) →
      physRead t ctx pa 1 = physRead s ctx pa 1
  matrix : ∀ c, (getCore t c).acc = (getCore s c).acc ∧ (getCore t c).accOld = (getCore s c).accOld ∧
    (getCore t c).weights = (getCore s c).weights ∧ (getCore t c).grad = (getCore s c).grad

/-- The bits of element c of a tensor (R70, R271): 0 outside it. -/
def Bits (s : State) (op : EngOp) (d : Desc) (c : Coord) (v : Nat) : Prop :=
  if inside d c = true then
    ∃ k x, At s op .read d.space (byteAt d (elemOff d c)) (elBytes d.ty) k x ∧
      let b := numberAt s op k x (elBytes d.ty)
      v = if d.ty = .c4 then (if elemOff d c % 2 = 1 then b / 16 else b % 16) else b
  else v = 0

/-- The codebook of a c4 tensor (R76, R270): the predefined one, or 16 BF16 patterns in memory; none of another tensor. -/
def Book (s : State) (op : EngOp) (d : Desc) (book : List Nat) : Prop :=
  if d.ty = .c4 then
    if d.book = 0 then book = codebook0
    else ∃ k x, At s op .read 0 d.book 32 k x ∧
      book = (List.range 16).map fun j => numberAt s op k x 32 / 65536 ^ j % 65536
  else book = []

/-- The scale code of element c (R77, R83): the byte of its block, and 127 (for 1) under GEOM 0. Under bitmap geometry `bs` are
the bitmap's bytes up to the element's. -/
def ScaleCode (s : State) (op : EngOp) (d : Desc) (c : Coord) (code : Nat) : Prop :=
  let byte := fun (block : Nat) => ∃ k x, At s op .read d.space (d.scaleb + block) 1 k x ∧ code = numberAt s op k x 1
  (d.geom = 0 → code = 127) ∧ (d.geom = 1 → byte (fixedBlock d c)) ∧
  (d.geom ≠ 0 → d.geom ≠ 1 → ∃ bs : List Byte, byte (bitmapBlock bs (dimOf d 0) d.len (elemNum d c)) ∧
    ∀ i, i ≤ elemNum d c / 8 → ∃ k x, At s op .read d.space (d.bitmap + i) 1 k x ∧ (bs.getD i 0).toNat = numberAt s op k x 1)

/-- The exact value of element c under its scale and codebook (R75, R77): +0 outside the tensor (R271). -/
def Value (s : State) (op : EngOp) (d : Desc) (c : Coord) (v : FVal) : Prop :=
  if inside d c = true then
    ∃ x book code, Bits s op d c x ∧ Book s op d book ∧ ScaleCode s op d c code ∧ v = scaleOf code (elValue d.ty book x)
  else v = .fin false 0 0

/-- Element c of a tensor takes the bits v, a c4 element in its nibble (R70); nothing is written outside the tensor (R271). -/
def Puts (op : EngOp) (d : Desc) (c : Coord) (v : Nat) (s t : State) : Prop :=
  if inside d c = true then
    ∃ k x, At s op .write d.space (byteAt d (elemOff d c)) (elBytes d.ty) k x ∧
      Changes op k x (elBytes d.ty)
        (fun old => if d.ty = .c4 then (if elemOff d c % 2 = 1 then old % 16 + 16 * (v % 16) else old / 16 * 16 + v % 16)
          else v) s t
  else Unwritten s t

/-- Elements take their bits, one after another. -/
def PutsAll (op : EngOp) (d : Desc) : List (Coord × Nat) → State → State → Prop
  | [], s, t => Unwritten s t
  | (c, v) :: r, s, t => ∃ s1, Puts op d c v s s1 ∧ PutsAll op d r s1 t

/-! ### Copies, gathers and forwards -/

/-- The bits of +0 in a tensor's format; in c4 the code nearest to 0 (log entry 61). -/
def Zero (s : State) (op : EngOp) (d : Desc) (v : Nat) : Prop :=
  if d.ty = .c4 then ∃ book, Book s op d book ∧ v = toCodebook (book.map (fpDecode fmtBF16)) (.fin false 0 0) else v = 0

/-- copy_value of an element of sd in the format of dd (R284). -/
def Copied (s : State) (op : EngOp) (sd dd : Desc) (c : Coord) (v : Nat) : Prop :=
  (inside sd c = false → Zero s op dd v) ∧ (inside sd c = true → sd.ty = dd.ty → Bits s op sd c v) ∧
  (inside sd c = true → sd.ty ≠ dd.ty → ∃ x, Value s op sd c x ∧ v = (convertTo dd.ty (op.a.getLsbD 16) x).1)

/-- A 16-bit field of a word. -/
def half16 (x : Word) (i : Nat) : Nat := (piece 16 i x).toNat

/-- The elements that a unit of a copy completes (R285): two of a c4 destination, else one. -/
def perUnitOf (d : Desc) : Nat := if d.ty = .c4 then 2 else 1

/-- CPY (R283–R285): the next elements of tile (DX, DY) take the copies of those of tile (SX, SY), in tile order. -/
def CopyUnits : Prop :=
  ∀ s t core n op q, Advances s t core n op q → op.kind = .cpy →
    let sd := descAt op.src
    let dd := descAt op.dst
    let k := perUnitOf dd
    q = { op with pos := op.pos + 1, paused := none } ∧ ∃ vs : List Nat, vs.length = k ∧
      (∀ j, j < k → Copied s op sd dd (tileCoord sd (half16 op.b 0) (half16 op.b 1) (op.pos * k + j)) (vs.getD j 0)) ∧
      PutsAll op dd ((List.range k).map fun j =>
        (tileCoord dd (half16 op.b 2) (half16 op.b 3) (op.pos * k + j), vs.getD j 0)) s t

/-- Entry e of an index list as CPYG reads it (R286): −1 outside the list. -/
def Listed (s : State) (op : EngOp) (d : Desc) (e : Nat) (i : BitVec 32) : Prop :=
  (e < dimOf d 0 → ∃ x, Bits s op d { x := e, y := 0, z := 0, w := 0 } x ∧ i = BitVec.ofNat 32 x) ∧
  (dimOf d 0 ≤ e → i = BitVec.allOnes 32)

/-- CPYG (R286): the next elements of the destination tile take copies of the source row that the list names, or zeros for a
negative index; the list is read with the first element of a row. An index past the source's rows stops the command. -/
def GatherUnits : Prop :=
  ∀ s t core n op q, Advances s t core n op q → op.kind = .cpyg →
    let sd := descAt op.src
    let dd := descAt op.dst
    let k := perUnitOf dd
    let t0 := tileExt dd 0
    ∃ (i : BitVec 32) (vs : List Nat), vs.length = k ∧ q = { op with pos := op.pos + 1, paused := none, amaxs := q.amaxs } ∧
      tgetD 0 q.amaxs 0 = i ∧
      (op.pos * k % t0 = 0 → Listed s op (descAt op.idx) (half16 op.b 0 + op.pos * k / t0) i) ∧
      (op.pos * k % t0 ≠ 0 → i = tgetD 0 op.amaxs 0) ∧ (i.msb = false → i.toNat < dimOf sd 1) ∧
      (∀ j, j < k → if i.msb = true then Zero s op dd (vs.getD j 0)
        else Copied s op sd dd
          { x := half16 op.b 1 * tileExt sd 0 + (op.pos * k + j) % t0, y := i.toNat, z := 0, w := 0 } (vs.getD j 0)) ∧
      PutsAll op dd ((List.range k).map fun j =>
        (tileCoord dd (half16 op.b 2) (half16 op.b 3) (op.pos * k + j), vs.getD j 0)) s t

/-- A message leaves for a chip (R256, R399): it joins the channel's end, or on this module itself it is performed. -/
def Sent (s t : State) (chip : Nat) (m : PeerMsg) : Prop :=
  s.chip.getLsbD 8 = true ∧
  (chip ≠ (s.chip.setWidth 8).toNat → t.outbox = s.outbox ++ [(chip, .peer m)] ∧ Unwritten s t) ∧
  (chip = (s.chip.setWidth 8).toNat → ∃ s1, Unwritten s s1 ∧ (deliver s1 m).2 = .ok ∧ Unwritten (deliver s1 m).1 t)

/-- CPYX (R287): row n of the source tile leaves for DEST + n × DSTRIDE, its elements side by side and not converted; after the
rows the arrival, and then the record. -/
def ForwardUnits : Prop :=
  ∀ s t core n op q, Advances s t core n op q → op.kind = .cpyx →
    let d := descAt op.src
    let f := op.aux
    let t0 := tileExt d 0
    let w := elWidth d.ty
    let rows := tileExt d 1 * tileExt d 2 * tileExt d 3
    let send := Sent s t (field f 0 0)
    let ctx := field f 1 1
    q = { op with pos := op.pos + 1, paused := none } ∧
    (op.pos < rows → ∃ bs : List Byte, bs.length = t0 * w / 8 ∧
      send (.row ctx (field f 8 15 + op.pos * field f 16 19) bs) ∧
      ∀ k, k < t0 → w * (k + 1) ≤ 8 * bs.length →
        let c := tileCoord d (field f 4 5) (field f 6 7) (op.pos * t0 + k)
        ∃ x, leValue bs / 2 ^ (w * k) % 2 ^ w = x ∧
          (inside d c = true → Bits s op d c x) ∧ (inside d c = false → Zero s op d x)) ∧
    (op.pos = rows → (field f 2 2).testBit 0 = true → send (.arrival ctx (field f 24 31))) ∧
    (rows ≤ op.pos → ¬ (op.pos = rows ∧ (field f 2 2).testBit 0 = true) → send (.record ctx op.record))

/-! ### Chains -/

/-- The type that a step's code names (R270, R290). -/
def typeOf (t : ChainStep) : ElTy := (elTyOf t.ty).getD .f32

/-- What a selector names (R290): an input, constant K in the step's type, the last result, or an earlier one. -/
def chosen (op : EngOp) (ty : ElTy) (in0 in1 : FVal) (rs : List (ElTy × Nat)) (k : Nat) : Nat → Option FVal
  | 0 => some in0
  | 1 => some in1
  | 2 => some (elValue ty codebook0 ((tgetD 0 op.consts k).toNat % 2 ^ elWidth ty))
  | 3 => rs.getLast?.map fun r => elValue r.1 codebook0 r.2
  | n + 8 => rs[n]?.map fun r => elValue r.1 codebook0 r.2
  | _ => none

/-- The table of R291 in a float format: `k` is the constant in the format, and `n` the scale. -/
def floatTable (f : Fmt) (op a b k : Nat) (n : Int) : Option Nat :=
  match op with
  | 0 => some (fpAdd f a b).1
  | 1 => some (fpMul f a b).1
  | 2 => some (fpFma f k a b).1
  | 3 => some (fpMinMax f false a b).1
  | 4 => some (fpMinMax f true a b).1
  | 5 => some (convertFp f false (scaleVal (fpDecode f a) n)).1
  | 6 => some (fpMinMax f true a 0).1
  | 7 => some (fnSilu f a).1
  | 8 => some (fnExp2 f a).1
  | 11 => some a
  | 12 => some a
  | _ => none

/-- The same in i32. -/
def intTable (op : Nat) (a b : BitVec 32) : Option (BitVec 32) :=
  match op with
  | 0 => some (a + b)
  | 1 => some (a * b)
  | 3 => some (if a.sle b then a else b)
  | 4 => some (if b.sle a then a else b)
  | _ => none

/-- Step t gives x in its type, from the results before it (R290, R291): its sources are converted to the type, but a convert
step converts the exact value. -/
def StepGives (op : EngOp) (t : ChainStep) (in0 in1 : FVal) (rs : List (ElTy × Nat)) (x : Nat) : Prop :=
  let ty := typeOf t
  let src := chosen op ty in0 in1 rs t.k
  ∃ a b, src t.sel1 = some a ∧ (t.op < 5 → src t.sel2 = some b) ∧
    let a' := (convertTo ty false a).1
    let b' := if t.op < 5 then (convertTo ty false b).1 else 0
    let k := tgetD 0 op.consts t.k
    (t.op = 9 → x = (convertTo ty (t.k % 2 = 1) a).1) ∧
    (t.op ≠ 9 → ∀ f, elFmt ty = some f →
      floatTable f t.op a' b' (k.toNat % 2 ^ fmtWidth f) (max (-400) (min 400 (k.setWidth 32).toInt)) = some x) ∧
    (t.op ≠ 9 → ty = .i32 → (intTable t.op (BitVec.ofNat 32 a') (BitVec.ofNat 32 b')).map BitVec.toNat = some x)

/-- The steps give the results `rs`, each from those before it. -/
def StepsGive (op : EngOp) (ts : List ChainStep) (in0 in1 : FVal) (rs : List (ElTy × Nat)) : Prop :=
  rs.length = ts.length ∧ ∀ i t, ts[i]? = some t → ∃ x, rs[i]? = some (typeOf t, x) ∧ StepGives op t in0 in1 (rs.take i) x

/-- The larger of a magnitude and that of an FP32 pattern (R293, R322): NaN counts as 0x7FC00000. -/
def larger (m : BitVec 32) (x : Nat) : BitVec 32 :=
  let y : BitVec 32 := if isNaN (fpDecode fmtF32 x) then 0x7FC00000 else BitVec.ofNat 32 (x % 2 ^ 31)
  if m.ult y then y else m

/-- The signed number m and the exponent e of a finite value m × 2^e. -/
def finiteVal : FVal → Option (Int × Int)
  | .fin s m e => some (if s then -(m : Int) else m, e)
  | .inf _ => none
  | .nan _ => none

/-- A finite value in units of 2^e, where it is a whole number of them. -/
def inUnits (e : Int) (v : FVal) : Option Int :=
  (finiteVal v).bind fun x => if e ≤ x.2 then some (x.1 * 2 ^ (x.2 - e).toNat) else none

/-- exact_chunk_sum of R86 takes `acc` to `r` over the products `ps`, an infinite or NaN factor showing in its product: every
addend is cut to a multiple of 2^(emax − 48), and their sum is rounded once. -/
def ChunkSum (ps : List FVal) (acc r : BitVec 32) : Prop :=
  let xs := ps ++ [fpDecode fmtF32 acc.toNat]
  ((∃ x ∈ xs, finiteVal x = none) → r = 0x7FC00000) ∧
  ((∀ x ∈ xs, ∃ e, finiteVal x = some (0, e)) → r = if xs.all isNeg then 0x80000000 else 0) ∧
  ∀ (e : Int) (ms : List Int) (top : Nat), e ≤ -149 → xs.map (inUnits e) = ms.map some → 48 ≤ top →
    (∃ m ∈ ms, m ≠ 0 ∧ Nat.log2 m.natAbs = top) → (∀ m ∈ ms, Nat.log2 m.natAbs ≤ top) →
    let u : Int := 2 ^ (top - 48)
    let sum := (ms.map fun m => m.tdiv u * u).sum
    (sum = 0 → r = 0) ∧ (sum ≠ 0 → RoundsIn fmtF32 (2 ^ (-149 - e).toNat) sum r.toNat)

/-- The sum step i takes the value x (R293): it waits for its chunk of 32, which is then applied. -/
def Summed (op q : EngOp) (i x : Nat) : Prop :=
  let part := tgetD [] op.parts i ++ [fpDecode fmtF32 x]
  if part.length = 32 then tgetD [] q.parts i = [] ∧ ChunkSum part (tgetD 0 op.sums i) (tgetD 0 q.sums i)
  else tgetD [] q.parts i = part ∧ tgetD 0 q.sums i = tgetD 0 op.sums i

/-- The chain's steps are the valid ones that acceptance took (R289–R292), the last of them alone a quantise step. -/
structure StepsFit (op : EngOp) (ts : List ChainStep) : Prop where
  steps : stepsOf op.aux = ts
  some_ : ts ≠ []
  fit   : ∀ (i : Nat) t, ts[i]? = some t → stepOk ts.length i t = true

/-- Bits of a bitmap from number n take their values, one after another (R83). -/
def MapsAll (op : EngOp) (d : Desc) (n : Nat) : List Bool → State → State → Prop
  | [], s, t => Unwritten s t
  | b :: r, s, t => ∃ s1 k x, At s op .write d.space (d.bitmap + n / 8) 1 k x ∧
      Changes op k x 1 (fun old => if b then old ||| 2 ^ (n % 8) else old &&& (255 - 2 ^ (n % 8))) s s1 ∧ MapsAll op d (n + 1) r s1 t

/-- Scale bytes from block n take their codes, one after another (R83). -/
def ScalesAll (op : EngOp) (d : Desc) (n : Nat) : List Nat → State → State → Prop
  | [], s, t => Unwritten s t
  | c :: r, s, t => ∃ s1 k x, At s op .write d.space (d.scaleb + n) 1 k x ∧ Changes op k x 1 (fun _ => c) s s1 ∧
      ScalesAll op d (n + 1) r s1 t

/-- The word at a virtual address takes the larger of what stands there and v, as one atomic of the core (R260, R293, R322): in the
scratchpad through the window, or in device memory, where the core's own stored bytes go first. -/
def Raised (s t : State) (op : EngOp) (a v : Nat) : Prop :=
  a % 4 = 0 ∧
  if a < 2 ^ 56 ∧ inWindow a = true then
    Changes op .pad (a - Config.windowBase) 4 (fun old => max old v) s t ∧
      a - Config.windowBase + 4 ≤ (wgOf s op.who).hdr.scratch
  else ∃ pa s1 s2, Unwritten s s1 ∧ (engPhys (envOf op) .both a).run s1 = (.ok pa, s2) ∧
    (pa + 4 ≤ Config.deviceEnd → LinesSound s op.who.core → s.checks = [] →
      let word := fun (s : State) => leValue ((List.range 4).map fun k => ownByte s op.who.core (pa + k))
      word t = max (word s) v ∧
      ∀ x, x < Config.deviceEnd → x < pa ∨ pa + 4 ≤ x → ownByte t op.who.core x = ownByte s op.who.core x)

/-- CHAIN (R289–R294). While elements are left and no row is whole: the steps run on the next element; the last result, converted,
becomes the element of OUT, or a quantise step's exact source waits with its row; amax and sum steps take their values. A row
that is whole is quantised: codes, bitmap bits and scale bytes, or one code at a time under GEOM 0. After the last
element the amax and sum steps are performed in step order. -/
def ChainUnits : Prop :=
  ∀ s t core n op q ts, Advances s t core n op q → op.kind = .chain → StepsFit op ts →
    let d0 := descAt op.src
    let d1 := descAt op.idx
    let od := descAt op.dst
    let count := field op.aux 8 15
    let quant := ts.getLast?.map ChainStep.op = some 10
    let whole := quant ∧ op.row ≠ [] ∧ (op.pos % dimOf od 0 = 0 ∨ op.pos = count)
    (¬ whole → op.pos < count → ∃ in0 in1 rs, q.pos = op.pos + 1 ∧
      Value s op d0 (linCoord d0 op.pos) in0 ∧ (op.idx ≠ [] → Value s op d1 (linCoord d1 op.pos) in1) ∧
      (op.idx = [] → in1 = .fin false 0 0) ∧
      StepsGive op (if quant then ts.dropLast else ts) in0 in1 rs ∧
      (∀ (i : Nat) t x, ts[i]? = some t → (rs[i]?).map Prod.snd = some x →
        (t.op = 11 → tgetD 0 q.amaxs i = larger (tgetD 0 op.amaxs i) x) ∧ (t.op = 12 → Summed op q i x)) ∧
      (quant → Unwritten s t ∧ ∃ last v, ts.getLast? = some last ∧ chosen op (typeOf last) in0 in1 rs last.k last.sel1 = some v ∧
        q.row = op.row ++ [v]) ∧
      (¬ quant → ∃ ty x, rs.getLast? = some (ty, x) ∧
        Puts op od (linCoord od op.pos) (convertTo od.ty false (elValue ty codebook0 x)).1 s t)) ∧
    (whole → ∃ book, Book s op od book ∧ q.pos = op.pos ∧
      let first := op.pos - op.row.length
      let values := book.map (fpDecode fmtBF16)
      let codes := (quantRow od values op.row).1
      (od.geom = 0 → q.row = op.row.drop 1 ∧ PutsAll op od ((codes.take 1).map fun c => (linCoord od first, c)) s t) ∧
      (od.geom ≠ 0 → q.row = [] ∧ q.blocks = op.blocks + (quantRow od values op.row).2.2.length ∧ ∃ s1 s2,
        PutsAll op od (codes.zipIdx.map fun c => (linCoord od (first + c.2), c.1)) s s1 ∧
        (od.geom = 2 → MapsAll op od first (quantRow od values op.row).2.1 s1 s2) ∧ (od.geom ≠ 2 → Unwritten s1 s2) ∧
        ScalesAll op od op.blocks (quantRow od values op.row).2.2 s2 t)) ∧
    (¬ whole → count ≤ op.pos →
      let ends := (ts.zipIdx.filter fun x => (x.1.op = 11 ∧ count ≠ 0) ∨ x.1.op = 12)
      ∀ st i, ends[op.pos - count]? = some (st, i) →
        let a := (tgetD 0 op.consts st.k).toNat
        (st.op = 11 → Raised s t op a (tgetD 0 op.amaxs i).toNat) ∧
        (st.op = 12 → a % 4 = 0 ∧ ∃ k x sum, Changes op k x 4 (fun _ => sum) s t ∧
          (tgetD [] op.parts i = [] → sum = (tgetD 0 op.sums i).toNat) ∧
          (tgetD [] op.parts i ≠ [] → ∃ r, sum = r.toNat ∧ ChunkSum (tgetD [] op.parts i) (tgetD 0 op.sums i) r) ∧
          if a < 2 ^ 56 ∧ inWindow a = true then k = .pad ∧ x = a - Config.windowBase else At s op .write 0 a 4 k x))

/-! ### Collectives -/

/-- x_r(n) of R405: the value of element n that rank r has contributed. -/
def contributed (op : EngOp) (r n : Nat) : FVal := (tgetD [] op.got r).getD n (.fin false 0 0)

/-- reduce(n) of R405 is v, over `ranks` ranks. How the 32 bits of an integer sum count is the model's reading (log entry 34). -/
def Reduced (op : EngOp) (ranks n : Nat) (v : FVal) : Prop :=
  let x := fun r => contributed op r n
  let all := List.range ranks
  (field op.aux 1 1 = 0 → ∃ acc : Nat → BitVec 32, acc 0 = 0 ∧
    (∀ c, 32 * c < ranks → ChunkSum ((all.filter fun r => r / 32 = c).map x) (acc c) (acc (c + 1))) ∧
    v = elValue .f32 [] (acc ((ranks + 31) / 32)).toNat) ∧
  (field op.aux 1 1 = 1 → ∃ i : Int, v = valOfInt i ∧ (i - (all.map fun r => intOf (x r)).sum) % 2 ^ 32 = 0 ∧
    if isUnsignedTy (descAt op.src).ty = true ∨ isUnsignedTy (descAt op.dst).ty = true then 0 ≤ i ∧ i < 2 ^ 32
    else -(2 ^ 31) ≤ i ∧ i < 2 ^ 31) ∧
  (field op.aux 1 1 = 2 →
    v = elValue .f32 [] (all.foldl (fun acc r => (fpMinMax fmtF32 true acc (convertTo .f32 false (x r)).1).1) 0xFF800000))

/-- DST(i) of R405 is v. -/
def Collected (op : EngOp) (i : Nat) (v : FVal) : Prop :=
  let ms := collMembers op
  let rank := collRank op
  let count := field op.aux 8 15
  (field op.aux 0 0 = 0 → Reduced op ms.length i v) ∧
  (field op.aux 0 0 = 1 → Reduced op ms.length (startOf count ms rank + i) v) ∧
  (field op.aux 0 0 = 2 → ∀ r j, r < ms.length → startOf count ms r + j < startOf count ms (r + 1) →
    i = startOf count ms r + j → v = contributed op r j) ∧
  (field op.aux 0 0 = 3 → v = contributed op (i / count) (rank * count + i % count))

/-- COLL (R404–R406): SRC is read whole and sent to every other member; then, the contributions being there, DST is written
element by element with what R405 gives, in DST's format. -/
def CollUnits : Prop :=
  ∀ s t core n op q, Advances s t core n op q → op.kind = .coll →
    let sd := descAt op.src
    let dd := descAt op.dst
    (op.pos = 0 → ∃ vs : List FVal, vs.length = (collElems op).1 ∧ Unwritten s t ∧
      (∀ i, i < vs.length → Value s op sd (linCoord sd i) (vs.getD i (.fin false 0 0))) ∧
      tget? q.got (collRank op) = some vs ∧
      t.outbox = s.outbox ++ ((collMembers op).zipIdx.filter fun m => m.2 ≠ collRank op).map fun m =>
        (m.1.1, OutMsg.coll (collTag op) (collDigest op) (collRank op) vs)) ∧
    (op.pos ≠ 0 → ∃ v, Collected op (op.pos - 1) v ∧
      Puts op dd (linCoord dd (op.pos - 1)) (convertTo dd.ty false v).1 s t)

/-! ### The matrix path -/

/-- A weight, an accumulator that the command works on, and a gradient (R300). -/
def weightAt (s : State) (core b k n : Nat) : FVal := (weightRow (getCore s core) b k).getD n (.fin false 0 0)
def accAt (s : State) (op : EngOp) (i n : Nat) : BitVec 32 := (tgetD zeroRow (accOf (getCore s op.who.core) op.id) i).getD n 0
def gradAt (s : State) (core b k n : Nat) : BitVec 32 := (tgetD zeroRow (getCore s core).grad (128 * b + k)).getD n 0

/-- The rows of the matrix stores have 128 elements (R300). -/
structure RowsWhole (s : State) (op : EngOp) : Prop where
  weights : ∀ b k, (weightRow (getCore s op.who.core) b k).length = 128
  acc     : ∀ i, (tgetD zeroRow (accOf (getCore s op.who.core) op.id) i).length = 128
  grad    : ∀ i, (tgetD zeroRow (getCore s op.who.core).grad i).length = 128

/-- MLOAD (R318): the next weight of the bank is the exact value of its element; no other weight changes. -/
def LoadUnits : Prop :=
  ∀ s t core i op q, Advances s t core i op q → op.kind = .mload → RowsWhole s op → op.pos < 16384 →
    let n := op.pos % 128
    let k := op.pos / 128
    q = { op with pos := op.pos + 1, paused := none } ∧ SameMemory s t ∧
    (∀ r x, accAt t op r x = accAt s op r x) ∧ (∀ b r x, gradAt t core b r x = gradAt s core b r x) ∧
    ∃ v, Value s op (descAt op.src) { x := half16 op.b 1 * 128 + n, y := half16 op.b 2 * 128 + k, z := 0, w := 0 } v ∧
      ∀ b r x, r < 128 → weightAt t core b r x = if b = op.imm ∧ r = k ∧ x = n then v else weightAt s core b r x

/-- Element k of a row of A with its scale (R314, R315). -/
def aOf (op : EngOp) (r : MatRow) (k : Nat) : FVal :=
  let ty := aType (op.imm / 4 % 4)
  let v := elValue ty [] (part (elWidth ty) (k % (64 / elWidth ty)) (r.regs.getD (k * elWidth ty / 64) 0))
  if op.scales = [] then v else scaleOf (op.scales.getD (128 * r.row + k) 127) v

/-- MMA (R301, R320): the next row of the command's accumulators takes, where it is present and routed, the four chunk sums of its
products with the bank's weights, for each output; else it keeps its value. Under ZERO every row of the command is +0
first. -/
def MmaUnits : Prop :=
  ∀ s t core i op q, Advances s t core i op q → op.kind = .mma → RowsWhole s op →
    let first := (piece 8 0 op.b).toNat
    let old := fun r x =>
      if op.imm.testBit 1 = true ∧ op.pos = 0 ∧ first ≤ r ∧ r < first + op.count then 0 else accAt s op r x
    let row := op.rows.find? fun r => r.row == op.pos
    q = { op with pos := op.pos + 1, paused := none } ∧ SameMemory s t ∧
    (∀ b r x, weightAt t core b r x = weightAt s core b r x) ∧ (∀ b r x, gradAt t core b r x = gradAt s core b r x) ∧
    (∀ r x, r ≠ first + op.pos → accAt t op r x = old r x) ∧
    ((∀ a, row = some a → a.bank = none ∨ a.failed = true) → ∀ x, accAt t op (first + op.pos) x = old (first + op.pos) x) ∧
    ∀ a b, row = some a → a.bank = some b → a.failed = false → ∀ x, x < 128 → ∃ acc : Nat → BitVec 32,
      acc 0 = old (first + op.pos) x ∧ acc 4 = accAt t op (first + op.pos) x ∧
      ∀ c, c < 4 → ChunkSum ((List.range 32).map fun j =>
        (if op.imm / 4 % 4 = 3 then intProduct else mulVal) (aOf op a (32 * c + j)) (weightAt s core b (32 * c + j) x))
          (acc c) (acc (c + 1))

/-- MGRAD (R321): each tile of a bank that receives rows of the next chunk takes the chunk sum of their products with G, for each
k and n; the others keep theirs. Under ZERO the tile of every bank that receives a row is +0 first. -/
def MgradUnits : Prop :=
  ∀ s t core i op q, Advances s t core i op q → op.kind = .mgrad → RowsWhole s op → (op.rows.map MatRow.row).Nodup →
    let rs := op.rows.filter fun r => r.row / 32 == op.pos && r.bank.isSome
    let old := fun b k n =>
      if op.imm.testBit 1 = true ∧ op.pos = 0 ∧ (∃ r ∈ op.rows, r.bank = some b) then 0 else gradAt s core b k n
    q = { op with pos := op.pos + 1, paused := none } ∧ SameMemory s t ∧
    (∀ r x, accAt t op r x = accAt s op r x) ∧ (∀ b r x, weightAt t core b r x = weightAt s core b r x) ∧
    ∃ g : Nat → Nat → FVal,
      (∀ r ∈ rs, ∀ n, n < 128 →
        Value s op (descAt op.src) { x := n, y := half16 op.b 2 * op.count + r.row, z := 0, w := 0 } (g r.row n)) ∧
      ∀ b k n, k < 128 → n < 128 →
        let mine := rs.filter fun r => r.bank == some b
        (mine = [] → gradAt t core b k n = old b k n) ∧
        (mine ≠ [] → ChunkSum (mine.map fun r => mulVal (aOf op r k) (g r.row n)) (old b k n) (gradAt t core b k n))

/-- MSTORE (R322): the next element of the tile takes the accumulator or gradient that it drains, converted, and the amax follows
it; after the last one the amax is sent. -/
def StoreUnits : Prop :=
  ∀ s t core i op q, Advances s t core i op q → op.kind = .mstore →
    let d := descAt op.dst
    let rows := tileExt d 1
    let n := op.pos % 128
    let j := op.pos / 128
    (op.pos < 128 * rows →
      let x := (if op.imm.testBit 0 then gradAt s core (op.imm / 8 % 4) j n
        else accAt s op ((piece 8 1 op.a).toNat + j) n).toNat
      Puts op d { x := half16 op.a 1 * 128 + n, y := half16 op.a 2 * rows + j, z := 0, w := 0 }
        (convertTo d.ty (op.imm.testBit 5) (elValue .f32 [] x)).1 s t ∧
      q = { op with pos := op.pos + 1, paused := none, amaxs := q.amaxs } ∧
      tgetD 0 q.amaxs 0 = larger (tgetD 0 op.amaxs 0) x) ∧
    (128 * rows ≤ op.pos → Raised s t op op.b.toNat (tgetD 0 op.amaxs 0).toNat)

/-- A command that nothing holds goes on: a copy that neither converts nor leaves the scratchpad or the bin floor, where every
sector is sound and the tensors' elements lie within it; a row of an MMA that is not routed to a load that failed; and
an element of an MSTORE whose place in the scratchpad is sound. -/
def UnitsGoOn : Prop :=
  ∀ (s : State) (core n : Nat) (op : EngOp), (getCore s core).ops[n]? = some op → op.who.core = core →
    (∀ m x, (getCore s core).ops[m]? = some x → x.id = op.id → m = n) → opDone op = false → opBlocked s op = false →
    s.coreChecks = [] →
    let fits := fun (d : Desc) => ∀ c, inside d c = true → (d.space = 1 ∨ d.space = 2) ∧
      byteAt d (elemOff d c) + elBytes d.ty ≤ if d.space = 1 then (wgOf s op.who).hdr.scratch else op.share.2
    let moves := ∃ q, (getCore (progressOp s core n 1) core).ops[n]? = some q ∧ q.pos = op.pos + 1 ∧ q.fault = none
    (op.kind = .cpy → fits (descAt op.src) → fits (descAt op.dst) → (descAt op.src).ty = (descAt op.dst).ty →
      (descAt op.dst).ty ≠ .c4 → moves) ∧
    (op.kind = .mma → (∀ r ∈ op.rows, r.failed = false) → moves) ∧
    (op.kind = .mstore → fits (descAt op.dst) → (descAt op.dst).ty ≠ .c4 → op.pos < 128 * tileExt (descAt op.dst) 1 → moves)

end Sys2Proof.Claim

/-- R210, R274, R284–R287, R290–R293, R303, R405: a command takes its place in the queue and all its scoreboard entries at
once, or waits and takes none; a core that is halting, a copy queue of 128, a flume queue of 16, or too few of the 128
entries makes it wait, and so does a share write of its context in progress where it names a tensor in the bin floor.
Unit by unit, CPY and CPYG write the copies of their elements, CPYX sends its rows, the arrival and the record, CHAIN writes the
results of its steps, and COLL sends its input and writes what the collective gives. The chains' and collectives' open
points are the model's (log entries 34 and 61). -/
def Obligations.QueuePlaces : Prop :=
  (CopyUnits ∧ GatherUnits ∧ ForwardUnits ∧ ChainUnits ∧ CollUnits ∧ UnitsGoOn) ∧
  (∀ (s : State) (op : EngOp) (i : Nat) (d : Desc), parseDesc (tgetD [] (wgOf s op.who).tensors i) false = some d →
    d.space = 2 → (∃ q ∈ s.bfloorOps, q.1.extractLsb' 40 6 = BitVec.ofNat 6 op.ctx) → op.ctx < 64 →
    (descOf op i).run s =
      (.error (.inr .accept), updCore s op.who.core fun c => { c with waiting := c.waiting ++ [op] })) ∧
  ∀ (s : State) (op : EngOp) (rs : List Region),
    let core := op.who.core
    let c := getCore s core
    let es := entriesOf op.who.slot s.nextId (shareOf s op.ctx) rs
    (∀ q t, (enterQueue op rs).run s = (.ok q, t) →
      c.halting = false ∧ c.sb.length + es.length ≤ 128 ∧ (pathOf op.kind = 1 → queued s core 1 < 128) ∧
      (pathOf op.kind = 2 → queued s core 2 < 16) ∧ q.id = s.nextId ∧ q.kind = op.kind ∧ q.who = op.who ∧
      (getCore t core).ops = c.ops ++ [q] ∧ (getCore t core).sb = c.sb ++ es ∧ (getCore t core).waiting = c.waiting ∧
      { t with cores := s.cores, nextId := s.nextId } = s ∧ t.nextId = s.nextId + 1 ∧
      ∀ k, k ≠ core → getCore t k = getCore s k) ∧
    ∀ w t, (enterQueue op rs).run s = (.error (.inr w), t) →
      w = .accept ∧ t = updCore s core fun c => { c with waiting := c.waiting ++ [op] }

/-- R207, R266, R273, R288, R312, R323, R324, R325: TDEF loads a slot with the 64 bytes at its address, in the scratchpad or in
memory, stored bytes of the core's own line among them; CPYC cancels the copies attached to a barrier register and no other command;
MCLOSE closes the open batch, or with none open a new one, returns its number, and completes in order the closed batches that have
no command left. In deterministic mode the three wait for the commit of their round; that MCLOSE does is the model's reading (log
entry 62). MWAIT completes once its batch has, the lanes that its rows missed marked, and waits till then. -/
def Obligations.EngineControls : Prop :=
  ∀ (s : State) (o : Who) (m : Bool) (sc : Scope), sc ≠ .lane → Runs s o sc →
    (∀ (i : BitVec 7) (a : Reg), i.toNat ≤ 63 → srcOk s o sc a = true → Settled s o [a] →
      let v := rdS (reading s o [a]) o a
      ((wgOf s o).det = true → Buffered s o (.tdef m sc i a) sc (.tdef i.toNat v)) ∧
      ((wgOf s o).det = false → ∀ l, Reaches (reading s o [a]) o .load 64 v l → LoadsWhole s o l 64 →
        ∃ s2, exec (.tdef m sc i a) s = .next (after s s2 o sc m) ∧ NoRegs s s2 o ∧ LoadKeeps s s2 o.core ∧
          (∀ off, l = .scratch off → SameMemory s s2) ∧
          tget? (wgOf s2 o).tensors i.toNat = some (bytesAt s o l 64) ∧ tget? (wgOf s2 o).tensorAt i.toNat = some v ∧
          ∀ k, k ≠ i.toNat → tget? (wgOf s2 o).tensors k = tget? (wgOf s o).tensors k)) ∧
    (∀ i : BitVec 7, i.toNat ≤ 15 →
      ((wgOf s o).det = true → Buffered s o (.cpyc m sc i) sc (.cpyc i.toNat)) ∧
      ((wgOf s o).det = false → (wgOf s o).hdr.rights.getLsbD o.warp = true →
        (getBar s o.core o.slot i.toNat).init = true →
        ∃ s2, exec (.cpyc m sc i) s = .next (after s s2 o sc m) ∧ NoRegs s s2 o ∧ SameMemory s s2 ∧
          (warpOf s2 o).gcount = 0 ∧
          (getCore s2 o.core).ops = (getCore s o.core).ops.map fun p =>
            if p.who.slot = o.slot ∧ (p.kind = .cpy ∨ p.kind = .cpyg ∨ p.kind = .cpyx) ∧ p.imm = i.toNat
            then { p with cancelled := true } else p)) ∧
    (∀ d : Reg, dstOk s o sc d = true → (sc = .warp → isS d = true → inConc s o = false) →
      ((wgOf s o).det = true → Buffered s o (.mclose m sc d) sc (.mclose d sc)) ∧
      ((wgOf s o).det = false → ∀ x bs, Closing (wgOf s o) x bs → (bs.map Batch.num).Nodup →
        ∃ s2, exec (.mclose m sc d) s = .next (after s s2 o sc m) ∧ SameMemory s s2 ∧ (wgOf s2 o).closedTo = x.num ∧
          Completed bs (wgOf s2 o).batches ∧ ∀ q ∈ targets s o sc, LateScalar s s2 q d (BitVec.ofNat 64 x.num) 0)) ∧
    (∀ a : Reg, srcOk s o sc a = true → Settled s o [a] →
      let n := (rdS (reading s o [a]) o a).toNat
      (n ≤ (wgOf s o).awaited → ∃ s2, exec (.mwait m sc a) s = .next (after s s2 o sc m) ∧ NoRegs s s2 o ∧
        SameMemory s s2 ∧ (wgOf s2 o).batches = (wgOf s o).batches ∧ (warpOf s2 o).gcount = 0) ∧
      ((wgOf s o).awaited < n → n ≤ (wgOf s o).closedTo → (∃ x ∈ (wgOf s o).batches, x.num ≤ n ∧ x.done = false) →
        ∃ s2, exec (.mwait m sc a) s = .next (waiting s s2 o sc (encode (.mwait m sc a)) (.batch n)) ∧ NoRegs s s2 o ∧
          SameMemory s s2 ∧ OnlyWarp s s2 o) ∧
      ((wgOf s o).awaited < n → n ≤ (wgOf s o).closedTo →
        (∀ x ∈ (wgOf s o).batches, x.num ≤ n → x.done = true ∧ x.recs = []) →
        ∃ s2, exec (.mwait m sc a) s = .next (after s s2 o sc m) ∧ SameMemory s s2 ∧ (warpOf s2 o).gcount = 0 ∧
          (wgOf s2 o).awaited = n ∧
          (wgOf s2 o).batches.map Batch.num = ((wgOf s o).batches.filter fun x => n < x.num).map Batch.num ∧
          ((∀ x ∈ (wgOf s o).batches, x.done = true → x.marked = true ∨ x.missed = []) → NoRegs s s2 o) ∧
          ∀ x ∈ (wgOf s o).batches, x.num ≤ n → x.marked = false → ∀ l ∈ x.missed,
            tget? (wgOf s o).warps (l / 32) ≠ none →
              (tagOf (getWarp s2 o.core o.slot (l / 32)) (l % 32)).getLsbD 15 = true))

namespace Sys2Proof.Claim

/-- The bank operations of R319 as its table gives them: the state and HELD after, from those before; none for a fault. -/
def bankTable : Nat → BankState × Bool → Option (BankState × Bool)
  | 0, x => some x
  | 1, (.loading, _) => some (.loading, true)
  | 1, (.resident, h) => some (.pinned, h)
  | 1, (.pinned, h) => some (.pinned, h)
  | 1, (.grad, _) => some (.grad, true)
  | 2, (.loading, _) => some (.loading, false)
  | 2, (.grad, _) => some (.grad, false)
  | 2, (.pinned, h) => some (.resident, h)
  | 2, x => some x
  | 3, (.empty, h) => some (.empty, h)
  | 3, (.resident, _) => some (.empty, false)
  | _, _ => none

/-- The MBANK words: operation, mark and registers. -/
def bankWords : Instr → Option (Nat × Bool × Reg × Reg)
  | .mbankQuery m d a => some (0, m, d, a)
  | .mbankPin m d a => some (1, m, d, a)
  | .mbankUnpin m d a => some (2, m, d, a)
  | .mbankRelease m d a => some (3, m, d, a)
  | _ => none

/-- The group of an MBATON word (R309, R311). -/
def issuing (s : State) (o : Who) (sc : Scope) (g : Group) : Prop :=
  g.slot = o.slot ∧ if sc = .block then g.g = 4 else (warpOf s o).curSet = some g.g

/-- The query word (R311), where its fields have room: held, the waiters' number, mine, and the holder where it is of the
context; the rest is zero. -/
def QueryWord (c : Core) (me : Group) (ctx : Nat) (v : Word) : Prop :=
  c.waiters.length < 256 → (∀ h, c.baton = some h → h.slot < 32 ∧ h.g ≤ 4) →
    v.getLsbD 63 = c.baton.isSome ∧ v.extractLsb' 24 39 = 0 ∧ v.extractLsb' 16 8 = BitVec.ofNat 8 c.waiters.length ∧
    v.getLsbD 15 = decide (c.baton = some me) ∧ (c.baton = none → v.extractLsb' 0 15 = 0) ∧
    ∀ h, c.baton = some h →
      v.extractLsb' 0 15 = if groupCtx c h = ctx then BitVec.ofNat 15 (256 * h.slot + h.g) else 0

/-- Element n of accumulator row r (R300). -/
def accumulator (c : Core) (r n : Nat) : BitVec 32 := (tgetD zeroRow c.acc r).getD n 0

/-- The accumulators as the grant of the baton to a group leaves them (R302): cleared where another context held it last, but for the
rows that a save of its workgroup kept; commands accepted before go on with the rows that they work on. -/
structure Granted (c d : Core) (h : Group) : Prop where
  baton   : d.baton = some h ∧ d.batonCtx = some (groupCtx c h)
  rows    : let kept := ((tgetD none c.wgs h.slot).map Wg.accSaved).getD []
    (kept.map Prod.fst).Nodup →
      (∀ r n, tget? kept r = none →
        accumulator d r n = if c.batonCtx = some (groupCtx c h) then accumulator c r n else 0) ∧
      ∀ r row, tget? kept r = some row → tgetD zeroRow d.acc r = row
  running : c.batonCtx ≠ some (groupCtx c h) → ∀ p ∈ c.ops, isMatrix p.kind = true → accOf d p.id = accOf c p.id

end Sys2Proof.Claim

/-- R302, R309–R311: TAKE of a free baton takes it, TAKE by the holder keeps it, TAKE of one that another group holds leaves
the group waiting, PASS by the holder gives it to the next waiting group or frees it, and QUERY changes nothing; each
returns the query word of the state it leaves. A grant to a group of another context than the last holder's clears the 192
accumulator rows. -/
def Obligations.BatonWords : Prop :=
  ∀ (s : State) (o : Who) (m : Bool) (sc : Scope) (d : Reg) (g : Group), sc ≠ .lane → Runs s o sc →
    dstOk s o sc d = true → (sc = .warp → isS d = true → inConc s o = false) → issuing s o sc g →
    let c := getCore s o.core
    let word := fun (s2 : State) => ∃ v, QueryWord (getCore s2 o.core) g (wgOf s o).ctx v ∧
      ∀ q ∈ targets s o sc, rdS s2 q d = landed d v
    (c.baton = none → ∃ s2, exec (.mbatonTake m sc d) s = .next (after s s2 o sc m) ∧ word s2 ∧ SameMemory s s2 ∧
      Granted c (getCore s2 o.core) g ∧ (getCore s2 o.core).batonCtx = some (wgOf s o).ctx ∧ (warpOf s2 o).gcount = 0) ∧
    (c.baton = some g → ∃ s2, exec (.mbatonTake m sc d) s = .next (after s s2 o sc m) ∧ word s2 ∧ SameMemory s s2 ∧
      { getCore s2 o.core with wgs := c.wgs } = c ∧ (warpOf s2 o).gcount = 0) ∧
    (∀ h, c.baton = some h → h ≠ g → ∃ s2,
      exec (.mbatonTake m sc d) s = .next (waiting s s2 o sc (encode (.mbatonTake m sc d)) (.baton g.g)) ∧
      NoRegs s s2 o ∧ SameMemory s s2 ∧ (getCore s2 o.core).baton = some h ∧
      ∀ q, q ∈ (getCore s2 o.core).waiters ↔ q ∈ c.waiters ∨ q = g) ∧
    (c.baton = some g → ∃ s2, exec (.mbatonPass m sc d) s = .next (after s s2 o sc m) ∧ word s2 ∧ SameMemory s s2 ∧
      (c.waiters = [] → (getCore s2 o.core).baton = none) ∧
      ∀ q ∈ c.waiters, ∃ h ∈ c.waiters, Granted c (getCore s2 o.core) h ∧ h ∉ (getCore s2 o.core).waiters ∧
        (groupBefore g q = true → groupBefore g h = true ∧ groupBefore q h = false) ∧
        (groupBefore g h = false → groupBefore q h = false)) ∧
    (∃ s2, exec (.mbatonQuery m sc d) s = .next (after s s2 o sc m) ∧ word s2 ∧ SameMemory s s2 ∧
      { getCore s2 o.core with wgs := c.wgs } = c)

/-- R86, R300, R305, R318–R322: MBANK acts on a bank of its context, or an empty one, as its table says, and returns the entry
after. Unit by unit, MLOAD places the weights of a bank, MMA gives accumulator rows their chunk sums, MGRAD the gradient
tiles, and MSTORE writes out what it drains, and its amax. -/
def Obligations.BankWords : Prop :=
  (LoadUnits ∧ MmaUnits ∧ MgradUnits ∧ StoreUnits) ∧
  ∀ (s : State) (o : Who) (i : Instr) (op : Nat) (m : Bool) (d a : Reg), bankWords i = some (op, m, d, a) → Issues s o →
    scalarDst d = true → scalarSrc a = true → Settled s o [a] → (isS d = true → inConc s o = false) →
    ∀ b, b ≤ 3 → rdS (reading s o [a]) o a = BitVec.ofNat 64 b →
    let k := getBank (getCore s o.core) b
    let ctx := (wgOf s o).ctx
    (k.ctx = ctx ∨ op = 0 ∨ k.state = .empty) → ∀ st h, bankTable op (k.state, k.held) = some (st, h) →
    ∃ t v, exec i s = .next t ∧ Retires s t o m ((streamOf s o).pc + 4) ∧ SameMemory s t ∧ ScalarResult s t o d v ∧
      (let k2 := getBank (getCore t o.core) b
       k2 = { k with state := st, held := h, key := if st = .empty ∧ k.state ≠ .empty then 0xFFF else k.key } ∧
       (k2.ctx = ctx → ctx < 64 →
         v.extractLsb' 0 12 = k2.key ∧ v.getLsbD 18 = h ∧ v.getLsbD 19 = k.stale ∧ v.extractLsb' 20 6 = BitVec.ofNat 6 ctx ∧
         v.extractLsb' 12 4 = BitVec.ofNat 4 (bankCode st)) ∧
       (k2.ctx ≠ ctx → v = 0x30FFF)) ∧
      ∀ c, c ≠ b → getBank (getCore t o.core) c = getBank (getCore s o.core) c

namespace Sys2Proof.Claim

/-! ### Completions of engine commands -/

/-- The fault record that a command delivers (R282, R288): none for one that was cancelled. -/
def recordOf (op : EngOp) : Option EngRec :=
  if op.cancelled then none else op.fault.map fun f => { pc := op.pc, opcode := fieldOP op.word, fault := f }

/-- A barrier register after the arrival of a command that does not flip its phase (R276, R277, R282). -/
def arrived (r : Barrier) (e : Option EngRec) : Barrier :=
  { r with cnt := r.cnt + 1, pend := r.pend - 1, prec := if r.prec.isSome then r.prec else e,
           pmore := r.pmore || (r.prec.isSome && e.isSome) }

/-- The completions that arrive at a barrier register: core, place of the command, and the kinds. -/
def arrivalEvent : Instr → Option (Nat × Nat × List EngKind)
  | .copyComplete core n => some (core, n, [.cpy, .cpyg])
  | .cpyxComplete core n none => some (core, n, [.cpyx])
  | .chainComplete core n => some (core, n, [.chain])
  | .collComplete core n => some (core, n, [.coll])
  | _ => none

/-- The completions of matrix commands: core and kind. -/
def matrixEvent : Instr → Option (Nat × EngKind)
  | .mloadComplete core => some (core, .mload)
  | .mmaComplete core => some (core, .mma)
  | .mgradComplete core => some (core, .mgrad)
  | .mstoreComplete core => some (core, .mstore)
  | _ => none

/-- A completed command has left its core's queue and scoreboard (R211, R274). -/
def Leaves (s t : State) (op : EngOp) : Prop :=
  (getCore t op.who.core).ops.map (fun p => (p.id, p.kind, p.who, p.pos)) =
    ((getCore s op.who.core).ops.filter fun p => p.id != op.id).map (fun p => (p.id, p.kind, p.who, p.pos)) ∧
  (getCore t op.who.core).sb = (getCore s op.who.core).sb.filter fun e => e.op != op.id

/-- Its arrival (R265, R277): at once, or in deterministic mode at the next commit. -/
def Arrives (s t : State) (op : EngOp) (e : Option EngRec) : Prop :=
  let r := getBar s op.who.core op.who.slot op.imm
  ((wgOf s op.who).det = false → r.cnt + 1 ≠ r.exp → getBar t op.who.core op.who.slot op.imm = arrived r e) ∧
  ((wgOf s op.who).det = true → getBar t op.who.core op.who.slot op.imm = r ∧
    (wgOf t op.who).arrivals = (wgOf s op.who).arrivals ++ [(op.imm, e)])

/-- Its bank, where it is the latest load there (R306). -/
def LoadEnds (s t : State) (op : EngOp) : Prop :=
  let q := getBank (getCore s op.who.core) op.imm
  q.load = op.id → q.state = .loading →
    getBank (getCore t op.who.core) op.imm =
      if op.fault.isSome then { q with state := .empty, key := 0xFFF, held := false }
      else { q with state := if q.held then .pinned else .resident, held := false }

/-- The matrix stores after a completion: CLEAR of an MSTORE that has drained its whole tile sets the drained rows, or the tile,
to +0 (R322); nothing else there changes. Rows that a grant has set aside for a command accepted before it (R302) are not
the accumulator of the core. -/
def StoresAfter (s t : State) (op : EngOp) : Prop :=
  let c := op.who.core
  let low := (piece 8 1 op.a).toNat
  let rows := tileExt (descAt op.dst) 1
  let clears := op.kind = .mstore ∧ op.imm.testBit 2 = true ∧ 128 * rows ≤ op.pos
  let tile := fun b => clears ∧ op.imm.testBit 0 = true ∧ b = op.imm / 8 % 4
  let row := fun r => clears ∧ op.imm.testBit 0 = false ∧ low ≤ r ∧ r < low + rows ∧
    ∀ e ∈ (getCore s c).accOld, e.1 ≤ op.id
  (∀ b k n, weightAt t c b k n = weightAt s c b k n) ∧
  (∀ b k n, k < 128 → (tile b → gradAt t c b k n = 0) ∧ (¬ tile b → gradAt t c b k n = gradAt s c b k n)) ∧
  ∀ r n, (row r → accumulator (getCore t c) r n = 0) ∧
    (¬ row r → accumulator (getCore t c) r n = accumulator (getCore s c) r n)

end Sys2Proof.Claim

/-- R202, R211, R274, R275, R282, R287, R306, R312, R322, R406: a command that has stopped leaves the queue and the scoreboard
and arrives at its barrier register or counts in its batch, with its record; the end of a load settles its bank, and that of a
store that clears sets what it drained to +0; a peer's
refusal is the fault of a forward that has sent something; contributions of a collective are matched by tag and digest, and
dropped until CHIP.VALID is set (R399); a member's departure
faults the collectives that name it. The matching of contributions is the model's reading (log entry 34). -/
def Obligations.EngineCompletions : Prop :=
  (∀ s i core n kinds op, arrivalEvent i = some (core, n, kinds) → (getCore s core).ops[n]? = some op → op.kind ∈ kinds →
    op.who.core = core → opDone op = true →
    ∃ t, exec i s = .next t ∧ Leaves s t op ∧ Arrives s t op (recordOf op)) ∧
  (∀ s core n c op, (getCore s core).ops[n]? = some op → op.kind = .cpyx → op.who.core = core → op.cancelled = false →
    op.fault = none →
    (op.pos = 0 → exec (.cpyxComplete core n (some c)) s = .next s) ∧
    (op.pos ≠ 0 → ∃ t f, exec (.cpyxComplete core n (some c)) s = .next t ∧ Leaves s t op ∧ f.cause = c ∧
      Arrives s t op (some { pc := op.pc, opcode := fieldOP op.word, fault := f }))) ∧
  (∀ s i core k op, matrixEvent i = some (core, k) → (getCore s core).ops.find? (fun p => isMatrix p.kind) = some op →
    op.kind = k → op.who.core = core → opDone op = true →
    ∃ t, exec i s = .next t ∧ Leaves s t op ∧ SameMemory s t ∧ StoresAfter s t op ∧ (k = .mload → LoadEnds s t op) ∧
      (wgOf t op.who).batches.map (fun b => (b.num, b.closed, b.running, b.recs)) =
        (wgOf s op.who).batches.map fun b =>
          if b.num = op.batch then
            (b.num, b.closed, b.running - 1,
             b.recs ++ (op.fault.map fun f => ({ pc := op.pc, opcode := fieldOP op.word, fault := f } : EngRec)).toList)
          else (b.num, b.closed, b.running, b.recs)) ∧
  (∀ s core n rank tag digest vals, s.chip.getLsbD 8 = false →
    exec (.collContribution core n rank tag digest vals) s = .next s) ∧
  (∀ s core n rank digest vals op, s.chip.getLsbD 8 = true → (getCore s core).ops[n]? = some op → op.kind = .coll →
    opDone op = false → (rank = collRank op ∨ tget? op.got rank = none) → op.who.core = core →
    (∀ m x, (getCore s core).ops[m]? = some x → x.id = op.id → m = n) →
    ∃ t q, exec (.collContribution core n rank (collTag op) digest vals) s = .next t ∧ (getCore t core).ops[n]? = some q ∧
      (digest = collDigest op → rank ≠ collRank op → rank < (collMembers op).length →
        tget? q.got rank = some vals ∧ q.fault = op.fault) ∧
      (digest = collDigest op → rank = collRank op ∨ (collMembers op).length ≤ rank → t = s) ∧
      (digest ≠ collDigest op → q.got = op.got ∧ q.fault.map EngFault.cause = some 0x1A) ∧
      (∀ m, m ≠ n → (getCore t core).ops[m]? = (getCore s core).ops[m]?) ∧ { t with cores := s.cores } = s) ∧
  (∀ (s : State) (chip core n : Nat) (p : EngOp), (getCore s core).ops[n]? = some p →
    ∃ t q, exec (.collMemberLeft chip) s = .next t ∧ chip ∈ t.left ∧ (getCore t core).ops[n]? = some q ∧
      (p.kind = .coll ∧ opDone p = false ∧ (∃ m ∈ collMembers p, m.1 = chip) → q.fault.map EngFault.cause = some 0x09) ∧
      (¬ (p.kind = .coll ∧ opDone p = false ∧ ∃ m ∈ collMembers p, m.1 = chip) → q = p)) ∧
  (∀ s core n e op, (getCore s core).sb[n]? = some e → getOp? s core e.op = some op → opDone op = true →
    ∃ t, exec (.scoreboardEntryRelease core n) s = .next t ∧
      t = updCore s core fun c => { c with sb := c.sb.eraseIdx n }) ∧
  ∀ s core, 16 ≤ (getCore s core).bankReq →
    exec (.engineBankPriority core) s = .next (updCore s core fun c => { c with bankReq := 0 })

namespace Sys2Proof.Claim

/-! ### Tasks -/

/-- What a pond or local-queue entry holds, its age aside. -/
def face (e : PondEnt) : Nat × Nat × List Byte × Word × Word := (e.level, e.ctx, e.record, e.addr, e.tseq)

/-- An entry for a record joins the end of a list (R334): its level is the record's priority. -/
def Joins (old new : List PondEnt) (ctx : Nat) (r : List Byte) (addr tseq : Word) : Prop :=
  new.map face = old.map face ++ [(recPrio r, ctx, r, addr, tseq)]

/-- The spawn of R347 has been enqueued in `t`, from `s`: the stream goes on, the workgroup has counted it, and the entry
carries its TSEQ in the core's local queue, or in a pond. -/
structure Spawned (s t : State) (o : Who) (m : Bool) (r : List Byte) (addr : Word) (isLocal : Bool) : Prop where
  retires : Retires s t o m ((streamOf s o).pc + 4)
  counted : (wgOf t o).spawned = (wgOf s o).spawned + 1
  gov     : (warpOf t o).gcount = 0
  local_  : isLocal = true → recAff r ≠ some (1 - dieOf o.core) → (getCore s o.core).localQ.length < 64 →
    Joins (getCore s o.core).localQ (getCore t o.core).localQ (wgOf s o).ctx r addr
      (BitVec.ofNat 64 ((wgOf s o).tseq.toNat * 65536 + (wgOf s o).spawned + 1))
  pond    : ∀ d, isLocal = false → recAff r = some d → (pondOf s d).length < 8192 →
    Joins (pondOf s d) (pondOf t d) (wgOf s o).ctx r addr
      (BitVec.ofNat 64 ((wgOf s o).tseq.toNat * 65536 + (wgOf s o).spawned + 1))

/-- The place of a spawn is settled by its record and there is room for it. -/
def SpawnFits (s : State) (o : Who) (r : List Byte) (isLocal : Bool) : Prop :=
  if isLocal = true ∧ recAff r ≠ some (1 - dieOf o.core) then (getCore s o.core).localQ.length < 64
  else ∃ d, recAff r = some d ∧ (pondOf s d).length < 8192

/-- The 64 bytes at `pa` are a successor block that a task of the context, on the core if one names it, may decrement (R234,
R329, R330). -/
structure Block (s : State) (core : Option Nat) (ctx block pa : Nat) : Prop where
  aligned : block % 64 = 0
  at_     : (pondPhys core ctx block 64 .both).run s = (.ok (some pa), s)
  inside  : pa + 64 ≤ Config.deviceEnd
  form    : ∀ i, i < 6 → leValue (s.mem.rdN (pa + 22 + 8 * i) 2) = 0

/-- The core's first-level cache holds no copy of the line at `pa`, and no write-back of one is under way (R260). -/
abbrev NoOwnCopy (s : State) (core pa : Nat) : Prop :=
  (∀ l ∈ (getCore s core).l1, l.line ≠ pa / 128) ∧
    ∀ p ∈ s.pend, p.wb = true → p.who.core = core → p.pa / 128 ≠ pa / 128

/-- A block's count, as a signed number, and its reload. -/
def countAt (s : State) (pa : Nat) : Int := (BitVec.ofNat 64 (leValue (s.mem.rdN pa 8))).toInt
def reloadAt (s : State) (pa : Nat) : Nat := leValue (s.mem.rdN (pa + 14) 2)

/-- A decrement by d fires the block (R330). -/
def fires (s : State) (pa d : Nat) : Prop := 0 < countAt s pa ∧ countAt s pa - d ≤ 0

end Sys2Proof.Claim

/-- R329–R331, R347, R348: TSPAWN enqueues a well-formed record once the warp's earlier stores are performed, at once or by
TSPAWN_ENQUEUE; a decrement takes d from a block's count, adds the reload where it fires, and then enqueues the block's
records in ascending order with their TSEQ; TSUCC decrements once the stores are performed, at once or by TSUCC_DECREMENT,
where the core itself holds no copy of the block (R260), which else it drops first.
In deterministic mode TSPAWN reads its record as the warp sees memory, and joins the commit buffer. The model's readings: RECi
of a block (log entry 13), one order of waiting enqueues (38), deterministic mode (58). -/
def Obligations.SpawnsAndSuccessors : Prop :=
  (∀ (s : State) (o : Who) (m : Bool) (a b : Reg), Issues s o → scalarSrc a = true → scalarSrc b = true →
    Settled s o [a, b] → (wgOf s o).det = true →
    let s1 := reading s o [a, b]
    let x := rdS s1 o a
    let y := rdS s1 o b
    ∀ s2 r0 r s3, y.toNat ≤ 1 → x.toNat % 64 = 0 → (coreRead o x.toNat 64).run s1 = (.ok r0, s2) →
      (coreRead o x.toNat 64).run (ownView s1 o) = (.ok r, s3) → badRecord r = false → warpOf s2 o = warpOf s o →
      ∃ t e, exec (.tspawn m a b) s = .next t ∧ Retires s t o m ((streamOf s o).pc + 4) ∧ NoRegs s2 t o ∧ OnlyWarp s2 t o ∧
        (warpOf t o).gcount = 0 ∧ (warpOf t o).qended = (warpOf s o).qended ∧ (warpOf t o).buf = (warpOf s o).buf ++ [e] ∧
        e.who = o ∧ e.effect = .tspawn r x (y.getLsbD 0)) ∧
  (∀ (s : State) (o : Who) (m : Bool) (a b : Reg), Issues s o → scalarSrc a = true → scalarSrc b = true →
    Settled s o [a, b] → (wgOf s o).det = false →
    let s1 := reading s o [a, b]
    let x := rdS s1 o a
    let y := rdS s1 o b
    (∀ s2 r, y.toNat ≤ 1 → x.toNat % 64 = 0 → (coreRead o x.toNat 64).run s1 = (.ok r, s2) → badRecord r = false →
      warpOf s2 o = warpOf s o →
      (pendDone s2 o = false →
        exec (.tspawn m a b) s = .next (waiting s s2 o .warp (encode (.tspawn m a b)) (.tspawn r x (y.getLsbD 0) m))) ∧
      (pendDone s2 o = true → SpawnFits s2 o r (y.getLsbD 0) →
        ∃ t, exec (.tspawn m a b) s = .next t ∧ Spawned s2 t o m r x (y.getLsbD 0))) ∧
    (∀ pa wb, 1 ≤ y.toNat → y.toNat ≤ 65536 → x.toNat < 2 ^ 48 →
      translate s1 o.core (wgOf s o).ctx x.toNat .both (refusedTo s1 o x.toNat) = (s1, .ok pa wb) →
      (wb = true → NoOwnCopy s1 o.core pa) → Block s1 (some o.core) (wgOf s o).ctx x.toNat pa →
      (pendDone s1 o = false →
        exec (.tsucc m a b) s = .next (waiting s s1 o .warp (encode (.tsucc m a b)) (.tsucc x y.toNat m))) ∧
      (pendDone s1 o = true → NoOwnCopy s1 o.core pa → s.deferred = [] → ¬ fires s pa y.toNat →
        ∃ t, exec (.tsucc m a b) s = .next t ∧ Retires s t o m ((streamOf s o).pc + 4) ∧ (warpOf t o).gcount = 0 ∧
          SameFile s t o ∧ countAt t pa = (BitVec.ofInt 64 (countAt s pa - y.toNat)).toInt ∧
          ∀ z, z < pa ∨ pa + 8 ≤ z → t.mem.rd z = s.mem.rd z))) ∧
  (∀ s o r x isLocal m, (streamOf s o).wait = .tspawn r x isLocal m → pendDone s o = true → badRecord r = false →
    (warpOf s o).step = none → (∀ k, o.split = some k → (findSplit (warpOf s o) k).isSome = true) → SpawnFits s o r isLocal →
    ∃ t, exec (.tspawnEnqueue o) s = .next t ∧ Spawned s t o m r x isLocal) ∧
  (∀ s o x d m pa, (streamOf s o).wait = .tsucc x d m → pendDone s o = true → (warpOf s o).step = none →
    (∀ k, o.split = some k → (findSplit (warpOf s o) k).isSome = true) → Block s (some o.core) (wgOf s o).ctx x.toNat pa →
    NoOwnCopy s o.core pa → s.deferred = [] → ¬ fires s pa d →
    ∃ t, exec (.tsuccDecrement o) s = .next t ∧ Retires s t o m ((streamOf s o).pc + 4) ∧ (warpOf t o).gcount = 0 ∧
      SameFile s t o ∧ countAt t pa = (BitVec.ofInt 64 (countAt s pa - d)).toInt ∧
      ∀ z, z < pa ∨ pa + 8 ≤ z → t.mem.rd z = s.mem.rd z) ∧
  ∀ s ctx block d who tseq tpc own pa, Block s (Option.map Origin.core who) ctx block pa →
    ∃ t, (decrement ctx block d who tseq tpc own).run s = (.ok (), t) ∧
      (¬ fires s pa d → countAt t pa = (BitVec.ofInt 64 (countAt s pa - d)).toInt ∧ t.deferred = s.deferred) ∧
      (fires s pa d → countAt t pa = (BitVec.ofInt 64 (countAt s pa - d + reloadAt s pa)).toInt) ∧
      (fires s pa d → ∃ ds, t.deferred = s.deferred ++ ds ∧
        (∀ e ∈ ds, e.die = own ∧ e.ent.ctx = ctx ∧ e.ent.record = []) ∧
        ds.map (fun e => e.ent.tseq) = (List.range ds.length).map (fun k => BitVec.ofNat 64 (block * 8 + k)) ∧
        (ds.map fun e => e.ent.addr.toNat).Pairwise (fun x y => x ≤ y) ∧
        ∀ x, x ≠ 0 → (ds.map fun e => e.ent.addr.toNat).count x =
          ((List.range 7).map fun i => leValue (s.mem.rdN (pa + 8 + 8 * i) 6)).count x) ∧
      ∀ z, z < pa ∨ pa + 8 ≤ z → t.mem.rd z = s.mem.rd z

namespace Sys2Proof.Claim

/-- The pond of the die has lost its oldest entry of a level, ages aside. -/
def Loses (s t : State) (die : Nat) (e : PondEnt) : Prop :=
  ∃ before rest, pondOf s die = before ++ e :: rest ∧ (∀ x ∈ before, x.level ≠ e.level) ∧
    (pondOf t die).map face = (before ++ rest).map face

/-- The cond and loop nodes (R332): die and KIND. -/
def chooseNode : Instr → Option (Nat × Nat)
  | .condNode die => some (die, 1)
  | .loopNode die => some (die, 2)
  | _ => none

end Sys2Proof.Claim

/-- R331–R335, R346, R397, R398: a post of 64 bytes joins the intake queue and a bad one posts event 4; the pond takes the
oldest record, numbered as it was accepted; a waiting enqueue proceeds; a join node completes at once; a cond or loop node
enqueues the record that its word chooses; the oldest entry of a level ages. The model's readings: a misaligned post and
the numbering of records (log entry 20), one order of waiting enqueues (38). -/
def Obligations.PondEntries : Prop :=
  (∀ s ctx off (data : List Byte), ctx < 64 →
    (off < 0x1000 → data.length = 64 → off % 64 = 0 → intakeOpen s ctx = true → (getCtx s ctx).intake.length < 256 →
      exec (.intakePost ctx off data) s =
        .next (updCtx s ctx fun c => { c with intake := c.intake ++ [data], posts := c.posts + 1 })) ∧
    (off < 0x1000 → data.length ≠ 64 ∨ off % 64 ≠ 0 ∨ intakeOpen s ctx = false ∨ 256 ≤ (getCtx s ctx).intake.length →
      exec (.intakePost ctx off data) s = .next (postEvent s ctx 4 (BitVec.ofNat 64 off))) ∧
    (data.length = 8 → ∃ t, exec (.intakePost ctx 0x1008 data) s = .next t ∧ (getCtx t ctx).evr.toNat = leValue data ∧
      { t with ctxs := s.ctxs } = s)) ∧
  (∀ s ctx r rest d, (getCtx s ctx).intake = r :: rest → s.deferred = [] → badRecord r = false → recAff r = some d →
    (pondOf s d).length < 8192 →
    ∃ t, exec (.intakeQueueDrain ctx) s = .next t ∧ (getCtx t ctx).intake = rest ∧
      Joins (pondOf s d) (pondOf t d) ctx r 0 ((getCtx s ctx).posts - BitVec.ofNat 64 rest.length) ∧
      { t with ctxs := s.ctxs, ponds := s.ponds } = s) ∧
  (∀ s x rest d, s.deferred = x :: rest → x.ent.record ≠ [] → badRecord x.ent.record = false →
    recAff x.ent.record = some d → (pondOf s d).length < 8192 →
    ∃ t, exec .deferredEnqueue s = .next t ∧ t.deferred = rest ∧ { t with ponds := s.ponds, deferred := s.deferred } = s ∧
      Joins (pondOf s d) (pondOf t d) x.ent.ctx x.ent.record x.ent.addr x.ent.tseq) ∧
  (∀ s die e, s.deferred = [] → nodeOf s die 3 = some e → recSucc e.record = 0 →
    ∃ t, exec (.joinNode die) s = .next t ∧ Loses s t die e ∧ { t with ponds := s.ponds } = s) ∧
  (∀ s i die kind e bs, chooseNode i = some (die, kind) → s.deferred = [] → nodeOf s die kind = some e →
    recSucc e.record = 0 → (pondRead e.ctx (recWs e.record) 8).run s = (.ok (some bs), s) →
    let n := if leValue bs = 0 then 2 else 0
    let a := recArg e.record n * 2 ^ 32 + recArg e.record (n + 1)
    (a = 0 → ∃ t, exec i s = .next t ∧ Loses s t die e ∧ { t with ponds := s.ponds } = s) ∧
    (∀ r d, a % 64 = 0 → a < 2 ^ 48 → a ≠ 0 → (pondRead e.ctx a 64).run s = (.ok (some r), s) → badRecord r = false →
      recAff r = some d → d ≠ die → (pondOf s d).length < 8192 →
      ∃ t, exec i s = .next t ∧ Loses s t die e ∧ { t with ponds := s.ponds } = s ∧
        Joins (pondOf s d) (pondOf t d) e.ctx r (BitVec.ofNat 64 a) (e.tseq + 1))) ∧
  ∀ s die level e, (pondOf s die).find? (fun x => x.level == level) = some e → e.aged = false →
    (∀ c, e.oldest = some c → c + 65536 ≤ s.cycle) → e.oldest ≠ none →
    ∃ t, exec (.pondAgingExpiry die level) s = .next t ∧ { t with ponds := s.ponds } = s ∧
      (pondOf t die).find? (fun x => x.level == level) = some { e with aged := true } ∧
      (pondOf t die).map face = (pondOf s die).map face ∧ (∀ d, d ≠ die → pondOf t d = pondOf s d) ∧
      ∀ k, k ≠ level → (pondOf t die).find? (fun x => x.level == k) = (pondOf s die).find? fun x => x.level == k

namespace Sys2Proof.Claim

/-- A checked compute entry enters a shadow slot of a core (R64, R101, R264, R335, R337, R359): the lowest free workgroup
slot, with what its context's controls and its record give the task. -/
structure Enters (s t : State) (core : Nat) (e : PondEnt) (h : Header) (es : List WsEntry) : Prop where
  slot : ∃ k, freeWgSlot (getCore s core) = some k ∧ (getCore t core).shadow = (getCore s core).shadow ++ [k] ∧
    (let g := getWg t core k
     g.phase = .staging ∧ g.ctx = e.ctx ∧ g.record = e.record ∧ g.tseq = e.tseq ∧ g.hdr = h ∧ g.ws = es ∧
     g.entry.toNat = recEntry e.record % 2 ^ 56 ∧ g.sys = (getCtx s e.ctx).ctl.getLsbD 1 ∧
     g.check = (getCtx s e.ctx).ctl.getLsbD 2 ∧ g.farea = (getCtx s e.ctx).farea ∧ g.warps = [] ∧
     (g.det = true ↔ h.det = true ∨ recDet e.record = true ∨ (getCtx s e.ctx).ctl.getLsbD 3 = true))

/-- A warp as dispatch starts it (R94, R137). -/
structure Starts (s t : State) (core slot n : Nat) : Prop where
  lanes  : let w := getWarp t core slot n
    w.live = w.launched ∧ w.main.emask = w.launched ∧ w.present = true ∧
    ∀ l, w.launched.getLsbD l = true ↔ l < 32 ∧ (n + 1 = (getWg s core slot).hdr.warps → l < (getWg s core slot).hdr.lanes)
  start  : (getWarp t core slot n).main.pc = (getWg s core slot).entry ∧ (getWarp t core slot n).main.wait = .none ∧
    (getWarp t core slot n).rcnt = 0
  ctl    : (getWarp t core slot n).window = 0 ∧ (getWarp t core slot n).curSet = none ∧ (getWarp t core slot n).cpol = 1 ∧
    (getWarp t core slot n).budget = (getWg s core slot).hdr.governor ∧ (getWarp t core slot n).fflags = 0 ∧
    (getWarp t core slot n).seed = (getWg s core slot).tseq ∧ (getWarp t core slot n).ctr = [] ∧
    (getWarp t core slot n).seen = 0 ∧ (getWarp t core slot n).stack = [] ∧ (getWarp t core slot n).splits = [] ∧
    (getWarp t core slot n).trap = .init
  regs   : ∀ k, tgetD 0 (getWarp t core slot n).s k =
      if k < 8 then BitVec.ofNat 64 (recArg (getWg s core slot).record k) else 0
  files  : (getWarp t core slot n).v = [] ∧ (getWarp t core slot n).main.k = [] ∧ (getWarp t core slot n).tag = []

/-- A steal request of core c has come to victim v (R336): the next core of its die that it has not tried and that has an
entry in its local queue. -/
def Reaching (s : State) (c : Nat) (r : StealReq) (v : Nat) : Prop :=
  let far := fun u => (u + 80 - c) % 80
  let untried := fun u => dieOf u = dieOf c ∧ u ≠ c ∧ r.tried < far u
  untried v ∧ (getCore s v).localQ ≠ [] ∧ ∀ u, untried u → far u < far v → (getCore s u).localQ = []

/-- Of two requests at one victim, the first wins (R336): the lower stamp, then the lower core number. -/
def Wins (a : StealReq) (c : Nat) (b : StealReq) (d : Nat) : Prop := a.stamp < b.stamp ∨ (a.stamp = b.stamp ∧ c < d)

/-- The core may steal (R336). -/
def Idle (s : State) (core : Nat) : Prop :=
  core < 160 ∧ holders (getCore s core) = [] ∧ (getCore s core).shadow = [] ∧ pondOf s (dieOf core) = []

/-- Nothing of a workgroup that has ended is left to perform, deliver or decrement. -/
structure Finished (s : State) (core slot : Nat) (g : Wg) : Prop where
  here  : getWg? s core slot = some g
  finals : s.finals = []
  phase : (g.phase = .ended ∧ recSucc g.record = 0 ∧ (getCore s core).l1.any (ownDirty s core slot) = false)
    ∨ g.phase = .aborted
  quiet : quiet s core slot = true
  bars  : g.arrivals = [] ∧ ∀ b ∈ g.bars, b.2.crec = none ∧ b.2.prec = none
  recs  : ∀ b ∈ g.batches, b.recs = []
  pre   : preNames s g.ctx core slot = false
  rest  : s.deferred = []

end Sys2Proof.Claim

/-- R94, R137, R199, R335–R338, R341, R343, R356: placement gives the first checked candidate to the lowest core of its
die that it fits on and whose own queue has no entry at least as high as the pond's; a core takes its own queue's
highest entry, where it is at least as high, or stamps a steal request, which comes to the next core of its die with an
entry, and wins there against requests of later stamps of cores that may still steal, or has an empty result; dispatch starts a staged task's warps; a
fault in staging, or the end of a task, frees the slot. The model's readings: what is read of an entry and when (log
entry 39), ends without write-back (40), the two events of a steal: the request, and its coming to a victim (57). -/
def Obligations.TaskLife : Prop :=
  (∀ s die e rest h es n, candidates s die = e :: rest → e.saved = none → recKind e.record = 0 →
    e.checked = some (h, es) → coreFor s die h (leaseLines s e.ctx es) = some n →
    ∃ t, exec (.taskPlacement die) s = .next t ∧ Enters s t n e h es ∧ Loses s t die e ∧
      die * 80 ≤ n ∧ n < die * 80 + 80 ∧ fits s n h (leaseLines s e.ctx es) = true ∧
      (∀ x ∈ (getCore s n).localQ, ∃ y ∈ pondOf s die, x.level < y.level) ∧
      ∀ m, die * 80 ≤ m → m < n → fits s m h (leaseLines s e.ctx es) = false ∨
        ∃ x ∈ (getCore s m).localQ, ∀ y ∈ pondOf s die, y.level ≤ x.level) ∧
  (∀ s core e k h es, (∀ y ∈ pondOf s (dieOf core), y.level ≤ e.level) → highest (getCore s core).localQ = some (e, k) →
    s.deferred = [] → recKind e.record = 0 → e.checked = some (h, es) → fits s core h (leaseLines s e.ctx es) = true →
    ∃ t, exec (.localQueueTake core) s = .next t ∧ Enters s t core e h es ∧
      (getCore t core).localQ = (getCore s core).localQ.eraseIdx k) ∧
  (∀ s core, Idle s core →
    (tget? s.steals core = none → exec (.steal core) s =
      .next { s with steals := tput s.steals core { stamp := tgetD 0 s.stealClock (dieOf core), tried := 0 } }) ∧
    ∀ r, tget? s.steals core = some r →
      ((∀ v, ¬ Reaching s core r v) → exec (.steal core) s = .next { s with steals := tdel s.steals core }) ∧
      ∀ v, Reaching s core r v →
        ((∃ c q, c ≠ core ∧ (c, q) ∈ s.steals ∧ Idle s c ∧ Reaching s c q v ∧ Wins q c r core) →
          ∃ t, exec (.steal core) s = .next t ∧ { t with steals := s.steals } = s ∧
            tget? t.steals core = some { r with tried := (v + 80 - core) % 80 }) ∧
        ((∀ c q, c ≠ core → (c, q) ∈ s.steals → Idle s c → Reaching s c q v → Wins r core q c) →
          ∀ e k h es, highest (getCore s v).localQ = some (e, k) → s.deferred = [] → recKind e.record = 0 →
            e.checked = some (h, es) → fits s core h (leaseLines s e.ctx es) = true →
            ∃ t, exec (.steal core) s = .next t ∧ Enters s t core e h es ∧ tget? t.steals core = none ∧
              (getCore t v).localQ = (getCore s v).localQ.eraseIdx k ∧
              ∀ c q, c ≠ core → tget? s.steals c = some q → Idle s c → Reaching s c q v →
                tget? t.steals c = some { q with tried := (v + 80 - c) % 80 })) ∧
  (∀ s core slot, (getCore s core).halting = false → (getCore s core).shadow = [slot] → canDispatch s core slot = true →
    ∃ t, exec (.taskDispatch core) s = .next t ∧ (getCore t core).shadow = [] ∧ (getWg t core slot).phase = .running ∧
      (∀ n, n < (getWg s core slot).hdr.warps → Starts s t core slot n) ∧
      (getWg t core slot).scratch = (getWg s core slot).scratch ∧ { t with cores := s.cores } = s) ∧
  (∀ s core slot f, (getWg s core slot).stageFault = some f →
    ∃ t, exec (.stagingAbort core slot) s = .next t ∧ getWg? t core slot = none ∧ slot ∉ (getCore t core).shadow ∧
      ∀ e ∈ (getCore t core).sb, e.slot ≠ slot) ∧
  ∀ s core slot g, Finished s core slot g →
    ∃ t, exec (.taskComplete core slot) s = .next t ∧ getWg? t core slot = none ∧ slot ∉ (getCore t core).shadow ∧
      (∀ e ∈ (getCore t core).sb, e.slot ≠ slot) ∧ t.mem = s.mem ∧ t.deferred = [] ∧
      ∀ k, k ≠ slot → (getCore s core).waiters = [] → (getCore s core).baton = none → getWg? t core k = getWg? s core k

namespace Sys2Proof.Claim

/-! ### Words that do not execute -/

/-- The cause of a word that is no instruction of the map, as the steps of R67 order them. -/
def refusal (s : State) (o : Who) (x : BitVec 32) : BitVec 8 :=
  let sc := Scope.dec (fieldSC x)
  let op := (fieldOP x).toNat
  let n := (fieldB x).toNat
  if unassigned (fieldOP x) = true ∨ fixedOk x = false then 0x01
  else if (op = 0xBC ∨ (op = 0x15 ∧ ¬ (32 ≤ n ∧ n ≤ 47)) ∨ (op = 0x14 ∧ 48 ≤ n)) ∧ (wgOf s o).sys = false then 0x04
  else if (legalScopes (fieldOP x)).contains sc = false then 0x02
  else if (sc = .set ∨ sc = .block) ∧ (warpOf s o).stack ≠ [] then 0x13
  else 0x03

/-- The word is privileged (R64). -/
def privilegedWord : Instr → Bool
  | .sysr _ _ i => decide (48 ≤ i.toNat)
  | .sysw _ _ i => !(decide (32 ≤ i.toNat) && decide (i.toNat ≤ 47))
  | .pgx _ _ _ => true
  | _ => false

/-- Some words of set or block scope (R102). -/
def groupWord : Instr → Option Scope
  | .nop _ sc => some sc
  | .fence _ sc _ => some sc
  | .barv _ sc _ => some sc
  | .cpyc _ sc _ => some sc
  | .xfence _ _ => some .block
  | _ => none

/-- Some words that a concurrent body forbids (R191), with what their operands must meet. -/
def forbidden : Instr → Bool
  | .call _ _ => true
  | .win _ i => decide (i.toNat ≤ 15)
  | .sets _ i => decide (i.toNat ≤ 3)
  | .cpol _ i => decide (i.toNat ≤ 3)
  | .ldl _ (.s _) _ => true
  | _ => false

/-- The instruction traps with a cause, an address and no effect. -/
def Raises (s : State) (o : Who) (i : Instr) (cause : BitVec 8) (addr : Word) (word : BitVec 32) : Prop :=
  ∀ h, HasHandler s o h → ∃ t, exec i s = .next t ∧ EntersHandler s t o (ownTrap s o cause addr word) h none

end Sys2Proof.Claim

/-- R64–R67, R101, R102, R191: the causes that come before an effect, in the order of R67; a word of opcodes 0xF5–0xFF runs
where its entry is filled and it meets the entry's format, and the value it gives its destination is not known. That such
a word leaves memory alone is the model's choice (log entry 21). -/
def Obligations.WordsRefused : Prop :=
  ∀ (s : State) (o : Who), Issues s o →
    (∀ x r, decode x = .reject r → Raises s o (.illegalInstruction x) (refusal s o x) 0 x) ∧
    (∀ i, privilegedWord i = true → (wgOf s o).sys = false → Raises s o i 0x04 0 (encode i)) ∧
    (∀ i sc, groupWord i = some sc → sc = .set ∨ sc = .block → (warpOf s o).stack ≠ [] → Raises s o i 0x13 0 (encode i)) ∧
    (∀ m (i : BitVec 7), 15 < i.toNat → Raises s o (.win m i) 0x03 0 (encode (.win m i))) ∧
    (∀ m d off, scalarSrc d = true → (wgOf s o).check = true → outstanding s o d = true →
      Raises s o (.brz m d off) 0x1D (d.enc.setWidth 64) (encode (.brz m d off))) ∧
    (∀ i, forbidden i = true → inConc s o = true → Raises s o i 0x11 0 (encode i)) ∧
    ∀ x, 0xF5 ≤ (fieldOP x).toNat →
      (tget? s.micro (fieldOP x).toNat = none → Raises s o (.microcoded x) 0x05 0 x) ∧
      ∀ e, tget? s.micro (fieldOP x).toNat = some e →
        (microFixedBad e x = true → Raises s o (.microcoded x) 0x01 0 x) ∧
        let sc := Scope.dec (fieldSC x)
        let d := Reg.dec (fieldD x)
        (microFixedBad e x = false → e.scopes.getLsbD sc.enc.toNat = false → Raises s o (.microcoded x) 0x02 0 x) ∧
        (microFixedBad e x = false → e.scopes.getLsbD sc.enc.toNat = true → sc = .lane ∨ sc = .warp →
          microOperands e x sc s o = true → Settled s o (microSrcs e x) →
          (microWrites e = true → sc = .warp → isS d = true → inConc s o = false) →
          ∃ s2, exec (.microcoded x) s = .next (after s s2 o sc (fieldW x)) ∧ SameMemory s s2 ∧ OnlyWarp s s2 o ∧
            (microWrites e = false → NoRegs s s2 o) ∧ (microWrites e = true → ∃ val, LateResult s s2 o sc d val))

/-- R103–R106, R111, R265, R266: a word of set or block scope parks its warp until every member is parked at its address; the
lowest member then executes it once, while no member is halted, and all go on together, NOP with no other effect; in
deterministic mode parking ends the quantum, and the latch fires at the commit (log entry 7). Members parked at different
addresses trap with cause 0x12. -/
def Obligations.Latches : Prop :=
  (∀ (s : State) (o : Who) (m : Bool) (sc : Scope) (g : Nat), Issues s o → o.split = none → sc = .set ∨ sc = .block →
    latchOf s o sc = some g → (warpOf s o).stack = [] →
    let ms := members (wgOf s o) g
    o.warp ∈ ms → ms.Nodup → (∀ w ∈ ms, w < 32) →
    (getLatch s o.core o.slot g = none → (∃ w ∈ ms, w ≠ o.warp) →
      ∃ t l, exec (.nop m sc) s = .next t ∧ NoRegs s t o ∧ SameMemory s t ∧ (streamOf t o).wait = .latch g ∧
        (streamOf t o).pc = (streamOf s o).pc ∧ (warpOf t o).rcnt = (warpOf s o).rcnt ∧
        getLatch t o.core o.slot g = some l ∧ l.addr = (streamOf s o).pc ∧ l.instr = .nop m sc ∧ l.firing = false ∧
        ∀ w, l.parked.getLsbD w = true ↔ w = o.warp) ∧
    (∀ l, getLatch s o.core o.slot g = some l → l.addr = (streamOf s o).pc → l.suspended = false → l.firing = false →
      (∀ w ∈ ms, w = o.warp ∨ l.parked.getLsbD w = true) → (∀ w ∈ ms, (getWarp s o.core o.slot w).step = none) →
      let halted := ∃ w ∈ ms, (getWarp s o.core o.slot w).stop ≠ 0
      (ms.head? = some o.warp → (wgOf s o).det = false → ¬ halted → ∃ t, exec (.nop m sc) s = .next t ∧ SameMemory s t ∧ getLatch t o.core o.slot g = none ∧
        ∀ w ∈ ms, Retires s t (mainOf o.core o.slot w) m ((streamOf s o).pc + 4) ∧
          NoRegs s t (mainOf o.core o.slot w) ∧ (getWarp t o.core o.slot w).gcount = 0) ∧
      (ms.head? ≠ some o.warp ∨ (wgOf s o).det = true ∨ halted → ∃ t l2, exec (.nop m sc) s = .next t ∧
        getLatch t o.core o.slot g = some l2 ∧ l2.firing = true ∧ l2.instr = .nop m sc ∧ (streamOf t o).wait = .latch g ∧
        (warpOf t o).rcnt = (warpOf s o).rcnt ∧ ((wgOf s o).det = true → (warpOf t o).qended = true))) ∧
    (∀ l h, getLatch s o.core o.slot g = some l → l.addr ≠ (streamOf s o).pc → l.parked ≠ 0 → (wgOf s o).phase ≠ .aborted →
      (∀ w ∈ ms, HasHandler s (mainOf o.core o.slot w) h) →
      ∃ t, exec (.nop m sc) s = .next t ∧ getLatch t o.core o.slot g = none ∧
        ∀ w ∈ ms, w = o.warp ∨ l.parked.getLsbD w = true →
          (getWarp t o.core o.slot w).trap.tcause = 0x12 ∧ (getWarp t o.core o.slot w).trap.taddr = l.addr.setWidth 64 ∧
          (getWarp t o.core o.slot w).trap.tpc = ((getWarp s o.core o.slot w).main.pc).setWidth 64 ∧
          (getWarp t o.core o.slot w).main.pc = h)) ∧
  ∀ (s : State) (o : Who) (m : Bool) (sc : Scope), Fires s o sc → exec (.nop m sc) s = .next (after s s o sc m)

/-- R6, R216, R355–R358: a trap without a handler, or inside one, aborts the task: nothing of it runs on, its copies and chains are
cancelled, its waiting commands are gone, and other workgroups' commands are as before; of its buffered words only stores and
atomics may be left to perform, and only where the scoreboard holds an entry of it. A record goes to the next place of its fault
area while there is room, and counts as lost where there is none. -/
def Obligations.AbortsAndRecords : Prop :=
  (∀ (s : State) (o : Who) (tr : Trap) (word : BitVec 32) (tpc : Addr) (latch : Option Nat),
    inHandler s o = true ∨ (wgOf s o).hdr.trap = 0 →
    let t := takeTrap s o tr word tpc latch
    (wgOf t o).phase = .aborted ∧ (wgOf t o).latches = [] ∧
    (∀ w ∈ (wgOf t o).warps, w.2.live = 0 ∧ w.2.splits = [] ∧ w.2.stack = [] ∧ w.2.main.out = [] ∧
      ∀ b ∈ w.2.buf, (∃ pol ls, b.effect = .store pol ls) ∨ ∃ op pol n ls d d1, b.effect = .atomic op pol n ls d d1) ∧
    ((∀ e ∈ (getCore s o.core).sb, e.slot ≠ o.slot) → (wgOf s o).warps.Pairwise (fun v w => v.1 ≠ w.1) →
      ∀ w ∈ (wgOf t o).warps, w.2.buf = []) ∧
    (warpOf t o).trap = { tcause := tcauseOf tr latch.isSome, tpc := tpc.setWidth 64, taddr := tr.addr,
                          tlanes := tr.lanes.getD ((streamOf s o).emask.setWidth 64),
                          tinfo := tr.info.getD (word.setWidth 64) } ∧
    (∀ p ∈ (getCore t o.core).ops, p.who.slot = o.slot → pathOf p.kind = 1 ∨ pathOf p.kind = 2 → p.cancelled = true) ∧
    (getCore t o.core).ops.filter (fun p => p.who.slot != o.slot) =
      (getCore s o.core).ops.filter (fun p => p.who.slot != o.slot) ∧
    ∀ p ∈ (getCore t o.core).waiting, p.who.slot ≠ o.slot) ∧
  ∀ (s : State) (farea : Word) (r : FaultRecord),
    let base := bits farea 47 12 * 4096
    let size := 2 ^ (bits farea 3 0 + 2)
    let word := fun (s : State) (a : Nat) => leValue (s.mem.rdN a 8)
    let t := postRecord s farea r
    (base = 0 → t = s) ∧
    (base ≠ 0 → base + 64 * size ≤ Config.deviceEnd → badSector s base 24 = none →
      let written := word s base
      let read := word s (base + 8)
      let at_ := base + 64 * (1 + word s base % (size - 1))
      (written < read + (size - 1) → word t base = (word s base + 1) % 2 ^ 64 ∧ t.mem.rd at_ = r.cause ∧
        t.mem.rd (at_ + 1) = BitVec.ofNat 8 r.kind ∧ t.mem.rd (at_ + 2) = BitVec.ofNat 8 r.core ∧
        t.mem.rd (at_ + 3) = BitVec.ofNat 8 r.wid ∧ t.mem.rd (at_ + 4) = BitVec.ofNat 8 r.slot ∧
        t.mem.rd (at_ + 5) = BitVec.ofNat 8 r.ctx ∧ t.mem.rd (at_ + 6) = BitVec.ofNat 8 r.flags ∧
        word t (at_ + 8) = r.tseq.toNat ∧ word t (at_ + 16) = r.tpc.toNat ∧ word t (at_ + 24) = r.taddr.toNat ∧
        word t (at_ + 32) = r.tlanes.toNat ∧ word t (at_ + 40) = r.tinfo.toNat ∧
        ∀ x, (x < base ∨ base + 8 ≤ x) → (x < at_ ∨ at_ + 64 ≤ x) → t.mem.rd x = s.mem.rd x) ∧
      (read + (size - 1) ≤ written → word t (base + 16) = (word s (base + 16) + 1) % 2 ^ 64 ∧
        ∀ x, x < base + 16 ∨ base + 24 ≤ x → t.mem.rd x = s.mem.rd x))

namespace Sys2Proof.Claim

/-! ### The governor and quanta -/

/-- The governor has found the warp (R108): its count has reached its budget, and none of the states in which the count
stands still or the warp cannot issue holds (R236, R310, R360). -/
structure BudgetUsed (s : State) (o : Who) : Prop where
  budget  : (warpOf s o).budget ≠ 0
  count   : (warpOf s o).budget.toNat * 1024 ≤ (warpOf s o).gcount
  live    : (warpOf s o).live ≠ 0
  runs    : (warpOf s o).stop = 0 ∧ (warpOf s o).suspended = false
  handler : (warpOf s o).main.frame = none ∧ ∀ p ∈ (warpOf s o).splits, p.st.frame = none
  service : ∀ va, (warpOf s o).main.wait ≠ .pageFault va ∧ (∀ p ∈ (warpOf s o).splits, p.st.wait ≠ .pageFault va) ∧
    ∀ e ∈ (wgOf s o).latches, ∀ l, e.2 = some l → l.wait ≠ .pageFault va
  placed  : (wgOf s o).phase = .running ∧ (wgOf s o).batonWait = false ∧ (wgOf s o).preempt ≠ some .save ∧
    (wgOf s o).preempt ≠ some .flush

/-- The stream is the warp's lowest in class order (R109, R190). -/
def Lowest (s : State) (o : Who) : Prop :=
  ((warpOf s o).splits.map Split.num).Nodup ∧ ((warpOf s o).splits.map Split.ord).Nodup ∧
  ((o.split = none ∧ (warpOf s o).splits = []) ∨
    ∃ p ∈ (warpOf s o).splits, o.split = some p.num ∧ ∀ q ∈ (warpOf s o).splits, p.ord ≤ q.ord)

/-- The stream is at its next instruction to issue, whose word is `x`: it has reached it, with its quantum not over, or waits with
it before any effect. -/
def AtWord (s : State) (o : Who) (x : BitVec 32) : Prop :=
  (streamOf s o).marked = false ∧ (warpOf s o).main.marked = false ∧
  match (streamOf s o).wait with
  | .none => ((wgOf s o).det = true →
        (warpOf s o).qended = false ∧ (warpOf s o).qcount < 2 ^ (wgOf s o).qlog ∧ bufCount (warpOf s o) < 512) ∧
      ∃ ws, (fetchWords s o (streamOf s o).pc 1 .fetch).2 = .inl (x :: ws)
  | .barrier _ => (streamOf s o).held = some x
  | .batch _ => (streamOf s o).held = some x
  | .baton _ => (streamOf s o).held = some x
  | .scoreboard _ _ _ => (streamOf s o).held = some x
  | .accept => (streamOf s o).held = some x
  | .tspawn _ _ _ _ => (streamOf s o).held = some x
  | .tsucc _ _ _ => (streamOf s o).held = some x
  | _ => False

/-- The word at hand takes no effect any more: a command that waits for acceptance leaves the core's list, and a TAKE the
baton's waiters, where no other stream of the workgroup and no latch waits there for the group. -/
def withoutWord (s : State) (o : Who) : State :=
  match (streamOf s o).wait with
  | .accept =>
    updCore s o.core fun c => { c with waiting := c.waiting.filter fun p => !(p.who == o && p.latch.isNone) }
  | .baton g =>
    if takeLeft (wgOf s o) o g then s
    else updCore s o.core fun c => { c with waiters := c.waiters.filter fun q => !(q.slot == o.slot && q.g == g) }
  | _ => s

/-- The buffered words of a round in the order of its commit: by WID, each warp's in program order (R265). -/
def entriesOf (g : Wg) : List BufEntry := g.warps.flatMap fun w => w.2.buf

/-- The scratchpad stores of an entry, in its lanes' order: offset, bytes, data. -/
def scratchStores (b : BufEntry) : List (Nat × Nat × Word) :=
  match b.effect with
  | .store _ ls => ls.filterMap fun l => match l.1 with
    | .scratch off => some (off, l.2.1, l.2.2)
    | .phys _ _ => none
  | _ => []

/-- Its device-memory stores: address, bytes, data. -/
def deviceStores (b : BufEntry) : List (Nat × Nat × Word) :=
  match b.effect with
  | .store _ ls => ls.filterMap fun l => match l.1 with
    | .scratch _ => none
    | .phys pa _ => some (pa, l.2.1, l.2.2)
  | _ => []

/-- What stores one after another make of byte x. -/
def storedAt (x : Nat) (b : Byte) (ws : List (Nat × Nat × Word)) : Byte :=
  ws.foldl (fun b w => if w.1 ≤ x ∧ x < w.1 + w.2.1 then w.2.2.extractLsb' (8 * (x - w.1)) 8 else b) b

/-- The arrivals of a round at barrier register x: the buffered BARV first, then the commands that completed (R265). -/
def arrivalsAt (g : Wg) (x : Nat) : List (Option EngRec × Bool) :=
  ((entriesOf g).filterMap fun b => match b.effect with
    | .barv y => if y = x then some (none, false) else none
    | _ => none) ++
  g.arrivals.filterMap fun a => if a.1 = x then some (a.2, true) else none

/-- A barrier register after one arrival, of a BARV or of a command (R276, R277, R282), but for whether its record is taken. -/
def afterArrival (r : Barrier) (a : Option EngRec × Bool) : Barrier :=
  let r1 := { r with cnt := r.cnt + 1, pend := if a.2 then r.pend - 1 else r.pend,
                     prec := if r.prec.isSome then r.prec else a.1,
                     pmore := r.pmore || (r.prec.isSome && a.1.isSome) }
  if r1.cnt = r1.exp then
    { r1 with phase := !r1.phase, cnt := 0, crec := r1.prec, more := r1.pmore, prec := none, pmore := false }
  else r1

/-- Every live warp's quantum has ended (R265), the core is not halted (R367), no baton is owed to the workgroup (R310), no latch is
in use, and what is buffered are BARV words and stores that no scoreboard entry holds back, to the scratchpad and to coherent pages of device memory. -/
structure RoundEnds (s : State) (core slot : Nat) (g : Wg) : Prop where
  here  : getWg? s core slot = some g
  det   : g.det = true
  phase : g.phase = .running
  runs  : (getCore s core).halting = false
  owed  : g.batonWait = false
  fresh : g.firing = false ∧ g.latches = []
  order : g.warps.Pairwise fun v w => v.1 < w.1
  ended : ∀ w ∈ g.warps, w.2.live = 0 ∨ w.2.qended = true
  whole : ∀ w ∈ g.warps, w.2.splits = [] ∧ w.2.step = none ∧ ∀ b ∈ w.2.buf, b.who = mainOf core slot w.1 ∧ b.latch = none
  plain : ∀ b ∈ entriesOf g, (∃ x, b.effect = .barv x) ∨ ∃ pol ls, b.effect = .store pol ls ∧ ∀ l ∈ ls, l.2.1 ≤ 8 ∧
    ((∃ off, l.1 = .scratch off ∧ sbBlocks s core slot off (off + l.2.1) true = false) ∨
      ∃ pa, l.1 = .phys pa false ∧ pa + l.2.1 ≤ Config.deviceEnd)

end Sys2Proof.Claim

/-- R52, R67, R108, R109, R125, R265, R353, R357: the governor takes a warp that has used its budget to its handler with
cause 0x1C, in its lowest stream, with every stalled lane and a record of every split, and the word that waited has no
effect; a fetch fault takes the stream with the cause of the access; a quantum ends at its length or with a full buffer; a
round commits once every quantum has ended: its buffered stores take effect in the order of WID and program, BARV words
and then the arrivals of commands count at their barrier registers, QSYNC completes, a BWAIT whose phase has flipped returns,
and the next round begins. The model's readings: what the governor takes back (log entry 54), what fills a commit buffer (17). -/
def Obligations.GovernorAndQuanta : Prop :=
  (∀ (s : State) (o : Who) (h : Addr) (x : BitVec 32), BudgetUsed s o → Lowest s o → AtWord s o x → HasHandler s o h →
    let pc := (streamOf s o).pc
    let splits := (warpOf s o).splits
    ∃ (t : State) (r : FaultRecord) (lanes : Mask) (qs : List Split), exec (.governorTrap o) s = .next (postRecord t (wgOf s o).farea r) ∧
      EntersHandler (withoutWord s o) t o
        { tcause := 0x1C, tpc := pc.setWidth 64, taddr := (warpOf s o).budget.setWidth 64, tlanes := lanes.setWidth 64,
          tinfo := x.setWidth 64 } h none ∧
      (∀ l, lanes.getLsbD l = true ↔ (splits = [] ∧ (warpOf s o).main.emask.getLsbD l = true) ∨
        (∃ p ∈ splits, p.st.emask.getLsbD l = true) ∨ ∃ e ∈ (warpOf s o).stack, e.p.getLsbD l = true) ∧
      r.cause = 0x1C ∧ r.kind = 6 ∧ r.core = o.core ∧ r.slot = o.slot ∧ r.wid = o.warp ∧ r.ctx = (wgOf s o).ctx ∧
      r.tseq = (wgOf s o).tseq ∧ r.tpc = pc.setWidth 64 ∧ r.tlanes = lanes.setWidth 64 ∧ r.nsplit = max 1 splits.length ∧
      qs.Perm (splits.filter fun p => o.split != some p.num) ∧ qs.Pairwise (fun p q => p.ord < q.ord) ∧
      r.splits = (qs.take 3).map fun q => (q.st.pc - pc).toInt) ∧
  (∀ (s s1 : State) (o : Who) (h : Addr) (tr : Trap), (∀ k, o.split = some k → (findSplit (warpOf s1 o) k).isSome = true) →
    fetchWords s o (streamOf s o).pc 1 .fetch = (s1, .inr (.inl tr)) → HasHandler s1 o h → (warpOf s1 o).step = none →
    ∃ t, exec (.instructionFetchFault o) s = .next t ∧
      EntersHandler s1 t o
        { tcause := tcauseOf tr false, tpc := ((streamOf s o).pc).setWidth 64, taddr := tr.addr,
          tlanes := tr.lanes.getD ((streamOf s1 o).emask.setWidth 64), tinfo := tr.info.getD 0 } h none ∧
      (inWindow (streamOf s o).pc.toNat = true → tr.cause = 0x09 ∧ tr.info = some 0)) ∧
  (∀ (s : State) (o : Who), (wgOf s o).det = true →
    (2 ^ (wgOf s o).qlog ≤ (warpOf s o).qcount →
      exec (.quantumExpiry o) s = .next (updWarpOf s o fun w => { w with qended := true })) ∧
    (512 ≤ bufCount (warpOf s o) →
      exec (.commitBufferFull o) s = .next (updWarpOf s o fun w => { w with qended := true }))) ∧
  ∀ (s : State) (core slot : Nat) (g : Wg), RoundEnds s core slot g →
    ∃ t, exec (.deterministicCommit core slot) s = .next t ∧ (getWg t core slot).arrivals = [] ∧
      (∀ x, (getWg t core slot).scratch.rd x = storedAt x (g.scratch.rd x) ((entriesOf g).flatMap scratchStores)) ∧
      (bits g.farea 47 12 = 0 → ∀ x, x < Config.deviceEnd →
        t.mem.rd x = storedAt x (s.mem.rd x) ((entriesOf g).flatMap deviceStores)) ∧
      (∀ x, { getBar t core slot x with taken := false } =
        { (arrivalsAt g x).foldl afterArrival (getBar s core slot x) with taken := false }) ∧
      ∀ w ∈ g.warps, (getWarp t core slot w.1).buf = [] ∧ (getWarp t core slot w.1).qcount = 0 ∧
        (w.2.main.wait = .none → (getWarp t core slot w.1).main = w.2.main ∧ (getWarp t core slot w.1).qended = false) ∧
        (∀ m, w.2.main.wait = .qsync m →
          Retires s t (mainOf core slot w.1) m (w.2.main.pc + 4) ∧ (getWarp t core slot w.1).qended = false) ∧
        ∀ x, x < 16 → w.2.main.wait = .barrier x →
          ((getBar t core slot x).phase ≠ (getBar s core slot x).phase →
            (∃ r, (getWarp t core slot w.1).main.wait = .bret r) ∧ (getWarp t core slot w.1).qended = false ∧
            (getWarp t core slot w.1).seen.getLsbD x = (getBar t core slot x).phase) ∧
          (arrivalsAt g x = [] →
            (getWarp t core slot w.1).main.wait = .barrier x ∧ (getWarp t core slot w.1).qended = true)

namespace Sys2Proof.Claim

/-! ### Shootdowns, page service, shares, translations -/

/-- The virtual bytes that a SHOOT value covers (R230): a page of its size, or all of the context. -/
def covered (v : Word) (a : Nat) : Prop :=
  v.getLsbD 0 = true ∨
    let size := match (v.extractLsb' 14 2).toNat with
      | 0 => 0x10000 | 1 => 0x200000 | 2 => 0x20000000 | _ => 0x1000000000
    a / size = (v.extractLsb' 16 40).toNat * 0x10000 / size

/-- The table entry and level at which a walk stops at an entry with V = 0 and DEMAND set (R225, R236). -/
structure DemandStop (s : State) (ctx va : Nat) (pte : Word) (at_ : Nat) : Prop where
  stop   : walk s ctx va = .stop 4 false pte at_
  demand : pte.getLsbD 0 = true

/-- A TLB entry translates an address of the served page. -/
abbrev Translates (ctx va : Nat) (e : TlbEnt) : Prop :=
  e.ctx = ctx ∧ e.page * 2 ^ pageBits e.level < va + 0x10000 ∧ va < (e.page + 1) * 2 ^ pageBits e.level

/-- No access that translated through an entry for the served page is left (R230): none of the writes under way reaches a page
that such an entry gives, and nothing is buffered. -/
structure Unheld (s : State) (ctx va : Nat) : Prop where
  pend : ∀ e, (∃ c ∈ s.cores, e ∈ c.2.tlb) ∨ (∃ d ∈ s.tlb2, e ∈ d.2) → Translates ctx va e →
    ∀ x ∈ s.pend, x.pa < pteAddr e.pte ∨ pteAddr e.pte + 2 ^ pageBits e.level ≤ x.pa
  bufs : ∀ g ∈ allWgs s, ∀ w ∈ g.warps, w.2.buf = []

/-- The translations of a page have left every TLB, the banks that were loaded from it are source-stale, and nothing else of a
core changes (R230, R231). -/
structure ShotDown (s t : State) (ctx va : Nat) : Prop where
  tlb   : ∀ core e, e ∈ (getCore t core).tlb ↔ e ∈ (getCore s core).tlb ∧ ¬ Translates ctx va e
  die   : ∀ die e, e ∈ tgetD [] t.tlb2 die ↔ e ∈ tgetD [] s.tlb2 die ∧ ¬ Translates ctx va e
  banks : ∀ core b k, tget? (getCore s core).banks b = some k →
    ∃ k2, tget? (getCore t core).banks b = some { k with stale := k2 } ∧
      (k2 = true ↔ k.stale = true ∨ k.state ≠ .empty ∧ k.ctx = ctx ∧ ∃ r ∈ k.src, r.1 < va + 0x10000 ∧ va < r.2)
  cores : ∀ core, { getCore t core with tlb := (getCore s core).tlb, banks := (getCore s core).banks } = getCore s core

/-- Everything but device memory, its checks, the pool, the requests for service, and the translations and banks is as
before. -/
def OnlyDevice (s t : State) : Prop :=
  { t with mem := s.mem, checks := s.checks, pgpool := s.pgpool, pf := s.pf, cores := s.cores, tlb2 := s.tlb2 } = s

/-- A buffered store or atomic to memory, of a resident or saved workgroup, was translated before the shootdown (R230). -/
def HeldBefore (s : State) : Prop :=
  ∃ b : BufEntry, b.before = true ∧
    ((∃ c ∈ s.cores, ∃ g ∈ c.2.wgs, ∃ x, g.2 = some x ∧ ∃ w ∈ x.warps, b ∈ w.2.buf) ∨
      ∃ v ∈ s.saved, ∃ w ∈ v.wg.warps, b ∈ w.2.buf) ∧
    ((∃ pol ls, b.effect = .store pol ls ∧ ∃ l ∈ ls, l.1.isPhys = true) ∨
      ∃ op pol n ls dst block, b.effect = .atomic op pol n ls dst block ∧ ∃ x ∈ ls, x.loc.isPhys = true)

/-- No core, slot or warp is listed twice. -/
def ListedOnce (s : State) : Prop :=
  (s.cores.map Prod.fst).Nodup ∧ ∀ c ∈ s.cores, (c.2.wgs.map Prod.fst).Nodup ∧
    ∀ g ∈ c.2.wgs, ∀ x, g.2 = some x → (x.warps.map Prod.fst).Nodup

/-- The bin-floor unit of a byte. -/
def inShare (base size a : Nat) : Prop := base ≤ a / 65536 ∧ a / 65536 < base + size

end Sys2Proof.Claim

/-- R230, R231, R236, R237, R303, R359: a shootdown removes the covered translations from every TLB, marks the loaded
banks whose source it covers, and ends once the accesses before it are performed, those in commit buffers included;
hardware service gives a demand entry a zeroed frame of the pool, and it and the host's end with a shootdown of the page,
which waits for the accesses before it; a host's refusal gives the waiting stream its fault; a
share changes once it is out of use, new bytes of it are zero, and the SYSW that waits for it completes. The model's
readings: a new PTROOT (log entry 15), the entries that are served (16), the queue of BFLOOR writes (46), what a service's
shootdown passes over (56). -/
def Obligations.PagesAndShares : Prop :=
  (∀ (s : State) (v : Word), v.extractLsb' 56 7 = 0 → v.extractLsb' 1 7 = 0 → s.shootOp = none →
    let ctx := (v.extractLsb' 8 6).toNat
    ∃ t p, exec (.shoot v) s = .next t ∧ t.shootOp = some p ∧ p.ctx = ctx ∧ p.pend = s.pend.length ∧ p.all = v.getLsbD 0 ∧
      (∀ core e, e ∈ (getCore t core).tlb →
        e ∈ (getCore s core).tlb ∧ (e.ctx = ctx → ∀ a, a / 2 ^ pageBits e.level = e.page → a < 2 ^ 56 → ¬ covered v a)) ∧
      (∀ die e, e ∈ tgetD [] t.tlb2 die →
        e ∈ tgetD [] s.tlb2 die ∧ (e.ctx = ctx → ∀ a, a / 2 ^ pageBits e.level = e.page → a < 2 ^ 56 → ¬ covered v a)) ∧
      (∀ core b k, tget? (getCore s core).banks b = some k → (∀ r ∈ k.src, r.1 < r.2 ∧ r.2 ≤ 2 ^ 56) →
        ∃ k2, tget? (getCore t core).banks b = some { k with stale := k2 } ∧
          (k2 = true ↔ k.stale = true ∨ k.state ≠ .empty ∧ k.ctx = ctx ∧ ∃ r ∈ k.src, ∃ a, r.1 ≤ a ∧ a < r.2 ∧ covered v a)) ∧
      t.mem = s.mem ∧ ∀ core, (getCore t core).floor = (getCore s core).floor ∧ ∀ slot,
        { getWg t core slot with warps := [] } = { getWg s core slot with warps := [] } ∧
        ∀ n, getWarp t core slot n =
          if (getWg s core slot).ctx = ctx then
            { getWarp s core slot n with buf := (getWarp s core slot n).buf.map fun b => { b with before := true } }
          else getWarp s core slot n) ∧
  (∀ (s : State) (v : Word), s.shootOp.isSome = true → exec (.shoot v) s = .next s) ∧
  (∀ (s : State) (p : ShootOp), s.shootOp = some p → p.pend = 0 → ¬ HeldBefore s →
    ∃ t, exec .shootdownComplete s = .next t ∧ t.shootOp = none ∧ (getCtx t p.ctx).ptroot = (getCtx s p.ctx).ptroot ∧
      (getCtx t p.ctx).root = if p.all then (getCtx s p.ctx).ptroot else (getCtx s p.ctx).root) ∧
  (∀ (s : State) (p : ShootOp), s.shootOp = some p → p.pend ≠ 0 ∨ HeldBefore s →
    exec .shootdownComplete s = .next s) ∧
  (∀ (s : State) (n : Nat) (p : PfReq) (pte : Word) (at_ : Nat), s.pf[n]? = some p → p.host = false →
    p.answered = false → DemandStop s p.ctx p.va pte at_ → walkBad s p.ctx p.va = none → Unheld s p.ctx p.va →
    let frame := (s.pgpool.extractLsb' 16 32).toNat * 0x10000
    frame ≠ 0 → badSector s frame 8 = none → at_ + 8 ≤ frame ∨ frame + 0x10000 ≤ at_ →
    ∃ t e, exec (.pageFaultService n) s = .next t ∧ OnlyDevice s t ∧ ShotDown s t p.ctx p.va ∧ t.pf = s.pf.eraseIdx n ∧
      leValue (t.mem.rdN at_ 8) = e.toNat ∧ pteValid e = true ∧ pteLeaf e = true ∧ pteAddr e = frame ∧ pteDemand e = false ∧
      pteState e = pteState pte ∧ pteOwner e = pteOwner pte ∧ pteX e = pteX pte ∧ pteW e = pteW pte ∧ pteR e = pteR pte ∧
      t.pgpool.extractLsb' 16 32 = (BitVec.ofNat 64 (leValue (s.mem.rdN frame 8))).extractLsb' 16 32 ∧
      (∀ a, frame ≤ a → a < frame + 0x10000 → t.mem.rd a = 0) ∧
      ∀ a, (a < frame ∨ frame + 0x10000 ≤ a) → (a < at_ ∨ at_ + 8 ≤ a) → t.mem.rd a = s.mem.rd a) ∧
  (∀ (s : State) (n : Nat) (p : PfReq), s.pf[n]? = some p → p.answered = true → Unheld s p.ctx p.va →
    ∃ t, exec (.pageFaultService n) s = .next t ∧ OnlyDevice s t ∧ ShotDown s t p.ctx p.va ∧ t.pf = s.pf.eraseIdx n ∧
      t.mem = s.mem) ∧
  (∀ (s : State) (v : Word) (p : PfReq), s.pf = [p] → p.host = true → p.answered = false → p.ctx = (v.extractLsb' 8 6).toNat →
    p.va = (v.extractLsb' 16 40).toNat * 0x10000 →
    (v.getLsbD 0 = true → Unheld s p.ctx p.va → ∃ t, exec (.pfreply v) s = .next t ∧ OnlyDevice s t ∧
      ShotDown s t p.ctx p.va ∧ t.pf = [] ∧ t.mem = s.mem) ∧
    (v.getLsbD 0 = true → (∃ e x, (∃ c ∈ s.cores, e ∈ c.2.tlb) ∧ Translates p.ctx p.va e ∧ x ∈ s.pend ∧
        pteAddr e.pte ≤ x.pa ∧ x.pa < pteAddr e.pte + 2 ^ pageBits e.level) →
      exec (.pfreply v) s = .next { s with pf := [{ p with answered := true }] }) ∧
    (v.getLsbD 0 = false → ∃ t, exec (.pfreply v) s = .next t ∧ t.pf = [] ∧ t.mem = s.mem ∧
      ∀ o va, o.split = none → (wgOf s o).ctx = p.ctx → (getWg? s o.core o.slot).isSome = true → (wgOf s o).latches = [] →
        (streamOf s o).wait = .pageFault va → va.toNat / 0x10000 * 0x10000 = p.va →
        (tget? (wgOf s o).warps o.warp).isSome = true →
        streamOf t o = { streamOf s o with refused := some va })) ∧
  (∀ (s : State) (v : Word), v.extractLsb' 46 18 = 0 → v.extractLsb' 23 17 = 0 → v.extractLsb' 7 9 = 0 →
    let base := (v.extractLsb' 16 7).toNat
    let size := (v.extractLsb' 0 7).toNat
    let ctx := (v.extractLsb' 40 6).toNat
    base ≤ 91 → base + size ≤ 92 → s.bfloorOps = [] →
    (∀ c, c < 64 → c ≠ ctx → (getCtx s c).shareSize = 0 ∨ (getCtx s c).shareBase + (getCtx s c).shareSize ≤ base ∨
      base + size ≤ (getCtx s c).shareBase) →
    exec (.bfloor v) s = .next { s with bfloorCtx := ctx, bfloorOps := [(v, none)] }) ∧
  ∀ (s : State) (v : Word) (waits : Option Nat) (rest : List (Word × Option Nat)), s.bfloorOps = (v, waits) :: rest →
    let base := (v.extractLsb' 16 7).toNat
    let size := (v.extractLsb' 0 7).toNat
    let ctx := (v.extractLsb' 40 6).toNat
    (∀ c ∈ s.cores, ∀ p ∈ c.2.ops, p.ctx = ctx → namesFloor p = false) →
    ∃ t, exec .bfloorWriteComplete s = .next t ∧ t.bfloorOps = rest ∧ (getCtx t ctx).shareBase = base ∧
      (getCtx t ctx).shareSize = size ∧ (∀ c, c ≠ ctx → getCtx t c = getCtx s c) ∧ t.mem = s.mem ∧
      (∀ op o m, waits = some op → ListedOnce s → o.split = none → (getWg? s o.core o.slot).isSome = true →
        (tget? (wgOf s o).warps o.warp).isSome = true → (streamOf s o).wait = .bfloor m op →
        (∀ q k, (streamOf s q).wait = .bfloor k op → q = o) → Retires s t o m ((streamOf s o).pc + 4)) ∧
      ∀ core a,
        (inShare base size a ∧ ¬ inShare (getCtx s ctx).shareBase (getCtx s ctx).shareSize a → (getCore t core).floor.rd a = 0) ∧
        (¬ inShare base size a ∨ inShare (getCtx s ctx).shareBase (getCtx s ctx).shareSize a →
          (getCore t core).floor.rd a = (getCore s core).floor.rd a)

namespace Sys2Proof.Claim

/-! ### Pre-emption -/

/-- The value of a request for a running workgroup: BUSY, its core and slot, a bound. -/
def requestFor (core slot : Nat) (bound : BitVec 32) : Word :=
  0x8000000000000000#64 ||| (BitVec.ofNat 64 core <<< 40) ||| (BitVec.ofNat 64 slot <<< 35) ||| bound.setWidth 64

/-- Cycles that a workgroup has run since dispatch, and its estimate (R344). -/
def ranCycles (s : State) (g : Wg) : Nat := g.earlier + (s.cycle - g.began)
def estimated (g : Wg) : Nat := g.hdr.estimate.toNat * 1024

/-- ⌈S / 128⌉ (R344). -/
def saveCycles (g : Wg) : Nat :=
  (4096 * (g.hdr.regs / 16 * g.hdr.warps) + g.hdr.scratch + 8192 + 512 * g.hdr.warps + 127) / 128

/-- The table of R344: when an option is allowed, its latency and its cost; and its code in OPT, in the order of ties. -/
def allowed (s : State) (g : Wg) : PreOpt → Bool
  | .drain => decide (ranCycles s g < estimated g)
  | .save => true
  | .flush => recIdem g.record
def latency (s : State) (g : Wg) : PreOpt → Nat
  | .drain => estimated g - ranCycles s g
  | .save => saveCycles g
  | .flush => 256
def cost (s : State) (g : Wg) : PreOpt → Nat
  | .drain => 0
  | .save => 2 * saveCycles g
  | .flush => ranCycles s g
def code : PreOpt → Nat
  | .drain => 1
  | .save => 2
  | .flush => 3

/-- A running workgroup of a context, with no request of the context under way. -/
structure Running (s : State) (ctx core slot : Nat) (g : Wg) : Prop where
  here  : getWg? s core slot = some g
  owner : g.ctx = ctx
  phase : g.phase = .running
  free  : (getCtx s ctx).pre.busy = false
  range : core ≤ 159 ∧ slot < 32

/-- The option that a step leaves chosen (R345, R359). -/
def Chosen (s t : State) (ctx core slot : Nat) (o : PreOpt) (code : Nat) : Prop :=
  (getCtx t ctx).pre.busy = true ∧ (getCtx t ctx).pre.ask = false ∧ (getCtx t ctx).pre.opt = code ∧
    (getWg t core slot).preempt = some o ∧ (getWg t core slot).warps = (getWg s core slot).warps ∧ t.mem = s.mem

/-- The die's pond has room for one more entry (R334). -/
def PondRoom (s : State) (core : Nat) : Prop := (pondOf s (dieOf core)).length < 8192

/-- A saved or flushed workgroup has left its slot, and its entry stands at the head of its level in the die's pond. -/
def LeftToPond (s t : State) (core slot : Nat) (g : Wg) (saved : Option Nat) : Prop :=
  getWg? t core slot = none ∧
  ∃ e, ((pondOf t (dieOf core)).filter fun x => x.level == recPrio g.record).head? = some e ∧
    e.tseq = g.tseq ∧ e.record = g.record ∧ e.addr = g.addr ∧ e.ctx = g.ctx ∧ e.saved = saved ∧
    (pondOf t (dieOf core)).length = (pondOf s (dieOf core)).length + 1

/-- No other work than its warps: no commands, writes, dirty lines or claim to the baton. -/
structure Quiet (s : State) (core slot : Nat) : Prop where
  ops     : ∀ p ∈ (getCore s core).ops, p.who.slot ≠ slot
  waiting : ∀ p ∈ (getCore s core).waiting, p.who.slot ≠ slot
  pend    : ∀ p ∈ s.pend, (p.who.core ≠ core ∨ p.who.slot ≠ slot) ∧ ¬ OfTask (getWg s core slot) p
  l1      : (getCore s core).l1 = []
  baton   : (getCore s core).baton = none ∧ (getCore s core).waiters = []

/-- The first save frame of a context's list (R359, R361). -/
def frameOf (s : State) (ctx : Nat) : Nat := ((getCtx s ctx).savea.extractLsb' 21 27).toNat * 0x200000

end Sys2Proof.Claim

/-- R342, R344, R345, R359–R362, R388: the device takes the allowed option of least cost within the bound, or else of least
latency; in host-assisted mode it asks and takes the host's choice; a shadow task is unwound until an instruction of it has
issued, and then pre-empted or left; a flush re-enqueues the record; a save writes the frame and re-enqueues the workgroup,
each once the pond has room; a resume restores what the frame holds. The model's readings: the list of frames and its
closed parts (log entry 41), the host's choice (42), a resume's core (39), the list that a task keeps (57). -/
def Obligations.PreemptionAndSaves : Prop :=
  (∀ (s : State) (ctx core slot : Nat) (bound : BitVec 32) (g : Wg), Running s ctx core slot g → s.dsplit.getLsbD 1 = false →
    ∃ t o, exec (.preemptRequest ctx (requestFor core slot bound)) s = .next t ∧ Chosen s t ctx core slot o (code o) ∧
      allowed s g o = true ∧
      ((∃ q, allowed s g q = true ∧ latency s g q ≤ bound.toNat) → latency s g o ≤ bound.toNat ∧
        ∀ q, allowed s g q = true → latency s g q ≤ bound.toNat →
          cost s g o < cost s g q ∨ cost s g o = cost s g q ∧ code o ≤ code q) ∧
      ((∀ q, allowed s g q = true → bound.toNat < latency s g q) → ∀ q, allowed s g q = true →
        latency s g o < latency s g q ∨ latency s g o = latency s g q ∧ code o ≤ code q)) ∧
  (∀ (s : State) (ctx core slot : Nat) (bound : BitVec 32) (g : Wg), Running s ctx core slot g → s.dsplit.getLsbD 1 = true →
    ∃ t, exec (.preemptRequest ctx (requestFor core slot bound)) s = .next t ∧ (getCtx t ctx).pre.ask = true ∧
      (getCtx t ctx).pre.busy = true ∧ (getCtx t ctx).pre.opt = 0 ∧ t.cores = s.cores) ∧
  (∀ (s : State) (ctx core slot : Nat) (v : Word) (g : Wg) (o : PreOpt), getWg? s core slot = some g →
    g.ctx = ctx → g.phase = .running → (getCtx s ctx).pre.busy = true → (getCtx s ctx).pre.ask = true →
    (getCtx s ctx).pre.slot = slot → (bits (getCtx s ctx).pre.val 47 40) = core →
    bits (getCtx s ctx).pre.val 47 35 = bits v 47 35 → s.ctxs = [(ctx, getCtx s ctx)] →
    bits v 62 61 = code o →
    ∃ t, exec (.pdecide v) s = .next t ∧ Chosen s t ctx core slot o (code o)) ∧
  (∀ (s : State) (ctx core k n : Nat) (g : Wg) (cancel : Bool), getWg? s core n = some g → n ∈ (getCore s core).shadow →
    s.ctxs = [(ctx, getCtx s ctx)] → (getCtx s ctx).pre.busy = true → (getCtx s ctx).pre.opt = 0 →
    (getCtx s ctx).pre.ask = false → (getCtx s ctx).pre.slot = n → (getCtx s ctx).pre.val.getLsbD 34 = true →
    (getCtx s ctx).pre.val.getLsbD 33 = cancel → bits (getCtx s ctx).pre.val 47 40 = core →
    bits (getCtx s ctx).pre.val 35 35 = k →
    (cancel = false → g.started = false →
      (PondRoom s core → ∃ t, exec (.shadowPreempt core k) s = .next t ∧ LeftToPond s t core n g none ∧
        (getCtx t ctx).pre.busy = false) ∧
      (¬ PondRoom s core → exec (.shadowPreempt core k) s = .next s)) ∧
    (cancel = false → g.started = true → g.phase = .running → s.dsplit.getLsbD 1 = false →
      ∃ t o, exec (.shadowPreempt core k) s = .next t ∧ Chosen s t ctx core n o (code o) ∧ allowed s g o = true) ∧
    (cancel = true → ∃ t, exec (.shadowCancel core k) s = .next t ∧ t.ponds = s.ponds ∧ t.mem = s.mem ∧
      (getCtx t ctx).pre.busy = false ∧ getWg? t core n = if g.started then some g else none)) ∧
  (∀ (s : State) (core slot : Nat) (g : Wg), getWg? s core slot = some g → g.preempt = some .flush → g.phase = .running →
    Quiet s core slot → PondRoom s core → ∃ t, exec (.preemptFlush core slot) s = .next t ∧ LeftToPond s t core slot g none ∧ t.mem = s.mem) ∧
  (∀ (s : State) (core slot : Nat) (g : Wg), getWg? s core slot = some g → g.preempt = some .save → g.phase = .running →
    Quiet s core slot → (∀ w ∈ g.warps, w.2.main.out = [] ∧ w.2.splits = []) → (g.warps.map Prod.fst).Nodup →
    g.record.length = 64 → g.hdr.warps ≤ 32 → g.hdr.warps * g.hdr.regs ≤ 4096 →
    g.hdr.scratch ≤ 0xA0000 → PondRoom s core → g.saveNo = (getCtx s g.ctx).saveNo → g.accSaved = [] → g.batonWait = false →
    (∀ r ∈ (getCore s core).acc, r.2.length = 128) →
    let f := frameOf s g.ctx
    f ≠ 0 → badSector s f 8 = none →
    ∃ t, exec (.preemptSave core slot) s = .next t ∧ LeftToPond s t core slot g (some s.nextId) ∧
      leValue (t.mem.rdN f 2) = 0xC6F5 ∧ t.mem.rd (f + 2) = 1 ∧ t.mem.rd (f + 3) = BitVec.ofNat 8 g.hdr.warps ∧
      t.mem.rd (f + 4) = BitVec.ofNat 8 (g.hdr.regs / 16) ∧ t.mem.rd (f + 5) = BitVec.ofNat 8 g.hdr.split ∧
      t.mem.rd (f + 7) = BitVec.ofNat 8 g.ctx ∧ leValue (t.mem.rdN (f + 24) 8) = g.tseq.toNat ∧
      leValue (t.mem.rdN (f + 16) 8) = ranCycles s g % 2 ^ 64 ∧ t.mem.rdN (f + 0x40) 64 = g.record ∧
      (∀ w r, w < g.hdr.warps → r < 48 →
        leValue (t.mem.rdN (f + 0x2000 + 512 * w + 8 * r) 8) = (tgetD 0 (getWarp s core slot w).s r).toNat) ∧
      (∀ w r l, w < g.hdr.warps → r < g.hdr.regs → l < 32 →
        leValue (t.mem.rdN (f + 0x6000 + ((w * g.hdr.regs + r) * 32 + l) * 8) 8) =
          (tgetD 0 (getWarp s core slot w).v (r * 32 + l)).toNat) ∧
      (∀ a, a < g.hdr.scratch → t.mem.rd (f + 0x106000 + a) = g.scratch.rd a) ∧
      (∀ j c, j ∈ g.accRows → j < 192 → c < 128 →
        leValue (t.mem.rdN (f + 0x1A6000 + (128 * j + c) * 4) 4) = ((tgetD zeroRow (getCore s core).acc j).getD c 0).toNat) ∧
      (getCtx t g.ctx).savea.extractLsb' 21 27 = (BitVec.ofNat 64 (leValue (s.mem.rdN f 8))).extractLsb' 21 27 ∧
      ∀ a, a < f ∨ f + 0x200000 ≤ a → t.mem.rd a = s.mem.rd a) ∧
  ∀ (s : State) (die core slot : Nat) (e : PondEnt) (id : Nat) (v : SavedWg),
    (candidates s die).head? = some e → e.saved = some id → s.saved.find? (fun x => x.id == id) = some v →
    coreForSaved s die v.wg = some core → freeWgSlot (getCore s core) = some slot → (getCore s core).split = v.wg.hdr.split →
    frameGood s v = true → v.baton = none → v.waits = [] → v.wg.withdrawn = [] →
    (v.wg.warps.map Prod.fst).Nodup → v.wg.saveNo = (getCtx s v.wg.ctx).saveNo →
    ∃ t g, exec (.workgroupResume die) s = .next t ∧ getWg? t core slot = some g ∧ (∀ x ∈ t.saved, x.id ≠ id) ∧
      g.tseq = v.wg.tseq ∧ g.phase = v.wg.phase ∧ g.hdr = v.wg.hdr ∧ g.bars = v.wg.bars ∧ g.earlier = v.wg.earlier ∧
      g.warps.map Prod.fst = v.wg.warps.map Prod.fst ∧
      (getCtx t g.ctx).savea = BitVec.ofNat 64 v.frame ∧
      ∀ w x, (w, x) ∈ v.wg.warps →
        (tgetD .init g.warps w).main.pc = x.main.pc ∧ (tgetD .init g.warps w).main.wait = x.main.wait ∧
        (tgetD .init g.warps w).gcount = x.gcount ∧
        (∀ r, r < 48 → (tgetD 0 (tgetD .init g.warps w).s r).toNat =
          leValue (s.mem.rdN (v.frame + 0x2000 + 512 * w + 8 * r) 8)) ∧
        ∀ r l, r < g.hdr.regs → l < 32 → (tgetD 0 (tgetD .init g.warps w).v (r * 32 + l)).toNat =
          leValue (s.mem.rdN (v.frame + 0x6000 + ((w * g.hdr.regs + r) * 32 + l) * 8) 8)

namespace Sys2Proof.Claim

/-! ### The debugger -/

/-- A live warp that stands halted. -/
def Halted (s : State) (core slot warp : Nat) : Prop :=
  (getWarp s core slot warp).live ≠ 0 ∧ (getWarp s core slot warp).stop ≠ 0

/-- Only one warp changes, and of it only the debugger's own marks; `busy` is what BUSY then reads. -/
def OnlyStop (s t : State) (core slot warp stop : Nat) (step : Option Nat) (busy : Bool) : Prop :=
  t = { updWarp s core slot warp (fun w => { w with stop := stop, step := step }) with dbgBusy := busy }

/-- The warps of a core stop or go on, as `f` says, and nothing else of a warp changes. -/
def CoreStops (s t : State) (core : Nat) (f : Warp → Nat) : Prop :=
  { t with cores := s.cores } = s ∧ (∀ c, c ≠ core → getCore t c = getCore s c) ∧
  (getCore t core).ops = (getCore s core).ops ∧ (getCore t core).waiting = (getCore s core).waiting ∧
  ∀ slot warp, getWarp t core slot warp = { getWarp s core slot warp with stop := f (getWarp s core slot warp) }

/-- An injection waits in a warp that a test selects. -/
def InjectsInto (s : State) (sel : Who → Prop) : Prop := ∃ x, s.inject = some x ∧ sel x.1

/-- Held commands of a core tried in their order, each accepted or left to wait (R367). -/
def InTurn (core : Nat) : State → List EngOp → State → Prop
  | u, [], t => t = u
  | u, op :: ops, t =>
    ∃ v, (match (getCore u core).waiting.findIdx? (· == op) with
      | none => v = u
      | some n => exec (.engineCommandAccept core n) u = .next v) ∧ InTurn core v ops t

/-- A word that CMD 6 executes on a mask of live lanes (R369): of no rejected opcode, at lane or warp scope. -/
def injectable (w : Warp) (x : BitVec 32) (m : Mask) : Prop :=
  ¬ (0x01 ≤ (fieldOP x).toNat ∧ (fieldOP x).toNat ≤ 0x1F) ∧ (fieldOP x).toNat < 0xE0 ∧
    (Scope.dec (fieldSC x) = .lane ∨ Scope.dec (fieldSC x) = .warp) ∧ m &&& ~~~w.live = 0

end Sys2Proof.Claim

/-- R366–R369: core and warp halts stop warps with no other effect, a core halt is complete once its accepted commands are; as a
core resumes, the commands that it held are tried in their order; a resume ends a step and gives up an injection that waits; a step marks one stream; an injection is rejected or waits to execute, and an injected word changes no
PC and no count, and with an empty mask takes no fault (R187); DBGDATA writes a register of a halted warp; an armed
breakpoint halts its warp and is not checked again for that word. The model's readings of BUSY, of DBGDATA and of
injections are log entries 45 and 54. -/
def Obligations.DebuggerCommands : Prop :=
  (∀ (s : State) (core : Nat), ∃ t, exec (.haltCore core) s = .next t ∧ (getCore t core).halting = true ∧
    CoreStops s t core fun w => if w.stop = 0 ∧ w.live ≠ 0 then 1 else w.stop) ∧
  (∀ (s : State) (core : Nat),
    let sel := fun o : Who => o.core = core ∧ (getWarp s o.core o.slot o.warp).stop = 1
    ∃ u t, exec (.resumeCore core) s = .next t ∧ InTurn core u (getCore s core).waiting t ∧
      (getCore u core).halting = false ∧ (getCore u core).halted = false ∧
      (¬ InjectsInto s sel → CoreStops s u core fun w => if w.stop = 1 then 0 else w.stop) ∧
      (InjectsInto s sel → CoreStops { s with inject := none, injectNo := none, dbgBusy := false } u core
        fun w => if w.stop = 1 then 0 else w.stop)) ∧
  (∀ (s : State) (core : Nat), (getCore s core).halting = true →
    ((getCore s core).ops = [] → ∃ t, exec (.coreHaltComplete core) s = .next t ∧ (getCore t core).halted = true ∧
      CoreStops s t core Warp.stop) ∧
    ((getCore s core).ops ≠ [] → exec (.coreHaltComplete core) s = .next s)) ∧
  (∀ (s : State) (core slot warp : Nat),
    let w := getWarp s core slot warp
    (w.live ≠ 0 → w.stop = 0 → ∃ t, exec (.haltWarp core slot warp) s = .next t ∧ OnlyStop s t core slot warp 2 w.step s.dbgBusy) ∧
    (Halted s core slot warp →
      let sel := fun o : Who => o.core = core ∧ o.slot = slot ∧ o.warp = warp
      ∃ t, exec (.resumeWarp core slot warp) s = .next t ∧
      (¬ InjectsInto s sel →
        OnlyStop s t core slot warp (if (getCore s core).halting then 1 else 0) none (s.dbgBusy && w.step.isNone)) ∧
      (InjectsInto s sel → OnlyStop { s with inject := none, injectNo := none } t core slot warp
        (if (getCore s core).halting then 1 else 0) none false)) ∧
    ∀ k, Halted s core slot warp → w.splits = [] ∨ (findSplit w k).isSome = true →
      (s.dbgBusy = false → ∃ t, exec (.stepSplit core slot warp k) s = .next t ∧
        OnlyStop s t core slot warp w.stop (some k) true) ∧
      (s.dbgBusy = true → exec (.stepSplit core slot warp k) s = .next s)) ∧
  (∀ (s : State) (core slot warp : Nat) (v : Word), Halted s core slot warp → s.dbgBusy = false →
    let w := getWarp s core slot warp
    let x : BitVec 32 := v.extractLsb' 0 32
    let m : Mask := v.extractLsb' 32 32
    (¬ injectable w x m → exec (.inject core slot warp v) s = .next { s with dbgErr := true, dbgCause := 0x01 }) ∧
    (injectable w x m → w.splits = [] → exec (.inject core slot warp v) s =
      .next { s with dbgErr := false, dbgBusy := true, injectNo := none, inject := some (mainOf core slot warp, x, m) })) ∧
  (∀ (s : State) (o : Who) (mk : Bool) (d a b : Reg) (m : Mask), s.cur = { who := o, mode := .inject m } → o.split = none →
    (warpOf s o).splits = [] →
    dstOk s o .lane d = true → srcOk s o .lane a = true → srcOk s o .lane b = true → Settled s o [a, b] →
    openReads s o [a, b] = false →
    ∃ t, exec (.add mk .lane .w64 d a b) s = .next t ∧ t.inject = none ∧ t.dbgBusy = false ∧ t.dbgErr = s.dbgErr ∧
      (streamOf t o).pc = (streamOf s o).pc ∧ (warpOf t o).rcnt = (warpOf s o).rcnt ∧
      (warpOf t o).stack = (warpOf s o).stack ∧ SameMemory s t ∧
      (∀ l, m.getLsbD l = true → held t o d l = landed d (rd s o a l + rd s o b l)) ∧
      SameRegs s t o d fun l => m.getLsbD l) ∧
  (∀ (s : State) (o : Who) (x : BitVec 32) (r : Reject) (m : Mask), s.cur = { who := o, mode := .inject m } →
    decode x = .reject r →
    (m = 0 → exec (.illegalInstruction x) s = .next { s with inject := none, injectNo := none, dbgBusy := false }) ∧
    (m ≠ 0 → exec (.illegalInstruction x) s =
      .next { s with inject := none, injectNo := none, dbgBusy := false, dbgErr := true, dbgCause := refusal s o x })) ∧
  (∀ (s : State) (core slot warp : Nat) (sel v : Word), Halted s core slot warp →
    let w := getWarp s core slot warp
    let i := (sel.extractLsb' 0 8).toNat
    let l := (sel.extractLsb' 16 5).toNat
    w.splits = [] → w.main.out = [] →
    (sel.getLsbD 15 = false → i < (getWg s core slot).hdr.regs →
      ∃ t, exec (.dbgdata core slot warp sel v) s = .next t ∧ (getWarp t core slot warp).v = tput w.v (i * 32 + l) v ∧
        { getWarp t core slot warp with v := w.v } = w ∧ t.mem = s.mem ∧ t.dbgErr = s.dbgErr) ∧
    (sel.getLsbD 15 = false → (getWg s core slot).hdr.regs ≤ i →
      exec (.dbgdata core slot warp sel v) s = .next { s with dbgErr := true, dbgCause := 0x03 }) ∧
    (sel.getLsbD 15 = true → 121 ≤ i → i ≤ 126 → exec (.dbgdata core slot warp sel v) s =
      .next { s with dbgErr := true, dbgCause := 0x03 }) ∧
    ∀ n : Fin 48, sel.getLsbD 15 = true → i = 64 + n.val →
      ∃ t, exec (.dbgdata core slot warp sel v) s = .next t ∧ (getWarp t core slot warp).s = tput w.s n.val v ∧
        { getWarp t core slot warp with s := w.s } = w) ∧
  (∀ (s : State) (core slot warp : Nat) (sel v : Word), ¬ Halted s core slot warp →
    exec (.dbgdata core slot warp sel v) s = .next s) ∧
  ∀ (s : State) (o : Who) (n : Nat) (b : Word), tget? s.bps n = some (b, o.core) → b.getLsbD 63 = true →
    (b.extractLsb' 56 6).toNat = (wgOf s o).ctx → (b.extractLsb' 2 54).toNat * 4 = (streamOf s o).pc.toNat →
    (warpOf s o).stop = 0 → (warpOf s o).live ≠ 0 →
    ((streamOf s o).skipBp = false → exec (.breakpointHit o) s =
      .next (updWarpOf s o fun w => putStream { w with stop := 4 } o.split fun st => { st with skipBp := true })) ∧
    ((streamOf s o).skipBp = true → exec (.breakpointHit o) s = .next s)

namespace Sys2Proof.Claim

/-! ### The host's side -/

/-- No device sector fails its check (R408). -/
def Sound (s : State) : Prop := s.checks = []

/-- Another agent than a core has written the bytes `bs` at device address `at_`: nothing but device memory changes, and of the
writes under way only what their bytes hide from the engines, which where they meet those is now those (R252, R256). -/
structure OnlyWritten (s t : State) (at_ : Nat) (bs : List Byte) : Prop where
  rest : { t with mem := s.mem, pend := s.pend } = s
  pend : t.pend.length = s.pend.length ∧ ∀ (n : Nat) (p : Pend), s.pend[n]? = some p →
    ∃ old, t.pend[n]? = some { p with old := old } ∧ old.length = p.old.length ∧ ∀ i, i < old.length →
      let x := placeOf s p.ctx p.pa + i
      old[i]? = if at_ ≤ x ∧ x < at_ + bs.length then bs[x - at_]? else p.old[i]?

/-- An event has been posted on a context's ring with room (R398): its sixteen bytes, and EVW after it. -/
def Posted (s t : State) (ctx type : Nat) (data : Word) : Prop :=
  let c := getCtx s ctx
  let base := (c.evq.extractLsb' 12 52).toNat * 4096
  let size := 2 ^ ((c.evq.extractLsb' 8 4).toNat + 6)
  let at_ := base + 16 * (c.evw.toNat % size)
  (base ≠ 0 → (c.evw - c.evr).toNat ≠ size →
    (getCtx t ctx).evw = c.evw + 1 ∧ (getCtx t ctx).evlost = c.evlost ∧ leValue (t.hostMem.rdN at_ 2) = (type + 256 * ctx) % 65536 ∧
    leValue (t.hostMem.rdN (at_ + 8) 8) = data.toNat ∧
    (∀ a, a < at_ ∨ at_ + 16 ≤ a → t.hostMem.rd a = s.hostMem.rd a) ∧
    t.msix = if c.evw = c.evr then s.msix ++ [c.evq.extractLsb' 0 8] else s.msix) ∧
  (base = 0 ∨ (c.evw - c.evr).toNat = size →
    (getCtx t ctx).evw = c.evw ∧ (getCtx t ctx).evlost = c.evlost + 1 ∧ t.hostMem = s.hostMem ∧ t.msix = s.msix)

/-- A value of MCLOAD or PATCH whose reserved bits are zero, and its address (R390). -/
def patchAddr (v : Word) : Nat := (v.extractLsb' 6 42).toNat * 64

/-- The patch that a route verifies is good (R389, R390): whole in device memory, signed, not below the counter, of the
layout of R389, and for an entry that a patch may fill. -/
structure GoodPatch (s : State) (addr : Nat) (bs : List Byte) : Prop where
  blen   : 4 ≤ field bs 16 19 ∧ field bs 16 19 % 4 = 0 ∧ field bs 16 19 ≤ 16384
  bytes  : bs = s.mem.rdN addr (160 + field bs 16 19)
  inside : addr + 160 + field bs 16 19 ≤ Config.deviceEnd
  signed : Config.patchSigned bs = true
  svn    : s.secver ≤ field bs 4 4
  layout : patchLayout bs = true
  entry  : 0xF5 ≤ field bs 3 3

/-- Slot i of an expert location table (R407). -/
def eltSlot (s : State) (base i : Nat) : Nat := leValue (s.mem.rdN (base + 8 * i) 8)

end Sys2Proof.Claim

/-- R396, R398, R400–R402, R407, R408, R410: BAR 2 reaches device memory; links train, clocks step with no other effect; the
power cap, the nonce, routes, DSPLIT and the report of the management window; the keeper of the expert location table. The
model's readings: what PWR and the window discard (log entry 44), the nonce that a report takes, as it ends (47), the
VERSION of a new expert entry (48), a link that is down (49), the ring of an integrity event (43), when firmware lays out
an empty table (59). -/
def Obligations.HostSide : Prop :=
  (∀ (s : State) (link off : Nat) (data : List Byte), tgetD 0 s.links link ≠ 0 → Sound s → data ≠ [] →
    (off + data.length ≤ Config.deviceEnd → ∃ t, exec (.hostWrite link off data) s = .next t ∧
      t.mem.rdN off data.length = data ∧ (∀ a, a < off ∨ off + data.length ≤ a → t.mem.rd a = s.mem.rd a) ∧
      OnlyWritten s t off data) ∧
    (Config.deviceEnd ≤ off → exec (.hostWrite link off data) s = .next s)) ∧
  (∀ (s : State) (link off n : Nat), tgetD 0 s.links link ≠ 0 → Sound s →
    ∃ bs, exec (.hostRead link off n) s = .next { s with hostRead := some bs } ∧ bs.length = n ∧
      ∀ i, i < n → bs[i]? = some (if off + i < Config.deviceEnd then s.mem.rd (off + i) else 0xFF)) ∧
  (∀ (s : State) (off : Nat) (x : BitVec 16), homeOf off = .device → s.checks = [(off / 32, x)] →
    x ≠ crc16 (s.mem.rdN (32 * (off / 32)) 32) → s.dsplit.getLsbD 4 = true → tgetD 0 s.links 0 ≠ 0 →
    ∃ t, exec (.hostRead 0 off 1) s = .next t ∧ t.hostRead = none ∧ t.mem = s.mem ∧
      Posted s t s.ctxselW 6 (BitVec.ofNat 64 (32 * (off / 32)))) ∧
  (∀ (s : State) (link : Nat), link < 2 →
    (∀ w, w = 0 ∨ w = 4 ∨ w = 8 ∨ w = 16 →
      exec (.linkTraining link w) s = .next { s with links := tput s.links link w }) ∧
    (∀ w, w ≠ 0 ∧ w ≠ 4 ∧ w ≠ 8 ∧ w ≠ 16 → exec (.linkTraining link w) s = .next s)) ∧
  (∀ (s : State) (n : Nat), exec (.clockLowering n) s = .next { s with clock := n }) ∧
  (∀ (s : State) (v : Word), v.extractLsb' 12 4 = 0 → v.extractLsb' 28 36 = 0 →
    let n := (v.extractLsb' 0 12).toNat
    (1200 ≤ n → n ≤ 2600 → exec (.pwr v) s = .next { s with cap := n }) ∧
    (n < 1200 ∨ 2600 < n → exec (.pwr v) s = .next s)) ∧
  (∀ (s : State) (v : Word),
    (v = 1 → s.attBusy = false → exec (.attctl v) s = .next { s with attBusy := true }) ∧
    (v ≠ 1 ∨ s.attBusy = true → exec (.attctl v) s = .next s)) ∧
  (∀ (s : State), s.attBusy = true → s.nonce.length = 48 →
    ∃ r, exec .attestationComplete s = .next { s with attBusy := false, report := r } ∧ r.length = 256 ∧
      leValue (r.take 2) = 0xC6A7 ∧ (r.drop 56).take 48 = sha384 (s.micro.flatMap fun e => e.2.bytes) ∧
      (r.drop 104).take 48 = s.nonce) ∧
  (∀ (s : State) (n : Nat) (v : Word), n < 128 →
    (n = 5 → exec (.mgmtWindowWrite (8 * n) v) s = .next { s with dsplit := v.extractLsb' 0 7 }) ∧
    (n ≠ 5 → n < 48 → exec (.mgmtWindowWrite (8 * n) v) s = .next s) ∧
    (n = 80 → exec (.mgmtWindowWrite (8 * n) v) s =
      .next (if v.extractLsb' 6 58 = 0 then { s with ctxselW := v.toNat } else s)) ∧
    (n = 66 → exec (.mgmtWindowWrite (8 * n) v) s =
      .next (if v.extractLsb' 48 16 = 0 ∧ v.extractLsb' 0 16 = 0 then { s with pgpool := v } else s)) ∧
    (n = 91 → v.extractLsb' 48 16 = 0 → v.extractLsb' 4 8 = 0 → Sound s →
      let base := (v.extractLsb' 12 36).toNat * 4096
      let k := 2 ^ ((v.extractLsb' 0 4).toNat + 10)
      ∃ t, exec (.mgmtWindowWrite (8 * n) v) s = .next t ∧ t.eltb = v ∧ { t with eltb := s.eltb, mem := s.mem } = s ∧
        (∀ a, a < base ∨ base + 8 * k ≤ a → t.mem.rd a = s.mem.rd a) ∧
        (v ≠ s.eltb → s.dsplit.getLsbD 6 = false → base + 8 * k ≤ Config.deviceEnd →
          ∀ i, i < k → eltSlot t base i = 0xFFFF)) ∧
    (n = 91 → v.extractLsb' 48 16 ≠ 0 ∨ v.extractLsb' 4 8 ≠ 0 → exec (.mgmtWindowWrite (8 * n) v) s = .next s) ∧
    (n = 90 → exec (.mgmtWindowWrite (8 * n) v) s = .next s) ∧
    (n = 81 → exec (.mgmtWindowWrite (8 * n) v) s =
      .next (if v.extractLsb' 13 51 = 0 ∧ v.extractLsb' 4 4 = 0 ∧ 8 ≤ (v.extractLsb' 8 5).toNat ∧ (v.extractLsb' 8 5).toNat ≤ 16
        then updCtx s s.ctxselW fun c => { c with ctl := v } else s)) ∧
    (n = 83 → exec (.mgmtWindowWrite (8 * n) v) s =
      .next (if v.extractLsb' 48 16 = 0 ∧ v.extractLsb' 4 8 = 0 then updCtx s s.ctxselW fun c => { c with farea := v } else s)) ∧
    (n = 86 → exec (.mgmtWindowWrite (8 * n) v) s = .next (updCtx s s.ctxselW fun c => { c with evq := v })) ∧
    (n = 87 → exec (.mgmtWindowWrite (8 * n) v) s =
      .next (if v.extractLsb' 0 16 = 0 then updCtx s s.ctxselW fun c => { c with hostbase := v } else s))) ∧
  (∀ (s : State) (v : Word) (k c : Nat),
    (k < 6 → s.nonce.length = 48 → ∃ t, exec (.mgmtWindowWrite (0x2000 + 8 * k) v) s = .next t ∧ t.nonce.length = 48 ∧
      leValue ((t.nonce.drop (8 * k)).take 8) = v.toNat ∧ t.nonce.take (8 * k) = s.nonce.take (8 * k) ∧
      t.nonce.drop (8 * k + 8) = s.nonce.drop (8 * k + 8) ∧ { t with nonce := s.nonce } = s) ∧
    (c < 256 → exec (.mgmtWindowWrite (0x4000 + 8 * c) v) s =
      .next { s with routes := tput s.routes c (v &&& 0x800000000000FFFF) })) ∧
  ∀ (s : State) (e chip core : Nat), s.dsplit.getLsbD 6 = false → e < 0xFFFF → chip < 256 → core < 256 → Sound s →
    let base := (s.eltb.extractLsb' 12 36).toNat * 4096
    let n := 2 ^ ((s.eltb.extractLsb' 0 4).toNat + 10)
    let at_ := e * 0x9E37 % n
    base + 8 * n ≤ Config.deviceEnd →
    ((∃ i, i < n ∧ eltSlot s base i % 65536 = 0xFFFF) → eltSlot s base at_ % 65536 = e → ∃ t, exec (.expertLocationTableUpkeep e chip core) s = .next t ∧
      eltSlot t base at_ = e + chip * 2 ^ 16 + core * 2 ^ 24 + (eltSlot s base at_ / 2 ^ 32 + 1) % 65536 * 2 ^ 32 ∧
      (∀ a, a < base + 8 * at_ ∨ base + 8 * at_ + 8 ≤ a → t.mem.rd a = s.mem.rd a) ∧ { t with mem := s.mem } = s) ∧
    (eltSlot s base at_ % 65536 = 0xFFFF →
      ((∃ i, i < n ∧ i ≠ at_ ∧ eltSlot s base i % 65536 = 0xFFFF) →
        ∃ t, exec (.expertLocationTableUpkeep e chip core) s = .next t ∧
          eltSlot t base at_ = e + chip * 2 ^ 16 + core * 2 ^ 24) ∧
      ((∀ i, i < n → i ≠ at_ → eltSlot s base i % 65536 ≠ 0xFFFF) → exec (.expertLocationTableUpkeep e chip core) s = .next s)) ∧
    ((∀ i, i < n → eltSlot s base i % 65536 ≠ 0xFFFF) → ∃ t, exec (.expertLocationTableUpkeep e chip core) s = .next t ∧
      eltSlot t base at_ = e + chip * 2 ^ 16 + core * 2 ^ 24 ∧ (∀ i, i < n → i ≠ at_ → eltSlot t base i = 0xFFFF) ∧
      ∀ a, a < base ∨ base + 8 * n ≤ a → t.mem.rd a = s.mem.rd a)

/-- R66, R389, R390, R400, R409, R411: MCLOAD and PATCH start a verification on the route that is open; a good patch fills its
entry and event 7 is posted; the security-version counter only rises, and empties the entries below it; RESET puts the
registers at their reset values and keeps the counter, and firmware below it does not boot. That RESET keeps memory is the
model's choice (log entry 28), and the order of a patch's checks (22) and the ring of event 7 (43) are too. -/
def Obligations.PatchesAndTrust : Prop :=
  (∀ (s : State) (v : Word), v.extractLsb' 48 12 = 0 → v.extractLsb' 0 6 = 0 →
    (s.mcload.busy = false → s.dsplit.getLsbD 3 = false → exec (.mcload v) s =
      .next { s with mcload := { busy := true, res := 0, addr := patchAddr v, ctx := s.ctxselW } }) ∧
    (s.mcload.busy = true → exec (.mcload v) s = .next s) ∧
    (s.patch.busy = false → s.dsplit.getLsbD 3 = true → exec (.patch v) s =
      .next { s with patch := { busy := true, res := 0, addr := patchAddr v, ctx := s.ctxselW } }) ∧
    (s.mcload.busy = false → s.dsplit.getLsbD 3 = true → ∃ t, exec (.mcload v) s = .next t ∧
      t.mcload.res = 6 ∧ t.mcload.busy = false ∧ t.micro = s.micro) ∧
    (s.patch.busy = false → s.dsplit.getLsbD 3 = false → ∃ t, exec (.patch v) s = .next t ∧
      t.patch.res = 6 ∧ t.patch.busy = false ∧ t.micro = s.micro)) ∧
  (∀ (s : State) (bs : List Byte), s.mcload.busy = true → Sound s → GoodPatch s s.mcload.addr bs →
    ∃ t, exec .microcodePatchComplete s = .next t ∧ t.mcload.busy = false ∧ t.mcload.res = 1 ∧ t.mem = s.mem ∧
      Posted s t s.mcload.ctx 7 (BitVec.ofNat 64 (2 ^ 60 + s.mcload.addr)) ∧
      (∀ k, k ≠ field bs 3 3 → tget? t.micro k = tget? s.micro k) ∧
      ∃ e, tget? t.micro (field bs 3 3) = some e ∧ e.svn = field bs 4 4 ∧ e.fmt = field bs 5 5 ∧
        e.scopes.toNat = field bs 6 6 ∧ e.fixed.toNat = field bs 7 7) ∧
  (∀ (s : State) (v : Word),
    let n := (v.extractLsb' 0 7).toNat
    (v.extractLsb' 8 8 = 0x5A → v.extractLsb' 16 48 = 0 → v.getLsbD 7 = false → s.secver < n → n ≤ 64 →
      ∃ t, exec (.svraise v) s = .next t ∧ t.secver = n ∧ { t with secver := s.secver, micro := s.micro } = s ∧
        (∀ e ∈ t.micro, n ≤ e.2.svn ∧ e ∈ s.micro) ∧ ∀ e ∈ s.micro, n ≤ e.2.svn → e ∈ t.micro) ∧
    (v.extractLsb' 8 8 ≠ 0x5A ∨ n ≤ s.secver ∨ 64 < n → exec (.svraise v) s = .next s)) ∧
  ∀ s : State, ∃ t, exec .reset s = .next t ∧ t.secver = s.secver ∧ t.mem = s.mem ∧ t.cores = [] ∧ t.ctxs = [] ∧
    t.micro = [] ∧ t.dsplit = 0 ∧ t.pgpool = 0 ∧ t.chip = 0 ∧ t.eltb = 0 ∧ t.shoot = 0 ∧ t.shootOp = none ∧ t.cap = 2600 ∧
    t.mcload.busy = false ∧ t.mcload.res = 0 ∧ t.bps = [] ∧ t.dbgsel = 0 ∧ t.booted = (Config.firmwareSigned && decide (s.secver ≤ Config.firmwareVersion))

namespace Sys2Proof.Claim

/-! ### Traffic of peers, and translation -/

/-- A device page of a context that its own page-table entry maps with W set, coherent, and held by no PGX. -/
structure PlainPage (s : State) (ctx va pa : Nat) : Prop where
  low  : va < 2 ^ 56
  win  : inWindow va = false
  free : pgxHolds s ctx va = false
  page : ∃ pte at_, walk s ctx va = .leaf 4 pte at_ ∧ pteW pte = true ∧ pteR pte = true ∧ pteState pte = 0 ∧
    pteAddr pte + va % 65536 = pa
  dev  : homeOf pa = .device

end Sys2Proof.Claim

/-- R236, R287, R381–R383, R397, R403: a flit is taken only while CHIP.VALID is set, and its row is written, its word counted
up or its record enqueued; another chip's reads, writes and atomics reach the bytes of device memory that they name; XLATE
starts a translation or asks the host; the request is read first, which ends BUSY; then an unreadable object is refused with
reason 1, and a translated one leaves its image in the buffer with its length, and the event. That the end of a translation
comes in these two steps is the model's reading (log entry 46), and what a peer's access gives back (59). -/
def Obligations.PeersAndTranslation : Prop :=
  (∀ (s : State) (m : PeerMsg), s.chip.getLsbD 8 = false → exec (.peerFlit m) s = .next s) ∧
  (∀ (s : State) (ctx va pa : Nat) (bs : List Byte), s.chip.getLsbD 8 = true → Sound s → PlainPage s ctx va pa →
    bs ≠ [] → va % 65536 + bs.length ≤ 65536 →
    ∃ t, exec (.peerFlit (.row ctx va bs)) s = .next t ∧ t.mem.rdN pa bs.length = bs ∧
      (∀ a, a < pa ∨ pa + bs.length ≤ a → t.mem.rd a = s.mem.rd a) ∧ OnlyWritten s t pa bs) ∧
  (∀ (s : State) (ctx va pa : Nat), s.chip.getLsbD 8 = true → Sound s → PlainPage s ctx va pa →
    ∃ t, exec (.peerFlit (.arrival ctx va)) s = .next t ∧
      leValue (t.mem.rdN pa 8) = (leValue (s.mem.rdN pa 8) + 1) % 2 ^ 64 ∧
      (∀ a, a < pa ∨ pa + 8 ≤ a → t.mem.rd a = s.mem.rd a) ∧ OnlyWritten s t pa (t.mem.rdN pa 8)) ∧
  (∀ (s : State) (ctx : Nat) (r : List Byte), s.chip.getLsbD 8 = true → r.length = 64 → s.booted = true →
    (getCtx s ctx).ctl.getLsbD 0 = true → (getCtx s ctx).intake.length < 256 →
    exec (.peerFlit (.record ctx r)) s =
      .next (updCtx s ctx fun c => { c with intake := c.intake ++ [r], posts := c.posts + 1 })) ∧
  (∀ (s : State) (chip n : Nat) (a : BitVec 38) (bs : List Byte), s.chip.getLsbD 8 = true → Sound s →
    (a.toNat + n ≤ Config.deviceEnd → exec (.peerFlit (.read chip a n)) s =
      .next { s with outbox := s.outbox ++ [(chip, .answer (s.mem.rdN a.toNat n))] }) ∧
    (bs ≠ [] → a.toNat + bs.length ≤ Config.deviceEnd →
      ∃ t, exec (.peerFlit (.write a bs)) s = .next t ∧ t.mem.rdN a.toNat bs.length = bs ∧
        (∀ x, x < a.toNat ∨ a.toNat + bs.length ≤ x → t.mem.rd x = s.mem.rd x) ∧ OnlyWritten s t a.toNat bs) ∧
    ∀ b b1, a.toNat + 8 ≤ Config.deviceEnd →
      ∃ t, exec (.peerFlit (.atomic chip .add 8 a b b1)) s = .next t ∧
        t.outbox = s.outbox ++ [(chip, .answer (s.mem.rdN a.toNat 8))] ∧
        leValue (t.mem.rdN a.toNat 8) = (leValue (s.mem.rdN a.toNat 8) + b.toNat) % 2 ^ 64 ∧
        ∀ x, x < a.toNat ∨ a.toNat + 8 ≤ x → t.mem.rd x = s.mem.rd x) ∧
  (∀ (s : State) (v : Word), v.extractLsb' 56 7 = 0 → v.extractLsb' 0 6 = 0 → (∀ q ∈ s.xlateOps, q.ctx = s.ctxselW → q.req ≠ none) →
    let addr := (v.extractLsb' 6 50).toNat * 64
    ∃ t, exec (.xlate v) s = .next t ∧ (getCtx t s.ctxselW).xlate.toNat = addr ∧
      (s.dsplit.getLsbD 2 = false → t.xlateOps = s.xlateOps ++ [{ ctx := s.ctxselW, addr := addr, req := none }] ∧ t.hostMem = s.hostMem) ∧
      (s.dsplit.getLsbD 2 = true → t.xlateOps = s.xlateOps ∧ Posted s t s.ctxselW 3 (BitVec.ofNat 64 addr))) ∧
  (∀ (s : State) (v : Word), (∃ q ∈ s.xlateOps, q.ctx = s.ctxselW ∧ q.req = none) → exec (.xlate v) s = .next s) ∧
  (∀ (s : State) (q : XlateOp) (pa : Nat) (rest : List XlateOp), s.xlateOps = q :: rest → q.req = none → Sound s →
    PlainPage s q.ctx q.addr pa → q.addr % 64 = 0 →
    exec .translationComplete s = .next { s with xlateOps := { q with req := some (s.mem.rdN pa 64) } :: rest }) ∧
  (∀ (s : State) (q : XlateOp) (st : Nat) (r : List Byte) (rest : List XlateOp), s.xlateOps = q :: rest → q.req = some r →
    Sound s → 2 ^ 56 ≤ field r 0 7 → PlainPage s q.ctx (field r 32 39) st → field r 32 39 % 8 = 0 →
    ∃ t, exec .translationComplete s = .next t ∧ t.xlateOps = rest ∧ leValue (t.mem.rdN st 8) = 2 + 1 * 2 ^ 8 ∧
      (∀ a, a < st ∨ st + 8 ≤ a → t.mem.rd a = s.mem.rd a) ∧ Posted s t q.ctx 3 (BitVec.ofNat 64 q.addr)) ∧
  ∀ (s : State) (q : XlateOp) (r obj img : List Byte) (o : SObj) (c : SConfig) (rest : List XlateOp) (src dst st : Nat),
    s.xlateOps = q :: rest → q.req = some r → Sound s →
    PlainPage s q.ctx (field r 0 7) src → 64 ≤ field r 8 11 → field (s.mem.rdN src 64) 56 59 ≤ field r 8 11 →
    obj = s.mem.rdN src (field (s.mem.rdN src 64) 56 59) → field r 0 7 % 65536 + (64 + obj.length) ≤ 65536 →
    parseObject obj s.secver = .inl o → requestConfig r = some c → translateObj c o = .inl img →
    img ≠ [] → img.length ≤ field r 24 27 → field r 16 23 % 65536 + img.length ≤ 65536 → field r 32 39 % 8 = 0 →
    PlainPage s q.ctx (field r 16 23) dst → (st + 8 ≤ dst ∨ dst + img.length ≤ st) →
    (∀ u : State, { u with mem := s.mem, pend := s.pend } = s → (∀ a, a < dst ∨ dst + img.length ≤ a → u.mem.rd a = s.mem.rd a) →
      PlainPage u q.ctx (field r 32 39) st) →
    ∃ t, exec .translationComplete s = .next t ∧ t.xlateOps = rest ∧ t.mem.rdN dst img.length = img ∧
      leValue (t.mem.rdN st 8) = 1 + img.length * 2 ^ 32 ∧
      (∀ a, (a < dst ∨ dst + img.length ≤ a) → (a < st ∨ st + 8 ≤ a) → t.mem.rd a = s.mem.rd a) ∧
      Posted s t q.ctx 3 (BitVec.ofNat 64 q.addr)

namespace Sys2Proof.Claim

/-- The stream takes the chance of its partition now (R95–R97): nothing waits, no quantum, breakpoint or governor comes first,
and its word is fetched and is `x`, which leaves `t`, with the task marked as one that has issued (R342), to execute it in. -/
structure TakesChance (s : State) (core part : Nat) (tape : List Turn) (o : Who) (t : State) (x : BitVec 32) : Prop where
  inject : s.inject = none
  turn   : s.turns = .issue core part :: tape
  gov    : governed { s with turns := tape } o = false
  pick   : pickOf { s with turns := tape } core part = some o
  wait   : (streamOf s o).wait = .none
  det    : (wgOf s o).det = true → (warpOf s o).qcount < 2 ^ (wgOf s o).qlog ∧ bufCount (warpOf s o) < 512
  bps    : ∀ b ∈ s.bps, b.2.1.getLsbD 63 = false ∨ b.2.2 ≠ o.core
  word   : ∃ u, fetchWords (actAs (tookChance { s with turns := tape } o) o .issue) o (streamOf s o).pc 1 .fetch = (u, .inl [x]) ∧
    t = updWgOf u o fun g => { g with started := true }

end Sys2Proof.Claim

/-- R48, R67, R95–R97, R104: a step runs the decoded instruction: a chance fetches its stream's next word and executes the
instruction that the word decodes to; a word that is none is the illegal instruction; a latch's chance executes its word
once; a word that waited executes when its wait is over; the governor's trap takes the chance of its warp; an event's turn
executes the event. The tape of turns is the model's own (log entry 4). -/
def Obligations.StepRunsTheWord : Prop :=
  (∀ s core part tape o t x i, TakesChance s core part tape o t x → decode x = .instr i → step s = exec i t) ∧
  (∀ s core part tape o t x r, TakesChance s core part tape o t x → decode x = .reject r →
    step s = exec (.illegalInstruction x) t) ∧
  (∀ (s : State) (core part : Nat) (tape : List Turn) (o : Who) (g : Nat) (l : Latch), s.inject = none →
    s.turns = .issue core part :: tape → pickOf { s with turns := tape } core part = some o →
    governed { s with turns := tape } o = false → (streamOf s o).wait = .latch g →
    getLatch s o.core o.slot g = some l →
    step s = exec l.instr (actAs (tookChance { s with turns := tape } o) o .fire)) ∧
  (∀ (s : State) (core part : Nat) (tape : List Turn) (o : Who) (x : BitVec 32) (i : Instr), s.inject = none →
    s.turns = .issue core part :: tape → pickOf { s with turns := tape } core part = some o →
    governed { s with turns := tape } o = false → (∀ g, (streamOf s o).wait ≠ .latch g) → (streamOf s o).wait ≠ .none →
    (streamOf s o).held = some x → decode x = .instr i →
    step s = exec i (actAs (tookChance { s with turns := tape } o) o .issue)) ∧
  (∀ (s : State) (core part : Nat) (tape : List Turn) (o : Who), s.inject = none →
    s.turns = .issue core part :: tape → pickOf { s with turns := tape } core part = some o →
    governed { s with turns := tape } o = true →
    step s = exec (.governorTrap o) (tookChance { s with turns := tape } o)) ∧
  (∀ (s : State) (tape : List Turn) (i : Instr), s.inject = none → s.turns = .event i :: tape → isEvent i = true →
    step s = exec i { s with turns := tape }) ∧
  ∀ (s t : State) (o : Who) (x : BitVec 32) (m : Mask) (i : Instr), s.inject = some (o, x, m) → decode x = .instr i →
    exec i (actAs s o (.inject m)) = .next t → t.inject = none → step s = .next t

/-- Every turn of every state goes on: no step and no instruction ends in a fault or a refusal of the model's own. It is the
model's own property: the spec names no stop. -/
def Obligations.StepGoesOn : Prop := (∀ s, GoesOn s) ∧ ∀ i s, ∃ t, exec i s = .next t

/-- R230, R237, R300, R303, R305, R359, R366, R381, R388, R390, R399, R400: what the spec gives at reset, with every memory in
its canonical form, and the counter and the cap in their ranges. The canonical form is the model's (log entry 2), and so are
the empty tables, the trap registers of a warp and the routes, for which the spec gives no reset value (log entry 1). -/
def Obligations.ResetValues : Prop :=
  let s := State.reset
  (∀ core b, getBank (getCore s core) b = Bank.reset) ∧
  (∀ core slot w, getWg? s core slot = none ∧ (getWarp s core slot w).live = 0 ∧ (getWarp s core slot w).trap = .init) ∧
  (∀ core b ctx, bankWord (getBank (getCore s core) b) ctx = 0x30FFF) ∧
  (∀ core, (getCore s core).baton = none ∧ (getCore s core).attach = false) ∧
  (∀ c, (getCtx s c).ctl = 0xC00 ∧ (getCtx s c).ptroot = 0 ∧ (getCtx s c).farea = 0 ∧ (getCtx s c).savea = 0 ∧
    preWord (getCtx s c).pre = 0 ∧ (getCtx s c).evq = 0 ∧ (getCtx s c).hostbase = 0 ∧ (getCtx s c).xlate = 0 ∧
    (getCtx s c).shareSize = 0) ∧
  shootWord s = 0 ∧ s.pgpool = 0 ∧ bfloorWord s = 0 ∧ s.dsplit = 0 ∧ routeWord s.mcload = 0 ∧ s.chip = 0 ∧ s.secver = 0 ∧
  s.eltb = 0 ∧ s.ctxsel = 0 ∧ s.dbgsel = 0 ∧ dbgctlWord s 0 = 0 ∧ s.dbgreg = 0 ∧ s.bps = [] ∧ mcodeWord s = 0x1F ∧
  s.cap = 2600 ∧ s.routes = [] ∧ MemoriesCanonical s ∧ CounterInRange s ∧ CapInRange s

/-- R51, R53–R56: decoding and encoding agree. A well-formed instruction is what its word decodes to, and the word of a decoded
instruction is the one it was decoded from; for every instruction word of the map, with every operand at every value. -/
def Obligations.DecodeEncode : Prop :=
  (∀ i, WellFormed i → decode (encode i) = .instr i) ∧ ∀ x i, decode x = .instr i → WellFormed i ∧ encode i = x

/-- R361, R400, R402, R410, R411: every step keeps the security-version counter in 0–64 and never lowers it, and keeps the
power cap in 1,200–2,600 W. That a cap out of range is discarded is the model's reading (log entry 44). -/
def Obligations.CountersKept : Prop :=
  ∀ s t, CounterInRange s → CapInRange s → step s = .next t → CounterInRange t ∧ CapInRange t ∧ s.secver ≤ t.secver

/-- Words that the spec writes out, with what each stands for, and words that it forbids (R67, R187, R365). -/
def Obligations.SampleWords : Prop :=
  decode 0x1E004103 = .instr (.idiv32 false .lane (.v 1) (.v 2) (.v 3)) ∧
  decode 0x23C0A245 = .instr (.coll false .warp 2 (.s 4) (.s 5)) ∧
  decode 0x20FE0080 = .instr (.ckey false (.v 1) 0) ∧
  decode 0x211C000E = .instr (.klass false (.k 0) 14) ∧
  decode 0x01800000 = .instr (.exit false .lane) ∧
  decode 0x21C00005 = .instr (.trap false 5) ∧
  decode 0x21E00000 = .instr (.bkpt false 0) ∧
  decode 0x23800001 = .instr (.eret false 1) ∧
  decode 0x21400002 = .instr (.cbrk false 2) ∧
  decode 0x01800001 = .reject .fixedPosition ∧
  decode 0x03800001 = .reject .illegalScope
end

