-- ==== Sys2Proof/Laws/State.lean ====
section
/-! SUPPORT. One lemma per field and update of the state: what the accessors of Machine/Phys.lean and the named operations of
Machine/Ops.lean leave as it was. All are true by rfl. -/

namespace Sys2Proof.Laws

open Sys2Proof.Machine

@[simp] theorem setCore_cur (s : State) (n : Nat) (c : Core) : (setCore s n c).cur = s.cur := rfl
@[simp] theorem setCore_turns (s : State) (n : Nat) (c : Core) : (setCore s n c).turns = s.turns := rfl
@[simp] theorem setCore_free (s : State) (n : Nat) (c : Core) : (setCore s n c).free = s.free := rfl
@[simp] theorem setCore_inject (s : State) (n : Nat) (c : Core) : (setCore s n c).inject = s.inject := rfl
@[simp] theorem setCore_injectNo (s : State) (n : Nat) (c : Core) : (setCore s n c).injectNo = s.injectNo := rfl
@[simp] theorem setCore_cycle (s : State) (n : Nat) (c : Core) : (setCore s n c).cycle = s.cycle := rfl
@[simp] theorem setCore_ctxs (s : State) (n : Nat) (c : Core) : (setCore s n c).ctxs = s.ctxs := rfl
@[simp] theorem setCore_mem (s : State) (n : Nat) (c : Core) : (setCore s n c).mem = s.mem := rfl
@[simp] theorem setCore_hostMem (s : State) (n : Nat) (c : Core) : (setCore s n c).hostMem = s.hostMem := rfl
@[simp] theorem setCore_peerMem (s : State) (n : Nat) (c : Core) : (setCore s n c).peerMem = s.peerMem := rfl
@[simp] theorem setCore_checks (s : State) (n : Nat) (c : Core) : (setCore s n c).checks = s.checks := rfl
@[simp] theorem setCore_coreChecks (s : State) (n : Nat) (c : Core) : (setCore s n c).coreChecks = s.coreChecks := rfl
@[simp] theorem setCore_icache (s : State) (n : Nat) (c : Core) : (setCore s n c).icache = s.icache := rfl
@[simp] theorem setCore_tlb2 (s : State) (n : Nat) (c : Core) : (setCore s n c).tlb2 = s.tlb2 := rfl
@[simp] theorem setCore_l2 (s : State) (n : Nat) (c : Core) : (setCore s n c).l2 = s.l2 := rfl
@[simp] theorem setCore_pend (s : State) (n : Nat) (c : Core) : (setCore s n c).pend = s.pend := rfl
@[simp] theorem setCore_ponds (s : State) (n : Nat) (c : Core) : (setCore s n c).ponds = s.ponds := rfl
@[simp] theorem setCore_deferred (s : State) (n : Nat) (c : Core) : (setCore s n c).deferred = s.deferred := rfl
@[simp] theorem setCore_nextId (s : State) (n : Nat) (c : Core) : (setCore s n c).nextId = s.nextId := rfl
@[simp] theorem setCore_saved (s : State) (n : Nat) (c : Core) : (setCore s n c).saved = s.saved := rfl
@[simp] theorem setCore_finals (s : State) (n : Nat) (c : Core) : (setCore s n c).finals = s.finals := rfl
@[simp] theorem setCore_stealClock (s : State) (n : Nat) (c : Core) : (setCore s n c).stealClock = s.stealClock := rfl
@[simp] theorem setCore_steals (s : State) (n : Nat) (c : Core) : (setCore s n c).steals = s.steals := rfl
@[simp] theorem setCore_pf (s : State) (n : Nat) (c : Core) : (setCore s n c).pf = s.pf := rfl
@[simp] theorem setCore_pfNo (s : State) (n : Nat) (c : Core) : (setCore s n c).pfNo = s.pfNo := rfl
@[simp] theorem setCore_pgx (s : State) (n : Nat) (c : Core) : (setCore s n c).pgx = s.pgx := rfl
@[simp] theorem setCore_shoot (s : State) (n : Nat) (c : Core) : (setCore s n c).shoot = s.shoot := rfl
@[simp] theorem setCore_shootOp (s : State) (n : Nat) (c : Core) : (setCore s n c).shootOp = s.shootOp := rfl
@[simp] theorem setCore_pgpool (s : State) (n : Nat) (c : Core) : (setCore s n c).pgpool = s.pgpool := rfl
@[simp] theorem setCore_bfloorCtx (s : State) (n : Nat) (c : Core) : (setCore s n c).bfloorCtx = s.bfloorCtx := rfl
@[simp] theorem setCore_bfloorOps (s : State) (n : Nat) (c : Core) : (setCore s n c).bfloorOps = s.bfloorOps := rfl
@[simp] theorem setCore_dsplit (s : State) (n : Nat) (c : Core) : (setCore s n c).dsplit = s.dsplit := rfl
@[simp] theorem setCore_mcload (s : State) (n : Nat) (c : Core) : (setCore s n c).mcload = s.mcload := rfl
@[simp] theorem setCore_patch (s : State) (n : Nat) (c : Core) : (setCore s n c).patch = s.patch := rfl
@[simp] theorem setCore_micro (s : State) (n : Nat) (c : Core) : (setCore s n c).micro = s.micro := rfl
@[simp] theorem setCore_secver (s : State) (n : Nat) (c : Core) : (setCore s n c).secver = s.secver := rfl
@[simp] theorem setCore_eltb (s : State) (n : Nat) (c : Core) : (setCore s n c).eltb = s.eltb := rfl
@[simp] theorem setCore_chip (s : State) (n : Nat) (c : Core) : (setCore s n c).chip = s.chip := rfl
@[simp] theorem setCore_ctxsel (s : State) (n : Nat) (c : Core) : (setCore s n c).ctxsel = s.ctxsel := rfl
@[simp] theorem setCore_ctxselW (s : State) (n : Nat) (c : Core) : (setCore s n c).ctxselW = s.ctxselW := rfl
@[simp] theorem setCore_dbgsel (s : State) (n : Nat) (c : Core) : (setCore s n c).dbgsel = s.dbgsel := rfl
@[simp] theorem setCore_dbgselW (s : State) (n : Nat) (c : Core) : (setCore s n c).dbgselW = s.dbgselW := rfl
@[simp] theorem setCore_dbgreg (s : State) (n : Nat) (c : Core) : (setCore s n c).dbgreg = s.dbgreg := rfl
@[simp] theorem setCore_dbgdata (s : State) (n : Nat) (c : Core) : (setCore s n c).dbgdata = s.dbgdata := rfl
@[simp] theorem setCore_dbgErr (s : State) (n : Nat) (c : Core) : (setCore s n c).dbgErr = s.dbgErr := rfl
@[simp] theorem setCore_dbgCause (s : State) (n : Nat) (c : Core) : (setCore s n c).dbgCause = s.dbgCause := rfl
@[simp] theorem setCore_dbgBusy (s : State) (n : Nat) (c : Core) : (setCore s n c).dbgBusy = s.dbgBusy := rfl
@[simp] theorem setCore_bps (s : State) (n : Nat) (c : Core) : (setCore s n c).bps = s.bps := rfl
@[simp] theorem setCore_xlateOps (s : State) (n : Nat) (c : Core) : (setCore s n c).xlateOps = s.xlateOps := rfl
@[simp] theorem setCore_cap (s : State) (n : Nat) (c : Core) : (setCore s n c).cap = s.cap := rfl
@[simp] theorem setCore_nonce (s : State) (n : Nat) (c : Core) : (setCore s n c).nonce = s.nonce := rfl
@[simp] theorem setCore_report (s : State) (n : Nat) (c : Core) : (setCore s n c).report = s.report := rfl
@[simp] theorem setCore_attBusy (s : State) (n : Nat) (c : Core) : (setCore s n c).attBusy = s.attBusy := rfl
@[simp] theorem setCore_routes (s : State) (n : Nat) (c : Core) : (setCore s n c).routes = s.routes := rfl
@[simp] theorem setCore_links (s : State) (n : Nat) (c : Core) : (setCore s n c).links = s.links := rfl
@[simp] theorem setCore_clock (s : State) (n : Nat) (c : Core) : (setCore s n c).clock = s.clock := rfl
@[simp] theorem setCore_booted (s : State) (n : Nat) (c : Core) : (setCore s n c).booted = s.booted := rfl
@[simp] theorem setCore_left (s : State) (n : Nat) (c : Core) : (setCore s n c).left = s.left := rfl
@[simp] theorem setCore_outbox (s : State) (n : Nat) (c : Core) : (setCore s n c).outbox = s.outbox := rfl
@[simp] theorem setCore_msix (s : State) (n : Nat) (c : Core) : (setCore s n c).msix = s.msix := rfl
@[simp] theorem setCore_hostRead (s : State) (n : Nat) (c : Core) : (setCore s n c).hostRead = s.hostRead := rfl

@[simp] theorem updCore_cur (s : State) (n : Nat) (f : Core → Core) : (updCore s n f).cur = s.cur := rfl
@[simp] theorem updCore_turns (s : State) (n : Nat) (f : Core → Core) : (updCore s n f).turns = s.turns := rfl
@[simp] theorem updCore_free (s : State) (n : Nat) (f : Core → Core) : (updCore s n f).free = s.free := rfl
@[simp] theorem updCore_inject (s : State) (n : Nat) (f : Core → Core) : (updCore s n f).inject = s.inject := rfl
@[simp] theorem updCore_injectNo (s : State) (n : Nat) (f : Core → Core) : (updCore s n f).injectNo = s.injectNo := rfl
@[simp] theorem updCore_cycle (s : State) (n : Nat) (f : Core → Core) : (updCore s n f).cycle = s.cycle := rfl
@[simp] theorem updCore_ctxs (s : State) (n : Nat) (f : Core → Core) : (updCore s n f).ctxs = s.ctxs := rfl
@[simp] theorem updCore_mem (s : State) (n : Nat) (f : Core → Core) : (updCore s n f).mem = s.mem := rfl
@[simp] theorem updCore_hostMem (s : State) (n : Nat) (f : Core → Core) : (updCore s n f).hostMem = s.hostMem := rfl
@[simp] theorem updCore_peerMem (s : State) (n : Nat) (f : Core → Core) : (updCore s n f).peerMem = s.peerMem := rfl
@[simp] theorem updCore_checks (s : State) (n : Nat) (f : Core → Core) : (updCore s n f).checks = s.checks := rfl
@[simp] theorem updCore_coreChecks (s : State) (n : Nat) (f : Core → Core) : (updCore s n f).coreChecks = s.coreChecks := rfl
@[simp] theorem updCore_icache (s : State) (n : Nat) (f : Core → Core) : (updCore s n f).icache = s.icache := rfl
@[simp] theorem updCore_tlb2 (s : State) (n : Nat) (f : Core → Core) : (updCore s n f).tlb2 = s.tlb2 := rfl
@[simp] theorem updCore_l2 (s : State) (n : Nat) (f : Core → Core) : (updCore s n f).l2 = s.l2 := rfl
@[simp] theorem updCore_pend (s : State) (n : Nat) (f : Core → Core) : (updCore s n f).pend = s.pend := rfl
@[simp] theorem updCore_ponds (s : State) (n : Nat) (f : Core → Core) : (updCore s n f).ponds = s.ponds := rfl
@[simp] theorem updCore_deferred (s : State) (n : Nat) (f : Core → Core) : (updCore s n f).deferred = s.deferred := rfl
@[simp] theorem updCore_nextId (s : State) (n : Nat) (f : Core → Core) : (updCore s n f).nextId = s.nextId := rfl
@[simp] theorem updCore_saved (s : State) (n : Nat) (f : Core → Core) : (updCore s n f).saved = s.saved := rfl
@[simp] theorem updCore_finals (s : State) (n : Nat) (f : Core → Core) : (updCore s n f).finals = s.finals := rfl
@[simp] theorem updCore_stealClock (s : State) (n : Nat) (f : Core → Core) : (updCore s n f).stealClock = s.stealClock := rfl
@[simp] theorem updCore_steals (s : State) (n : Nat) (f : Core → Core) : (updCore s n f).steals = s.steals := rfl
@[simp] theorem updCore_pf (s : State) (n : Nat) (f : Core → Core) : (updCore s n f).pf = s.pf := rfl
@[simp] theorem updCore_pfNo (s : State) (n : Nat) (f : Core → Core) : (updCore s n f).pfNo = s.pfNo := rfl
@[simp] theorem updCore_pgx (s : State) (n : Nat) (f : Core → Core) : (updCore s n f).pgx = s.pgx := rfl
@[simp] theorem updCore_shoot (s : State) (n : Nat) (f : Core → Core) : (updCore s n f).shoot = s.shoot := rfl
@[simp] theorem updCore_shootOp (s : State) (n : Nat) (f : Core → Core) : (updCore s n f).shootOp = s.shootOp := rfl
@[simp] theorem updCore_pgpool (s : State) (n : Nat) (f : Core → Core) : (updCore s n f).pgpool = s.pgpool := rfl
@[simp] theorem updCore_bfloorCtx (s : State) (n : Nat) (f : Core → Core) : (updCore s n f).bfloorCtx = s.bfloorCtx := rfl
@[simp] theorem updCore_bfloorOps (s : State) (n : Nat) (f : Core → Core) : (updCore s n f).bfloorOps = s.bfloorOps := rfl
@[simp] theorem updCore_dsplit (s : State) (n : Nat) (f : Core → Core) : (updCore s n f).dsplit = s.dsplit := rfl
@[simp] theorem updCore_mcload (s : State) (n : Nat) (f : Core → Core) : (updCore s n f).mcload = s.mcload := rfl
@[simp] theorem updCore_patch (s : State) (n : Nat) (f : Core → Core) : (updCore s n f).patch = s.patch := rfl
@[simp] theorem updCore_micro (s : State) (n : Nat) (f : Core → Core) : (updCore s n f).micro = s.micro := rfl
@[simp] theorem updCore_secver (s : State) (n : Nat) (f : Core → Core) : (updCore s n f).secver = s.secver := rfl
@[simp] theorem updCore_eltb (s : State) (n : Nat) (f : Core → Core) : (updCore s n f).eltb = s.eltb := rfl
@[simp] theorem updCore_chip (s : State) (n : Nat) (f : Core → Core) : (updCore s n f).chip = s.chip := rfl
@[simp] theorem updCore_ctxsel (s : State) (n : Nat) (f : Core → Core) : (updCore s n f).ctxsel = s.ctxsel := rfl
@[simp] theorem updCore_ctxselW (s : State) (n : Nat) (f : Core → Core) : (updCore s n f).ctxselW = s.ctxselW := rfl
@[simp] theorem updCore_dbgsel (s : State) (n : Nat) (f : Core → Core) : (updCore s n f).dbgsel = s.dbgsel := rfl
@[simp] theorem updCore_dbgselW (s : State) (n : Nat) (f : Core → Core) : (updCore s n f).dbgselW = s.dbgselW := rfl
@[simp] theorem updCore_dbgreg (s : State) (n : Nat) (f : Core → Core) : (updCore s n f).dbgreg = s.dbgreg := rfl
@[simp] theorem updCore_dbgdata (s : State) (n : Nat) (f : Core → Core) : (updCore s n f).dbgdata = s.dbgdata := rfl
@[simp] theorem updCore_dbgErr (s : State) (n : Nat) (f : Core → Core) : (updCore s n f).dbgErr = s.dbgErr := rfl
@[simp] theorem updCore_dbgCause (s : State) (n : Nat) (f : Core → Core) : (updCore s n f).dbgCause = s.dbgCause := rfl
@[simp] theorem updCore_dbgBusy (s : State) (n : Nat) (f : Core → Core) : (updCore s n f).dbgBusy = s.dbgBusy := rfl
@[simp] theorem updCore_bps (s : State) (n : Nat) (f : Core → Core) : (updCore s n f).bps = s.bps := rfl
@[simp] theorem updCore_xlateOps (s : State) (n : Nat) (f : Core → Core) : (updCore s n f).xlateOps = s.xlateOps := rfl
@[simp] theorem updCore_cap (s : State) (n : Nat) (f : Core → Core) : (updCore s n f).cap = s.cap := rfl
@[simp] theorem updCore_nonce (s : State) (n : Nat) (f : Core → Core) : (updCore s n f).nonce = s.nonce := rfl
@[simp] theorem updCore_report (s : State) (n : Nat) (f : Core → Core) : (updCore s n f).report = s.report := rfl
@[simp] theorem updCore_attBusy (s : State) (n : Nat) (f : Core → Core) : (updCore s n f).attBusy = s.attBusy := rfl
@[simp] theorem updCore_routes (s : State) (n : Nat) (f : Core → Core) : (updCore s n f).routes = s.routes := rfl
@[simp] theorem updCore_links (s : State) (n : Nat) (f : Core → Core) : (updCore s n f).links = s.links := rfl
@[simp] theorem updCore_clock (s : State) (n : Nat) (f : Core → Core) : (updCore s n f).clock = s.clock := rfl
@[simp] theorem updCore_booted (s : State) (n : Nat) (f : Core → Core) : (updCore s n f).booted = s.booted := rfl
@[simp] theorem updCore_left (s : State) (n : Nat) (f : Core → Core) : (updCore s n f).left = s.left := rfl
@[simp] theorem updCore_outbox (s : State) (n : Nat) (f : Core → Core) : (updCore s n f).outbox = s.outbox := rfl
@[simp] theorem updCore_msix (s : State) (n : Nat) (f : Core → Core) : (updCore s n f).msix = s.msix := rfl
@[simp] theorem updCore_hostRead (s : State) (n : Nat) (f : Core → Core) : (updCore s n f).hostRead = s.hostRead := rfl

@[simp] theorem setWg_cur (s : State) (c k : Nat) (w : Wg) : (setWg s c k w).cur = s.cur := rfl
@[simp] theorem setWg_turns (s : State) (c k : Nat) (w : Wg) : (setWg s c k w).turns = s.turns := rfl
@[simp] theorem setWg_free (s : State) (c k : Nat) (w : Wg) : (setWg s c k w).free = s.free := rfl
@[simp] theorem setWg_inject (s : State) (c k : Nat) (w : Wg) : (setWg s c k w).inject = s.inject := rfl
@[simp] theorem setWg_injectNo (s : State) (c k : Nat) (w : Wg) : (setWg s c k w).injectNo = s.injectNo := rfl
@[simp] theorem setWg_cycle (s : State) (c k : Nat) (w : Wg) : (setWg s c k w).cycle = s.cycle := rfl
@[simp] theorem setWg_ctxs (s : State) (c k : Nat) (w : Wg) : (setWg s c k w).ctxs = s.ctxs := rfl
@[simp] theorem setWg_mem (s : State) (c k : Nat) (w : Wg) : (setWg s c k w).mem = s.mem := rfl
@[simp] theorem setWg_hostMem (s : State) (c k : Nat) (w : Wg) : (setWg s c k w).hostMem = s.hostMem := rfl
@[simp] theorem setWg_peerMem (s : State) (c k : Nat) (w : Wg) : (setWg s c k w).peerMem = s.peerMem := rfl
@[simp] theorem setWg_checks (s : State) (c k : Nat) (w : Wg) : (setWg s c k w).checks = s.checks := rfl
@[simp] theorem setWg_coreChecks (s : State) (c k : Nat) (w : Wg) : (setWg s c k w).coreChecks = s.coreChecks := rfl
@[simp] theorem setWg_icache (s : State) (c k : Nat) (w : Wg) : (setWg s c k w).icache = s.icache := rfl
@[simp] theorem setWg_tlb2 (s : State) (c k : Nat) (w : Wg) : (setWg s c k w).tlb2 = s.tlb2 := rfl
@[simp] theorem setWg_l2 (s : State) (c k : Nat) (w : Wg) : (setWg s c k w).l2 = s.l2 := rfl
@[simp] theorem setWg_pend (s : State) (c k : Nat) (w : Wg) : (setWg s c k w).pend = s.pend := rfl
@[simp] theorem setWg_ponds (s : State) (c k : Nat) (w : Wg) : (setWg s c k w).ponds = s.ponds := rfl
@[simp] theorem setWg_deferred (s : State) (c k : Nat) (w : Wg) : (setWg s c k w).deferred = s.deferred := rfl
@[simp] theorem setWg_nextId (s : State) (c k : Nat) (w : Wg) : (setWg s c k w).nextId = s.nextId := rfl
@[simp] theorem setWg_saved (s : State) (c k : Nat) (w : Wg) : (setWg s c k w).saved = s.saved := rfl
@[simp] theorem setWg_finals (s : State) (c k : Nat) (w : Wg) : (setWg s c k w).finals = s.finals := rfl
@[simp] theorem setWg_stealClock (s : State) (c k : Nat) (w : Wg) : (setWg s c k w).stealClock = s.stealClock := rfl
@[simp] theorem setWg_steals (s : State) (c k : Nat) (w : Wg) : (setWg s c k w).steals = s.steals := rfl
@[simp] theorem setWg_pf (s : State) (c k : Nat) (w : Wg) : (setWg s c k w).pf = s.pf := rfl
@[simp] theorem setWg_pfNo (s : State) (c k : Nat) (w : Wg) : (setWg s c k w).pfNo = s.pfNo := rfl
@[simp] theorem setWg_pgx (s : State) (c k : Nat) (w : Wg) : (setWg s c k w).pgx = s.pgx := rfl
@[simp] theorem setWg_shoot (s : State) (c k : Nat) (w : Wg) : (setWg s c k w).shoot = s.shoot := rfl
@[simp] theorem setWg_shootOp (s : State) (c k : Nat) (w : Wg) : (setWg s c k w).shootOp = s.shootOp := rfl
@[simp] theorem setWg_pgpool (s : State) (c k : Nat) (w : Wg) : (setWg s c k w).pgpool = s.pgpool := rfl
@[simp] theorem setWg_bfloorCtx (s : State) (c k : Nat) (w : Wg) : (setWg s c k w).bfloorCtx = s.bfloorCtx := rfl
@[simp] theorem setWg_bfloorOps (s : State) (c k : Nat) (w : Wg) : (setWg s c k w).bfloorOps = s.bfloorOps := rfl
@[simp] theorem setWg_dsplit (s : State) (c k : Nat) (w : Wg) : (setWg s c k w).dsplit = s.dsplit := rfl
@[simp] theorem setWg_mcload (s : State) (c k : Nat) (w : Wg) : (setWg s c k w).mcload = s.mcload := rfl
@[simp] theorem setWg_patch (s : State) (c k : Nat) (w : Wg) : (setWg s c k w).patch = s.patch := rfl
@[simp] theorem setWg_micro (s : State) (c k : Nat) (w : Wg) : (setWg s c k w).micro = s.micro := rfl
@[simp] theorem setWg_secver (s : State) (c k : Nat) (w : Wg) : (setWg s c k w).secver = s.secver := rfl
@[simp] theorem setWg_eltb (s : State) (c k : Nat) (w : Wg) : (setWg s c k w).eltb = s.eltb := rfl
@[simp] theorem setWg_chip (s : State) (c k : Nat) (w : Wg) : (setWg s c k w).chip = s.chip := rfl
@[simp] theorem setWg_ctxsel (s : State) (c k : Nat) (w : Wg) : (setWg s c k w).ctxsel = s.ctxsel := rfl
@[simp] theorem setWg_ctxselW (s : State) (c k : Nat) (w : Wg) : (setWg s c k w).ctxselW = s.ctxselW := rfl
@[simp] theorem setWg_dbgsel (s : State) (c k : Nat) (w : Wg) : (setWg s c k w).dbgsel = s.dbgsel := rfl
@[simp] theorem setWg_dbgselW (s : State) (c k : Nat) (w : Wg) : (setWg s c k w).dbgselW = s.dbgselW := rfl
@[simp] theorem setWg_dbgreg (s : State) (c k : Nat) (w : Wg) : (setWg s c k w).dbgreg = s.dbgreg := rfl
@[simp] theorem setWg_dbgdata (s : State) (c k : Nat) (w : Wg) : (setWg s c k w).dbgdata = s.dbgdata := rfl
@[simp] theorem setWg_dbgErr (s : State) (c k : Nat) (w : Wg) : (setWg s c k w).dbgErr = s.dbgErr := rfl
@[simp] theorem setWg_dbgCause (s : State) (c k : Nat) (w : Wg) : (setWg s c k w).dbgCause = s.dbgCause := rfl
@[simp] theorem setWg_dbgBusy (s : State) (c k : Nat) (w : Wg) : (setWg s c k w).dbgBusy = s.dbgBusy := rfl
@[simp] theorem setWg_bps (s : State) (c k : Nat) (w : Wg) : (setWg s c k w).bps = s.bps := rfl
@[simp] theorem setWg_xlateOps (s : State) (c k : Nat) (w : Wg) : (setWg s c k w).xlateOps = s.xlateOps := rfl
@[simp] theorem setWg_cap (s : State) (c k : Nat) (w : Wg) : (setWg s c k w).cap = s.cap := rfl
@[simp] theorem setWg_nonce (s : State) (c k : Nat) (w : Wg) : (setWg s c k w).nonce = s.nonce := rfl
@[simp] theorem setWg_report (s : State) (c k : Nat) (w : Wg) : (setWg s c k w).report = s.report := rfl
@[simp] theorem setWg_attBusy (s : State) (c k : Nat) (w : Wg) : (setWg s c k w).attBusy = s.attBusy := rfl
@[simp] theorem setWg_routes (s : State) (c k : Nat) (w : Wg) : (setWg s c k w).routes = s.routes := rfl
@[simp] theorem setWg_links (s : State) (c k : Nat) (w : Wg) : (setWg s c k w).links = s.links := rfl
@[simp] theorem setWg_clock (s : State) (c k : Nat) (w : Wg) : (setWg s c k w).clock = s.clock := rfl
@[simp] theorem setWg_booted (s : State) (c k : Nat) (w : Wg) : (setWg s c k w).booted = s.booted := rfl
@[simp] theorem setWg_left (s : State) (c k : Nat) (w : Wg) : (setWg s c k w).left = s.left := rfl
@[simp] theorem setWg_outbox (s : State) (c k : Nat) (w : Wg) : (setWg s c k w).outbox = s.outbox := rfl
@[simp] theorem setWg_msix (s : State) (c k : Nat) (w : Wg) : (setWg s c k w).msix = s.msix := rfl
@[simp] theorem setWg_hostRead (s : State) (c k : Nat) (w : Wg) : (setWg s c k w).hostRead = s.hostRead := rfl

@[simp] theorem updWg_cur (s : State) (c k : Nat) (f : Wg → Wg) : (updWg s c k f).cur = s.cur := rfl
@[simp] theorem updWg_turns (s : State) (c k : Nat) (f : Wg → Wg) : (updWg s c k f).turns = s.turns := rfl
@[simp] theorem updWg_free (s : State) (c k : Nat) (f : Wg → Wg) : (updWg s c k f).free = s.free := rfl
@[simp] theorem updWg_inject (s : State) (c k : Nat) (f : Wg → Wg) : (updWg s c k f).inject = s.inject := rfl
@[simp] theorem updWg_injectNo (s : State) (c k : Nat) (f : Wg → Wg) : (updWg s c k f).injectNo = s.injectNo := rfl
@[simp] theorem updWg_cycle (s : State) (c k : Nat) (f : Wg → Wg) : (updWg s c k f).cycle = s.cycle := rfl
@[simp] theorem updWg_ctxs (s : State) (c k : Nat) (f : Wg → Wg) : (updWg s c k f).ctxs = s.ctxs := rfl
@[simp] theorem updWg_mem (s : State) (c k : Nat) (f : Wg → Wg) : (updWg s c k f).mem = s.mem := rfl
@[simp] theorem updWg_hostMem (s : State) (c k : Nat) (f : Wg → Wg) : (updWg s c k f).hostMem = s.hostMem := rfl
@[simp] theorem updWg_peerMem (s : State) (c k : Nat) (f : Wg → Wg) : (updWg s c k f).peerMem = s.peerMem := rfl
@[simp] theorem updWg_checks (s : State) (c k : Nat) (f : Wg → Wg) : (updWg s c k f).checks = s.checks := rfl
@[simp] theorem updWg_coreChecks (s : State) (c k : Nat) (f : Wg → Wg) : (updWg s c k f).coreChecks = s.coreChecks := rfl
@[simp] theorem updWg_icache (s : State) (c k : Nat) (f : Wg → Wg) : (updWg s c k f).icache = s.icache := rfl
@[simp] theorem updWg_tlb2 (s : State) (c k : Nat) (f : Wg → Wg) : (updWg s c k f).tlb2 = s.tlb2 := rfl
@[simp] theorem updWg_l2 (s : State) (c k : Nat) (f : Wg → Wg) : (updWg s c k f).l2 = s.l2 := rfl
@[simp] theorem updWg_pend (s : State) (c k : Nat) (f : Wg → Wg) : (updWg s c k f).pend = s.pend := rfl
@[simp] theorem updWg_ponds (s : State) (c k : Nat) (f : Wg → Wg) : (updWg s c k f).ponds = s.ponds := rfl
@[simp] theorem updWg_deferred (s : State) (c k : Nat) (f : Wg → Wg) : (updWg s c k f).deferred = s.deferred := rfl
@[simp] theorem updWg_nextId (s : State) (c k : Nat) (f : Wg → Wg) : (updWg s c k f).nextId = s.nextId := rfl
@[simp] theorem updWg_saved (s : State) (c k : Nat) (f : Wg → Wg) : (updWg s c k f).saved = s.saved := rfl
@[simp] theorem updWg_finals (s : State) (c k : Nat) (f : Wg → Wg) : (updWg s c k f).finals = s.finals := rfl
@[simp] theorem updWg_stealClock (s : State) (c k : Nat) (f : Wg → Wg) : (updWg s c k f).stealClock = s.stealClock := rfl
@[simp] theorem updWg_steals (s : State) (c k : Nat) (f : Wg → Wg) : (updWg s c k f).steals = s.steals := rfl
@[simp] theorem updWg_pf (s : State) (c k : Nat) (f : Wg → Wg) : (updWg s c k f).pf = s.pf := rfl
@[simp] theorem updWg_pfNo (s : State) (c k : Nat) (f : Wg → Wg) : (updWg s c k f).pfNo = s.pfNo := rfl
@[simp] theorem updWg_pgx (s : State) (c k : Nat) (f : Wg → Wg) : (updWg s c k f).pgx = s.pgx := rfl
@[simp] theorem updWg_shoot (s : State) (c k : Nat) (f : Wg → Wg) : (updWg s c k f).shoot = s.shoot := rfl
@[simp] theorem updWg_shootOp (s : State) (c k : Nat) (f : Wg → Wg) : (updWg s c k f).shootOp = s.shootOp := rfl
@[simp] theorem updWg_pgpool (s : State) (c k : Nat) (f : Wg → Wg) : (updWg s c k f).pgpool = s.pgpool := rfl
@[simp] theorem updWg_bfloorCtx (s : State) (c k : Nat) (f : Wg → Wg) : (updWg s c k f).bfloorCtx = s.bfloorCtx := rfl
@[simp] theorem updWg_bfloorOps (s : State) (c k : Nat) (f : Wg → Wg) : (updWg s c k f).bfloorOps = s.bfloorOps := rfl
@[simp] theorem updWg_dsplit (s : State) (c k : Nat) (f : Wg → Wg) : (updWg s c k f).dsplit = s.dsplit := rfl
@[simp] theorem updWg_mcload (s : State) (c k : Nat) (f : Wg → Wg) : (updWg s c k f).mcload = s.mcload := rfl
@[simp] theorem updWg_patch (s : State) (c k : Nat) (f : Wg → Wg) : (updWg s c k f).patch = s.patch := rfl
@[simp] theorem updWg_micro (s : State) (c k : Nat) (f : Wg → Wg) : (updWg s c k f).micro = s.micro := rfl
@[simp] theorem updWg_secver (s : State) (c k : Nat) (f : Wg → Wg) : (updWg s c k f).secver = s.secver := rfl
@[simp] theorem updWg_eltb (s : State) (c k : Nat) (f : Wg → Wg) : (updWg s c k f).eltb = s.eltb := rfl
@[simp] theorem updWg_chip (s : State) (c k : Nat) (f : Wg → Wg) : (updWg s c k f).chip = s.chip := rfl
@[simp] theorem updWg_ctxsel (s : State) (c k : Nat) (f : Wg → Wg) : (updWg s c k f).ctxsel = s.ctxsel := rfl
@[simp] theorem updWg_ctxselW (s : State) (c k : Nat) (f : Wg → Wg) : (updWg s c k f).ctxselW = s.ctxselW := rfl
@[simp] theorem updWg_dbgsel (s : State) (c k : Nat) (f : Wg → Wg) : (updWg s c k f).dbgsel = s.dbgsel := rfl
@[simp] theorem updWg_dbgselW (s : State) (c k : Nat) (f : Wg → Wg) : (updWg s c k f).dbgselW = s.dbgselW := rfl
@[simp] theorem updWg_dbgreg (s : State) (c k : Nat) (f : Wg → Wg) : (updWg s c k f).dbgreg = s.dbgreg := rfl
@[simp] theorem updWg_dbgdata (s : State) (c k : Nat) (f : Wg → Wg) : (updWg s c k f).dbgdata = s.dbgdata := rfl
@[simp] theorem updWg_dbgErr (s : State) (c k : Nat) (f : Wg → Wg) : (updWg s c k f).dbgErr = s.dbgErr := rfl
@[simp] theorem updWg_dbgCause (s : State) (c k : Nat) (f : Wg → Wg) : (updWg s c k f).dbgCause = s.dbgCause := rfl
@[simp] theorem updWg_dbgBusy (s : State) (c k : Nat) (f : Wg → Wg) : (updWg s c k f).dbgBusy = s.dbgBusy := rfl
@[simp] theorem updWg_bps (s : State) (c k : Nat) (f : Wg → Wg) : (updWg s c k f).bps = s.bps := rfl
@[simp] theorem updWg_xlateOps (s : State) (c k : Nat) (f : Wg → Wg) : (updWg s c k f).xlateOps = s.xlateOps := rfl
@[simp] theorem updWg_cap (s : State) (c k : Nat) (f : Wg → Wg) : (updWg s c k f).cap = s.cap := rfl
@[simp] theorem updWg_nonce (s : State) (c k : Nat) (f : Wg → Wg) : (updWg s c k f).nonce = s.nonce := rfl
@[simp] theorem updWg_report (s : State) (c k : Nat) (f : Wg → Wg) : (updWg s c k f).report = s.report := rfl
@[simp] theorem updWg_attBusy (s : State) (c k : Nat) (f : Wg → Wg) : (updWg s c k f).attBusy = s.attBusy := rfl
@[simp] theorem updWg_routes (s : State) (c k : Nat) (f : Wg → Wg) : (updWg s c k f).routes = s.routes := rfl
@[simp] theorem updWg_links (s : State) (c k : Nat) (f : Wg → Wg) : (updWg s c k f).links = s.links := rfl
@[simp] theorem updWg_clock (s : State) (c k : Nat) (f : Wg → Wg) : (updWg s c k f).clock = s.clock := rfl
@[simp] theorem updWg_booted (s : State) (c k : Nat) (f : Wg → Wg) : (updWg s c k f).booted = s.booted := rfl
@[simp] theorem updWg_left (s : State) (c k : Nat) (f : Wg → Wg) : (updWg s c k f).left = s.left := rfl
@[simp] theorem updWg_outbox (s : State) (c k : Nat) (f : Wg → Wg) : (updWg s c k f).outbox = s.outbox := rfl
@[simp] theorem updWg_msix (s : State) (c k : Nat) (f : Wg → Wg) : (updWg s c k f).msix = s.msix := rfl
@[simp] theorem updWg_hostRead (s : State) (c k : Nat) (f : Wg → Wg) : (updWg s c k f).hostRead = s.hostRead := rfl

@[simp] theorem updWarp_cur (s : State) (c k n : Nat) (f : Warp → Warp) : (updWarp s c k n f).cur = s.cur := rfl
@[simp] theorem updWarp_turns (s : State) (c k n : Nat) (f : Warp → Warp) : (updWarp s c k n f).turns = s.turns := rfl
@[simp] theorem updWarp_free (s : State) (c k n : Nat) (f : Warp → Warp) : (updWarp s c k n f).free = s.free := rfl
@[simp] theorem updWarp_inject (s : State) (c k n : Nat) (f : Warp → Warp) : (updWarp s c k n f).inject = s.inject := rfl
@[simp] theorem updWarp_injectNo (s : State) (c k n : Nat) (f : Warp → Warp) : (updWarp s c k n f).injectNo = s.injectNo := rfl
@[simp] theorem updWarp_cycle (s : State) (c k n : Nat) (f : Warp → Warp) : (updWarp s c k n f).cycle = s.cycle := rfl
@[simp] theorem updWarp_ctxs (s : State) (c k n : Nat) (f : Warp → Warp) : (updWarp s c k n f).ctxs = s.ctxs := rfl
@[simp] theorem updWarp_mem (s : State) (c k n : Nat) (f : Warp → Warp) : (updWarp s c k n f).mem = s.mem := rfl
@[simp] theorem updWarp_hostMem (s : State) (c k n : Nat) (f : Warp → Warp) : (updWarp s c k n f).hostMem = s.hostMem := rfl
@[simp] theorem updWarp_peerMem (s : State) (c k n : Nat) (f : Warp → Warp) : (updWarp s c k n f).peerMem = s.peerMem := rfl
@[simp] theorem updWarp_checks (s : State) (c k n : Nat) (f : Warp → Warp) : (updWarp s c k n f).checks = s.checks := rfl
@[simp] theorem updWarp_coreChecks (s : State) (c k n : Nat) (f : Warp → Warp) : (updWarp s c k n f).coreChecks = s.coreChecks := rfl
@[simp] theorem updWarp_icache (s : State) (c k n : Nat) (f : Warp → Warp) : (updWarp s c k n f).icache = s.icache := rfl
@[simp] theorem updWarp_tlb2 (s : State) (c k n : Nat) (f : Warp → Warp) : (updWarp s c k n f).tlb2 = s.tlb2 := rfl
@[simp] theorem updWarp_l2 (s : State) (c k n : Nat) (f : Warp → Warp) : (updWarp s c k n f).l2 = s.l2 := rfl
@[simp] theorem updWarp_pend (s : State) (c k n : Nat) (f : Warp → Warp) : (updWarp s c k n f).pend = s.pend := rfl
@[simp] theorem updWarp_ponds (s : State) (c k n : Nat) (f : Warp → Warp) : (updWarp s c k n f).ponds = s.ponds := rfl
@[simp] theorem updWarp_deferred (s : State) (c k n : Nat) (f : Warp → Warp) : (updWarp s c k n f).deferred = s.deferred := rfl
@[simp] theorem updWarp_nextId (s : State) (c k n : Nat) (f : Warp → Warp) : (updWarp s c k n f).nextId = s.nextId := rfl
@[simp] theorem updWarp_saved (s : State) (c k n : Nat) (f : Warp → Warp) : (updWarp s c k n f).saved = s.saved := rfl
@[simp] theorem updWarp_finals (s : State) (c k n : Nat) (f : Warp → Warp) : (updWarp s c k n f).finals = s.finals := rfl
@[simp] theorem updWarp_stealClock (s : State) (c k n : Nat) (f : Warp → Warp) : (updWarp s c k n f).stealClock = s.stealClock := rfl
@[simp] theorem updWarp_steals (s : State) (c k n : Nat) (f : Warp → Warp) : (updWarp s c k n f).steals = s.steals := rfl
@[simp] theorem updWarp_pf (s : State) (c k n : Nat) (f : Warp → Warp) : (updWarp s c k n f).pf = s.pf := rfl
@[simp] theorem updWarp_pfNo (s : State) (c k n : Nat) (f : Warp → Warp) : (updWarp s c k n f).pfNo = s.pfNo := rfl
@[simp] theorem updWarp_pgx (s : State) (c k n : Nat) (f : Warp → Warp) : (updWarp s c k n f).pgx = s.pgx := rfl
@[simp] theorem updWarp_shoot (s : State) (c k n : Nat) (f : Warp → Warp) : (updWarp s c k n f).shoot = s.shoot := rfl
@[simp] theorem updWarp_shootOp (s : State) (c k n : Nat) (f : Warp → Warp) : (updWarp s c k n f).shootOp = s.shootOp := rfl
@[simp] theorem updWarp_pgpool (s : State) (c k n : Nat) (f : Warp → Warp) : (updWarp s c k n f).pgpool = s.pgpool := rfl
@[simp] theorem updWarp_bfloorCtx (s : State) (c k n : Nat) (f : Warp → Warp) : (updWarp s c k n f).bfloorCtx = s.bfloorCtx := rfl
@[simp] theorem updWarp_bfloorOps (s : State) (c k n : Nat) (f : Warp → Warp) : (updWarp s c k n f).bfloorOps = s.bfloorOps := rfl
@[simp] theorem updWarp_dsplit (s : State) (c k n : Nat) (f : Warp → Warp) : (updWarp s c k n f).dsplit = s.dsplit := rfl
@[simp] theorem updWarp_mcload (s : State) (c k n : Nat) (f : Warp → Warp) : (updWarp s c k n f).mcload = s.mcload := rfl
@[simp] theorem updWarp_patch (s : State) (c k n : Nat) (f : Warp → Warp) : (updWarp s c k n f).patch = s.patch := rfl
@[simp] theorem updWarp_micro (s : State) (c k n : Nat) (f : Warp → Warp) : (updWarp s c k n f).micro = s.micro := rfl
@[simp] theorem updWarp_secver (s : State) (c k n : Nat) (f : Warp → Warp) : (updWarp s c k n f).secver = s.secver := rfl
@[simp] theorem updWarp_eltb (s : State) (c k n : Nat) (f : Warp → Warp) : (updWarp s c k n f).eltb = s.eltb := rfl
@[simp] theorem updWarp_chip (s : State) (c k n : Nat) (f : Warp → Warp) : (updWarp s c k n f).chip = s.chip := rfl
@[simp] theorem updWarp_ctxsel (s : State) (c k n : Nat) (f : Warp → Warp) : (updWarp s c k n f).ctxsel = s.ctxsel := rfl
@[simp] theorem updWarp_ctxselW (s : State) (c k n : Nat) (f : Warp → Warp) : (updWarp s c k n f).ctxselW = s.ctxselW := rfl
@[simp] theorem updWarp_dbgsel (s : State) (c k n : Nat) (f : Warp → Warp) : (updWarp s c k n f).dbgsel = s.dbgsel := rfl
@[simp] theorem updWarp_dbgselW (s : State) (c k n : Nat) (f : Warp → Warp) : (updWarp s c k n f).dbgselW = s.dbgselW := rfl
@[simp] theorem updWarp_dbgreg (s : State) (c k n : Nat) (f : Warp → Warp) : (updWarp s c k n f).dbgreg = s.dbgreg := rfl
@[simp] theorem updWarp_dbgdata (s : State) (c k n : Nat) (f : Warp → Warp) : (updWarp s c k n f).dbgdata = s.dbgdata := rfl
@[simp] theorem updWarp_dbgErr (s : State) (c k n : Nat) (f : Warp → Warp) : (updWarp s c k n f).dbgErr = s.dbgErr := rfl
@[simp] theorem updWarp_dbgCause (s : State) (c k n : Nat) (f : Warp → Warp) : (updWarp s c k n f).dbgCause = s.dbgCause := rfl
@[simp] theorem updWarp_dbgBusy (s : State) (c k n : Nat) (f : Warp → Warp) : (updWarp s c k n f).dbgBusy = s.dbgBusy := rfl
@[simp] theorem updWarp_bps (s : State) (c k n : Nat) (f : Warp → Warp) : (updWarp s c k n f).bps = s.bps := rfl
@[simp] theorem updWarp_xlateOps (s : State) (c k n : Nat) (f : Warp → Warp) : (updWarp s c k n f).xlateOps = s.xlateOps := rfl
@[simp] theorem updWarp_cap (s : State) (c k n : Nat) (f : Warp → Warp) : (updWarp s c k n f).cap = s.cap := rfl
@[simp] theorem updWarp_nonce (s : State) (c k n : Nat) (f : Warp → Warp) : (updWarp s c k n f).nonce = s.nonce := rfl
@[simp] theorem updWarp_report (s : State) (c k n : Nat) (f : Warp → Warp) : (updWarp s c k n f).report = s.report := rfl
@[simp] theorem updWarp_attBusy (s : State) (c k n : Nat) (f : Warp → Warp) : (updWarp s c k n f).attBusy = s.attBusy := rfl
@[simp] theorem updWarp_routes (s : State) (c k n : Nat) (f : Warp → Warp) : (updWarp s c k n f).routes = s.routes := rfl
@[simp] theorem updWarp_links (s : State) (c k n : Nat) (f : Warp → Warp) : (updWarp s c k n f).links = s.links := rfl
@[simp] theorem updWarp_clock (s : State) (c k n : Nat) (f : Warp → Warp) : (updWarp s c k n f).clock = s.clock := rfl
@[simp] theorem updWarp_booted (s : State) (c k n : Nat) (f : Warp → Warp) : (updWarp s c k n f).booted = s.booted := rfl
@[simp] theorem updWarp_left (s : State) (c k n : Nat) (f : Warp → Warp) : (updWarp s c k n f).left = s.left := rfl
@[simp] theorem updWarp_outbox (s : State) (c k n : Nat) (f : Warp → Warp) : (updWarp s c k n f).outbox = s.outbox := rfl
@[simp] theorem updWarp_msix (s : State) (c k n : Nat) (f : Warp → Warp) : (updWarp s c k n f).msix = s.msix := rfl
@[simp] theorem updWarp_hostRead (s : State) (c k n : Nat) (f : Warp → Warp) : (updWarp s c k n f).hostRead = s.hostRead := rfl

@[simp] theorem updWarpOf_cur (s : State) (o : Who) (f : Warp → Warp) : (updWarpOf s o f).cur = s.cur := rfl
@[simp] theorem updWarpOf_turns (s : State) (o : Who) (f : Warp → Warp) : (updWarpOf s o f).turns = s.turns := rfl
@[simp] theorem updWarpOf_free (s : State) (o : Who) (f : Warp → Warp) : (updWarpOf s o f).free = s.free := rfl
@[simp] theorem updWarpOf_inject (s : State) (o : Who) (f : Warp → Warp) : (updWarpOf s o f).inject = s.inject := rfl
@[simp] theorem updWarpOf_injectNo (s : State) (o : Who) (f : Warp → Warp) : (updWarpOf s o f).injectNo = s.injectNo := rfl
@[simp] theorem updWarpOf_cycle (s : State) (o : Who) (f : Warp → Warp) : (updWarpOf s o f).cycle = s.cycle := rfl
@[simp] theorem updWarpOf_ctxs (s : State) (o : Who) (f : Warp → Warp) : (updWarpOf s o f).ctxs = s.ctxs := rfl
@[simp] theorem updWarpOf_mem (s : State) (o : Who) (f : Warp → Warp) : (updWarpOf s o f).mem = s.mem := rfl
@[simp] theorem updWarpOf_hostMem (s : State) (o : Who) (f : Warp → Warp) : (updWarpOf s o f).hostMem = s.hostMem := rfl
@[simp] theorem updWarpOf_peerMem (s : State) (o : Who) (f : Warp → Warp) : (updWarpOf s o f).peerMem = s.peerMem := rfl
@[simp] theorem updWarpOf_checks (s : State) (o : Who) (f : Warp → Warp) : (updWarpOf s o f).checks = s.checks := rfl
@[simp] theorem updWarpOf_coreChecks (s : State) (o : Who) (f : Warp → Warp) : (updWarpOf s o f).coreChecks = s.coreChecks := rfl
@[simp] theorem updWarpOf_icache (s : State) (o : Who) (f : Warp → Warp) : (updWarpOf s o f).icache = s.icache := rfl
@[simp] theorem updWarpOf_tlb2 (s : State) (o : Who) (f : Warp → Warp) : (updWarpOf s o f).tlb2 = s.tlb2 := rfl
@[simp] theorem updWarpOf_l2 (s : State) (o : Who) (f : Warp → Warp) : (updWarpOf s o f).l2 = s.l2 := rfl
@[simp] theorem updWarpOf_pend (s : State) (o : Who) (f : Warp → Warp) : (updWarpOf s o f).pend = s.pend := rfl
@[simp] theorem updWarpOf_ponds (s : State) (o : Who) (f : Warp → Warp) : (updWarpOf s o f).ponds = s.ponds := rfl
@[simp] theorem updWarpOf_deferred (s : State) (o : Who) (f : Warp → Warp) : (updWarpOf s o f).deferred = s.deferred := rfl
@[simp] theorem updWarpOf_nextId (s : State) (o : Who) (f : Warp → Warp) : (updWarpOf s o f).nextId = s.nextId := rfl
@[simp] theorem updWarpOf_saved (s : State) (o : Who) (f : Warp → Warp) : (updWarpOf s o f).saved = s.saved := rfl
@[simp] theorem updWarpOf_finals (s : State) (o : Who) (f : Warp → Warp) : (updWarpOf s o f).finals = s.finals := rfl
@[simp] theorem updWarpOf_stealClock (s : State) (o : Who) (f : Warp → Warp) : (updWarpOf s o f).stealClock = s.stealClock := rfl
@[simp] theorem updWarpOf_steals (s : State) (o : Who) (f : Warp → Warp) : (updWarpOf s o f).steals = s.steals := rfl
@[simp] theorem updWarpOf_pf (s : State) (o : Who) (f : Warp → Warp) : (updWarpOf s o f).pf = s.pf := rfl
@[simp] theorem updWarpOf_pfNo (s : State) (o : Who) (f : Warp → Warp) : (updWarpOf s o f).pfNo = s.pfNo := rfl
@[simp] theorem updWarpOf_pgx (s : State) (o : Who) (f : Warp → Warp) : (updWarpOf s o f).pgx = s.pgx := rfl
@[simp] theorem updWarpOf_shoot (s : State) (o : Who) (f : Warp → Warp) : (updWarpOf s o f).shoot = s.shoot := rfl
@[simp] theorem updWarpOf_shootOp (s : State) (o : Who) (f : Warp → Warp) : (updWarpOf s o f).shootOp = s.shootOp := rfl
@[simp] theorem updWarpOf_pgpool (s : State) (o : Who) (f : Warp → Warp) : (updWarpOf s o f).pgpool = s.pgpool := rfl
@[simp] theorem updWarpOf_bfloorCtx (s : State) (o : Who) (f : Warp → Warp) : (updWarpOf s o f).bfloorCtx = s.bfloorCtx := rfl
@[simp] theorem updWarpOf_bfloorOps (s : State) (o : Who) (f : Warp → Warp) : (updWarpOf s o f).bfloorOps = s.bfloorOps := rfl
@[simp] theorem updWarpOf_dsplit (s : State) (o : Who) (f : Warp → Warp) : (updWarpOf s o f).dsplit = s.dsplit := rfl
@[simp] theorem updWarpOf_mcload (s : State) (o : Who) (f : Warp → Warp) : (updWarpOf s o f).mcload = s.mcload := rfl
@[simp] theorem updWarpOf_patch (s : State) (o : Who) (f : Warp → Warp) : (updWarpOf s o f).patch = s.patch := rfl
@[simp] theorem updWarpOf_micro (s : State) (o : Who) (f : Warp → Warp) : (updWarpOf s o f).micro = s.micro := rfl
@[simp] theorem updWarpOf_secver (s : State) (o : Who) (f : Warp → Warp) : (updWarpOf s o f).secver = s.secver := rfl
@[simp] theorem updWarpOf_eltb (s : State) (o : Who) (f : Warp → Warp) : (updWarpOf s o f).eltb = s.eltb := rfl
@[simp] theorem updWarpOf_chip (s : State) (o : Who) (f : Warp → Warp) : (updWarpOf s o f).chip = s.chip := rfl
@[simp] theorem updWarpOf_ctxsel (s : State) (o : Who) (f : Warp → Warp) : (updWarpOf s o f).ctxsel = s.ctxsel := rfl
@[simp] theorem updWarpOf_ctxselW (s : State) (o : Who) (f : Warp → Warp) : (updWarpOf s o f).ctxselW = s.ctxselW := rfl
@[simp] theorem updWarpOf_dbgsel (s : State) (o : Who) (f : Warp → Warp) : (updWarpOf s o f).dbgsel = s.dbgsel := rfl
@[simp] theorem updWarpOf_dbgselW (s : State) (o : Who) (f : Warp → Warp) : (updWarpOf s o f).dbgselW = s.dbgselW := rfl
@[simp] theorem updWarpOf_dbgreg (s : State) (o : Who) (f : Warp → Warp) : (updWarpOf s o f).dbgreg = s.dbgreg := rfl
@[simp] theorem updWarpOf_dbgdata (s : State) (o : Who) (f : Warp → Warp) : (updWarpOf s o f).dbgdata = s.dbgdata := rfl
@[simp] theorem updWarpOf_dbgErr (s : State) (o : Who) (f : Warp → Warp) : (updWarpOf s o f).dbgErr = s.dbgErr := rfl
@[simp] theorem updWarpOf_dbgCause (s : State) (o : Who) (f : Warp → Warp) : (updWarpOf s o f).dbgCause = s.dbgCause := rfl
@[simp] theorem updWarpOf_dbgBusy (s : State) (o : Who) (f : Warp → Warp) : (updWarpOf s o f).dbgBusy = s.dbgBusy := rfl
@[simp] theorem updWarpOf_bps (s : State) (o : Who) (f : Warp → Warp) : (updWarpOf s o f).bps = s.bps := rfl
@[simp] theorem updWarpOf_xlateOps (s : State) (o : Who) (f : Warp → Warp) : (updWarpOf s o f).xlateOps = s.xlateOps := rfl
@[simp] theorem updWarpOf_cap (s : State) (o : Who) (f : Warp → Warp) : (updWarpOf s o f).cap = s.cap := rfl
@[simp] theorem updWarpOf_nonce (s : State) (o : Who) (f : Warp → Warp) : (updWarpOf s o f).nonce = s.nonce := rfl
@[simp] theorem updWarpOf_report (s : State) (o : Who) (f : Warp → Warp) : (updWarpOf s o f).report = s.report := rfl
@[simp] theorem updWarpOf_attBusy (s : State) (o : Who) (f : Warp → Warp) : (updWarpOf s o f).attBusy = s.attBusy := rfl
@[simp] theorem updWarpOf_routes (s : State) (o : Who) (f : Warp → Warp) : (updWarpOf s o f).routes = s.routes := rfl
@[simp] theorem updWarpOf_links (s : State) (o : Who) (f : Warp → Warp) : (updWarpOf s o f).links = s.links := rfl
@[simp] theorem updWarpOf_clock (s : State) (o : Who) (f : Warp → Warp) : (updWarpOf s o f).clock = s.clock := rfl
@[simp] theorem updWarpOf_booted (s : State) (o : Who) (f : Warp → Warp) : (updWarpOf s o f).booted = s.booted := rfl
@[simp] theorem updWarpOf_left (s : State) (o : Who) (f : Warp → Warp) : (updWarpOf s o f).left = s.left := rfl
@[simp] theorem updWarpOf_outbox (s : State) (o : Who) (f : Warp → Warp) : (updWarpOf s o f).outbox = s.outbox := rfl
@[simp] theorem updWarpOf_msix (s : State) (o : Who) (f : Warp → Warp) : (updWarpOf s o f).msix = s.msix := rfl
@[simp] theorem updWarpOf_hostRead (s : State) (o : Who) (f : Warp → Warp) : (updWarpOf s o f).hostRead = s.hostRead := rfl

@[simp] theorem updStream_cur (s : State) (o : Who) (f : Stream → Stream) : (updStream s o f).cur = s.cur := rfl
@[simp] theorem updStream_turns (s : State) (o : Who) (f : Stream → Stream) : (updStream s o f).turns = s.turns := rfl
@[simp] theorem updStream_free (s : State) (o : Who) (f : Stream → Stream) : (updStream s o f).free = s.free := rfl
@[simp] theorem updStream_inject (s : State) (o : Who) (f : Stream → Stream) : (updStream s o f).inject = s.inject := rfl
@[simp] theorem updStream_injectNo (s : State) (o : Who) (f : Stream → Stream) : (updStream s o f).injectNo = s.injectNo := rfl
@[simp] theorem updStream_cycle (s : State) (o : Who) (f : Stream → Stream) : (updStream s o f).cycle = s.cycle := rfl
@[simp] theorem updStream_ctxs (s : State) (o : Who) (f : Stream → Stream) : (updStream s o f).ctxs = s.ctxs := rfl
@[simp] theorem updStream_mem (s : State) (o : Who) (f : Stream → Stream) : (updStream s o f).mem = s.mem := rfl
@[simp] theorem updStream_hostMem (s : State) (o : Who) (f : Stream → Stream) : (updStream s o f).hostMem = s.hostMem := rfl
@[simp] theorem updStream_peerMem (s : State) (o : Who) (f : Stream → Stream) : (updStream s o f).peerMem = s.peerMem := rfl
@[simp] theorem updStream_checks (s : State) (o : Who) (f : Stream → Stream) : (updStream s o f).checks = s.checks := rfl
@[simp] theorem updStream_coreChecks (s : State) (o : Who) (f : Stream → Stream) : (updStream s o f).coreChecks = s.coreChecks := rfl
@[simp] theorem updStream_icache (s : State) (o : Who) (f : Stream → Stream) : (updStream s o f).icache = s.icache := rfl
@[simp] theorem updStream_tlb2 (s : State) (o : Who) (f : Stream → Stream) : (updStream s o f).tlb2 = s.tlb2 := rfl
@[simp] theorem updStream_l2 (s : State) (o : Who) (f : Stream → Stream) : (updStream s o f).l2 = s.l2 := rfl
@[simp] theorem updStream_pend (s : State) (o : Who) (f : Stream → Stream) : (updStream s o f).pend = s.pend := rfl
@[simp] theorem updStream_ponds (s : State) (o : Who) (f : Stream → Stream) : (updStream s o f).ponds = s.ponds := rfl
@[simp] theorem updStream_deferred (s : State) (o : Who) (f : Stream → Stream) : (updStream s o f).deferred = s.deferred := rfl
@[simp] theorem updStream_nextId (s : State) (o : Who) (f : Stream → Stream) : (updStream s o f).nextId = s.nextId := rfl
@[simp] theorem updStream_saved (s : State) (o : Who) (f : Stream → Stream) : (updStream s o f).saved = s.saved := rfl
@[simp] theorem updStream_finals (s : State) (o : Who) (f : Stream → Stream) : (updStream s o f).finals = s.finals := rfl
@[simp] theorem updStream_stealClock (s : State) (o : Who) (f : Stream → Stream) : (updStream s o f).stealClock = s.stealClock := rfl
@[simp] theorem updStream_steals (s : State) (o : Who) (f : Stream → Stream) : (updStream s o f).steals = s.steals := rfl
@[simp] theorem updStream_pf (s : State) (o : Who) (f : Stream → Stream) : (updStream s o f).pf = s.pf := rfl
@[simp] theorem updStream_pfNo (s : State) (o : Who) (f : Stream → Stream) : (updStream s o f).pfNo = s.pfNo := rfl
@[simp] theorem updStream_pgx (s : State) (o : Who) (f : Stream → Stream) : (updStream s o f).pgx = s.pgx := rfl
@[simp] theorem updStream_shoot (s : State) (o : Who) (f : Stream → Stream) : (updStream s o f).shoot = s.shoot := rfl
@[simp] theorem updStream_shootOp (s : State) (o : Who) (f : Stream → Stream) : (updStream s o f).shootOp = s.shootOp := rfl
@[simp] theorem updStream_pgpool (s : State) (o : Who) (f : Stream → Stream) : (updStream s o f).pgpool = s.pgpool := rfl
@[simp] theorem updStream_bfloorCtx (s : State) (o : Who) (f : Stream → Stream) : (updStream s o f).bfloorCtx = s.bfloorCtx := rfl
@[simp] theorem updStream_bfloorOps (s : State) (o : Who) (f : Stream → Stream) : (updStream s o f).bfloorOps = s.bfloorOps := rfl
@[simp] theorem updStream_dsplit (s : State) (o : Who) (f : Stream → Stream) : (updStream s o f).dsplit = s.dsplit := rfl
@[simp] theorem updStream_mcload (s : State) (o : Who) (f : Stream → Stream) : (updStream s o f).mcload = s.mcload := rfl
@[simp] theorem updStream_patch (s : State) (o : Who) (f : Stream → Stream) : (updStream s o f).patch = s.patch := rfl
@[simp] theorem updStream_micro (s : State) (o : Who) (f : Stream → Stream) : (updStream s o f).micro = s.micro := rfl
@[simp] theorem updStream_secver (s : State) (o : Who) (f : Stream → Stream) : (updStream s o f).secver = s.secver := rfl
@[simp] theorem updStream_eltb (s : State) (o : Who) (f : Stream → Stream) : (updStream s o f).eltb = s.eltb := rfl
@[simp] theorem updStream_chip (s : State) (o : Who) (f : Stream → Stream) : (updStream s o f).chip = s.chip := rfl
@[simp] theorem updStream_ctxsel (s : State) (o : Who) (f : Stream → Stream) : (updStream s o f).ctxsel = s.ctxsel := rfl
@[simp] theorem updStream_ctxselW (s : State) (o : Who) (f : Stream → Stream) : (updStream s o f).ctxselW = s.ctxselW := rfl
@[simp] theorem updStream_dbgsel (s : State) (o : Who) (f : Stream → Stream) : (updStream s o f).dbgsel = s.dbgsel := rfl
@[simp] theorem updStream_dbgselW (s : State) (o : Who) (f : Stream → Stream) : (updStream s o f).dbgselW = s.dbgselW := rfl
@[simp] theorem updStream_dbgreg (s : State) (o : Who) (f : Stream → Stream) : (updStream s o f).dbgreg = s.dbgreg := rfl
@[simp] theorem updStream_dbgdata (s : State) (o : Who) (f : Stream → Stream) : (updStream s o f).dbgdata = s.dbgdata := rfl
@[simp] theorem updStream_dbgErr (s : State) (o : Who) (f : Stream → Stream) : (updStream s o f).dbgErr = s.dbgErr := rfl
@[simp] theorem updStream_dbgCause (s : State) (o : Who) (f : Stream → Stream) : (updStream s o f).dbgCause = s.dbgCause := rfl
@[simp] theorem updStream_dbgBusy (s : State) (o : Who) (f : Stream → Stream) : (updStream s o f).dbgBusy = s.dbgBusy := rfl
@[simp] theorem updStream_bps (s : State) (o : Who) (f : Stream → Stream) : (updStream s o f).bps = s.bps := rfl
@[simp] theorem updStream_xlateOps (s : State) (o : Who) (f : Stream → Stream) : (updStream s o f).xlateOps = s.xlateOps := rfl
@[simp] theorem updStream_cap (s : State) (o : Who) (f : Stream → Stream) : (updStream s o f).cap = s.cap := rfl
@[simp] theorem updStream_nonce (s : State) (o : Who) (f : Stream → Stream) : (updStream s o f).nonce = s.nonce := rfl
@[simp] theorem updStream_report (s : State) (o : Who) (f : Stream → Stream) : (updStream s o f).report = s.report := rfl
@[simp] theorem updStream_attBusy (s : State) (o : Who) (f : Stream → Stream) : (updStream s o f).attBusy = s.attBusy := rfl
@[simp] theorem updStream_routes (s : State) (o : Who) (f : Stream → Stream) : (updStream s o f).routes = s.routes := rfl
@[simp] theorem updStream_links (s : State) (o : Who) (f : Stream → Stream) : (updStream s o f).links = s.links := rfl
@[simp] theorem updStream_clock (s : State) (o : Who) (f : Stream → Stream) : (updStream s o f).clock = s.clock := rfl
@[simp] theorem updStream_booted (s : State) (o : Who) (f : Stream → Stream) : (updStream s o f).booted = s.booted := rfl
@[simp] theorem updStream_left (s : State) (o : Who) (f : Stream → Stream) : (updStream s o f).left = s.left := rfl
@[simp] theorem updStream_outbox (s : State) (o : Who) (f : Stream → Stream) : (updStream s o f).outbox = s.outbox := rfl
@[simp] theorem updStream_msix (s : State) (o : Who) (f : Stream → Stream) : (updStream s o f).msix = s.msix := rfl
@[simp] theorem updStream_hostRead (s : State) (o : Who) (f : Stream → Stream) : (updStream s o f).hostRead = s.hostRead := rfl

@[simp] theorem updCtx_cur (s : State) (c : Nat) (f : Ctx → Ctx) : (updCtx s c f).cur = s.cur := rfl
@[simp] theorem updCtx_turns (s : State) (c : Nat) (f : Ctx → Ctx) : (updCtx s c f).turns = s.turns := rfl
@[simp] theorem updCtx_free (s : State) (c : Nat) (f : Ctx → Ctx) : (updCtx s c f).free = s.free := rfl
@[simp] theorem updCtx_inject (s : State) (c : Nat) (f : Ctx → Ctx) : (updCtx s c f).inject = s.inject := rfl
@[simp] theorem updCtx_injectNo (s : State) (c : Nat) (f : Ctx → Ctx) : (updCtx s c f).injectNo = s.injectNo := rfl
@[simp] theorem updCtx_cycle (s : State) (c : Nat) (f : Ctx → Ctx) : (updCtx s c f).cycle = s.cycle := rfl
@[simp] theorem updCtx_cores (s : State) (c : Nat) (f : Ctx → Ctx) : (updCtx s c f).cores = s.cores := rfl
@[simp] theorem updCtx_mem (s : State) (c : Nat) (f : Ctx → Ctx) : (updCtx s c f).mem = s.mem := rfl
@[simp] theorem updCtx_hostMem (s : State) (c : Nat) (f : Ctx → Ctx) : (updCtx s c f).hostMem = s.hostMem := rfl
@[simp] theorem updCtx_peerMem (s : State) (c : Nat) (f : Ctx → Ctx) : (updCtx s c f).peerMem = s.peerMem := rfl
@[simp] theorem updCtx_checks (s : State) (c : Nat) (f : Ctx → Ctx) : (updCtx s c f).checks = s.checks := rfl
@[simp] theorem updCtx_coreChecks (s : State) (c : Nat) (f : Ctx → Ctx) : (updCtx s c f).coreChecks = s.coreChecks := rfl
@[simp] theorem updCtx_icache (s : State) (c : Nat) (f : Ctx → Ctx) : (updCtx s c f).icache = s.icache := rfl
@[simp] theorem updCtx_tlb2 (s : State) (c : Nat) (f : Ctx → Ctx) : (updCtx s c f).tlb2 = s.tlb2 := rfl
@[simp] theorem updCtx_l2 (s : State) (c : Nat) (f : Ctx → Ctx) : (updCtx s c f).l2 = s.l2 := rfl
@[simp] theorem updCtx_pend (s : State) (c : Nat) (f : Ctx → Ctx) : (updCtx s c f).pend = s.pend := rfl
@[simp] theorem updCtx_ponds (s : State) (c : Nat) (f : Ctx → Ctx) : (updCtx s c f).ponds = s.ponds := rfl
@[simp] theorem updCtx_deferred (s : State) (c : Nat) (f : Ctx → Ctx) : (updCtx s c f).deferred = s.deferred := rfl
@[simp] theorem updCtx_nextId (s : State) (c : Nat) (f : Ctx → Ctx) : (updCtx s c f).nextId = s.nextId := rfl
@[simp] theorem updCtx_saved (s : State) (c : Nat) (f : Ctx → Ctx) : (updCtx s c f).saved = s.saved := rfl
@[simp] theorem updCtx_finals (s : State) (c : Nat) (f : Ctx → Ctx) : (updCtx s c f).finals = s.finals := rfl
@[simp] theorem updCtx_stealClock (s : State) (c : Nat) (f : Ctx → Ctx) : (updCtx s c f).stealClock = s.stealClock := rfl
@[simp] theorem updCtx_steals (s : State) (c : Nat) (f : Ctx → Ctx) : (updCtx s c f).steals = s.steals := rfl
@[simp] theorem updCtx_pf (s : State) (c : Nat) (f : Ctx → Ctx) : (updCtx s c f).pf = s.pf := rfl
@[simp] theorem updCtx_pfNo (s : State) (c : Nat) (f : Ctx → Ctx) : (updCtx s c f).pfNo = s.pfNo := rfl
@[simp] theorem updCtx_pgx (s : State) (c : Nat) (f : Ctx → Ctx) : (updCtx s c f).pgx = s.pgx := rfl
@[simp] theorem updCtx_shoot (s : State) (c : Nat) (f : Ctx → Ctx) : (updCtx s c f).shoot = s.shoot := rfl
@[simp] theorem updCtx_shootOp (s : State) (c : Nat) (f : Ctx → Ctx) : (updCtx s c f).shootOp = s.shootOp := rfl
@[simp] theorem updCtx_pgpool (s : State) (c : Nat) (f : Ctx → Ctx) : (updCtx s c f).pgpool = s.pgpool := rfl
@[simp] theorem updCtx_bfloorCtx (s : State) (c : Nat) (f : Ctx → Ctx) : (updCtx s c f).bfloorCtx = s.bfloorCtx := rfl
@[simp] theorem updCtx_bfloorOps (s : State) (c : Nat) (f : Ctx → Ctx) : (updCtx s c f).bfloorOps = s.bfloorOps := rfl
@[simp] theorem updCtx_dsplit (s : State) (c : Nat) (f : Ctx → Ctx) : (updCtx s c f).dsplit = s.dsplit := rfl
@[simp] theorem updCtx_mcload (s : State) (c : Nat) (f : Ctx → Ctx) : (updCtx s c f).mcload = s.mcload := rfl
@[simp] theorem updCtx_patch (s : State) (c : Nat) (f : Ctx → Ctx) : (updCtx s c f).patch = s.patch := rfl
@[simp] theorem updCtx_micro (s : State) (c : Nat) (f : Ctx → Ctx) : (updCtx s c f).micro = s.micro := rfl
@[simp] theorem updCtx_secver (s : State) (c : Nat) (f : Ctx → Ctx) : (updCtx s c f).secver = s.secver := rfl
@[simp] theorem updCtx_eltb (s : State) (c : Nat) (f : Ctx → Ctx) : (updCtx s c f).eltb = s.eltb := rfl
@[simp] theorem updCtx_chip (s : State) (c : Nat) (f : Ctx → Ctx) : (updCtx s c f).chip = s.chip := rfl
@[simp] theorem updCtx_ctxsel (s : State) (c : Nat) (f : Ctx → Ctx) : (updCtx s c f).ctxsel = s.ctxsel := rfl
@[simp] theorem updCtx_ctxselW (s : State) (c : Nat) (f : Ctx → Ctx) : (updCtx s c f).ctxselW = s.ctxselW := rfl
@[simp] theorem updCtx_dbgsel (s : State) (c : Nat) (f : Ctx → Ctx) : (updCtx s c f).dbgsel = s.dbgsel := rfl
@[simp] theorem updCtx_dbgselW (s : State) (c : Nat) (f : Ctx → Ctx) : (updCtx s c f).dbgselW = s.dbgselW := rfl
@[simp] theorem updCtx_dbgreg (s : State) (c : Nat) (f : Ctx → Ctx) : (updCtx s c f).dbgreg = s.dbgreg := rfl
@[simp] theorem updCtx_dbgdata (s : State) (c : Nat) (f : Ctx → Ctx) : (updCtx s c f).dbgdata = s.dbgdata := rfl
@[simp] theorem updCtx_dbgErr (s : State) (c : Nat) (f : Ctx → Ctx) : (updCtx s c f).dbgErr = s.dbgErr := rfl
@[simp] theorem updCtx_dbgCause (s : State) (c : Nat) (f : Ctx → Ctx) : (updCtx s c f).dbgCause = s.dbgCause := rfl
@[simp] theorem updCtx_dbgBusy (s : State) (c : Nat) (f : Ctx → Ctx) : (updCtx s c f).dbgBusy = s.dbgBusy := rfl
@[simp] theorem updCtx_bps (s : State) (c : Nat) (f : Ctx → Ctx) : (updCtx s c f).bps = s.bps := rfl
@[simp] theorem updCtx_xlateOps (s : State) (c : Nat) (f : Ctx → Ctx) : (updCtx s c f).xlateOps = s.xlateOps := rfl
@[simp] theorem updCtx_cap (s : State) (c : Nat) (f : Ctx → Ctx) : (updCtx s c f).cap = s.cap := rfl
@[simp] theorem updCtx_nonce (s : State) (c : Nat) (f : Ctx → Ctx) : (updCtx s c f).nonce = s.nonce := rfl
@[simp] theorem updCtx_report (s : State) (c : Nat) (f : Ctx → Ctx) : (updCtx s c f).report = s.report := rfl
@[simp] theorem updCtx_attBusy (s : State) (c : Nat) (f : Ctx → Ctx) : (updCtx s c f).attBusy = s.attBusy := rfl
@[simp] theorem updCtx_routes (s : State) (c : Nat) (f : Ctx → Ctx) : (updCtx s c f).routes = s.routes := rfl
@[simp] theorem updCtx_links (s : State) (c : Nat) (f : Ctx → Ctx) : (updCtx s c f).links = s.links := rfl
@[simp] theorem updCtx_clock (s : State) (c : Nat) (f : Ctx → Ctx) : (updCtx s c f).clock = s.clock := rfl
@[simp] theorem updCtx_booted (s : State) (c : Nat) (f : Ctx → Ctx) : (updCtx s c f).booted = s.booted := rfl
@[simp] theorem updCtx_left (s : State) (c : Nat) (f : Ctx → Ctx) : (updCtx s c f).left = s.left := rfl
@[simp] theorem updCtx_outbox (s : State) (c : Nat) (f : Ctx → Ctx) : (updCtx s c f).outbox = s.outbox := rfl
@[simp] theorem updCtx_msix (s : State) (c : Nat) (f : Ctx → Ctx) : (updCtx s c f).msix = s.msix := rfl
@[simp] theorem updCtx_hostRead (s : State) (c : Nat) (f : Ctx → Ctx) : (updCtx s c f).hostRead = s.hostRead := rfl

@[simp] theorem setLatch_cur (s : State) (c k g : Nat) (l : Option Latch) : (setLatch s c k g l).cur = s.cur := rfl
@[simp] theorem setLatch_turns (s : State) (c k g : Nat) (l : Option Latch) : (setLatch s c k g l).turns = s.turns := rfl
@[simp] theorem setLatch_free (s : State) (c k g : Nat) (l : Option Latch) : (setLatch s c k g l).free = s.free := rfl
@[simp] theorem setLatch_inject (s : State) (c k g : Nat) (l : Option Latch) : (setLatch s c k g l).inject = s.inject := rfl
@[simp] theorem setLatch_injectNo (s : State) (c k g : Nat) (l : Option Latch) : (setLatch s c k g l).injectNo = s.injectNo := rfl
@[simp] theorem setLatch_cycle (s : State) (c k g : Nat) (l : Option Latch) : (setLatch s c k g l).cycle = s.cycle := rfl
@[simp] theorem setLatch_ctxs (s : State) (c k g : Nat) (l : Option Latch) : (setLatch s c k g l).ctxs = s.ctxs := rfl
@[simp] theorem setLatch_mem (s : State) (c k g : Nat) (l : Option Latch) : (setLatch s c k g l).mem = s.mem := rfl
@[simp] theorem setLatch_hostMem (s : State) (c k g : Nat) (l : Option Latch) : (setLatch s c k g l).hostMem = s.hostMem := rfl
@[simp] theorem setLatch_peerMem (s : State) (c k g : Nat) (l : Option Latch) : (setLatch s c k g l).peerMem = s.peerMem := rfl
@[simp] theorem setLatch_checks (s : State) (c k g : Nat) (l : Option Latch) : (setLatch s c k g l).checks = s.checks := rfl
@[simp] theorem setLatch_coreChecks (s : State) (c k g : Nat) (l : Option Latch) : (setLatch s c k g l).coreChecks = s.coreChecks := rfl
@[simp] theorem setLatch_icache (s : State) (c k g : Nat) (l : Option Latch) : (setLatch s c k g l).icache = s.icache := rfl
@[simp] theorem setLatch_tlb2 (s : State) (c k g : Nat) (l : Option Latch) : (setLatch s c k g l).tlb2 = s.tlb2 := rfl
@[simp] theorem setLatch_l2 (s : State) (c k g : Nat) (l : Option Latch) : (setLatch s c k g l).l2 = s.l2 := rfl
@[simp] theorem setLatch_pend (s : State) (c k g : Nat) (l : Option Latch) : (setLatch s c k g l).pend = s.pend := rfl
@[simp] theorem setLatch_ponds (s : State) (c k g : Nat) (l : Option Latch) : (setLatch s c k g l).ponds = s.ponds := rfl
@[simp] theorem setLatch_deferred (s : State) (c k g : Nat) (l : Option Latch) : (setLatch s c k g l).deferred = s.deferred := rfl
@[simp] theorem setLatch_nextId (s : State) (c k g : Nat) (l : Option Latch) : (setLatch s c k g l).nextId = s.nextId := rfl
@[simp] theorem setLatch_saved (s : State) (c k g : Nat) (l : Option Latch) : (setLatch s c k g l).saved = s.saved := rfl
@[simp] theorem setLatch_finals (s : State) (c k g : Nat) (l : Option Latch) : (setLatch s c k g l).finals = s.finals := rfl
@[simp] theorem setLatch_stealClock (s : State) (c k g : Nat) (l : Option Latch) : (setLatch s c k g l).stealClock = s.stealClock := rfl
@[simp] theorem setLatch_steals (s : State) (c k g : Nat) (l : Option Latch) : (setLatch s c k g l).steals = s.steals := rfl
@[simp] theorem setLatch_pf (s : State) (c k g : Nat) (l : Option Latch) : (setLatch s c k g l).pf = s.pf := rfl
@[simp] theorem setLatch_pfNo (s : State) (c k g : Nat) (l : Option Latch) : (setLatch s c k g l).pfNo = s.pfNo := rfl
@[simp] theorem setLatch_pgx (s : State) (c k g : Nat) (l : Option Latch) : (setLatch s c k g l).pgx = s.pgx := rfl
@[simp] theorem setLatch_shoot (s : State) (c k g : Nat) (l : Option Latch) : (setLatch s c k g l).shoot = s.shoot := rfl
@[simp] theorem setLatch_shootOp (s : State) (c k g : Nat) (l : Option Latch) : (setLatch s c k g l).shootOp = s.shootOp := rfl
@[simp] theorem setLatch_pgpool (s : State) (c k g : Nat) (l : Option Latch) : (setLatch s c k g l).pgpool = s.pgpool := rfl
@[simp] theorem setLatch_bfloorCtx (s : State) (c k g : Nat) (l : Option Latch) : (setLatch s c k g l).bfloorCtx = s.bfloorCtx := rfl
@[simp] theorem setLatch_bfloorOps (s : State) (c k g : Nat) (l : Option Latch) : (setLatch s c k g l).bfloorOps = s.bfloorOps := rfl
@[simp] theorem setLatch_dsplit (s : State) (c k g : Nat) (l : Option Latch) : (setLatch s c k g l).dsplit = s.dsplit := rfl
@[simp] theorem setLatch_mcload (s : State) (c k g : Nat) (l : Option Latch) : (setLatch s c k g l).mcload = s.mcload := rfl
@[simp] theorem setLatch_patch (s : State) (c k g : Nat) (l : Option Latch) : (setLatch s c k g l).patch = s.patch := rfl
@[simp] theorem setLatch_micro (s : State) (c k g : Nat) (l : Option Latch) : (setLatch s c k g l).micro = s.micro := rfl
@[simp] theorem setLatch_secver (s : State) (c k g : Nat) (l : Option Latch) : (setLatch s c k g l).secver = s.secver := rfl
@[simp] theorem setLatch_eltb (s : State) (c k g : Nat) (l : Option Latch) : (setLatch s c k g l).eltb = s.eltb := rfl
@[simp] theorem setLatch_chip (s : State) (c k g : Nat) (l : Option Latch) : (setLatch s c k g l).chip = s.chip := rfl
@[simp] theorem setLatch_ctxsel (s : State) (c k g : Nat) (l : Option Latch) : (setLatch s c k g l).ctxsel = s.ctxsel := rfl
@[simp] theorem setLatch_ctxselW (s : State) (c k g : Nat) (l : Option Latch) : (setLatch s c k g l).ctxselW = s.ctxselW := rfl
@[simp] theorem setLatch_dbgsel (s : State) (c k g : Nat) (l : Option Latch) : (setLatch s c k g l).dbgsel = s.dbgsel := rfl
@[simp] theorem setLatch_dbgselW (s : State) (c k g : Nat) (l : Option Latch) : (setLatch s c k g l).dbgselW = s.dbgselW := rfl
@[simp] theorem setLatch_dbgreg (s : State) (c k g : Nat) (l : Option Latch) : (setLatch s c k g l).dbgreg = s.dbgreg := rfl
@[simp] theorem setLatch_dbgdata (s : State) (c k g : Nat) (l : Option Latch) : (setLatch s c k g l).dbgdata = s.dbgdata := rfl
@[simp] theorem setLatch_dbgErr (s : State) (c k g : Nat) (l : Option Latch) : (setLatch s c k g l).dbgErr = s.dbgErr := rfl
@[simp] theorem setLatch_dbgCause (s : State) (c k g : Nat) (l : Option Latch) : (setLatch s c k g l).dbgCause = s.dbgCause := rfl
@[simp] theorem setLatch_dbgBusy (s : State) (c k g : Nat) (l : Option Latch) : (setLatch s c k g l).dbgBusy = s.dbgBusy := rfl
@[simp] theorem setLatch_bps (s : State) (c k g : Nat) (l : Option Latch) : (setLatch s c k g l).bps = s.bps := rfl
@[simp] theorem setLatch_xlateOps (s : State) (c k g : Nat) (l : Option Latch) : (setLatch s c k g l).xlateOps = s.xlateOps := rfl
@[simp] theorem setLatch_cap (s : State) (c k g : Nat) (l : Option Latch) : (setLatch s c k g l).cap = s.cap := rfl
@[simp] theorem setLatch_nonce (s : State) (c k g : Nat) (l : Option Latch) : (setLatch s c k g l).nonce = s.nonce := rfl
@[simp] theorem setLatch_report (s : State) (c k g : Nat) (l : Option Latch) : (setLatch s c k g l).report = s.report := rfl
@[simp] theorem setLatch_attBusy (s : State) (c k g : Nat) (l : Option Latch) : (setLatch s c k g l).attBusy = s.attBusy := rfl
@[simp] theorem setLatch_routes (s : State) (c k g : Nat) (l : Option Latch) : (setLatch s c k g l).routes = s.routes := rfl
@[simp] theorem setLatch_links (s : State) (c k g : Nat) (l : Option Latch) : (setLatch s c k g l).links = s.links := rfl
@[simp] theorem setLatch_clock (s : State) (c k g : Nat) (l : Option Latch) : (setLatch s c k g l).clock = s.clock := rfl
@[simp] theorem setLatch_booted (s : State) (c k g : Nat) (l : Option Latch) : (setLatch s c k g l).booted = s.booted := rfl
@[simp] theorem setLatch_left (s : State) (c k g : Nat) (l : Option Latch) : (setLatch s c k g l).left = s.left := rfl
@[simp] theorem setLatch_outbox (s : State) (c k g : Nat) (l : Option Latch) : (setLatch s c k g l).outbox = s.outbox := rfl
@[simp] theorem setLatch_msix (s : State) (c k g : Nat) (l : Option Latch) : (setLatch s c k g l).msix = s.msix := rfl
@[simp] theorem setLatch_hostRead (s : State) (c k g : Nat) (l : Option Latch) : (setLatch s c k g l).hostRead = s.hostRead := rfl

@[simp] theorem retire_cur (s : State) (o : Who) (m : Bool) (pc : Addr) : (retire s o m pc).cur = s.cur := rfl
@[simp] theorem retire_turns (s : State) (o : Who) (m : Bool) (pc : Addr) : (retire s o m pc).turns = s.turns := rfl
@[simp] theorem retire_free (s : State) (o : Who) (m : Bool) (pc : Addr) : (retire s o m pc).free = s.free := rfl
@[simp] theorem retire_inject (s : State) (o : Who) (m : Bool) (pc : Addr) : (retire s o m pc).inject = s.inject := rfl
@[simp] theorem retire_injectNo (s : State) (o : Who) (m : Bool) (pc : Addr) : (retire s o m pc).injectNo = s.injectNo := rfl
@[simp] theorem retire_cycle (s : State) (o : Who) (m : Bool) (pc : Addr) : (retire s o m pc).cycle = s.cycle := rfl
@[simp] theorem retire_ctxs (s : State) (o : Who) (m : Bool) (pc : Addr) : (retire s o m pc).ctxs = s.ctxs := rfl
@[simp] theorem retire_mem (s : State) (o : Who) (m : Bool) (pc : Addr) : (retire s o m pc).mem = s.mem := rfl
@[simp] theorem retire_hostMem (s : State) (o : Who) (m : Bool) (pc : Addr) : (retire s o m pc).hostMem = s.hostMem := rfl
@[simp] theorem retire_peerMem (s : State) (o : Who) (m : Bool) (pc : Addr) : (retire s o m pc).peerMem = s.peerMem := rfl
@[simp] theorem retire_checks (s : State) (o : Who) (m : Bool) (pc : Addr) : (retire s o m pc).checks = s.checks := rfl
@[simp] theorem retire_coreChecks (s : State) (o : Who) (m : Bool) (pc : Addr) : (retire s o m pc).coreChecks = s.coreChecks := rfl
@[simp] theorem retire_icache (s : State) (o : Who) (m : Bool) (pc : Addr) : (retire s o m pc).icache = s.icache := rfl
@[simp] theorem retire_tlb2 (s : State) (o : Who) (m : Bool) (pc : Addr) : (retire s o m pc).tlb2 = s.tlb2 := rfl
@[simp] theorem retire_l2 (s : State) (o : Who) (m : Bool) (pc : Addr) : (retire s o m pc).l2 = s.l2 := rfl
@[simp] theorem retire_pend (s : State) (o : Who) (m : Bool) (pc : Addr) : (retire s o m pc).pend = s.pend := rfl
@[simp] theorem retire_ponds (s : State) (o : Who) (m : Bool) (pc : Addr) : (retire s o m pc).ponds = s.ponds := rfl
@[simp] theorem retire_deferred (s : State) (o : Who) (m : Bool) (pc : Addr) : (retire s o m pc).deferred = s.deferred := rfl
@[simp] theorem retire_nextId (s : State) (o : Who) (m : Bool) (pc : Addr) : (retire s o m pc).nextId = s.nextId := rfl
@[simp] theorem retire_saved (s : State) (o : Who) (m : Bool) (pc : Addr) : (retire s o m pc).saved = s.saved := rfl
@[simp] theorem retire_finals (s : State) (o : Who) (m : Bool) (pc : Addr) : (retire s o m pc).finals = s.finals := rfl
@[simp] theorem retire_stealClock (s : State) (o : Who) (m : Bool) (pc : Addr) : (retire s o m pc).stealClock = s.stealClock := rfl
@[simp] theorem retire_steals (s : State) (o : Who) (m : Bool) (pc : Addr) : (retire s o m pc).steals = s.steals := rfl
@[simp] theorem retire_pf (s : State) (o : Who) (m : Bool) (pc : Addr) : (retire s o m pc).pf = s.pf := rfl
@[simp] theorem retire_pfNo (s : State) (o : Who) (m : Bool) (pc : Addr) : (retire s o m pc).pfNo = s.pfNo := rfl
@[simp] theorem retire_pgx (s : State) (o : Who) (m : Bool) (pc : Addr) : (retire s o m pc).pgx = s.pgx := rfl
@[simp] theorem retire_shoot (s : State) (o : Who) (m : Bool) (pc : Addr) : (retire s o m pc).shoot = s.shoot := rfl
@[simp] theorem retire_shootOp (s : State) (o : Who) (m : Bool) (pc : Addr) : (retire s o m pc).shootOp = s.shootOp := rfl
@[simp] theorem retire_pgpool (s : State) (o : Who) (m : Bool) (pc : Addr) : (retire s o m pc).pgpool = s.pgpool := rfl
@[simp] theorem retire_bfloorCtx (s : State) (o : Who) (m : Bool) (pc : Addr) : (retire s o m pc).bfloorCtx = s.bfloorCtx := rfl
@[simp] theorem retire_bfloorOps (s : State) (o : Who) (m : Bool) (pc : Addr) : (retire s o m pc).bfloorOps = s.bfloorOps := rfl
@[simp] theorem retire_dsplit (s : State) (o : Who) (m : Bool) (pc : Addr) : (retire s o m pc).dsplit = s.dsplit := rfl
@[simp] theorem retire_mcload (s : State) (o : Who) (m : Bool) (pc : Addr) : (retire s o m pc).mcload = s.mcload := rfl
@[simp] theorem retire_patch (s : State) (o : Who) (m : Bool) (pc : Addr) : (retire s o m pc).patch = s.patch := rfl
@[simp] theorem retire_micro (s : State) (o : Who) (m : Bool) (pc : Addr) : (retire s o m pc).micro = s.micro := rfl
@[simp] theorem retire_secver (s : State) (o : Who) (m : Bool) (pc : Addr) : (retire s o m pc).secver = s.secver := rfl
@[simp] theorem retire_eltb (s : State) (o : Who) (m : Bool) (pc : Addr) : (retire s o m pc).eltb = s.eltb := rfl
@[simp] theorem retire_chip (s : State) (o : Who) (m : Bool) (pc : Addr) : (retire s o m pc).chip = s.chip := rfl
@[simp] theorem retire_ctxsel (s : State) (o : Who) (m : Bool) (pc : Addr) : (retire s o m pc).ctxsel = s.ctxsel := rfl
@[simp] theorem retire_ctxselW (s : State) (o : Who) (m : Bool) (pc : Addr) : (retire s o m pc).ctxselW = s.ctxselW := rfl
@[simp] theorem retire_dbgsel (s : State) (o : Who) (m : Bool) (pc : Addr) : (retire s o m pc).dbgsel = s.dbgsel := rfl
@[simp] theorem retire_dbgselW (s : State) (o : Who) (m : Bool) (pc : Addr) : (retire s o m pc).dbgselW = s.dbgselW := rfl
@[simp] theorem retire_dbgreg (s : State) (o : Who) (m : Bool) (pc : Addr) : (retire s o m pc).dbgreg = s.dbgreg := rfl
@[simp] theorem retire_dbgdata (s : State) (o : Who) (m : Bool) (pc : Addr) : (retire s o m pc).dbgdata = s.dbgdata := rfl
@[simp] theorem retire_dbgErr (s : State) (o : Who) (m : Bool) (pc : Addr) : (retire s o m pc).dbgErr = s.dbgErr := rfl
@[simp] theorem retire_dbgCause (s : State) (o : Who) (m : Bool) (pc : Addr) : (retire s o m pc).dbgCause = s.dbgCause := rfl
@[simp] theorem retire_dbgBusy (s : State) (o : Who) (m : Bool) (pc : Addr) : (retire s o m pc).dbgBusy = s.dbgBusy := rfl
@[simp] theorem retire_bps (s : State) (o : Who) (m : Bool) (pc : Addr) : (retire s o m pc).bps = s.bps := rfl
@[simp] theorem retire_xlateOps (s : State) (o : Who) (m : Bool) (pc : Addr) : (retire s o m pc).xlateOps = s.xlateOps := rfl
@[simp] theorem retire_cap (s : State) (o : Who) (m : Bool) (pc : Addr) : (retire s o m pc).cap = s.cap := rfl
@[simp] theorem retire_nonce (s : State) (o : Who) (m : Bool) (pc : Addr) : (retire s o m pc).nonce = s.nonce := rfl
@[simp] theorem retire_report (s : State) (o : Who) (m : Bool) (pc : Addr) : (retire s o m pc).report = s.report := rfl
@[simp] theorem retire_attBusy (s : State) (o : Who) (m : Bool) (pc : Addr) : (retire s o m pc).attBusy = s.attBusy := rfl
@[simp] theorem retire_routes (s : State) (o : Who) (m : Bool) (pc : Addr) : (retire s o m pc).routes = s.routes := rfl
@[simp] theorem retire_links (s : State) (o : Who) (m : Bool) (pc : Addr) : (retire s o m pc).links = s.links := rfl
@[simp] theorem retire_clock (s : State) (o : Who) (m : Bool) (pc : Addr) : (retire s o m pc).clock = s.clock := rfl
@[simp] theorem retire_booted (s : State) (o : Who) (m : Bool) (pc : Addr) : (retire s o m pc).booted = s.booted := rfl
@[simp] theorem retire_left (s : State) (o : Who) (m : Bool) (pc : Addr) : (retire s o m pc).left = s.left := rfl
@[simp] theorem retire_outbox (s : State) (o : Who) (m : Bool) (pc : Addr) : (retire s o m pc).outbox = s.outbox := rfl
@[simp] theorem retire_msix (s : State) (o : Who) (m : Bool) (pc : Addr) : (retire s o m pc).msix = s.msix := rfl
@[simp] theorem retire_hostRead (s : State) (o : Who) (m : Bool) (pc : Addr) : (retire s o m pc).hostRead = s.hostRead := rfl

@[simp] theorem progress_cur (s : State) (o : Who) : (progress s o).cur = s.cur := rfl
@[simp] theorem progress_turns (s : State) (o : Who) : (progress s o).turns = s.turns := rfl
@[simp] theorem progress_free (s : State) (o : Who) : (progress s o).free = s.free := rfl
@[simp] theorem progress_inject (s : State) (o : Who) : (progress s o).inject = s.inject := rfl
@[simp] theorem progress_injectNo (s : State) (o : Who) : (progress s o).injectNo = s.injectNo := rfl
@[simp] theorem progress_cycle (s : State) (o : Who) : (progress s o).cycle = s.cycle := rfl
@[simp] theorem progress_ctxs (s : State) (o : Who) : (progress s o).ctxs = s.ctxs := rfl
@[simp] theorem progress_mem (s : State) (o : Who) : (progress s o).mem = s.mem := rfl
@[simp] theorem progress_hostMem (s : State) (o : Who) : (progress s o).hostMem = s.hostMem := rfl
@[simp] theorem progress_peerMem (s : State) (o : Who) : (progress s o).peerMem = s.peerMem := rfl
@[simp] theorem progress_checks (s : State) (o : Who) : (progress s o).checks = s.checks := rfl
@[simp] theorem progress_coreChecks (s : State) (o : Who) : (progress s o).coreChecks = s.coreChecks := rfl
@[simp] theorem progress_icache (s : State) (o : Who) : (progress s o).icache = s.icache := rfl
@[simp] theorem progress_tlb2 (s : State) (o : Who) : (progress s o).tlb2 = s.tlb2 := rfl
@[simp] theorem progress_l2 (s : State) (o : Who) : (progress s o).l2 = s.l2 := rfl
@[simp] theorem progress_pend (s : State) (o : Who) : (progress s o).pend = s.pend := rfl
@[simp] theorem progress_ponds (s : State) (o : Who) : (progress s o).ponds = s.ponds := rfl
@[simp] theorem progress_deferred (s : State) (o : Who) : (progress s o).deferred = s.deferred := rfl
@[simp] theorem progress_nextId (s : State) (o : Who) : (progress s o).nextId = s.nextId := rfl
@[simp] theorem progress_saved (s : State) (o : Who) : (progress s o).saved = s.saved := rfl
@[simp] theorem progress_finals (s : State) (o : Who) : (progress s o).finals = s.finals := rfl
@[simp] theorem progress_stealClock (s : State) (o : Who) : (progress s o).stealClock = s.stealClock := rfl
@[simp] theorem progress_steals (s : State) (o : Who) : (progress s o).steals = s.steals := rfl
@[simp] theorem progress_pf (s : State) (o : Who) : (progress s o).pf = s.pf := rfl
@[simp] theorem progress_pfNo (s : State) (o : Who) : (progress s o).pfNo = s.pfNo := rfl
@[simp] theorem progress_pgx (s : State) (o : Who) : (progress s o).pgx = s.pgx := rfl
@[simp] theorem progress_shoot (s : State) (o : Who) : (progress s o).shoot = s.shoot := rfl
@[simp] theorem progress_shootOp (s : State) (o : Who) : (progress s o).shootOp = s.shootOp := rfl
@[simp] theorem progress_pgpool (s : State) (o : Who) : (progress s o).pgpool = s.pgpool := rfl
@[simp] theorem progress_bfloorCtx (s : State) (o : Who) : (progress s o).bfloorCtx = s.bfloorCtx := rfl
@[simp] theorem progress_bfloorOps (s : State) (o : Who) : (progress s o).bfloorOps = s.bfloorOps := rfl
@[simp] theorem progress_dsplit (s : State) (o : Who) : (progress s o).dsplit = s.dsplit := rfl
@[simp] theorem progress_mcload (s : State) (o : Who) : (progress s o).mcload = s.mcload := rfl
@[simp] theorem progress_patch (s : State) (o : Who) : (progress s o).patch = s.patch := rfl
@[simp] theorem progress_micro (s : State) (o : Who) : (progress s o).micro = s.micro := rfl
@[simp] theorem progress_secver (s : State) (o : Who) : (progress s o).secver = s.secver := rfl
@[simp] theorem progress_eltb (s : State) (o : Who) : (progress s o).eltb = s.eltb := rfl
@[simp] theorem progress_chip (s : State) (o : Who) : (progress s o).chip = s.chip := rfl
@[simp] theorem progress_ctxsel (s : State) (o : Who) : (progress s o).ctxsel = s.ctxsel := rfl
@[simp] theorem progress_ctxselW (s : State) (o : Who) : (progress s o).ctxselW = s.ctxselW := rfl
@[simp] theorem progress_dbgsel (s : State) (o : Who) : (progress s o).dbgsel = s.dbgsel := rfl
@[simp] theorem progress_dbgselW (s : State) (o : Who) : (progress s o).dbgselW = s.dbgselW := rfl
@[simp] theorem progress_dbgreg (s : State) (o : Who) : (progress s o).dbgreg = s.dbgreg := rfl
@[simp] theorem progress_dbgdata (s : State) (o : Who) : (progress s o).dbgdata = s.dbgdata := rfl
@[simp] theorem progress_dbgErr (s : State) (o : Who) : (progress s o).dbgErr = s.dbgErr := rfl
@[simp] theorem progress_dbgCause (s : State) (o : Who) : (progress s o).dbgCause = s.dbgCause := rfl
@[simp] theorem progress_dbgBusy (s : State) (o : Who) : (progress s o).dbgBusy = s.dbgBusy := rfl
@[simp] theorem progress_bps (s : State) (o : Who) : (progress s o).bps = s.bps := rfl
@[simp] theorem progress_xlateOps (s : State) (o : Who) : (progress s o).xlateOps = s.xlateOps := rfl
@[simp] theorem progress_cap (s : State) (o : Who) : (progress s o).cap = s.cap := rfl
@[simp] theorem progress_nonce (s : State) (o : Who) : (progress s o).nonce = s.nonce := rfl
@[simp] theorem progress_report (s : State) (o : Who) : (progress s o).report = s.report := rfl
@[simp] theorem progress_attBusy (s : State) (o : Who) : (progress s o).attBusy = s.attBusy := rfl
@[simp] theorem progress_routes (s : State) (o : Who) : (progress s o).routes = s.routes := rfl
@[simp] theorem progress_links (s : State) (o : Who) : (progress s o).links = s.links := rfl
@[simp] theorem progress_clock (s : State) (o : Who) : (progress s o).clock = s.clock := rfl
@[simp] theorem progress_booted (s : State) (o : Who) : (progress s o).booted = s.booted := rfl
@[simp] theorem progress_left (s : State) (o : Who) : (progress s o).left = s.left := rfl
@[simp] theorem progress_outbox (s : State) (o : Who) : (progress s o).outbox = s.outbox := rfl
@[simp] theorem progress_msix (s : State) (o : Who) : (progress s o).msix = s.msix := rfl
@[simp] theorem progress_hostRead (s : State) (o : Who) : (progress s o).hostRead = s.hostRead := rfl

@[simp] theorem settle_cur (s : State) (o : Who) : (settle s o).cur = s.cur := rfl
@[simp] theorem settle_turns (s : State) (o : Who) : (settle s o).turns = s.turns := rfl
@[simp] theorem settle_free (s : State) (o : Who) : (settle s o).free = s.free := rfl
@[simp] theorem settle_inject (s : State) (o : Who) : (settle s o).inject = s.inject := rfl
@[simp] theorem settle_injectNo (s : State) (o : Who) : (settle s o).injectNo = s.injectNo := rfl
@[simp] theorem settle_cycle (s : State) (o : Who) : (settle s o).cycle = s.cycle := rfl
@[simp] theorem settle_ctxs (s : State) (o : Who) : (settle s o).ctxs = s.ctxs := rfl
@[simp] theorem settle_mem (s : State) (o : Who) : (settle s o).mem = s.mem := rfl
@[simp] theorem settle_hostMem (s : State) (o : Who) : (settle s o).hostMem = s.hostMem := rfl
@[simp] theorem settle_peerMem (s : State) (o : Who) : (settle s o).peerMem = s.peerMem := rfl
@[simp] theorem settle_checks (s : State) (o : Who) : (settle s o).checks = s.checks := rfl
@[simp] theorem settle_coreChecks (s : State) (o : Who) : (settle s o).coreChecks = s.coreChecks := rfl
@[simp] theorem settle_icache (s : State) (o : Who) : (settle s o).icache = s.icache := rfl
@[simp] theorem settle_tlb2 (s : State) (o : Who) : (settle s o).tlb2 = s.tlb2 := rfl
@[simp] theorem settle_l2 (s : State) (o : Who) : (settle s o).l2 = s.l2 := rfl
@[simp] theorem settle_pend (s : State) (o : Who) : (settle s o).pend = s.pend := rfl
@[simp] theorem settle_ponds (s : State) (o : Who) : (settle s o).ponds = s.ponds := rfl
@[simp] theorem settle_deferred (s : State) (o : Who) : (settle s o).deferred = s.deferred := rfl
@[simp] theorem settle_nextId (s : State) (o : Who) : (settle s o).nextId = s.nextId := rfl
@[simp] theorem settle_saved (s : State) (o : Who) : (settle s o).saved = s.saved := rfl
@[simp] theorem settle_finals (s : State) (o : Who) : (settle s o).finals = s.finals := rfl
@[simp] theorem settle_stealClock (s : State) (o : Who) : (settle s o).stealClock = s.stealClock := rfl
@[simp] theorem settle_steals (s : State) (o : Who) : (settle s o).steals = s.steals := rfl
@[simp] theorem settle_pf (s : State) (o : Who) : (settle s o).pf = s.pf := rfl
@[simp] theorem settle_pfNo (s : State) (o : Who) : (settle s o).pfNo = s.pfNo := rfl
@[simp] theorem settle_pgx (s : State) (o : Who) : (settle s o).pgx = s.pgx := rfl
@[simp] theorem settle_shoot (s : State) (o : Who) : (settle s o).shoot = s.shoot := rfl
@[simp] theorem settle_shootOp (s : State) (o : Who) : (settle s o).shootOp = s.shootOp := rfl
@[simp] theorem settle_pgpool (s : State) (o : Who) : (settle s o).pgpool = s.pgpool := rfl
@[simp] theorem settle_bfloorCtx (s : State) (o : Who) : (settle s o).bfloorCtx = s.bfloorCtx := rfl
@[simp] theorem settle_bfloorOps (s : State) (o : Who) : (settle s o).bfloorOps = s.bfloorOps := rfl
@[simp] theorem settle_dsplit (s : State) (o : Who) : (settle s o).dsplit = s.dsplit := rfl
@[simp] theorem settle_mcload (s : State) (o : Who) : (settle s o).mcload = s.mcload := rfl
@[simp] theorem settle_patch (s : State) (o : Who) : (settle s o).patch = s.patch := rfl
@[simp] theorem settle_micro (s : State) (o : Who) : (settle s o).micro = s.micro := rfl
@[simp] theorem settle_secver (s : State) (o : Who) : (settle s o).secver = s.secver := rfl
@[simp] theorem settle_eltb (s : State) (o : Who) : (settle s o).eltb = s.eltb := rfl
@[simp] theorem settle_chip (s : State) (o : Who) : (settle s o).chip = s.chip := rfl
@[simp] theorem settle_ctxsel (s : State) (o : Who) : (settle s o).ctxsel = s.ctxsel := rfl
@[simp] theorem settle_ctxselW (s : State) (o : Who) : (settle s o).ctxselW = s.ctxselW := rfl
@[simp] theorem settle_dbgsel (s : State) (o : Who) : (settle s o).dbgsel = s.dbgsel := rfl
@[simp] theorem settle_dbgselW (s : State) (o : Who) : (settle s o).dbgselW = s.dbgselW := rfl
@[simp] theorem settle_dbgreg (s : State) (o : Who) : (settle s o).dbgreg = s.dbgreg := rfl
@[simp] theorem settle_dbgdata (s : State) (o : Who) : (settle s o).dbgdata = s.dbgdata := rfl
@[simp] theorem settle_dbgErr (s : State) (o : Who) : (settle s o).dbgErr = s.dbgErr := rfl
@[simp] theorem settle_dbgCause (s : State) (o : Who) : (settle s o).dbgCause = s.dbgCause := rfl
@[simp] theorem settle_dbgBusy (s : State) (o : Who) : (settle s o).dbgBusy = s.dbgBusy := rfl
@[simp] theorem settle_bps (s : State) (o : Who) : (settle s o).bps = s.bps := rfl
@[simp] theorem settle_xlateOps (s : State) (o : Who) : (settle s o).xlateOps = s.xlateOps := rfl
@[simp] theorem settle_cap (s : State) (o : Who) : (settle s o).cap = s.cap := rfl
@[simp] theorem settle_nonce (s : State) (o : Who) : (settle s o).nonce = s.nonce := rfl
@[simp] theorem settle_report (s : State) (o : Who) : (settle s o).report = s.report := rfl
@[simp] theorem settle_attBusy (s : State) (o : Who) : (settle s o).attBusy = s.attBusy := rfl
@[simp] theorem settle_routes (s : State) (o : Who) : (settle s o).routes = s.routes := rfl
@[simp] theorem settle_links (s : State) (o : Who) : (settle s o).links = s.links := rfl
@[simp] theorem settle_clock (s : State) (o : Who) : (settle s o).clock = s.clock := rfl
@[simp] theorem settle_booted (s : State) (o : Who) : (settle s o).booted = s.booted := rfl
@[simp] theorem settle_left (s : State) (o : Who) : (settle s o).left = s.left := rfl
@[simp] theorem settle_outbox (s : State) (o : Who) : (settle s o).outbox = s.outbox := rfl
@[simp] theorem settle_msix (s : State) (o : Who) : (settle s o).msix = s.msix := rfl
@[simp] theorem settle_hostRead (s : State) (o : Who) : (settle s o).hostRead = s.hostRead := rfl

@[simp] theorem ringEnd_cur (s : State) (o : Who) : (ringEnd s o).cur = s.cur := rfl
@[simp] theorem ringEnd_turns (s : State) (o : Who) : (ringEnd s o).turns = s.turns := rfl
@[simp] theorem ringEnd_free (s : State) (o : Who) : (ringEnd s o).free = s.free := rfl
@[simp] theorem ringEnd_inject (s : State) (o : Who) : (ringEnd s o).inject = s.inject := rfl
@[simp] theorem ringEnd_injectNo (s : State) (o : Who) : (ringEnd s o).injectNo = s.injectNo := rfl
@[simp] theorem ringEnd_cycle (s : State) (o : Who) : (ringEnd s o).cycle = s.cycle := rfl
@[simp] theorem ringEnd_ctxs (s : State) (o : Who) : (ringEnd s o).ctxs = s.ctxs := rfl
@[simp] theorem ringEnd_mem (s : State) (o : Who) : (ringEnd s o).mem = s.mem := rfl
@[simp] theorem ringEnd_hostMem (s : State) (o : Who) : (ringEnd s o).hostMem = s.hostMem := rfl
@[simp] theorem ringEnd_peerMem (s : State) (o : Who) : (ringEnd s o).peerMem = s.peerMem := rfl
@[simp] theorem ringEnd_checks (s : State) (o : Who) : (ringEnd s o).checks = s.checks := rfl
@[simp] theorem ringEnd_coreChecks (s : State) (o : Who) : (ringEnd s o).coreChecks = s.coreChecks := rfl
@[simp] theorem ringEnd_icache (s : State) (o : Who) : (ringEnd s o).icache = s.icache := rfl
@[simp] theorem ringEnd_tlb2 (s : State) (o : Who) : (ringEnd s o).tlb2 = s.tlb2 := rfl
@[simp] theorem ringEnd_l2 (s : State) (o : Who) : (ringEnd s o).l2 = s.l2 := rfl
@[simp] theorem ringEnd_pend (s : State) (o : Who) : (ringEnd s o).pend = s.pend := rfl
@[simp] theorem ringEnd_ponds (s : State) (o : Who) : (ringEnd s o).ponds = s.ponds := rfl
@[simp] theorem ringEnd_deferred (s : State) (o : Who) : (ringEnd s o).deferred = s.deferred := rfl
@[simp] theorem ringEnd_nextId (s : State) (o : Who) : (ringEnd s o).nextId = s.nextId := rfl
@[simp] theorem ringEnd_saved (s : State) (o : Who) : (ringEnd s o).saved = s.saved := rfl
@[simp] theorem ringEnd_finals (s : State) (o : Who) : (ringEnd s o).finals = s.finals := rfl
@[simp] theorem ringEnd_stealClock (s : State) (o : Who) : (ringEnd s o).stealClock = s.stealClock := rfl
@[simp] theorem ringEnd_steals (s : State) (o : Who) : (ringEnd s o).steals = s.steals := rfl
@[simp] theorem ringEnd_pf (s : State) (o : Who) : (ringEnd s o).pf = s.pf := rfl
@[simp] theorem ringEnd_pfNo (s : State) (o : Who) : (ringEnd s o).pfNo = s.pfNo := rfl
@[simp] theorem ringEnd_pgx (s : State) (o : Who) : (ringEnd s o).pgx = s.pgx := rfl
@[simp] theorem ringEnd_shoot (s : State) (o : Who) : (ringEnd s o).shoot = s.shoot := rfl
@[simp] theorem ringEnd_shootOp (s : State) (o : Who) : (ringEnd s o).shootOp = s.shootOp := rfl
@[simp] theorem ringEnd_pgpool (s : State) (o : Who) : (ringEnd s o).pgpool = s.pgpool := rfl
@[simp] theorem ringEnd_bfloorCtx (s : State) (o : Who) : (ringEnd s o).bfloorCtx = s.bfloorCtx := rfl
@[simp] theorem ringEnd_bfloorOps (s : State) (o : Who) : (ringEnd s o).bfloorOps = s.bfloorOps := rfl
@[simp] theorem ringEnd_dsplit (s : State) (o : Who) : (ringEnd s o).dsplit = s.dsplit := rfl
@[simp] theorem ringEnd_mcload (s : State) (o : Who) : (ringEnd s o).mcload = s.mcload := rfl
@[simp] theorem ringEnd_patch (s : State) (o : Who) : (ringEnd s o).patch = s.patch := rfl
@[simp] theorem ringEnd_micro (s : State) (o : Who) : (ringEnd s o).micro = s.micro := rfl
@[simp] theorem ringEnd_secver (s : State) (o : Who) : (ringEnd s o).secver = s.secver := rfl
@[simp] theorem ringEnd_eltb (s : State) (o : Who) : (ringEnd s o).eltb = s.eltb := rfl
@[simp] theorem ringEnd_chip (s : State) (o : Who) : (ringEnd s o).chip = s.chip := rfl
@[simp] theorem ringEnd_ctxsel (s : State) (o : Who) : (ringEnd s o).ctxsel = s.ctxsel := rfl
@[simp] theorem ringEnd_ctxselW (s : State) (o : Who) : (ringEnd s o).ctxselW = s.ctxselW := rfl
@[simp] theorem ringEnd_dbgsel (s : State) (o : Who) : (ringEnd s o).dbgsel = s.dbgsel := rfl
@[simp] theorem ringEnd_dbgselW (s : State) (o : Who) : (ringEnd s o).dbgselW = s.dbgselW := rfl
@[simp] theorem ringEnd_dbgreg (s : State) (o : Who) : (ringEnd s o).dbgreg = s.dbgreg := rfl
@[simp] theorem ringEnd_dbgdata (s : State) (o : Who) : (ringEnd s o).dbgdata = s.dbgdata := rfl
@[simp] theorem ringEnd_dbgErr (s : State) (o : Who) : (ringEnd s o).dbgErr = s.dbgErr := rfl
@[simp] theorem ringEnd_dbgCause (s : State) (o : Who) : (ringEnd s o).dbgCause = s.dbgCause := rfl
@[simp] theorem ringEnd_dbgBusy (s : State) (o : Who) : (ringEnd s o).dbgBusy = s.dbgBusy := rfl
@[simp] theorem ringEnd_bps (s : State) (o : Who) : (ringEnd s o).bps = s.bps := rfl
@[simp] theorem ringEnd_xlateOps (s : State) (o : Who) : (ringEnd s o).xlateOps = s.xlateOps := rfl
@[simp] theorem ringEnd_cap (s : State) (o : Who) : (ringEnd s o).cap = s.cap := rfl
@[simp] theorem ringEnd_nonce (s : State) (o : Who) : (ringEnd s o).nonce = s.nonce := rfl
@[simp] theorem ringEnd_report (s : State) (o : Who) : (ringEnd s o).report = s.report := rfl
@[simp] theorem ringEnd_attBusy (s : State) (o : Who) : (ringEnd s o).attBusy = s.attBusy := rfl
@[simp] theorem ringEnd_routes (s : State) (o : Who) : (ringEnd s o).routes = s.routes := rfl
@[simp] theorem ringEnd_links (s : State) (o : Who) : (ringEnd s o).links = s.links := rfl
@[simp] theorem ringEnd_clock (s : State) (o : Who) : (ringEnd s o).clock = s.clock := rfl
@[simp] theorem ringEnd_booted (s : State) (o : Who) : (ringEnd s o).booted = s.booted := rfl
@[simp] theorem ringEnd_left (s : State) (o : Who) : (ringEnd s o).left = s.left := rfl
@[simp] theorem ringEnd_outbox (s : State) (o : Who) : (ringEnd s o).outbox = s.outbox := rfl
@[simp] theorem ringEnd_msix (s : State) (o : Who) : (ringEnd s o).msix = s.msix := rfl
@[simp] theorem ringEnd_hostRead (s : State) (o : Who) : (ringEnd s o).hostRead = s.hostRead := rfl

@[simp] theorem bump_cur (s : State) : (bump s).cur = s.cur := rfl
@[simp] theorem bump_turns (s : State) : (bump s).turns = s.turns := rfl
@[simp] theorem bump_inject (s : State) : (bump s).inject = s.inject := rfl
@[simp] theorem bump_injectNo (s : State) : (bump s).injectNo = s.injectNo := rfl
@[simp] theorem bump_cycle (s : State) : (bump s).cycle = s.cycle := rfl
@[simp] theorem bump_cores (s : State) : (bump s).cores = s.cores := rfl
@[simp] theorem bump_ctxs (s : State) : (bump s).ctxs = s.ctxs := rfl
@[simp] theorem bump_mem (s : State) : (bump s).mem = s.mem := rfl
@[simp] theorem bump_hostMem (s : State) : (bump s).hostMem = s.hostMem := rfl
@[simp] theorem bump_peerMem (s : State) : (bump s).peerMem = s.peerMem := rfl
@[simp] theorem bump_checks (s : State) : (bump s).checks = s.checks := rfl
@[simp] theorem bump_coreChecks (s : State) : (bump s).coreChecks = s.coreChecks := rfl
@[simp] theorem bump_icache (s : State) : (bump s).icache = s.icache := rfl
@[simp] theorem bump_tlb2 (s : State) : (bump s).tlb2 = s.tlb2 := rfl
@[simp] theorem bump_l2 (s : State) : (bump s).l2 = s.l2 := rfl
@[simp] theorem bump_pend (s : State) : (bump s).pend = s.pend := rfl
@[simp] theorem bump_ponds (s : State) : (bump s).ponds = s.ponds := rfl
@[simp] theorem bump_deferred (s : State) : (bump s).deferred = s.deferred := rfl
@[simp] theorem bump_nextId (s : State) : (bump s).nextId = s.nextId := rfl
@[simp] theorem bump_saved (s : State) : (bump s).saved = s.saved := rfl
@[simp] theorem bump_finals (s : State) : (bump s).finals = s.finals := rfl
@[simp] theorem bump_stealClock (s : State) : (bump s).stealClock = s.stealClock := rfl
@[simp] theorem bump_steals (s : State) : (bump s).steals = s.steals := rfl
@[simp] theorem bump_pf (s : State) : (bump s).pf = s.pf := rfl
@[simp] theorem bump_pfNo (s : State) : (bump s).pfNo = s.pfNo := rfl
@[simp] theorem bump_pgx (s : State) : (bump s).pgx = s.pgx := rfl
@[simp] theorem bump_shoot (s : State) : (bump s).shoot = s.shoot := rfl
@[simp] theorem bump_shootOp (s : State) : (bump s).shootOp = s.shootOp := rfl
@[simp] theorem bump_pgpool (s : State) : (bump s).pgpool = s.pgpool := rfl
@[simp] theorem bump_bfloorCtx (s : State) : (bump s).bfloorCtx = s.bfloorCtx := rfl
@[simp] theorem bump_bfloorOps (s : State) : (bump s).bfloorOps = s.bfloorOps := rfl
@[simp] theorem bump_dsplit (s : State) : (bump s).dsplit = s.dsplit := rfl
@[simp] theorem bump_mcload (s : State) : (bump s).mcload = s.mcload := rfl
@[simp] theorem bump_patch (s : State) : (bump s).patch = s.patch := rfl
@[simp] theorem bump_micro (s : State) : (bump s).micro = s.micro := rfl
@[simp] theorem bump_secver (s : State) : (bump s).secver = s.secver := rfl
@[simp] theorem bump_eltb (s : State) : (bump s).eltb = s.eltb := rfl
@[simp] theorem bump_chip (s : State) : (bump s).chip = s.chip := rfl
@[simp] theorem bump_ctxsel (s : State) : (bump s).ctxsel = s.ctxsel := rfl
@[simp] theorem bump_ctxselW (s : State) : (bump s).ctxselW = s.ctxselW := rfl
@[simp] theorem bump_dbgsel (s : State) : (bump s).dbgsel = s.dbgsel := rfl
@[simp] theorem bump_dbgselW (s : State) : (bump s).dbgselW = s.dbgselW := rfl
@[simp] theorem bump_dbgreg (s : State) : (bump s).dbgreg = s.dbgreg := rfl
@[simp] theorem bump_dbgdata (s : State) : (bump s).dbgdata = s.dbgdata := rfl
@[simp] theorem bump_dbgErr (s : State) : (bump s).dbgErr = s.dbgErr := rfl
@[simp] theorem bump_dbgCause (s : State) : (bump s).dbgCause = s.dbgCause := rfl
@[simp] theorem bump_dbgBusy (s : State) : (bump s).dbgBusy = s.dbgBusy := rfl
@[simp] theorem bump_bps (s : State) : (bump s).bps = s.bps := rfl
@[simp] theorem bump_xlateOps (s : State) : (bump s).xlateOps = s.xlateOps := rfl
@[simp] theorem bump_cap (s : State) : (bump s).cap = s.cap := rfl
@[simp] theorem bump_nonce (s : State) : (bump s).nonce = s.nonce := rfl
@[simp] theorem bump_report (s : State) : (bump s).report = s.report := rfl
@[simp] theorem bump_attBusy (s : State) : (bump s).attBusy = s.attBusy := rfl
@[simp] theorem bump_routes (s : State) : (bump s).routes = s.routes := rfl
@[simp] theorem bump_links (s : State) : (bump s).links = s.links := rfl
@[simp] theorem bump_clock (s : State) : (bump s).clock = s.clock := rfl
@[simp] theorem bump_booted (s : State) : (bump s).booted = s.booted := rfl
@[simp] theorem bump_left (s : State) : (bump s).left = s.left := rfl
@[simp] theorem bump_outbox (s : State) : (bump s).outbox = s.outbox := rfl
@[simp] theorem bump_msix (s : State) : (bump s).msix = s.msix := rfl
@[simp] theorem bump_hostRead (s : State) : (bump s).hostRead = s.hostRead := rfl

@[simp] theorem putWg_split (c : Core) (k : Nat) (w : Option Wg) : (putWg c k w).split = c.split := rfl
@[simp] theorem putWg_ring (c : Core) (k : Nat) (w : Option Wg) : (putWg c k w).ring = c.ring := rfl
@[simp] theorem putWg_shadow (c : Core) (k : Nat) (w : Option Wg) : (putWg c k w).shadow = c.shadow := rfl
@[simp] theorem putWg_l1 (c : Core) (k : Nat) (w : Option Wg) : (putWg c k w).l1 = c.l1 := rfl
@[simp] theorem putWg_tlb (c : Core) (k : Nat) (w : Option Wg) : (putWg c k w).tlb = c.tlb := rfl
@[simp] theorem putWg_ops (c : Core) (k : Nat) (w : Option Wg) : (putWg c k w).ops = c.ops := rfl
@[simp] theorem putWg_waiting (c : Core) (k : Nat) (w : Option Wg) : (putWg c k w).waiting = c.waiting := rfl
@[simp] theorem putWg_sb (c : Core) (k : Nat) (w : Option Wg) : (putWg c k w).sb = c.sb := rfl
@[simp] theorem putWg_acc (c : Core) (k : Nat) (w : Option Wg) : (putWg c k w).acc = c.acc := rfl
@[simp] theorem putWg_accOld (c : Core) (k : Nat) (w : Option Wg) : (putWg c k w).accOld = c.accOld := rfl
@[simp] theorem putWg_weights (c : Core) (k : Nat) (w : Option Wg) : (putWg c k w).weights = c.weights := rfl
@[simp] theorem putWg_banks (c : Core) (k : Nat) (w : Option Wg) : (putWg c k w).banks = c.banks := rfl
@[simp] theorem putWg_floor (c : Core) (k : Nat) (w : Option Wg) : (putWg c k w).floor = c.floor := rfl
@[simp] theorem putWg_grad (c : Core) (k : Nat) (w : Option Wg) : (putWg c k w).grad = c.grad := rfl
@[simp] theorem putWg_baton (c : Core) (k : Nat) (w : Option Wg) : (putWg c k w).baton = c.baton := rfl
@[simp] theorem putWg_batonCtx (c : Core) (k : Nat) (w : Option Wg) : (putWg c k w).batonCtx = c.batonCtx := rfl
@[simp] theorem putWg_waiters (c : Core) (k : Nat) (w : Option Wg) : (putWg c k w).waiters = c.waiters := rfl
@[simp] theorem putWg_localQ (c : Core) (k : Nat) (w : Option Wg) : (putWg c k w).localQ = c.localQ := rfl
@[simp] theorem putWg_demotes (c : Core) (k : Nat) (w : Option Wg) : (putWg c k w).demotes = c.demotes := rfl
@[simp] theorem putWg_bankReq (c : Core) (k : Nat) (w : Option Wg) : (putWg c k w).bankReq = c.bankReq := rfl
@[simp] theorem putWg_halting (c : Core) (k : Nat) (w : Option Wg) : (putWg c k w).halting = c.halting := rfl
@[simp] theorem putWg_halted (c : Core) (k : Nat) (w : Option Wg) : (putWg c k w).halted = c.halted := rfl
@[simp] theorem putWg_attach (c : Core) (k : Nat) (w : Option Wg) : (putWg c k w).attach = c.attach := rfl

end Sys2Proof.Laws
end

