-- ==== Sys2Proof/Laws/Tables.lean ====
section
/-! SUPPORT. Tables by number and memories: what an entry reads as after a change, and that memories keep their canonical form. -/

namespace Sys2Proof.Laws

open Sys2Proof.Machine

/-! ### Tables -/

@[simp] theorem tget_tput_same {α : Type} (t : Table α) (k : Nat) (v : α) : tget? (tput t k v) k = some v := by
  induction t with
  | nil => simp [tput, tget?]
  | cons e t ih =>
    obtain ⟨k', v'⟩ := e
    simp only [tput]
    split
    · simp [tget?]
    · split
      · simp [tget?]
      · simp [tget?, *]

theorem tget_tput_other {α : Type} (t : Table α) (k k' : Nat) (v : α) (h : k ≠ k') : tget? (tput t k v) k' = tget? t k' := by
  induction t with
  | nil => simp [tput, tget?, h]
  | cons e t ih =>
    obtain ⟨a, b⟩ := e
    simp only [tput]
    split
    · next e => subst e; simp [tget?, h]
    · split
      · simp [tget?, h]
      · simp only [tget?, ih]

@[simp] theorem tgetD_tput_same {α : Type} (d : α) (t : Table α) (k : Nat) (v : α) : tgetD d (tput t k v) k = v := by
  simp [tgetD]

theorem tgetD_tput_other {α : Type} (d : α) (t : Table α) (k k' : Nat) (v : α) (h : k ≠ k') :
    tgetD d (tput t k v) k' = tgetD d t k' := by
  simp [tgetD, tget_tput_other t k k' v h]

theorem tget_tdel_other {α : Type} (t : Table α) (k k' : Nat) (h : k ≠ k') : tget? (tdel t k) k' = tget? t k' := by
  induction t with
  | nil => rfl
  | cons e t ih =>
    obtain ⟨a, b⟩ := e
    unfold tdel at ih ⊢
    simp only [List.filter_cons]
    by_cases ha : a = k
    · subst ha
      simp [tget?, h, ih]
    · simp [ha, tget?, ih]

@[simp] theorem tget_tdel_same {α : Type} (t : Table α) (k : Nat) : tget? (tdel t k) k = none := by
  induction t with
  | nil => rfl
  | cons e t ih =>
    obtain ⟨a, b⟩ := e
    unfold tdel at ih ⊢
    simp only [List.filter_cons]
    by_cases ha : a = k
    · simp [ha, ih]
    · simp [ha, tget?, ih]

/-! ### Rising keys -/

theorem rising_tail {α : Type} {e : Nat × α} {t : Table α} (h : rising (e :: t) = true) : rising t = true := by
  cases t with
  | nil => rfl
  | cons e' t =>
    obtain ⟨k, v⟩ := e
    obtain ⟨k', v'⟩ := e'
    simp only [rising, Bool.and_eq_true] at h
    exact h.2

/-- Every key of a rising table after its first is larger. -/
theorem rising_lt {α : Type} {k : Nat} {v : α} {t : Table α} (h : rising ((k, v) :: t) = true) : ∀ e ∈ t, k < e.1 := by
  induction t generalizing k v with
  | nil => simp
  | cons e' t ih =>
    obtain ⟨k', v'⟩ := e'
    simp only [rising, Bool.and_eq_true, decide_eq_true_eq] at h
    intro e he
    rcases List.mem_cons.mp he with rfl | he
    · exact h.1
    · exact Nat.lt_trans h.1 (ih h.2 e he)

theorem rising_cons {α : Type} {k : Nat} {v : α} {t : Table α} (ht : rising t = true) (h : ∀ e ∈ t, k < e.1) :
    rising ((k, v) :: t) = true := by
  cases t with
  | nil => rfl
  | cons e' t =>
    obtain ⟨k', v'⟩ := e'
    simp only [rising, Bool.and_eq_true, decide_eq_true_eq]
    exact ⟨h (k', v') (by simp), ht⟩

/-- A table after a write is the new entry set among some of the old ones, in their order. -/
theorem tput_shape {α : Type} (t : Table α) (k : Nat) (v : α) :
    ∃ front back, tput t k v = front ++ (k, v) :: back ∧ (front ++ back).Sublist t := by
  fun_induction tput t k v with
  | case1 => exact ⟨[], [], rfl, .slnil⟩
  | case2 => exact ⟨[], _, rfl, List.sublist_cons_self _ _⟩
  | case3 => exact ⟨[], _, rfl, List.Sublist.refl _⟩
  | case4 =>
    rename_i ih
    obtain ⟨front, back, ht, hs⟩ := ih
    exact ⟨_ :: front, back, congrArg _ ht, hs.cons_cons _⟩

theorem mem_tput {α : Type} {t : Table α} {k : Nat} {v : α} {e : Nat × α} (h : e ∈ tput t k v) : e = (k, v) ∨ e ∈ t := by
  obtain ⟨front, back, ht, hs⟩ := tput_shape t k v
  have old : e ∈ front ++ back → e ∈ t := fun he => hs.subset he
  grind

theorem rising_tput {α : Type} {t : Table α} (k : Nat) (v : α) (h : rising t = true) : rising (tput t k v) = true := by
  induction t with
  | nil => rfl
  | cons e t ih =>
    obtain ⟨k', v'⟩ := e
    simp only [tput]
    split
    · next e => subst e; exact rising_cons (rising_tail h) (rising_lt h)
    · split
      · next hlt =>
        refine rising_cons h fun e he => ?_
        rcases List.mem_cons.mp he with rfl | he
        · exact hlt
        · exact Nat.lt_trans hlt (rising_lt h e he)
      · next hne hlt =>
        refine rising_cons (ih (rising_tail h)) fun e he => ?_
        rcases mem_tput he with rfl | he
        · omega
        · exact rising_lt h e he

theorem rising_filter {α : Type} {t : Table α} (p : Nat × α → Bool) (h : rising t = true) : rising (t.filter p) = true := by
  induction t with
  | nil => rfl
  | cons e t ih =>
    obtain ⟨k, v⟩ := e
    rw [List.filter_cons]
    split
    · exact rising_cons (ih (rising_tail h)) fun e he => rising_lt h e (List.mem_filter.mp he).1
    · exact ih (rising_tail h)

/-! ### Memories (log entry 2) -/

section
variable {d : Nat → Byte} (m : Table Byte) (a : Nat)

theorem readIn_writeIn_same (b : Byte) : readIn d (writeIn d m a b) a = b := by
  unfold readIn writeIn
  split
  · next h => simp [tgetD, h]
  · simp

theorem readIn_writeIn_other (a' : Nat) (b : Byte) (h : a ≠ a') : readIn d (writeIn d m a b) a' = readIn d m a' := by
  unfold readIn writeIn
  split
  · simp [tgetD, tget_tdel_other m a a' h]
  · exact tgetD_tput_other (d a') m a a' b h

theorem formIn_writeIn (b : Byte) (h : formIn d m = true) : formIn d (writeIn d m a b) = true := by
  simp only [formIn, Bool.and_eq_true, List.all_eq_true] at h ⊢
  unfold writeIn
  split
  · exact ⟨rising_filter _ h.1, fun e he => h.2 e (List.mem_filter.mp he).1⟩
  · next hb =>
    refine ⟨rising_tput a b h.1, fun e he => ?_⟩
    rcases mem_tput he with rfl | he
    · simpa using hb
    · exact h.2 e he

theorem formIn_writeBytesIn (bs : List Byte) (h : formIn d m = true) : formIn d (writeBytesIn d m a bs) = true := by
  induction bs generalizing m a with
  | nil => exact h
  | cons b bs ih => exact ih _ _ (formIn_writeIn m a b h)

theorem readIn_writeBytesIn_outside (a' : Nat) (bs : List Byte) (h : a' < a ∨ a + bs.length ≤ a') :
    readIn d (writeBytesIn d m a bs) a' = readIn d m a' := by
  induction bs generalizing m a with
  | nil => rfl
  | cons b bs ih =>
    simp only [List.length_cons] at h
    rw [writeBytesIn, ih _ _ (by omega), readIn_writeIn_other _ _ _ _ (by omega)]

theorem readIn_writeBytesIn_inside (i : Nat) (bs : List Byte) (h : i < bs.length) :
    readIn d (writeBytesIn d m a bs) (a + i) = bs[i] := by
  induction bs generalizing m a i with
  | nil => exact absurd h (by simp)
  | cons b bs ih =>
    rw [writeBytesIn]
    cases i with
    | zero => rw [readIn_writeBytesIn_outside _ _ _ _ (by omega)]; simp [readIn_writeIn_same]
    | succ i =>
      have := ih (writeIn d m a b) (a + 1) i (by simpa using h)
      rw [show a + (i + 1) = a + 1 + i by omega, this]
      rfl

theorem readBytesIn_writeBytesIn_same (bs : List Byte) : readBytesIn d (writeBytesIn d m a bs) a bs.length = bs := by
  induction bs generalizing m a with
  | nil => rfl
  | cons b bs ih =>
    simp only [List.length_cons, readBytesIn, writeBytesIn]
    rw [ih, readIn_writeBytesIn_outside _ _ _ _ (by omega), readIn_writeIn_same]

theorem length_readBytesIn (n : Nat) : (readBytesIn d m a n).length = n := by
  induction n generalizing a with
  | zero => rfl
  | succ n ih => simp [readBytesIn, ih]

end

/-- A byte reads as it was written, in a memory and in device memory. -/
@[simp] theorem rd_wr_same (m : Memory) (a : Nat) (b : Byte) : (m.wr a b).rd a = b := readIn_writeIn_same m a b
@[simp] theorem dev_rd_wr_same (m : DevMemory) (a : Nat) (b : Byte) : (m.wr a b).rd a = b := readIn_writeIn_same m a b

/-- A byte elsewhere reads as before. -/
theorem rd_wr_other (m : Memory) (a a' : Nat) (b : Byte) (h : a ≠ a') : (m.wr a b).rd a' = m.rd a' :=
  readIn_writeIn_other m a a' b h
theorem dev_rd_wr_other (m : DevMemory) (a a' : Nat) (b : Byte) (h : a ≠ a') : (m.wr a b).rd a' = m.rd a' :=
  readIn_writeIn_other m a a' b h

/-- Writing keeps the canonical form. -/
theorem wf_wr (m : Memory) (a : Nat) (b : Byte) (h : m.wf = true) : (m.wr a b).wf = true := formIn_writeIn m a b h
theorem dev_wf_wr (m : DevMemory) (a : Nat) (b : Byte) (h : m.wf = true) : (m.wr a b).wf = true := formIn_writeIn m a b h
theorem wf_wrN (m : Memory) (a : Nat) (bs : List Byte) (h : m.wf = true) : (m.wrN a bs).wf = true := formIn_writeBytesIn m a bs h
theorem dev_wf_wrN (m : DevMemory) (a : Nat) (bs : List Byte) (h : m.wf = true) : (m.wrN a bs).wf = true :=
  formIn_writeBytesIn m a bs h

/-- A byte outside the written ones reads as before. -/
theorem rd_wrN_outside (m : Memory) (a a' : Nat) (bs : List Byte) (h : a' < a ∨ a + bs.length ≤ a') :
    (m.wrN a bs).rd a' = m.rd a' := readIn_writeBytesIn_outside m a a' bs h
theorem dev_rd_wrN_outside (m : DevMemory) (a a' : Nat) (bs : List Byte) (h : a' < a ∨ a + bs.length ≤ a') :
    (m.wrN a bs).rd a' = m.rd a' := readIn_writeBytesIn_outside m a a' bs h

/-- A written byte reads as it was written. -/
theorem rd_wrN_inside (m : Memory) (a i : Nat) (bs : List Byte) (h : i < bs.length) : (m.wrN a bs).rd (a + i) = bs[i] :=
  readIn_writeBytesIn_inside m a i bs h
theorem dev_rd_wrN_inside (m : DevMemory) (a i : Nat) (bs : List Byte) (h : i < bs.length) : (m.wrN a bs).rd (a + i) = bs[i] :=
  readIn_writeBytesIn_inside m a i bs h

/-- Bytes that are written read back. -/
theorem rdN_wrN_same (m : Memory) (a : Nat) (bs : List Byte) : (m.wrN a bs).rdN a bs.length = bs :=
  readBytesIn_writeBytesIn_same m a bs
theorem dev_rdN_wrN_same (m : DevMemory) (a : Nat) (bs : List Byte) : (m.wrN a bs).rdN a bs.length = bs :=
  readBytesIn_writeBytesIn_same m a bs

@[simp] theorem length_rdN (m : Memory) (a n : Nat) : (m.rdN a n).length = n := length_readBytesIn m a n
@[simp] theorem dev_length_rdN (m : DevMemory) (a n : Nat) : (m.rdN a n).length = n := length_readBytesIn m a n

/-! ### Zeroed device memory -/

theorem tget_filter_in {t : Table Byte} (p : Nat → Bool) (k : Nat) (h : p k = true) :
    tget? (t.filter fun e => p e.1) k = tget? t k := by
  induction t with
  | nil => rfl
  | cons e t ih =>
    obtain ⟨k', v⟩ := e
    rw [List.filter_cons]
    split
    · simp [tget?, ih]
    · next hp =>
      have : k' ≠ k := by rintro rfl; exact hp h
      simp [tget?, this, ih]

theorem tget_filter_out {t : Table Byte} (p : Nat → Bool) (k : Nat) (h : p k = false) : tget? (t.filter fun e => p e.1) k = none := by
  induction t with
  | nil => rfl
  | cons e t ih =>
    obtain ⟨k', v⟩ := e
    rw [List.filter_cons]
    split
    · next hp =>
      have : k' ≠ k := by rintro rfl; simp_all
      simp [tget?, this, ih]
    · exact ih

theorem rd_zeros (x : Nat) (l : List Nat) (m : DevMemory) :
    (l.foldl (fun m x => m.wr x 0) m).rd x = if x ∈ l then 0 else m.rd x := by
  induction l generalizing m with
  | nil => simp
  | cons y l ih =>
    rw [List.foldl_cons, ih]
    by_cases h : x = y
    · subst h; simp
    · rw [dev_rd_wr_other _ _ _ _ (Ne.symm h)]; simp [h]

/-- Zeroed bytes read as zero, and every other byte as before. -/
theorem rd_zero (m : DevMemory) (a n x : Nat) : (m.zero a n).rd x = if a ≤ x ∧ x < a + n then 0 else m.rd x := by
  unfold DevMemory.zero
  rw [rd_zeros]
  by_cases h : a ≤ x ∧ x < a + n
  · rw [if_pos h]
    split
    · rfl
    · next hn =>
      unfold DevMemory.rd readIn tgetD
      rw [tget_filter_out (fun k => !(decide (a ≤ k) && decide (k < a + n))) x (by simp [h])]
      have hx : bootTable ≤ x := by
        apply Nat.le_of_not_lt
        intro hl
        exact hn (List.mem_map.mpr ⟨x - a, by simp; omega, by omega⟩)
      simp [bootByte, unlisted, show ¬ x < bootTable by omega]
  · rw [if_neg h, if_neg]
    · unfold DevMemory.rd readIn tgetD
      rw [tget_filter_in (fun k => !(decide (a ≤ k) && decide (k < a + n))) x (by simp; omega)]
    · simp only [List.mem_map, List.mem_range, not_exists, not_and]
      omega

/-- Zeroing keeps the canonical form. -/
theorem wf_zero (m : DevMemory) (a n : Nat) (h : m.wf = true) : (m.zero a n).wf = true := by
  unfold DevMemory.zero
  generalize (List.range (min (a + n) bootTable - a)).map (a + ·) = l
  have hf : DevMemory.wf (m.filter fun e => !(decide (a ≤ e.1) && decide (e.1 < a + n))) = true := by
    simp only [DevMemory.wf, formIn, Bool.and_eq_true, List.all_eq_true] at h ⊢
    exact ⟨rising_filter _ h.1, fun e he => h.2 e (List.mem_filter.mp he).1⟩
  generalize m.filter (fun e => !(decide (a ≤ e.1) && decide (e.1 < a + n))) = m' at hf
  induction l generalizing m' with
  | nil => exact hf
  | cons y l ih => exact ih _ (dev_wf_wr _ _ _ hf)

end Sys2Proof.Laws
end

