-- ==== Sys2Proof/Laws/Parts.lean ====
section
/-! SUPPORT. Reading a part of the state after a part of it has changed: cores, workgroups, warps, streams, contexts. -/

namespace Sys2Proof.Laws

open Sys2Proof.Machine

@[simp] theorem getCore_setCore_same (s : State) (n : Nat) (c : Core) : getCore (setCore s n c) n = c := by
  simp [getCore, setCore]

theorem getCore_setCore_other (s : State) (n m : Nat) (c : Core) (h : n ≠ m) : getCore (setCore s n c) m = getCore s m :=
  tgetD_tput_other _ _ _ _ _ h

@[simp] theorem getCore_updCore_same (s : State) (n : Nat) (f : Core → Core) : getCore (updCore s n f) n = f (getCore s n) := by
  simp [updCore]

theorem getCore_updCore_other (s : State) (n m : Nat) (f : Core → Core) (h : n ≠ m) : getCore (updCore s n f) m = getCore s m := by
  simp [updCore, getCore_setCore_other _ _ _ _ h]

@[simp] theorem getWg?_setWg_same (s : State) (c k : Nat) (w : Wg) : getWg? (setWg s c k w) c k = some w := by
  simp [getWg?, setWg, putWg]

@[simp] theorem getWg_setWg_same (s : State) (c k : Nat) (w : Wg) : getWg (setWg s c k w) c k = w := by
  simp [getWg]

@[simp] theorem getWg_updWg_same (s : State) (c k : Nat) (f : Wg → Wg) : getWg (updWg s c k f) c k = f (getWg s c k) := by
  simp [updWg]

theorem getWg?_setWg_other (s : State) (c k c' k' : Nat) (w : Wg) (h : c ≠ c' ∨ k ≠ k') :
    getWg? (setWg s c k w) c' k' = getWg? s c' k' := by
  unfold getWg? setWg
  by_cases hc : c = c'
  · subst hc
    simp [putWg, tgetD_tput_other _ _ _ _ _ (h.resolve_left (by simp))]
  · rw [getCore_updCore_other _ _ _ _ hc]

@[simp] theorem getWarp_setWarp_same (s : State) (c k n : Nat) (w : Warp) : getWarp (setWarp s c k n w) c k n = w := by
  simp [getWarp, setWarp]

@[simp] theorem getWarp_updWarp_same (s : State) (c k n : Nat) (f : Warp → Warp) :
    getWarp (updWarp s c k n f) c k n = f (getWarp s c k n) := by
  simp [updWarp]

theorem getWarp_updWarp_other (s : State) (c k n c' k' n' : Nat) (f : Warp → Warp) (h : c ≠ c' ∨ k ≠ k' ∨ n ≠ n') :
    getWarp (updWarp s c k n f) c' k' n' = getWarp s c' k' n' := by
  unfold getWarp updWarp setWarp updWg
  by_cases hk : c = c' ∧ k = k'
  · obtain ⟨rfl, rfl⟩ := hk
    have hn : n ≠ n' := by rcases h with h | h | h <;> first | exact h | exact absurd rfl h
    simp [tgetD_tput_other _ _ _ _ _ hn]
  · have : c ≠ c' ∨ k ≠ k' := by
      by_cases hc : c = c'
      · exact .inr fun hk' => hk ⟨hc, hk'⟩
      · exact .inl hc
    simp only [getWg, getWg?_setWg_other _ _ _ _ _ _ this]

@[simp] theorem warpOf_updWarpOf (s : State) (o : Who) (f : Warp → Warp) : warpOf (updWarpOf s o f) o = f (warpOf s o) := by
  simp [warpOf, updWarpOf]

/-- A warp of another place is not the one that changed. -/
theorem warpOf_updWarpOf_other (s : State) (o p : Who) (f : Warp → Warp)
    (h : o.core ≠ p.core ∨ o.slot ≠ p.slot ∨ o.warp ≠ p.warp) : warpOf (updWarpOf s o f) p = warpOf s p :=
  getWarp_updWarp_other _ _ _ _ _ _ _ _ h

/-- What a workgroup holds beside its warps is not changed by a change of a warp. -/
theorem wgOf_updWarpOf (s : State) (o : Who) (f : Warp → Warp) :
    wgOf (updWarpOf s o f) o = { wgOf s o with warps := tput (wgOf s o).warps o.warp (f (warpOf s o)) } := by
  simp [wgOf, updWarpOf, updWarp, setWarp, warpOf]

@[simp] theorem streamIn_putStream_main (w : Warp) (f : Stream → Stream) : streamIn (putStream w none f) none = f w.main := rfl

@[simp] theorem streamOf_updStream_main (s : State) (o : Who) (f : Stream → Stream) (h : o.split = none) :
    streamOf (updStream s o f) o = f (streamOf s o) := by
  simp [streamOf, updStream, h]
  rfl

@[simp] theorem getCtx_updCtx_same (s : State) (c : Nat) (f : Ctx → Ctx) : getCtx (updCtx s c f) c = f (getCtx s c) := by
  simp [getCtx, updCtx]

theorem getCtx_updCtx_other (s : State) (c d : Nat) (f : Ctx → Ctx) (h : c ≠ d) : getCtx (updCtx s c f) d = getCtx s d :=
  tgetD_tput_other _ _ _ _ _ h

/-! ### Words and bytes -/

@[simp] theorem length_bytesOfNat (n v : Nat) : (bytesOfNat n v).length = n := by
  induction n generalizing v with
  | zero => rfl
  | succ n ih => simp [bytesOfNat, ih]

/-- The bytes of a value give its value back, modulo their number (R1). -/
theorem natOfBytes_bytesOfNat (n v : Nat) : natOfBytes (bytesOfNat n v) = v % 256 ^ n := by
  induction n generalizing v with
  | zero => simp [bytesOfNat, natOfBytes, Nat.mod_one]
  | succ n ih =>
    simp only [bytesOfNat, natOfBytes, ih, BitVec.toNat_ofNat]
    rw [show (2 : Nat) ^ 8 = 256 by rfl, Nat.pow_succ, Nat.mul_comm (256 ^ n) 256, Nat.mod_mul]

end Sys2Proof.Laws
end

