-- ==== Sys2Proof/Laws/Operands.lean ====
section
/-! SUPPORT. Reading a register after a register was written, the accessors of one warp, and how a word that its stream
issued completes. -/

namespace Sys2Proof.Laws

open Sys2Proof.Machine

/-! ### Changes of one warp -/

theorem tput_tput_same {α : Type} (t : Table α) (k : Nat) (v w : α) : tput (tput t k v) k w = tput t k w := by
  induction t with
  | nil => simp [tput]
  | cons e t ih =>
    obtain ⟨k', v'⟩ := e
    by_cases h : k' = k
    · subst h; simp [tput]
    · by_cases h2 : k < k'
      · simp [tput, h, h2]
      · simp [tput, h, h2, ih]

theorem setWarp_setWarp (s : State) (c k n : Nat) (w w' : Warp) : setWarp (setWarp s c k n w) c k n w' = setWarp s c k n w' := by
  simp [setWarp, updWg, setWg, updCore, setCore, getCore, putWg, getWg, getWg?, tput_tput_same]

/-- Two changes of one warp are one. -/
theorem updWarpOf_updWarpOf (s : State) (o : Who) (f g : Warp → Warp) :
    updWarpOf (updWarpOf s o f) o g = updWarpOf s o fun w => g (f w) := by
  simp [updWarpOf, updWarp, setWarp_setWarp]

theorem updWarpOf_congr (s : State) (o : Who) {f g : Warp → Warp} (h : f (warpOf s o) = g (warpOf s o)) :
    updWarpOf s o f = updWarpOf s o g := by
  simp only [updWarpOf, updWarp]
  rw [show f (getWarp s o.core o.slot o.warp) = g (getWarp s o.core o.slot o.warp) from h]

@[simp] theorem wgOf_updWarpOf_record (s : State) (o : Who) (f : Warp → Warp) : (wgOf (updWarpOf s o f) o).record = (wgOf s o).record := by
  rw [wgOf_updWarpOf]

@[simp] theorem wgOf_updWarpOf_tseq (s : State) (o : Who) (f : Warp → Warp) : (wgOf (updWarpOf s o f) o).tseq = (wgOf s o).tseq := by
  rw [wgOf_updWarpOf]

/-! ### Streams of one warp -/

/-- The stream of a number exists in a warp. -/
def hasStream (w : Warp) (sp : Option Nat) : Prop := ∀ k, sp = some k → (findSplit w k).isSome = true

theorem findSplit_map (ps : List Split) (n k : Nat) (f : Split → Split) (hf : ∀ p, (f p).num = p.num) :
    (ps.map fun p => if p.num == n then f p else p).find? (fun p => p.num == k) =
      (ps.find? fun p => p.num == k).map fun p => if p.num == n then f p else p := by
  induction ps with
  | nil => rfl
  | cons p ps ih =>
    have hn : (if p.num == n then f p else p).num = p.num := by split <;> simp [hf]
    simp only [List.map_cons, List.find?_cons, hn]
    cases p.num == k
    · simpa using ih
    · simp

theorem streamIn_putStream (w : Warp) (sp : Option Nat) (f : Stream → Stream) (h : hasStream w sp) :
    streamIn (putStream w sp f) sp = f (streamIn w sp) := by
  cases sp with
  | none => rfl
  | some n =>
    have := h n rfl
    simp only [streamIn, putStream, findSplit] at *
    rw [findSplit_map w.splits n n (fun p => { p with st := f p.st }) (fun _ => rfl)]
    obtain ⟨p, hp⟩ := Option.isSome_iff_exists.mp this
    have hnum : p.num = n := by simpa using List.find?_some hp
    simp [hp, hnum]

theorem hasStream_putStream (w : Warp) (sp sp' : Option Nat) (f : Stream → Stream) (h : hasStream w sp') :
    hasStream (putStream w sp f) sp' := by
  intro k hk
  have := h k hk
  cases sp with
  | none => exact this
  | some n =>
    simp only [putStream, findSplit] at *
    rw [findSplit_map w.splits n k (fun p => { p with st := f p.st }) (fun _ => rfl)]
    simpa using this

/-- A change of one stream leaves every other of the warp. -/
theorem findSplit_putStream_other (w : Warp) (sp : Option Nat) (f : Stream → Stream) (k : Nat) (h : sp ≠ some k) :
    findSplit (putStream w sp f) k = findSplit w k := by
  cases sp with
  | none => rfl
  | some n =>
    simp only [putStream, findSplit]
    rw [findSplit_map w.splits n k (fun p => { p with st := f p.st }) (fun _ => rfl)]
    cases hp : w.splits.find? fun p => p.num == k with
    | none => rfl
    | some p =>
      have hnum : p.num = k := by simpa using List.find?_some hp
      have : p.num ≠ n := fun e => h (by rw [← hnum, e])
      simp [this]

/-! ### Lists of lane values -/

/-- Values written at rising keys: the one written at a key, or what was there. -/
theorem tgetD_foldl_lanes {α : Type} (d : α) (ls : List Nat) (f : Nat → α) (base : Nat) (t : Table α) (m : Nat) :
    tgetD d ((ls.map fun l => (l, f l)).foldl (fun t e => tput t (base + e.1) e.2) t) (base + m) =
      if m ∈ ls then f m else tgetD d t (base + m) := by
  induction ls generalizing t with
  | nil => simp
  | cons l ls ih =>
    simp only [List.map_cons, List.foldl_cons, ih, List.mem_cons]
    by_cases h : m ∈ ls
    · simp [h]
    · by_cases h2 : m = l
      · subst h2; simp [h]
      · simp [h, h2, tgetD_tput_other d t (base + l) (base + m) (f l) (by omega)]

theorem tgetD_foldl_outside {α : Type} (d : α) (ls : List Nat) (f : Nat → α) (base k : Nat) (t : Table α)
    (h : ∀ l ∈ ls, base + l ≠ k) :
    tgetD d ((ls.map fun l => (l, f l)).foldl (fun t e => tput t (base + e.1) e.2) t) k = tgetD d t k := by
  induction ls generalizing t with
  | nil => rfl
  | cons l ls ih =>
    simp only [List.map_cons, List.foldl_cons]
    rw [ih _ fun m hm => h m (List.mem_cons_of_mem _ hm), tgetD_tput_other _ _ _ _ _ (h l (List.mem_cons_self ..))]

theorem mem_lanesOf (m : Mask) (l : Nat) : l ∈ lanesOf m ↔ m.getLsbD l = true := by
  simp only [lanesOf, List.mem_filter, List.mem_range]
  exact ⟨fun h => h.2, fun h => ⟨by
    by_cases hl : l < 32
    · exact hl
    · simp [BitVec.getLsbD_of_ge m l (by omega)] at h, h⟩⟩

/-! ### Discarded results (R100) -/

theorem tget_filter_none {α : Type} (t : Table α) (ls : List Nat) (l : Nat) (h : l ∈ ls) :
    tget? (t.filter fun v => !ls.contains v.1) l = none := by
  induction t with
  | nil => rfl
  | cons e t ih =>
    by_cases he : e.1 ∈ ls
    · simpa [List.filter_cons, he] using ih
    · have : e.1 ≠ l := fun hl => he (by simpa [hl] using h)
      simpa [List.filter_cons, he, tget?, this] using ih

theorem find_discard (d : Machine.Dst) (ls : List Nat) (out : List OutRes) (l : Nat) (h : l ∈ ls) :
    (Machine.discard d ls out).findSome? (fun e => if e.dst = d then tget? e.vals l else none) = none := by
  induction out with
  | nil => rfl
  | cons e out ih =>
    simp only [Machine.discard, List.map_cons, List.findSome?_cons]
    by_cases he : e.dst = d
    · simp only [he, if_true]
      rw [tget_filter_none _ _ _ h]
      exact ih
    · simp only [he, if_false]
      exact ih

/-! ### What a stream reads -/

/-- What a register's own value depends on. -/
structure SameView (s t : State) (o : Who) : Prop where
  cur    : t.cur = s.cur
  record : (wgOf t o).record = (wgOf s o).record
  tseq   : (wgOf t o).tseq = (wgOf s o).tseq
  window : (warpOf t o).window = (warpOf s o).window
  emask  : (streamOf t o).emask = (streamOf s o).emask

theorem activeMask_congr {s t : State} {o : Who} (h : SameView s t o) : activeMask t o = activeMask s o := by
  simp only [activeMask, h.cur, h.emask]

/-- A register whose place did not change reads as before. -/
theorem held_congr {s t : State} {o : Who} (h : SameView s t o) (r : Reg) (l : Nat)
    (hv : ∀ n, r = .v n → tgetD 0 (warpOf t o).v (physV (warpOf s o) n.val * 32 + l) = tgetD 0 (warpOf s o).v (physV (warpOf s o) n.val * 32 + l))
    (hs : ∀ n, r = .s n → (sdCopy (warpOf t o) o.split n.val).getD (tgetD 0 (warpOf t o).s n.val)
      = (sdCopy (warpOf s o) o.split n.val).getD (tgetD 0 (warpOf s o).s n.val))
    (hk : ∀ n, r = .k n → tgetD 0 (streamOf t o).k n.val = tgetD 0 (streamOf s o).k n.val)
    (ht : r = .tag → tagOf (warpOf t o) l = tagOf (warpOf s o) l)
    (hr : r ≠ .rcnt) : held t o r l = held s o r l := by
  cases r with
  | v n => simpa only [held, physV, h.window] using hv n rfl
  | s n => exact hs n rfl
  | k n => exact hk n rfl
  | zr => rfl
  | lid => rfl
  | wid => rfl
  | emask => simp only [held, activeMask_congr h]
  | tile => simp only [held, tileOf, h.record]
  | tseq => simp only [held, h.tseq]
  | rcnt => exact absurd rfl hr
  | tag => simp only [held, ht rfl]

/-! ### How a word that its stream issued completes -/

/-- A word at lane or warp scope whose checks pass completes as its effect says (R67). -/
theorem runWord_issue (i : Instr) (sc : Scope) (ops : State → Who → Bool) (srcs : List Reg) (conc eager : Bool)
    (eff : State → Who → Res) (s : State) (hm : s.cur.mode = .issue)
    (hd : decodeTrap s s.cur.who (encode i) sc (ops s s.cur.who) srcs conc = none)
    (hl : sc = .lane ∨ sc = .warp) :
    runWord i sc ops srcs conc eager eff s =
      .next (finishOwn s.cur.who (encode i) (eff (freshReads s s.cur.who srcs) s.cur.who)) := by
  rcases hl with rfl | rfl <;> simp only [runWord, hm, hd, latchOf]

/-- A word whose checks fail traps (R67, R354). -/
theorem runWord_traps (i : Instr) (sc : Scope) (ops : State → Who → Bool) (srcs : List Reg) (conc eager : Bool)
    (eff : State → Who → Res) (s : State) (t : Trap) (hm : s.cur.mode = .issue)
    (hd : decodeTrap s s.cur.who (encode i) sc (ops s s.cur.who) srcs conc = some t) :
    runWord i sc ops srcs conc eager eff s = .next (trapHere s s.cur.who t (encode i)) := by
  simp only [runWord, hm, hd]

/-- The checks of R67, one by one. -/
theorem decodeTrap_none (s : State) (o : Who) (x : BitVec 32) (sc : Scope) (ops : Bool) (srcs : List Reg) (conc : Bool)
    (hp : privileged x = true → (wgOf s o).sys = true) (hsc : (scopesOf s (fieldOP x)).contains sc = true)
    (hl : sc = .lane ∨ sc = .warp) (hops : ops = true)
    (hset : (wgOf s o).check = true → ∀ r ∈ srcs, outstanding s o r = false)
    (hc : conc = true → inConc s o = false) : decodeTrap s o x sc ops srcs conc = none := by
  have h1 : (privileged x && !(wgOf s o).sys) = false := by
    cases hx : privileged x <;> simp [hx, hp]
  have h2 : ((sc == .set || sc == .block) && inClass s o) = false := by rcases hl with rfl | rfl <;> rfl
  have h3 : (sc == .set && (warpOf s o).curSet.isNone) = false := by rcases hl with rfl | rfl <;> rfl
  have h4 : (if (wgOf s o).check then srcs.find? (outstanding s o) else none) = none := by
    split
    · rename_i hck
      exact List.find?_eq_none.mpr fun r hr => by simp [hset hck r hr]
    · rfl
  have h5 : (conc && inConc s o) = false := by cases hx : conc <;> simp_all
  simp only [decodeTrap, h1, h2, h3, h4, h5, hops, hsc]
  rfl

end Sys2Proof.Laws
end

