-- ==== Sys2Proof/Laws/Computes.lean ====
section
/-! SUPPORT. What a register word leaves alone: the pieces of `Computes` for a write of lane values, and the retirement. -/

namespace Sys2Proof.Laws

open Sys2Proof.Machine

/-- A word that is done retires, no debugger step being under way. -/
theorem finishOwn_done (o : Who) (x : BitVec 32) (s : State) (h : (warpOf s o).step = none) :
    finishOwn o x (.done s) = retire s o (fieldW x) ((streamOf s o).pc + 4) := by
  have : (warpOf (retire s o (fieldW x) ((streamOf s o).pc + 4)) o).step = none := by
    simp only [retire, warpOf_updWarpOf]
    cases o.split <;> simpa [retireIn, putStream] using h
  simp only [finishOwn, endStep, this]
  rfl

/-- The warp of `retire`. -/
def retireW (o : Who) (mark : Bool) (pc : Addr) (w : Warp) : Warp := retireIn w o.split mark pc

theorem retire_eq (s : State) (o : Who) (mark : Bool) (pc : Addr) : retire s o mark pc = updWarpOf s o (retireW o mark pc) := rfl

theorem putStream_fields (w : Warp) (sp : Option Nat) (f : Machine.Stream → Machine.Stream) : ∃ main splits, putStream w sp f = { w with main := main, splits := splits } := by
  cases sp
  · exact ⟨_, w.splits, rfl⟩
  · exact ⟨w.main, _, rfl⟩

theorem discardIn_fields (w : Warp) (sp : Option Nat) (d : Machine.Dst) (ls : List Nat) : ∃ main splits, discardIn w sp d ls = { w with main := main, splits := splits } := by
  cases sp
  · exact ⟨_, w.splits, rfl⟩
  · exact ⟨_, _, rfl⟩

theorem streamIn_discardIn (w : Warp) (sp : Option Nat) (d : Machine.Dst) (ls : List Nat) (h : hasStream w sp) :
  streamIn (discardIn w sp d ls) sp = { streamIn w sp with out := Machine.discard d ls (streamIn w sp).out } := by
  cases sp with
  | none => rfl
  | some n => exact streamIn_putStream w (some n) (fun st => { st with out := Machine.discard d ls st.out }) h

theorem hasStream_discardIn (w : Warp) (sp : Option Nat) (d : Machine.Dst) (ls : List Nat) (h : hasStream w sp) : hasStream (discardIn w sp d ls) sp := by
  cases sp with
  | none => exact h
  | some n => exact hasStream_putStream w (some n) (some n) (fun st => { st with out := Machine.discard d ls st.out }) h

theorem splits_discardIn (w : Warp) (sp : Option Nat) (d : Machine.Dst) (ls : List Nat) (k : Nat) (h : sp ≠ some k) : findSplit (discardIn w sp d ls) k = findSplit w k := by
  cases sp with
  | none => rfl
  | some n => exact findSplit_putStream_other w (some n) (fun st => { st with out := Machine.discard d ls st.out }) k h

theorem wgs_updWarpOf (s : State) (o : Who) (f : Warp → Warp) (c k : Nat) :
    ∃ ws, getWg (updWarpOf s o f) c k = { getWg s c k with warps := ws } := by
  by_cases h : o.core = c ∧ o.slot = k
  · obtain ⟨rfl, rfl⟩ := h
    exact ⟨_, wgOf_updWarpOf s o f⟩
  · refine ⟨(getWg s c k).warps, ?_⟩
    have : o.core ≠ c ∨ o.slot ≠ k := by
      by_cases hc : o.core = c
      · exact .inr fun hk => h ⟨hc, hk⟩
      · exact .inl hc
    simp only [updWarpOf, updWarp, setWarp, updWg, getWg, getWg?_setWg_other _ _ _ _ _ _ this]

theorem core_updWarpOf (s : State) (o : Who) (f : Warp → Warp) (c : Nat) :
    ∃ ws, getCore (updWarpOf s o f) c = { getCore s c with wgs := ws } := by
  by_cases h : o.core = c
  · subst h
    exact ⟨_, by simp only [updWarpOf, updWarp, setWarp, updWg, setWg, getCore_updCore_same, putWg]; rfl⟩
  · exact ⟨(getCore s c).wgs, by simp only [updWarpOf, updWarp, setWarp, updWg, setWg, getCore_updCore_other _ _ _ _ h]⟩

/-- A change of one warp changes no byte. -/
theorem sameMemory_updWarpOf (s : State) (o : Who) (f : Warp → Warp) (n : Nat) :
    SameMemory s { updWarpOf s o f with free := n } where
  phys ctx pa := rfl
  scratch c k a := by
    obtain ⟨ws, h⟩ := wgs_updWarpOf s o f c k
    show (getWg (updWarpOf s o f) c k).scratch.rd a = _
    rw [h]
  priv c k := by
    obtain ⟨ws, h⟩ := wgs_updWarpOf s o f c k
    show (getWg (updWarpOf s o f) c k).priv = _
    rw [h]
  floor c a := by
    obtain ⟨ws, h⟩ := core_updWarpOf s o f c
    show (getCore (updWarpOf s o f) c).floor.rd a = _
    rw [h]

theorem streamIn_retireW (o : Who) (mark : Bool) (pc : Addr) (w : Warp) (h : hasStream w o.split) :
   streamIn (retireW o mark pc w) o.split = { streamIn w o.split with pc := pc, wait := .none, marked := mark, refused := none, skipBp := false } :=
  streamIn_putStream { w with rcnt := w.rcnt + 1, qcount := w.qcount + 1 } o.split _ h

theorem sdCopy_congr (w w' : Warp) (sp : Option Nat) (n : Nat) (h1 : w'.stack = w.stack)
   (h2 : ∀ k, sp = some k → (findSplit w' k).map Machine.Split.sd = (findSplit w k).map Machine.Split.sd) : sdCopy w' sp n = sdCopy w sp n := by
  cases sp with
  | none => rfl
  | some k => simp only [sdCopy, splitSd, h1, h2 k rfl]

theorem sd_putStream (w : Warp) (sp : Option Nat) (f : Machine.Stream → Machine.Stream) (k : Nat) :
    (findSplit (putStream w sp f) k).map Machine.Split.sd = (findSplit w k).map Machine.Split.sd := by
  cases sp with
  | none => rfl
  | some n =>
    simp only [putStream, findSplit]
    rw [findSplit_map w.splits n k (fun p => { p with st := f p.st }) (fun _ => rfl)]
    cases w.splits.find? fun p => p.num == k with
    | none => rfl
    | some p => by_cases hp : p.num = n <;> simp [hp]

theorem sd_discardIn (w : Warp) (sp : Option Nat) (d : Machine.Dst) (ls : List Nat) (k : Nat) :
    (findSplit (discardIn w sp d ls) k).map Machine.Split.sd = (findSplit w k).map Machine.Split.sd := by
  cases sp with
  | none => rfl
  | some n => exact sd_putStream w (some n) (fun st => { st with out := Machine.discard d ls st.out }) k


/-- One value for each lane of a list. -/
def laneVals (ls : List Nat) (val : Nat → Word) : List (Nat × Word) := ls.map fun l => (l, val l)

/-- What a write of lane values leaves of a warp. -/
structure Wrote (o : Who) (d : Reg) (ls : List Nat) (w w' : Warp) : Prop where
  fields : ∃ v r tag main splits, w' = { w with v := v, s := r, tag := tag, main := main, splits := splits }
  stream : ∃ k out, streamIn w' o.split = { streamIn w o.split with k := k, out := out }
  main : o.split.isSome = true → w'.main = { w.main with out := w'.main.out }
  splits : ∀ k, o.split ≠ some k → findSplit w' k = findSplit w k
  has : hasStream w' o.split

theorem wrote_discard (o : Who) (dd : Machine.Dst) (d : Reg) (ls : List Nat) (w : Warp) (h : hasStream w o.split) (v) (t) :
    Wrote o d ls w { discardIn w o.split dd ls with v := v, tag := t } where
  fields := by
    obtain ⟨m, sp, e⟩ := discardIn_fields w o.split dd ls
    exact ⟨v, w.s, t, m, sp, by rw [e]⟩
  stream := by
    refine ⟨(streamIn w o.split).k, Machine.discard dd ls (streamIn w o.split).out, ?_⟩
    have := streamIn_discardIn w o.split dd ls h
    cases hsp : o.split with
    | none => rw [hsp] at this; exact this
    | some n => rw [hsp] at this; exact this
  main := by
    intro hs
    obtain ⟨n, hn⟩ := Option.isSome_iff_exists.mp hs
    simp only [hn]
    rfl
  splits k hk := splits_discardIn w o.split dd ls k hk
  has := hasStream_discardIn w o.split dd ls h

theorem wrote_lane (o : Who) (d : Reg) (ls : List Nat) (val : Nat → Word) (w : Warp) (h : hasStream w o.split)
   (hd : (∃ n, d = .v n) ∨ d = .zr ∨ d = .tag) : Wrote o d ls w (wrWarp o d (laneVals ls val) w) := by
  rcases hd with ⟨n, rfl⟩ | rfl | rfl
  · have hm : (laneVals ls val).map Prod.fst = ls := by simp [laneVals, Function.comp_def]
    simp only [wrWarp, hm]
    exact (wrote_discard o _ (.v n) ls w h _ _)
  · exact ⟨⟨_, _, _, _, _, rfl⟩, ⟨_, _, rfl⟩, fun _ => rfl, fun _ _ => rfl, h⟩
  · have hm : (laneVals ls val).map Prod.fst = ls := by simp [laneVals, Function.comp_def]
    simp only [wrWarp, hm]
    exact (wrote_discard o _ .tag ls w h _ _)

/-- A write of registers and the retirement together are a completed register word. -/
theorem computes_of_wrote (s : State) (o : Who) (n : Nat) (mark : Bool) (F : Warp → Warp) (d : Reg) (ls : List Nat)
   (hw : Wrote o d ls (warpOf s o) (F (warpOf s o))) :
   Computes s { updWarpOf s o (fun w => retireW o mark ((streamOf s o).pc + 4) (F w)) with free := n } o mark (warpOf s o) := by
  have hW : ∀ G : Warp → Warp, warpOf { updWarpOf s o G with free := n } o = G (warpOf s o) := fun G => warpOf_updWarpOf s o G
  have hS : ∀ G : Warp → Warp, streamOf { updWarpOf s o G with free := n } o = streamIn (G (warpOf s o)) o.split := fun G => by
    simp only [streamOf, hW]
  constructor
  · have hs := streamIn_retireW o mark ((streamOf s o).pc + 4) (F (warpOf s o)) hw.has
    constructor
    · rw [hS, hs]
    · rw [hS, hs]
    · rw [hS, hs]
    · rw [hW]
      obtain ⟨v, r, tag, main, splits, e⟩ := hw.fields
      obtain ⟨m2, s2, e2⟩ := putStream_fields { F (warpOf s o) with rcnt := (F (warpOf s o)).rcnt + 1, qcount := (F (warpOf s o)).qcount + 1 } o.split fun st =>
      { st with pc := (streamOf s o).pc + 4, wait := .none, marked := mark, refused := none, skipBp := false }
      simp only [retireW, retireIn]; rw [e2, e]
  · constructor
    · rw [hW]
      obtain ⟨v, r, tag, main, splits, e⟩ := hw.fields
      obtain ⟨m2, s2, e2⟩ := putStream_fields { F (warpOf s o) with rcnt := (F (warpOf s o)).rcnt + 1, qcount := (F (warpOf s o)).qcount + 1 } o.split fun st =>
      { st with pc := (streamOf s o).pc + 4, wait := .none, marked := mark, refused := none, skipBp := false }
      refine ⟨v, r, tag, m2, s2, ?_⟩
      simp only [retireW, retireIn]; rw [e2, e]
    · rw [hS, streamIn_retireW o mark _ _ hw.has]
      obtain ⟨k, out, e⟩ := hw.stream
      refine ⟨k, out, ?_⟩
      rw [e]; rfl
    · intro h
      rw [hW]
      obtain ⟨k, hk⟩ := Option.isSome_iff_exists.mp h
      have := hw.main h
      simp only [retireW, retireIn, putStream, hk]
      exact this
    · intro k hk
      rw [hW]
      exact (findSplit_putStream_other _ _ _ k hk).trans (hw.splits k hk)
  · simp only [OnlyWarp, hW]; rfl
  · exact sameMemory_updWarpOf s o _ n

end Sys2Proof.Laws
end

