-- ==== Sys2Proof/Laws/Decode.lean ====
section
/-! SUPPORT. What the fields of a built word are, and the round trips of register, scope and width codes. -/

namespace Sys2Proof.Laws

theorem fieldW_mkWord (w : Bool) (sc : BitVec 2) (op : BitVec 8) (d a b : BitVec 7) :
    fieldW (mkWord w sc op d a b) = w := by
  simp only [fieldW, mkWord, BitVec.getLsbD_append]
  cases w <;> simp

theorem fieldSC_mkWord (w : Bool) (sc : BitVec 2) (op : BitVec 8) (d a b : BitVec 7) :
    fieldSC (mkWord w sc op d a b) = sc := by
  apply BitVec.eq_of_getLsbD_eq
  intro i hi
  simp [fieldSC, mkWord, BitVec.getLsbD_extractLsb']
  grind

theorem fieldOP_mkWord (w : Bool) (sc : BitVec 2) (op : BitVec 8) (d a b : BitVec 7) :
    fieldOP (mkWord w sc op d a b) = op := by
  apply BitVec.eq_of_getLsbD_eq
  intro i hi
  simp [fieldOP, mkWord, BitVec.getLsbD_extractLsb']
  grind

theorem fieldD_mkWord (w : Bool) (sc : BitVec 2) (op : BitVec 8) (d a b : BitVec 7) :
    fieldD (mkWord w sc op d a b) = d := by
  apply BitVec.eq_of_getLsbD_eq
  intro i hi
  simp [fieldD, mkWord, BitVec.getLsbD_extractLsb']
  grind

theorem fieldA_mkWord (w : Bool) (sc : BitVec 2) (op : BitVec 8) (d a b : BitVec 7) :
    fieldA (mkWord w sc op d a b) = a := by
  apply BitVec.eq_of_getLsbD_eq
  intro i hi
  simp [fieldA, mkWord, BitVec.getLsbD_extractLsb']
  grind

theorem fieldB_mkWord (w : Bool) (sc : BitVec 2) (op : BitVec 8) (d a b : BitVec 7) :
    fieldB (mkWord w sc op d a b) = b := by
  apply BitVec.eq_of_getLsbD_eq
  intro i hi
  simp [fieldB, mkWord, BitVec.getLsbD_extractLsb']
  grind

theorem scope_dec_enc (sc : Scope) : Scope.dec sc.enc = sc := by cases sc <;> rfl

theorem scope_enc_dec : ∀ x : BitVec 2, (Scope.dec x).enc = x := by decide

theorem width_dec_enc (t : Width) : Width.dec t.enc = t := by cases t <;> rfl

theorem width_enc_dec : ∀ x : BitVec 2, (Width.dec x).enc = x := by decide

theorem reg_enc_dec : ∀ x : BitVec 7, (Reg.dec x).enc = x := by decide

theorem reg_dec_enc (r : Reg) : Reg.dec r.enc = r := by
  cases r with
  | v n => revert n; decide
  | s n => revert n; decide
  | k n => revert n; decide
  | zr => rfl
  | lid => rfl
  | wid => rfl
  | emask => rfl
  | tile => rfl
  | tseq => rfl
  | rcnt => rfl
  | tag => rfl

end Sys2Proof.Laws
end

