-- ==== Sys2Proof/Laws/PerInstr.lean ====
section
/-! SUPPORT. Per instruction: the word that the encoder writes keeps every fixed position of its opcode (R53). -/

namespace Sys2Proof.Laws

theorem fixedOk_mkWord (w : Bool) (sc : BitVec 2) (op : BitVec 8) (d a b : BitVec 7) :
    fixedOk (mkWord w sc op d a b) =
      (((fixedFields op).1.isNone || (fixedFields op).1 == some d)
        && ((fixedFields op).2.1.isNone || (fixedFields op).2.1 == some a)
        && ((fixedFields op).2.2.isNone || (fixedFields op).2.2 == some b)) := by
  simp only [fixedOk, fieldOP_mkWord, fieldD_mkWord, fieldA_mkWord, fieldB_mkWord]

theorem fixedFields_micro : ∀ op : BitVec 8, 0xF5 ≤ op.toNat → fixedFields op = (none, none, none) := by decide

/-- The word of a well-formed instruction breaks no fixed position. -/
def FixedFields.Statement (i : Instr) : Prop := WellFormed i = true → fixedOk (encode i) = true

namespace FixedFields

theorem nop (w : Bool) (sc : Scope) : Statement (.nop w sc) :=
  fun _ => (fixedOk_mkWord _ _ _ _ _ _).trans rfl

theorem br (w : Bool) (o : BitVec 21) : Statement (.br w o) :=
  fun _ => (fixedOk_mkWord _ _ _ _ _ _).trans rfl

theorem brz (w : Bool) (d : Reg) (o : BitVec 14) : Statement (.brz w d o) :=
  fun _ => (fixedOk_mkWord _ _ _ _ _ _).trans rfl

theorem brnz (w : Bool) (d : Reg) (o : BitVec 14) : Statement (.brnz w d o) :=
  fun _ => (fixedOk_mkWord _ _ _ _ _ _).trans rfl

theorem call (w : Bool) (o : BitVec 21) : Statement (.call w o) :=
  fun _ => (fixedOk_mkWord _ _ _ _ _ _).trans rfl

theorem callx (w : Bool) (a : Reg) : Statement (.callx w a) :=
  fun _ => (fixedOk_mkWord _ _ _ _ _ _).trans rfl

theorem jx (w : Bool) (a : Reg) : Statement (.jx w a) :=
  fun _ => (fixedOk_mkWord _ _ _ _ _ _).trans rfl

theorem ckey (w : Bool) (a : Reg) (i : BitVec 7) : Statement (.ckey w a i) :=
  fun _ => (fixedOk_mkWord _ _ _ _ _ _).trans rfl

theorem klass (w : Bool) (d : Reg) (o : BitVec 14) : Statement (.klass w d o) :=
  fun _ => (fixedOk_mkWord _ _ _ _ _ _).trans rfl

theorem cnext (w : Bool) : Statement (.cnext w) :=
  fun _ => (fixedOk_mkWord _ _ _ _ _ _).trans rfl

theorem cbrk (w : Bool) (i : BitVec 7) : Statement (.cbrk w i) :=
  fun _ => (fixedOk_mkWord _ _ _ _ _ _).trans rfl

theorem rdfl (w : Bool) (d : Reg) (a : Reg) : Statement (.rdfl w d a) :=
  fun _ => (fixedOk_mkWord _ _ _ _ _ _).trans rfl

theorem exit (w : Bool) (sc : Scope) : Statement (.exit w sc) :=
  fun _ => (fixedOk_mkWord _ _ _ _ _ _).trans rfl

theorem yield (w : Bool) : Statement (.yield w) :=
  fun _ => (fixedOk_mkWord _ _ _ _ _ _).trans rfl

theorem trap (w : Bool) (i : BitVec 7) : Statement (.trap w i) :=
  fun _ => (fixedOk_mkWord _ _ _ _ _ _).trans rfl

theorem bkpt (w : Bool) (i : BitVec 7) : Statement (.bkpt w i) :=
  fun _ => (fixedOk_mkWord _ _ _ _ _ _).trans rfl

theorem win (w : Bool) (i : BitVec 7) : Statement (.win w i) :=
  fun _ => (fixedOk_mkWord _ _ _ _ _ _).trans rfl

theorem sets (w : Bool) (i : BitVec 7) : Statement (.sets w i) :=
  fun _ => (fixedOk_mkWord _ _ _ _ _ _).trans rfl

theorem ldl (w : Bool) (d : Reg) (o : BitVec 14) : Statement (.ldl w d o) :=
  fun _ => (fixedOk_mkWord _ _ _ _ _ _).trans rfl

theorem ldlw (w : Bool) (d : Reg) (o : BitVec 14) : Statement (.ldlw w d o) :=
  fun _ => (fixedOk_mkWord _ _ _ _ _ _).trans rfl

theorem sysr (w : Bool) (d : Reg) (i : BitVec 7) : Statement (.sysr w d i) :=
  fun _ => (fixedOk_mkWord _ _ _ _ _ _).trans rfl

theorem sysw (w : Bool) (a : Reg) (i : BitVec 7) : Statement (.sysw w a i) :=
  fun _ => (fixedOk_mkWord _ _ _ _ _ _).trans rfl

theorem icinv (w : Bool) (a : Reg) (b : Reg) : Statement (.icinv w a b) :=
  fun _ => (fixedOk_mkWord _ _ _ _ _ _).trans rfl

theorem gov (w : Bool) (a : Reg) : Statement (.gov w a) :=
  fun _ => (fixedOk_mkWord _ _ _ _ _ _).trans rfl

theorem qsync (w : Bool) : Statement (.qsync w) :=
  fun _ => (fixedOk_mkWord _ _ _ _ _ _).trans rfl

theorem tspawn (w : Bool) (a : Reg) (b : Reg) : Statement (.tspawn w a b) :=
  fun _ => (fixedOk_mkWord _ _ _ _ _ _).trans rfl

theorem tsucc (w : Bool) (a : Reg) (b : Reg) : Statement (.tsucc w a b) :=
  fun _ => (fixedOk_mkWord _ _ _ _ _ _).trans rfl

theorem cpol (w : Bool) (i : BitVec 7) : Statement (.cpol w i) :=
  fun _ => (fixedOk_mkWord _ _ _ _ _ _).trans rfl

theorem eret (w : Bool) (i : BitVec 7) : Statement (.eret w i) :=
  fun _ => (fixedOk_mkWord _ _ _ _ _ _).trans rfl

theorem mbankQuery (w : Bool) (d : Reg) (a : Reg) : Statement (.mbankQuery w d a) :=
  fun _ => (fixedOk_mkWord _ _ _ _ _ _).trans rfl

theorem mbankPin (w : Bool) (d : Reg) (a : Reg) : Statement (.mbankPin w d a) :=
  fun _ => (fixedOk_mkWord _ _ _ _ _ _).trans rfl

theorem mbankUnpin (w : Bool) (d : Reg) (a : Reg) : Statement (.mbankUnpin w d a) :=
  fun _ => (fixedOk_mkWord _ _ _ _ _ _).trans rfl

theorem mbankRelease (w : Bool) (d : Reg) (a : Reg) : Statement (.mbankRelease w d a) :=
  fun _ => (fixedOk_mkWord _ _ _ _ _ _).trans rfl

theorem coll (w : Bool) (sc : Scope) (i : BitVec 7) (a : Reg) (b : Reg) : Statement (.coll w sc i a b) :=
  fun _ => (fixedOk_mkWord _ _ _ _ _ _).trans rfl

theorem mstore (w : Bool) (sc : Scope) (i : BitVec 7) (a : Reg) (b : Reg) : Statement (.mstore w sc i a b) :=
  fun _ => (fixedOk_mkWord _ _ _ _ _ _).trans rfl

theorem add (w : Bool) (sc : Scope) (t : Width) (d : Reg) (a : Reg) (b : Reg) : Statement (.add w sc t d a b) := by
  intro _
  cases t <;> exact (fixedOk_mkWord _ _ _ _ _ _).trans rfl

theorem sub (w : Bool) (sc : Scope) (t : Width) (d : Reg) (a : Reg) (b : Reg) : Statement (.sub w sc t d a b) := by
  intro _
  cases t <;> exact (fixedOk_mkWord _ _ _ _ _ _).trans rfl

theorem mul (w : Bool) (sc : Scope) (t : Width) (d : Reg) (a : Reg) (b : Reg) : Statement (.mul w sc t d a b) := by
  intro _
  cases t <;> exact (fixedOk_mkWord _ _ _ _ _ _).trans rfl

theorem min (w : Bool) (sc : Scope) (t : Width) (d : Reg) (a : Reg) (b : Reg) : Statement (.min w sc t d a b) := by
  intro _
  cases t <;> exact (fixedOk_mkWord _ _ _ _ _ _).trans rfl

theorem max (w : Bool) (sc : Scope) (t : Width) (d : Reg) (a : Reg) (b : Reg) : Statement (.max w sc t d a b) := by
  intro _
  cases t <;> exact (fixedOk_mkWord _ _ _ _ _ _).trans rfl

theorem minu (w : Bool) (sc : Scope) (t : Width) (d : Reg) (a : Reg) (b : Reg) : Statement (.minu w sc t d a b) := by
  intro _
  cases t <;> exact (fixedOk_mkWord _ _ _ _ _ _).trans rfl

theorem maxu (w : Bool) (sc : Scope) (t : Width) (d : Reg) (a : Reg) (b : Reg) : Statement (.maxu w sc t d a b) := by
  intro _
  cases t <;> exact (fixedOk_mkWord _ _ _ _ _ _).trans rfl

theorem adds (w : Bool) (sc : Scope) (t : Width) (d : Reg) (a : Reg) (b : Reg) : Statement (.adds w sc t d a b) := by
  intro _
  cases t <;> exact (fixedOk_mkWord _ _ _ _ _ _).trans rfl

theorem addsu (w : Bool) (sc : Scope) (t : Width) (d : Reg) (a : Reg) (b : Reg) : Statement (.addsu w sc t d a b) := by
  intro _
  cases t <;> exact (fixedOk_mkWord _ _ _ _ _ _).trans rfl

theorem subs (w : Bool) (sc : Scope) (t : Width) (d : Reg) (a : Reg) (b : Reg) : Statement (.subs w sc t d a b) := by
  intro _
  cases t <;> exact (fixedOk_mkWord _ _ _ _ _ _).trans rfl

theorem shl (w : Bool) (sc : Scope) (t : Width) (d : Reg) (a : Reg) (b : Reg) : Statement (.shl w sc t d a b) := by
  intro _
  cases t <;> exact (fixedOk_mkWord _ _ _ _ _ _).trans rfl

theorem shr (w : Bool) (sc : Scope) (t : Width) (d : Reg) (a : Reg) (b : Reg) : Statement (.shr w sc t d a b) := by
  intro _
  cases t <;> exact (fixedOk_mkWord _ _ _ _ _ _).trans rfl

theorem sra (w : Bool) (sc : Scope) (t : Width) (d : Reg) (a : Reg) (b : Reg) : Statement (.sra w sc t d a b) := by
  intro _
  cases t <;> exact (fixedOk_mkWord _ _ _ _ _ _).trans rfl

theorem ceq (w : Bool) (sc : Scope) (t : Width) (d : Reg) (a : Reg) (b : Reg) : Statement (.ceq w sc t d a b) := by
  intro _
  cases t <;> exact (fixedOk_mkWord _ _ _ _ _ _).trans rfl

theorem clt (w : Bool) (sc : Scope) (t : Width) (d : Reg) (a : Reg) (b : Reg) : Statement (.clt w sc t d a b) := by
  intro _
  cases t <;> exact (fixedOk_mkWord _ _ _ _ _ _).trans rfl

theorem cltu (w : Bool) (sc : Scope) (t : Width) (d : Reg) (a : Reg) (b : Reg) : Statement (.cltu w sc t d a b) := by
  intro _
  cases t <;> exact (fixedOk_mkWord _ _ _ _ _ _).trans rfl

theorem and (w : Bool) (sc : Scope) (d : Reg) (a : Reg) (b : Reg) : Statement (.and w sc d a b) :=
  fun _ => (fixedOk_mkWord _ _ _ _ _ _).trans rfl

theorem or (w : Bool) (sc : Scope) (d : Reg) (a : Reg) (b : Reg) : Statement (.or w sc d a b) :=
  fun _ => (fixedOk_mkWord _ _ _ _ _ _).trans rfl

theorem xor (w : Bool) (sc : Scope) (d : Reg) (a : Reg) (b : Reg) : Statement (.xor w sc d a b) :=
  fun _ => (fixedOk_mkWord _ _ _ _ _ _).trans rfl

theorem andn (w : Bool) (sc : Scope) (d : Reg) (a : Reg) (b : Reg) : Statement (.andn w sc d a b) :=
  fun _ => (fixedOk_mkWord _ _ _ _ _ _).trans rfl

theorem mov (w : Bool) (sc : Scope) (d : Reg) (a : Reg) : Statement (.mov w sc d a) :=
  fun _ => (fixedOk_mkWord _ _ _ _ _ _).trans rfl

theorem bsel (w : Bool) (sc : Scope) (d : Reg) (a : Reg) (b : Reg) : Statement (.bsel w sc d a b) :=
  fun _ => (fixedOk_mkWord _ _ _ _ _ _).trans rfl

theorem mulh64 (w : Bool) (sc : Scope) (d : Reg) (a : Reg) (b : Reg) : Statement (.mulh64 w sc d a b) :=
  fun _ => (fixedOk_mkWord _ _ _ _ _ _).trans rfl

theorem mulhu64 (w : Bool) (sc : Scope) (d : Reg) (a : Reg) (b : Reg) : Statement (.mulhu64 w sc d a b) :=
  fun _ => (fixedOk_mkWord _ _ _ _ _ _).trans rfl

theorem mulh32 (w : Bool) (sc : Scope) (d : Reg) (a : Reg) (b : Reg) : Statement (.mulh32 w sc d a b) :=
  fun _ => (fixedOk_mkWord _ _ _ _ _ _).trans rfl

theorem mulhu32 (w : Bool) (sc : Scope) (d : Reg) (a : Reg) (b : Reg) : Statement (.mulhu32 w sc d a b) :=
  fun _ => (fixedOk_mkWord _ _ _ _ _ _).trans rfl

theorem mad32 (w : Bool) (sc : Scope) (d : Reg) (a : Reg) (b : Reg) : Statement (.mad32 w sc d a b) :=
  fun _ => (fixedOk_mkWord _ _ _ _ _ _).trans rfl

theorem mad64 (w : Bool) (sc : Scope) (d : Reg) (a : Reg) (b : Reg) : Statement (.mad64 w sc d a b) :=
  fun _ => (fixedOk_mkWord _ _ _ _ _ _).trans rfl

theorem popc (w : Bool) (sc : Scope) (d : Reg) (a : Reg) : Statement (.popc w sc d a) :=
  fun _ => (fixedOk_mkWord _ _ _ _ _ _).trans rfl

theorem clz (w : Bool) (sc : Scope) (d : Reg) (a : Reg) : Statement (.clz w sc d a) :=
  fun _ => (fixedOk_mkWord _ _ _ _ _ _).trans rfl

theorem brev (w : Bool) (sc : Scope) (d : Reg) (a : Reg) : Statement (.brev w sc d a) :=
  fun _ => (fixedOk_mkWord _ _ _ _ _ _).trans rfl

theorem bfx (w : Bool) (sc : Scope) (d : Reg) (a : Reg) (b : Reg) : Statement (.bfx w sc d a b) :=
  fun _ => (fixedOk_mkWord _ _ _ _ _ _).trans rfl

theorem bfi (w : Bool) (sc : Scope) (d : Reg) (a : Reg) (b : Reg) : Statement (.bfi w sc d a b) :=
  fun _ => (fixedOk_mkWord _ _ _ _ _ _).trans rfl

theorem shufb (w : Bool) (sc : Scope) (d : Reg) (a : Reg) (b : Reg) : Statement (.shufb w sc d a b) :=
  fun _ => (fixedOk_mkWord _ _ _ _ _ _).trans rfl

theorem faddF32 (w : Bool) (sc : Scope) (d : Reg) (a : Reg) (b : Reg) : Statement (.faddF32 w sc d a b) :=
  fun _ => (fixedOk_mkWord _ _ _ _ _ _).trans rfl

theorem faddBf16 (w : Bool) (sc : Scope) (d : Reg) (a : Reg) (b : Reg) : Statement (.faddBf16 w sc d a b) :=
  fun _ => (fixedOk_mkWord _ _ _ _ _ _).trans rfl

theorem faddF16 (w : Bool) (sc : Scope) (d : Reg) (a : Reg) (b : Reg) : Statement (.faddF16 w sc d a b) :=
  fun _ => (fixedOk_mkWord _ _ _ _ _ _).trans rfl

theorem fsubF32 (w : Bool) (sc : Scope) (d : Reg) (a : Reg) (b : Reg) : Statement (.fsubF32 w sc d a b) :=
  fun _ => (fixedOk_mkWord _ _ _ _ _ _).trans rfl

theorem fsubBf16 (w : Bool) (sc : Scope) (d : Reg) (a : Reg) (b : Reg) : Statement (.fsubBf16 w sc d a b) :=
  fun _ => (fixedOk_mkWord _ _ _ _ _ _).trans rfl

theorem fsubF16 (w : Bool) (sc : Scope) (d : Reg) (a : Reg) (b : Reg) : Statement (.fsubF16 w sc d a b) :=
  fun _ => (fixedOk_mkWord _ _ _ _ _ _).trans rfl

theorem fmulF32 (w : Bool) (sc : Scope) (d : Reg) (a : Reg) (b : Reg) : Statement (.fmulF32 w sc d a b) :=
  fun _ => (fixedOk_mkWord _ _ _ _ _ _).trans rfl

theorem fmulBf16 (w : Bool) (sc : Scope) (d : Reg) (a : Reg) (b : Reg) : Statement (.fmulBf16 w sc d a b) :=
  fun _ => (fixedOk_mkWord _ _ _ _ _ _).trans rfl

theorem fmulF16 (w : Bool) (sc : Scope) (d : Reg) (a : Reg) (b : Reg) : Statement (.fmulF16 w sc d a b) :=
  fun _ => (fixedOk_mkWord _ _ _ _ _ _).trans rfl

theorem ffmaF32 (w : Bool) (sc : Scope) (d : Reg) (a : Reg) (b : Reg) : Statement (.ffmaF32 w sc d a b) :=
  fun _ => (fixedOk_mkWord _ _ _ _ _ _).trans rfl

theorem ffmaBf16 (w : Bool) (sc : Scope) (d : Reg) (a : Reg) (b : Reg) : Statement (.ffmaBf16 w sc d a b) :=
  fun _ => (fixedOk_mkWord _ _ _ _ _ _).trans rfl

theorem ffmaF16 (w : Bool) (sc : Scope) (d : Reg) (a : Reg) (b : Reg) : Statement (.ffmaF16 w sc d a b) :=
  fun _ => (fixedOk_mkWord _ _ _ _ _ _).trans rfl

theorem fminF32 (w : Bool) (sc : Scope) (d : Reg) (a : Reg) (b : Reg) : Statement (.fminF32 w sc d a b) :=
  fun _ => (fixedOk_mkWord _ _ _ _ _ _).trans rfl

theorem fminBf16 (w : Bool) (sc : Scope) (d : Reg) (a : Reg) (b : Reg) : Statement (.fminBf16 w sc d a b) :=
  fun _ => (fixedOk_mkWord _ _ _ _ _ _).trans rfl

theorem fminF16 (w : Bool) (sc : Scope) (d : Reg) (a : Reg) (b : Reg) : Statement (.fminF16 w sc d a b) :=
  fun _ => (fixedOk_mkWord _ _ _ _ _ _).trans rfl

theorem fmaxF32 (w : Bool) (sc : Scope) (d : Reg) (a : Reg) (b : Reg) : Statement (.fmaxF32 w sc d a b) :=
  fun _ => (fixedOk_mkWord _ _ _ _ _ _).trans rfl

theorem fmaxBf16 (w : Bool) (sc : Scope) (d : Reg) (a : Reg) (b : Reg) : Statement (.fmaxBf16 w sc d a b) :=
  fun _ => (fixedOk_mkWord _ _ _ _ _ _).trans rfl

theorem fmaxF16 (w : Bool) (sc : Scope) (d : Reg) (a : Reg) (b : Reg) : Statement (.fmaxF16 w sc d a b) :=
  fun _ => (fixedOk_mkWord _ _ _ _ _ _).trans rfl

theorem fceqF32 (w : Bool) (sc : Scope) (d : Reg) (a : Reg) (b : Reg) : Statement (.fceqF32 w sc d a b) :=
  fun _ => (fixedOk_mkWord _ _ _ _ _ _).trans rfl

theorem fceqBf16 (w : Bool) (sc : Scope) (d : Reg) (a : Reg) (b : Reg) : Statement (.fceqBf16 w sc d a b) :=
  fun _ => (fixedOk_mkWord _ _ _ _ _ _).trans rfl

theorem fceqF16 (w : Bool) (sc : Scope) (d : Reg) (a : Reg) (b : Reg) : Statement (.fceqF16 w sc d a b) :=
  fun _ => (fixedOk_mkWord _ _ _ _ _ _).trans rfl

theorem fcltF32 (w : Bool) (sc : Scope) (d : Reg) (a : Reg) (b : Reg) : Statement (.fcltF32 w sc d a b) :=
  fun _ => (fixedOk_mkWord _ _ _ _ _ _).trans rfl

theorem fcltBf16 (w : Bool) (sc : Scope) (d : Reg) (a : Reg) (b : Reg) : Statement (.fcltBf16 w sc d a b) :=
  fun _ => (fixedOk_mkWord _ _ _ _ _ _).trans rfl

theorem fcltF16 (w : Bool) (sc : Scope) (d : Reg) (a : Reg) (b : Reg) : Statement (.fcltF16 w sc d a b) :=
  fun _ => (fixedOk_mkWord _ _ _ _ _ _).trans rfl

theorem fcleF32 (w : Bool) (sc : Scope) (d : Reg) (a : Reg) (b : Reg) : Statement (.fcleF32 w sc d a b) :=
  fun _ => (fixedOk_mkWord _ _ _ _ _ _).trans rfl

theorem fcleBf16 (w : Bool) (sc : Scope) (d : Reg) (a : Reg) (b : Reg) : Statement (.fcleBf16 w sc d a b) :=
  fun _ => (fixedOk_mkWord _ _ _ _ _ _).trans rfl

theorem fcleF16 (w : Bool) (sc : Scope) (d : Reg) (a : Reg) (b : Reg) : Statement (.fcleF16 w sc d a b) :=
  fun _ => (fixedOk_mkWord _ _ _ _ _ _).trans rfl

theorem fscl (w : Bool) (sc : Scope) (d : Reg) (a : Reg) (i : BitVec 7) : Statement (.fscl w sc d a i) :=
  fun _ => (fixedOk_mkWord _ _ _ _ _ _).trans rfl

theorem ffrc (w : Bool) (sc : Scope) (d : Reg) (a : Reg) (i : BitVec 7) : Statement (.ffrc w sc d a i) :=
  fun _ => (fixedOk_mkWord _ _ _ _ _ _).trans rfl

theorem frnd (w : Bool) (sc : Scope) (d : Reg) (a : Reg) (i : BitVec 7) : Statement (.frnd w sc d a i) :=
  fun _ => (fixedOk_mkWord _ _ _ _ _ _).trans rfl

theorem fdot2 (w : Bool) (sc : Scope) (d : Reg) (a : Reg) (b : Reg) : Statement (.fdot2 w sc d a b) :=
  fun _ => (fixedOk_mkWord _ _ _ _ _ _).trans rfl

theorem cvt (w : Bool) (sc : Scope) (d : Reg) (a : Reg) (x : Bool) (c : BitVec 6) : Statement (.cvt w sc d a x c) :=
  fun _ => (fixedOk_mkWord _ _ _ _ _ _).trans rfl

theorem cvtsr (w : Bool) (sc : Scope) (d : Reg) (a : Reg) (c : BitVec 6) : Statement (.cvtsr w sc d a c) :=
  fun _ => (fixedOk_mkWord _ _ _ _ _ _).trans rfl

theorem rand (w : Bool) (sc : Scope) (d : Reg) : Statement (.rand w sc d) :=
  fun _ => (fixedOk_mkWord _ _ _ _ _ _).trans rfl

theorem rseed (w : Bool) (a : Reg) : Statement (.rseed w a) :=
  fun _ => (fixedOk_mkWord _ _ _ _ _ _).trans rfl

theorem rcp (w : Bool) (sc : Scope) (d : Reg) (a : Reg) : Statement (.rcp w sc d a) :=
  fun _ => (fixedOk_mkWord _ _ _ _ _ _).trans rfl

theorem rsq (w : Bool) (sc : Scope) (d : Reg) (a : Reg) : Statement (.rsq w sc d a) :=
  fun _ => (fixedOk_mkWord _ _ _ _ _ _).trans rfl

theorem sqrt (w : Bool) (sc : Scope) (d : Reg) (a : Reg) : Statement (.sqrt w sc d a) :=
  fun _ => (fixedOk_mkWord _ _ _ _ _ _).trans rfl

theorem exp2 (w : Bool) (sc : Scope) (d : Reg) (a : Reg) : Statement (.exp2 w sc d a) :=
  fun _ => (fixedOk_mkWord _ _ _ _ _ _).trans rfl

theorem log2 (w : Bool) (sc : Scope) (d : Reg) (a : Reg) : Statement (.log2 w sc d a) :=
  fun _ => (fixedOk_mkWord _ _ _ _ _ _).trans rfl

theorem sint (w : Bool) (sc : Scope) (d : Reg) (a : Reg) : Statement (.sint w sc d a) :=
  fun _ => (fixedOk_mkWord _ _ _ _ _ _).trans rfl

theorem cost (w : Bool) (sc : Scope) (d : Reg) (a : Reg) : Statement (.cost w sc d a) :=
  fun _ => (fixedOk_mkWord _ _ _ _ _ _).trans rfl

theorem tanh (w : Bool) (sc : Scope) (d : Reg) (a : Reg) : Statement (.tanh w sc d a) :=
  fun _ => (fixedOk_mkWord _ _ _ _ _ _).trans rfl

theorem sigm (w : Bool) (sc : Scope) (d : Reg) (a : Reg) : Statement (.sigm w sc d a) :=
  fun _ => (fixedOk_mkWord _ _ _ _ _ _).trans rfl

theorem ld (w : Bool) (sc : Scope) (t : Width) (d : Reg) (a : Reg) (b : Reg) : Statement (.ld w sc t d a b) := by
  intro _
  cases t <;> exact (fixedOk_mkWord _ _ _ _ _ _).trans rfl

theorem st (w : Bool) (sc : Scope) (t : Width) (d : Reg) (a : Reg) (b : Reg) : Statement (.st w sc t d a b) := by
  intro _
  cases t <;> exact (fixedOk_mkWord _ _ _ _ _ _).trans rfl

theorem lds (w : Bool) (sc : Scope) (t : Width) (d : Reg) (a : Reg) (b : Reg) : Statement (.lds w sc t d a b) := by
  intro _
  cases t <;> exact (fixedOk_mkWord _ _ _ _ _ _).trans rfl

theorem sts (w : Bool) (sc : Scope) (t : Width) (d : Reg) (a : Reg) (b : Reg) : Statement (.sts w sc t d a b) := by
  intro _
  cases t <;> exact (fixedOk_mkWord _ _ _ _ _ _).trans rfl

theorem ldp64 (w : Bool) (d : Reg) (a : Reg) (b : Reg) : Statement (.ldp64 w d a b) :=
  fun _ => (fixedOk_mkWord _ _ _ _ _ _).trans rfl

theorem ldp32 (w : Bool) (d : Reg) (a : Reg) (b : Reg) : Statement (.ldp32 w d a b) :=
  fun _ => (fixedOk_mkWord _ _ _ _ _ _).trans rfl

theorem stp64 (w : Bool) (d : Reg) (a : Reg) (b : Reg) : Statement (.stp64 w d a b) :=
  fun _ => (fixedOk_mkWord _ _ _ _ _ _).trans rfl

theorem stp32 (w : Bool) (d : Reg) (a : Reg) (b : Reg) : Statement (.stp32 w d a b) :=
  fun _ => (fixedOk_mkWord _ _ _ _ _ _).trans rfl

theorem pftch (w : Bool) (sc : Scope) (a : Reg) (b : Reg) : Statement (.pftch w sc a b) :=
  fun _ => (fixedOk_mkWord _ _ _ _ _ _).trans rfl

theorem fence (w : Bool) (sc : Scope) (i : BitVec 7) : Statement (.fence w sc i) :=
  fun _ => (fixedOk_mkWord _ _ _ _ _ _).trans rfl

theorem xfence (w : Bool) (i : BitVec 7) : Statement (.xfence w i) :=
  fun _ => (fixedOk_mkWord _ _ _ _ _ _).trans rfl

theorem cflush (w : Bool) (sc : Scope) (a : Reg) (b : Reg) : Statement (.cflush w sc a b) :=
  fun _ => (fixedOk_mkWord _ _ _ _ _ _).trans rfl

theorem cinv (w : Bool) (sc : Scope) (a : Reg) (b : Reg) : Statement (.cinv w sc a b) :=
  fun _ => (fixedOk_mkWord _ _ _ _ _ _).trans rfl

theorem cdemote (w : Bool) (a : Reg) (b : Reg) : Statement (.cdemote w a b) :=
  fun _ => (fixedOk_mkWord _ _ _ _ _ _).trans rfl

theorem lease (w : Bool) (sc : Scope) (d : Reg) (a : Reg) (b : Reg) : Statement (.lease w sc d a b) :=
  fun _ => (fixedOk_mkWord _ _ _ _ _ _).trans rfl

theorem lrel (w : Bool) (sc : Scope) (a : Reg) : Statement (.lrel w sc a) :=
  fun _ => (fixedOk_mkWord _ _ _ _ _ _).trans rfl

theorem pgx (w : Bool) (a : Reg) (b : Reg) : Statement (.pgx w a b) :=
  fun _ => (fixedOk_mkWord _ _ _ _ _ _).trans rfl

theorem atadd64 (w : Bool) (sc : Scope) (d : Reg) (a : Reg) (b : Reg) : Statement (.atadd64 w sc d a b) :=
  fun _ => (fixedOk_mkWord _ _ _ _ _ _).trans rfl

theorem atadd32 (w : Bool) (sc : Scope) (d : Reg) (a : Reg) (b : Reg) : Statement (.atadd32 w sc d a b) :=
  fun _ => (fixedOk_mkWord _ _ _ _ _ _).trans rfl

theorem atmin64 (w : Bool) (sc : Scope) (d : Reg) (a : Reg) (b : Reg) : Statement (.atmin64 w sc d a b) :=
  fun _ => (fixedOk_mkWord _ _ _ _ _ _).trans rfl

theorem atmin32 (w : Bool) (sc : Scope) (d : Reg) (a : Reg) (b : Reg) : Statement (.atmin32 w sc d a b) :=
  fun _ => (fixedOk_mkWord _ _ _ _ _ _).trans rfl

theorem atmax64 (w : Bool) (sc : Scope) (d : Reg) (a : Reg) (b : Reg) : Statement (.atmax64 w sc d a b) :=
  fun _ => (fixedOk_mkWord _ _ _ _ _ _).trans rfl

theorem atmax32 (w : Bool) (sc : Scope) (d : Reg) (a : Reg) (b : Reg) : Statement (.atmax32 w sc d a b) :=
  fun _ => (fixedOk_mkWord _ _ _ _ _ _).trans rfl

theorem atmaxu64 (w : Bool) (sc : Scope) (d : Reg) (a : Reg) (b : Reg) : Statement (.atmaxu64 w sc d a b) :=
  fun _ => (fixedOk_mkWord _ _ _ _ _ _).trans rfl

theorem atmaxu32 (w : Bool) (sc : Scope) (d : Reg) (a : Reg) (b : Reg) : Statement (.atmaxu32 w sc d a b) :=
  fun _ => (fixedOk_mkWord _ _ _ _ _ _).trans rfl

theorem atand64 (w : Bool) (sc : Scope) (d : Reg) (a : Reg) (b : Reg) : Statement (.atand64 w sc d a b) :=
  fun _ => (fixedOk_mkWord _ _ _ _ _ _).trans rfl

theorem ator64 (w : Bool) (sc : Scope) (d : Reg) (a : Reg) (b : Reg) : Statement (.ator64 w sc d a b) :=
  fun _ => (fixedOk_mkWord _ _ _ _ _ _).trans rfl

theorem atxor64 (w : Bool) (sc : Scope) (d : Reg) (a : Reg) (b : Reg) : Statement (.atxor64 w sc d a b) :=
  fun _ => (fixedOk_mkWord _ _ _ _ _ _).trans rfl

theorem atxch64 (w : Bool) (sc : Scope) (d : Reg) (a : Reg) (b : Reg) : Statement (.atxch64 w sc d a b) :=
  fun _ => (fixedOk_mkWord _ _ _ _ _ _).trans rfl

theorem atxch32 (w : Bool) (sc : Scope) (d : Reg) (a : Reg) (b : Reg) : Statement (.atxch32 w sc d a b) :=
  fun _ => (fixedOk_mkWord _ _ _ _ _ _).trans rfl

theorem atcas64 (w : Bool) (sc : Scope) (d : Reg) (a : Reg) (b : Reg) : Statement (.atcas64 w sc d a b) :=
  fun _ => (fixedOk_mkWord _ _ _ _ _ _).trans rfl

theorem atcas32 (w : Bool) (sc : Scope) (d : Reg) (a : Reg) (b : Reg) : Statement (.atcas32 w sc d a b) :=
  fun _ => (fixedOk_mkWord _ _ _ _ _ _).trans rfl

theorem atfaddF32 (w : Bool) (sc : Scope) (d : Reg) (a : Reg) (b : Reg) : Statement (.atfaddF32 w sc d a b) :=
  fun _ => (fixedOk_mkWord _ _ _ _ _ _).trans rfl

theorem xperm (w : Bool) (t : Width) (d : Reg) (a : Reg) (b : Reg) : Statement (.xperm w t d a b) := by
  intro _
  cases t <;> exact (fixedOk_mkWord _ _ _ _ _ _).trans rfl

theorem xswz (w : Bool) (d : Reg) (a : Reg) (i : BitVec 7) : Statement (.xswz w d a i) :=
  fun _ => (fixedOk_mkWord _ _ _ _ _ _).trans rfl

theorem xsumF32 (w : Bool) (d : Reg) (a : Reg) : Statement (.xsumF32 w d a) :=
  fun _ => (fixedOk_mkWord _ _ _ _ _ _).trans rfl

theorem xsum64 (w : Bool) (d : Reg) (a : Reg) : Statement (.xsum64 w d a) :=
  fun _ => (fixedOk_mkWord _ _ _ _ _ _).trans rfl

theorem xmaxF32 (w : Bool) (d : Reg) (a : Reg) : Statement (.xmaxF32 w d a) :=
  fun _ => (fixedOk_mkWord _ _ _ _ _ _).trans rfl

theorem xscan32 (w : Bool) (d : Reg) (a : Reg) : Statement (.xscan32 w d a) :=
  fun _ => (fixedOk_mkWord _ _ _ _ _ _).trans rfl

theorem vote (w : Bool) (d : Reg) (a : Reg) (i : BitVec 7) : Statement (.vote w d a i) :=
  fun _ => (fixedOk_mkWord _ _ _ _ _ _).trans rfl

theorem xbcast (w : Bool) (d : Reg) (a : Reg) (b : Reg) : Statement (.xbcast w d a b) :=
  fun _ => (fixedOk_mkWord _ _ _ _ _ _).trans rfl

theorem tkins2 (w : Bool) (d : Reg) (a : Reg) (b : Reg) : Statement (.tkins2 w d a b) :=
  fun _ => (fixedOk_mkWord _ _ _ _ _ _).trans rfl

theorem tkins4 (w : Bool) (d : Reg) (a : Reg) (b : Reg) : Statement (.tkins4 w d a b) :=
  fun _ => (fixedOk_mkWord _ _ _ _ _ _).trans rfl

theorem tkins8 (w : Bool) (d : Reg) (a : Reg) (b : Reg) : Statement (.tkins8 w d a b) :=
  fun _ => (fixedOk_mkWord _ _ _ _ _ _).trans rfl

theorem cpy (w : Bool) (sc : Scope) (i : BitVec 7) (a : Reg) (b : Reg) : Statement (.cpy w sc i a b) :=
  fun _ => (fixedOk_mkWord _ _ _ _ _ _).trans rfl

theorem cpyg (w : Bool) (sc : Scope) (i : BitVec 7) (a : Reg) (b : Reg) : Statement (.cpyg w sc i a b) :=
  fun _ => (fixedOk_mkWord _ _ _ _ _ _).trans rfl

theorem cpyx (w : Bool) (sc : Scope) (i : BitVec 7) (a : Reg) (b : Reg) : Statement (.cpyx w sc i a b) :=
  fun _ => (fixedOk_mkWord _ _ _ _ _ _).trans rfl

theorem cpyc (w : Bool) (sc : Scope) (i : BitVec 7) : Statement (.cpyc w sc i) :=
  fun _ => (fixedOk_mkWord _ _ _ _ _ _).trans rfl

theorem binit (w : Bool) (sc : Scope) (i : BitVec 7) (a : Reg) : Statement (.binit w sc i a) :=
  fun _ => (fixedOk_mkWord _ _ _ _ _ _).trans rfl

theorem barv (w : Bool) (sc : Scope) (i : BitVec 7) : Statement (.barv w sc i) :=
  fun _ => (fixedOk_mkWord _ _ _ _ _ _).trans rfl

theorem bwait (w : Bool) (i : BitVec 7) : Statement (.bwait w i) :=
  fun _ => (fixedOk_mkWord _ _ _ _ _ _).trans rfl

theorem btest (w : Bool) (d : Reg) (i : BitVec 7) : Statement (.btest w d i) :=
  fun _ => (fixedOk_mkWord _ _ _ _ _ _).trans rfl

theorem chain (w : Bool) (sc : Scope) (i : BitVec 7) (a : Reg) (b : Reg) : Statement (.chain w sc i a b) :=
  fun _ => (fixedOk_mkWord _ _ _ _ _ _).trans rfl

theorem tdef (w : Bool) (sc : Scope) (i : BitVec 7) (a : Reg) : Statement (.tdef w sc i a) :=
  fun _ => (fixedOk_mkWord _ _ _ _ _ _).trans rfl

theorem mload (w : Bool) (sc : Scope) (i : BitVec 7) (a : Reg) (b : Reg) : Statement (.mload w sc i a b) :=
  fun _ => (fixedOk_mkWord _ _ _ _ _ _).trans rfl

theorem mma (w : Bool) (sc : Scope) (i : BitVec 7) (a : Reg) (b : Reg) : Statement (.mma w sc i a b) :=
  fun _ => (fixedOk_mkWord _ _ _ _ _ _).trans rfl

theorem mgrad (w : Bool) (sc : Scope) (i : BitVec 7) (a : Reg) (b : Reg) : Statement (.mgrad w sc i a b) :=
  fun _ => (fixedOk_mkWord _ _ _ _ _ _).trans rfl

theorem mclose (w : Bool) (sc : Scope) (d : Reg) : Statement (.mclose w sc d) :=
  fun _ => (fixedOk_mkWord _ _ _ _ _ _).trans rfl

theorem mwait (w : Bool) (sc : Scope) (a : Reg) : Statement (.mwait w sc a) :=
  fun _ => (fixedOk_mkWord _ _ _ _ _ _).trans rfl

theorem mbatonTake (w : Bool) (sc : Scope) (d : Reg) : Statement (.mbatonTake w sc d) :=
  fun _ => (fixedOk_mkWord _ _ _ _ _ _).trans rfl

theorem mbatonPass (w : Bool) (sc : Scope) (d : Reg) : Statement (.mbatonPass w sc d) :=
  fun _ => (fixedOk_mkWord _ _ _ _ _ _).trans rfl

theorem mbatonQuery (w : Bool) (sc : Scope) (d : Reg) : Statement (.mbatonQuery w sc d) :=
  fun _ => (fixedOk_mkWord _ _ _ _ _ _).trans rfl

theorem idiv32 (w : Bool) (sc : Scope) (d : Reg) (a : Reg) (b : Reg) : Statement (.idiv32 w sc d a b) :=
  fun _ => (fixedOk_mkWord _ _ _ _ _ _).trans rfl

theorem idiv64 (w : Bool) (sc : Scope) (d : Reg) (a : Reg) (b : Reg) : Statement (.idiv64 w sc d a b) :=
  fun _ => (fixedOk_mkWord _ _ _ _ _ _).trans rfl

theorem irem32 (w : Bool) (sc : Scope) (d : Reg) (a : Reg) (b : Reg) : Statement (.irem32 w sc d a b) :=
  fun _ => (fixedOk_mkWord _ _ _ _ _ _).trans rfl

theorem irem64 (w : Bool) (sc : Scope) (d : Reg) (a : Reg) (b : Reg) : Statement (.irem64 w sc d a b) :=
  fun _ => (fixedOk_mkWord _ _ _ _ _ _).trans rfl

theorem fdivF32 (w : Bool) (sc : Scope) (d : Reg) (a : Reg) (b : Reg) : Statement (.fdivF32 w sc d a b) :=
  fun _ => (fixedOk_mkWord _ _ _ _ _ _).trans rfl

theorem microcoded (word : BitVec 32) : Statement (.microcoded word) := by
  intro h
  have h2 := of_decide_eq_true h
  show fixedOk word = true
  simp [fixedOk, fixedFields_micro (fieldOP word) h2]

theorem reset : Statement .reset := fun h => nomatch h

theorem resultReturn (who : Who) (n : Nat) : Statement (.resultReturn who n) := fun h => nomatch h

theorem storePerformed (n : Nat) : Statement (.storePerformed n) := fun h => nomatch h

theorem governorTrap (who : Who) : Statement (.governorTrap who) := fun h => nomatch h

theorem l1ReadLeaseExpiry (core : Nat) (line : Nat) : Statement (.l1ReadLeaseExpiry core line) := fun h => nomatch h

theorem engineBankPriority (core : Nat) : Statement (.engineBankPriority core) := fun h => nomatch h

theorem cdemoteWalk (core : Nat) : Statement (.cdemoteWalk core) := fun h => nomatch h

theorem icinvComplete (who : Who) : Statement (.icinvComplete who) := fun h => nomatch h

theorem pgxComplete (n : Nat) : Statement (.pgxComplete n) := fun h => nomatch h

theorem shoot (v : Word) : Statement (.shoot v) := fun h => nomatch h

theorem shootdownComplete : Statement .shootdownComplete := fun h => nomatch h

theorem pageFaultService (n : Nat) : Statement (.pageFaultService n) := fun h => nomatch h

theorem pfreply (v : Word) : Statement (.pfreply v) := fun h => nomatch h

theorem quantumExpiry (who : Who) : Statement (.quantumExpiry who) := fun h => nomatch h

theorem commitBufferFull (who : Who) : Statement (.commitBufferFull who) := fun h => nomatch h

theorem deterministicCommit (core : Nat) (slot : Nat) : Statement (.deterministicCommit core slot) := fun h => nomatch h

theorem engineCommandAccept (core : Nat) (n : Nat) : Statement (.engineCommandAccept core n) := fun h => nomatch h

theorem scoreboardEntryRelease (core : Nat) (n : Nat) : Statement (.scoreboardEntryRelease core n) := fun h => nomatch h

theorem copyComplete (core : Nat) (n : Nat) : Statement (.copyComplete core n) := fun h => nomatch h

theorem cpyxComplete (core : Nat) (n : Nat) (peer : Option (BitVec 8)) : Statement (.cpyxComplete core n peer) := fun h => nomatch h

theorem chainComplete (core : Nat) (n : Nat) : Statement (.chainComplete core n) := fun h => nomatch h

theorem mloadComplete (core : Nat) : Statement (.mloadComplete core) := fun h => nomatch h

theorem mmaComplete (core : Nat) : Statement (.mmaComplete core) := fun h => nomatch h

theorem mgradComplete (core : Nat) : Statement (.mgradComplete core) := fun h => nomatch h

theorem mstoreComplete (core : Nat) : Statement (.mstoreComplete core) := fun h => nomatch h

theorem bfloor (v : Word) : Statement (.bfloor v) := fun h => nomatch h

theorem bfloorWriteComplete : Statement .bfloorWriteComplete := fun h => nomatch h

theorem xlate (v : Word) : Statement (.xlate v) := fun h => nomatch h

theorem translationComplete : Statement .translationComplete := fun h => nomatch h

theorem mcload (v : Word) : Statement (.mcload v) := fun h => nomatch h

theorem patch (v : Word) : Statement (.patch v) := fun h => nomatch h

theorem microcodePatchComplete : Statement .microcodePatchComplete := fun h => nomatch h

theorem attctl (v : Word) : Statement (.attctl v) := fun h => nomatch h

theorem attestationComplete : Statement .attestationComplete := fun h => nomatch h

theorem svraise (v : Word) : Statement (.svraise v) := fun h => nomatch h

theorem pwr (v : Word) : Statement (.pwr v) := fun h => nomatch h

theorem preemptRequest (ctx : Nat) (v : Word) : Statement (.preemptRequest ctx v) := fun h => nomatch h

theorem shadowPreempt (core : Nat) (k : Nat) : Statement (.shadowPreempt core k) := fun h => nomatch h

theorem shadowCancel (core : Nat) (k : Nat) : Statement (.shadowCancel core k) := fun h => nomatch h

theorem pdecide (v : Word) : Statement (.pdecide v) := fun h => nomatch h

theorem preemptSave (core : Nat) (slot : Nat) : Statement (.preemptSave core slot) := fun h => nomatch h

theorem preemptFlush (core : Nat) (slot : Nat) : Statement (.preemptFlush core slot) := fun h => nomatch h

theorem workgroupResume (die : Nat) : Statement (.workgroupResume die) := fun h => nomatch h

theorem haltCore (core : Nat) : Statement (.haltCore core) := fun h => nomatch h

theorem coreHaltComplete (core : Nat) : Statement (.coreHaltComplete core) := fun h => nomatch h

theorem resumeCore (core : Nat) : Statement (.resumeCore core) := fun h => nomatch h

theorem haltWarp (core : Nat) (slot : Nat) (warp : Nat) : Statement (.haltWarp core slot warp) := fun h => nomatch h

theorem resumeWarp (core : Nat) (slot : Nat) (warp : Nat) : Statement (.resumeWarp core slot warp) := fun h => nomatch h

theorem stepSplit (core : Nat) (slot : Nat) (warp : Nat) (split : Nat) : Statement (.stepSplit core slot warp split) := fun h => nomatch h

theorem inject (core : Nat) (slot : Nat) (warp : Nat) (v : Word) : Statement (.inject core slot warp v) := fun h => nomatch h

theorem dbgdata (core : Nat) (slot : Nat) (warp : Nat) (reg : Word) (v : Word) : Statement (.dbgdata core slot warp reg v) := fun h => nomatch h

theorem breakpointHit (who : Who) : Statement (.breakpointHit who) := fun h => nomatch h

theorem intakePost (ctx : Nat) (off : Nat) (data : List Byte) : Statement (.intakePost ctx off data) := fun h => nomatch h

theorem intakeQueueDrain (ctx : Nat) : Statement (.intakeQueueDrain ctx) := fun h => nomatch h

theorem hostWrite (link : Nat) (off : Nat) (data : List Byte) : Statement (.hostWrite link off data) := fun h => nomatch h

theorem hostRead (link : Nat) (off : Nat) (len : Nat) : Statement (.hostRead link off len) := fun h => nomatch h

theorem mgmtWindowWrite (off : Nat) (v : Word) : Statement (.mgmtWindowWrite off v) := fun h => nomatch h

theorem peerFlit (msg : PeerMsg) : Statement (.peerFlit msg) := fun h => nomatch h

theorem collContribution (core : Nat) (n : Nat) (rank : Nat) (tag : BitVec 32) (digest : BitVec 32) (vals : List FVal) : Statement (.collContribution core n rank tag digest vals) := fun h => nomatch h

theorem collComplete (core : Nat) (n : Nat) : Statement (.collComplete core n) := fun h => nomatch h

theorem collMemberLeft (chip : Nat) : Statement (.collMemberLeft chip) := fun h => nomatch h

theorem taskPlacement (die : Nat) : Statement (.taskPlacement die) := fun h => nomatch h

theorem localQueueTake (core : Nat) : Statement (.localQueueTake core) := fun h => nomatch h

theorem steal (core : Nat) : Statement (.steal core) := fun h => nomatch h

theorem pondAgingExpiry (die : Nat) (level : Nat) : Statement (.pondAgingExpiry die level) := fun h => nomatch h

theorem deferredEnqueue : Statement .deferredEnqueue := fun h => nomatch h

theorem taskDispatch (core : Nat) : Statement (.taskDispatch core) := fun h => nomatch h

theorem stagingAbort (core : Nat) (slot : Nat) : Statement (.stagingAbort core slot) := fun h => nomatch h

theorem joinNode (die : Nat) : Statement (.joinNode die) := fun h => nomatch h

theorem condNode (die : Nat) : Statement (.condNode die) := fun h => nomatch h

theorem loopNode (die : Nat) : Statement (.loopNode die) := fun h => nomatch h

theorem taskComplete (core : Nat) (slot : Nat) : Statement (.taskComplete core slot) := fun h => nomatch h

theorem tspawnEnqueue (who : Who) : Statement (.tspawnEnqueue who) := fun h => nomatch h

theorem tsuccDecrement (who : Who) : Statement (.tsuccDecrement who) := fun h => nomatch h

theorem illegalInstruction (word : BitVec 32) : Statement (.illegalInstruction word) := fun h => nomatch h

theorem instructionFetchFault (who : Who) : Statement (.instructionFetchFault who) := fun h => nomatch h

theorem linkTraining (link : Nat) (width : Nat) : Statement (.linkTraining link width) := fun h => nomatch h

theorem clockLowering (level : Nat) : Statement (.clockLowering level) := fun h => nomatch h

theorem expertLocationTableUpkeep (expert : Nat) (chip : Nat) (core : Nat) : Statement (.expertLocationTableUpkeep expert chip core) := fun h => nomatch h

end FixedFields

end Sys2Proof.Laws
end

