-- ==== Sys2Proof/Laws/Shared.lean ====
section
/-! SUPPORT. What the shared operations of a write by another agent than a core, and of a shootdown, can change. -/

namespace Sys2Proof.Laws

open Sys2Proof.Machine

theorem tget_tmap {α : Type} (f : α → α) (t : Table α) (k : Nat) : tget? (tmap f t) k = (tget? t k).map f := by
  induction t with
  | nil => rfl
  | cons e t ih =>
    simp only [tmap, List.map_cons, tget?] at ih ⊢
    split
    · rfl
    · exact ih

/-- Reading a changed table, where what an absent entry stands for is unchanged. -/
theorem tgetD_tmap {α : Type} (f : α → α) (d : α) (t : Table α) (k : Nat) (h : f d = d) :
    tgetD d (tmap f t) k = f (tgetD d t k) := by
  rw [tgetD, tgetD, tget_tmap]
  cases tget? t k <;> simp [h]

/-! ### A write by another agent than a core (R252, R256) -/

/-- Only what writes under way hide changes. -/
theorem settled_frame (s : State) (a : Nat) (bs : List Byte) : { settled s a bs with pend := s.pend } = s := rfl

theorem settled_length (s : State) (a : Nat) (bs : List Byte) : (settled s a bs).pend.length = s.pend.length := by simp [settled]

/-- A write under way hides the bytes that have been written where it meets them, and what it hid before elsewhere. -/
theorem settled_pend (s : State) (a : Nat) (bs : List Byte) (n : Nat) (p : Pend) (h : s.pend[n]? = some p) :
    ∃ old, (settled s a bs).pend[n]? = some { p with old := old } ∧ old.length = p.old.length ∧ ∀ i, i < old.length →
      let x := placeOf s p.ctx p.pa + i
      old[i]? = if a ≤ x ∧ x < a + bs.length then bs[x - a]? else p.old[i]? := by
  simp only [settled, List.getElem?_map, h, Option.map_some]
  split
  next hm =>
    refine ⟨_, rfl, by simp, fun i hi => ?_⟩
    have hi : i < p.old.length := by simpa using hi
    simp only [List.getElem?_map, List.getElem?_zipIdx, List.getElem?_eq_getElem hi, Option.map_some, Nat.zero_add]
    split
    next hx =>
      have hb : placeOf s p.ctx p.pa + i - a < bs.length := by omega
      simp [List.getElem?_eq_getElem hb]
    next => rfl
  next hm =>
    refine ⟨p.old, rfl, rfl, fun i hi => ?_⟩
    rw [if_neg (by omega)]

/-! ### A shootdown (R230, R231) -/

/-- Only cores and the second-level TLBs change. -/
theorem shootPages_frame (s : State) (ctx lo hi : Nat) :
    { shootPages s ctx lo hi with cores := s.cores, tlb2 := s.tlb2 } = s := rfl

/-- A core loses the translations of the range, and its banks that were loaded from it become source-stale. -/
theorem getCore_shootPages (s : State) (ctx lo hi n : Nat) :
    getCore (shootPages s ctx lo hi) n =
      { getCore s n with
        tlb := (getCore s n).tlb.filter fun e => !tlbMeets ctx lo hi e
        banks := tmap (fun k => if staleIn ctx lo hi k then { k with stale := true } else k) (getCore s n).banks } := by
  simp only [getCore, shootPages, markStale, tlbDrop]
  rw [tgetD_tmap _ _ _ _ (by rfl), tgetD_tmap _ _ _ _ (by rfl)]

theorem tlb2_shootPages (s : State) (ctx lo hi die : Nat) :
    tgetD [] (shootPages s ctx lo hi).tlb2 die = (tgetD [] s.tlb2 die).filter fun e => !tlbMeets ctx lo hi e :=
  tgetD_tmap _ _ _ _ rfl

end Sys2Proof.Laws
end

