-- ==== Sys2Proof/Machine/ChasmText.lean ====
section
/-! DEFINITION. chasm, the assembler (chapter 02): characters, tokens, expressions and statements (R19–R23). Errors are the
codes of R47, and as many are kept as can be told apart (R46). -/

namespace Sys2Proof.Machine.Chasm

/-- Names and texts as characters. -/
abbrev Str := List Char

/-- The diagnostics of R47. -/
inductive Code where
  | a01 | a02 | a03 | a04 | a05 | a06 | a07 | a08 | a09 | a10 | a11 | a12 | a20 | a21 | a22 | a23
  deriving DecidableEq, Repr

/-- A warning leaves the image unchanged (R46). -/
def Code.warns : Code → Bool
  | .a20 => true | .a21 => true | .a22 => true | .a23 => true
  | .a01 => false | .a02 => false | .a03 => false | .a04 => false | .a05 => false | .a06 => false | .a07 => false
  | .a08 => false | .a09 => false | .a10 => false | .a11 => false | .a12 => false

/-- A result, or every error that stands in its way (R46). -/
abbrev Checked (ε α : Type) := Except (List ε) α

/-- Two results, or the errors of both. -/
def pair {ε α β : Type} (x : Checked ε α) (y : Checked ε β) : Checked ε (α × β) :=
  match x, y with
  | .ok a, .ok b => .ok (a, b)
  | .ok _, .error f => .error f
  | .error e, .ok _ => .error e
  | .error e, .error f => .error (e ++ f)

/-- A result for each member, or the errors of all. -/
def each {ε α β : Type} (f : α → Checked ε β) : List α → Checked ε (List β)
  | [] => .ok []
  | a :: as => (pair (f a) (each f as)).map fun p => p.1 :: p.2

/-- Nothing, or the errors of some results. -/
def sound {ε : Type} (xs : List (Checked ε Unit)) : Checked ε Unit := (each id xs).map fun _ => ()

def void {ε α : Type} (x : Checked ε α) : Checked ε Unit := x.map fun _ => ()

/-- A token: an identifier, a number with its text, the bytes of a string, an operator or a mark, and the place of a malformed
one. -/
inductive Tok where
  | id (s : Str)
  | num (s : Str) (v : Nat)
  | str (bs : List Byte)
  | op (s : Str)
  | hole
  deriving DecidableEq, Repr

/-! ### Tokens (R19–R22) -/

def isDigit (c : Char) : Bool := decide ('0' ≤ c) && decide (c ≤ '9')
def isLetter (c : Char) : Bool := (decide ('a' ≤ c) && decide (c ≤ 'z')) || (decide ('A' ≤ c) && decide (c ≤ 'Z')) || c == '_'
def isWordChar (c : Char) : Bool := isDigit c || isLetter c

/-- The small letter of a capital. -/
def lowerChar (c : Char) : Char := if 'A' ≤ c ∧ c ≤ 'Z' then Char.ofNat (c.toNat + 32) else c

/-- A name without regard to case (R21). -/
def lower (s : Str) : Str := s.map lowerChar

/-- A name of the rules, and whether a text spells it without regard to case. -/
def spells (s : Str) (name : String) : Bool := lower s == lower name.toList

/-- The value of a digit. -/
def digitOf (c : Char) : Option Nat :=
  if isDigit c then some (c.toNat - 48)
  else if 'a' ≤ c ∧ c ≤ 'f' then some (c.toNat - 87)
  else if 'A' ≤ c ∧ c ≤ 'F' then some (c.toNat - 55)
  else none

/-- Digits of a base, with underscores between two digits; `after` says that a digit came just before. -/
def digits (base : Nat) : Str → Nat → Bool → Option Nat
  | [], v, after => if after then some v else none
  | '_' :: cs, v, true => digits base cs v false
  | '_' :: _, _, false => none
  | c :: cs, v, _ =>
    match digitOf c with
    | some d => if d < base then digits base cs (v * base + d) true else none
    | none => none

/-- A number of at most 64 bits (R22). -/
def number (s : Str) : Option Nat :=
  let v := match s with
    | '0' :: 'x' :: cs => digits 16 cs 0 false
    | '0' :: 'b' :: cs => digits 2 cs 0 false
    | cs => digits 10 cs 0 false
  match v with
  | some n => if n < 2 ^ 64 then some n else none
  | none => none

/-- The UTF-8 bytes of a character. -/
def utf8 (c : Char) : List Byte :=
  let n := c.toNat
  let tail := fun (k : Nat) => BitVec.ofNat 8 (0x80 + n / 64 ^ k % 64)
  if n < 0x80 then [BitVec.ofNat 8 n]
  else if n < 0x800 then [BitVec.ofNat 8 (0xC0 + n / 64), tail 0]
  else if n < 0x10000 then [BitVec.ofNat 8 (0xE0 + n / 4096), tail 1, tail 0]
  else [BitVec.ofNat 8 (0xF0 + n / 262144), tail 2, tail 1, tail 0]

/-- The characters of a string after its opening quote: its bytes, and what follows the closing one. -/
def stringFrom : Nat → Str → List Byte → Except Code (List Byte × Str)
  | 0, _, _ => .error .a12
  | n + 1, cs, bs =>
    match cs with
    | [] => .error .a12
    | '"' :: cs => .ok (bs, cs)
    | '\\' :: 'x' :: h :: l :: cs =>
      match digitOf h, digitOf l with
      | some a, some b => stringFrom n cs (bs ++ [BitVec.ofNat 8 (16 * a + b)])
      | some _, none => .error .a12
      | none, _ => .error .a12
    | '\\' :: 'n' :: cs => stringFrom n cs (bs ++ [0x0A])
    | '\\' :: 't' :: cs => stringFrom n cs (bs ++ [0x09])
    | '\\' :: '0' :: cs => stringFrom n cs (bs ++ [0x00])
    | '\\' :: '\\' :: cs => stringFrom n cs (bs ++ [0x5C])
    | '\\' :: '"' :: cs => stringFrom n cs (bs ++ [0x22])
    | '\\' :: _ => .error .a12
    | c :: cs => stringFrom n cs (bs ++ utf8 c)

/-- Operators of two characters, and of one. -/
def pairs : List Str := ["||", "&&", "==", "!=", "<=", ">=", "<<", ">>"].map String.toList
def marks : Str := "+-*/%~!&|^<>?:(),#=.".toList

/-- Whether a token ends a name, ends a name and a point, or neither: what stands after the second is a suffix. -/
inductive Before where
  | other | name | point
  deriving DecidableEq, Repr

def Before.next (b : Before) (t : Tok) : Before :=
  match t with
  | .id _ => .name
  | .num _ _ => if b = .point then .name else .other
  | .op s => if s = ['.'] ∧ b = .name then .point else .other
  | .str _ => .other
  | .hole => .other

/-- A word of letters and digits: an identifier, a number, or a suffix of any spelling (R23). -/
def wordTok (b : Before) (w : Str) : Option Tok :=
  if w.head?.any isDigit then
    match number w with
    | some v => some (.num w v)
    | none => if b = .point then some (.id w) else none
  else if 255 < w.length then none
  else some (.id w)

/-- The tokens of a line, with a hole and an A12 for each that is malformed (R22); `n` bounds its length. -/
def lexFrom : Nat → Before → Str → List Code × List Tok
  | 0, _, _ => ([], [])
  | n + 1, b, cs =>
    let skip := fun rest => let r := lexFrom n .other rest; (Code.a12 :: r.1, .hole :: r.2)
    let take := fun t rest => let r := lexFrom n (b.next t) rest; (r.1, t :: r.2)
    match cs with
    | [] => ([], [])
    | c :: rest =>
      if c = ' ' ∨ c = '\t' then lexFrom n b rest
      else if c = ';' ∨ (c = '/' ∧ rest.head? = some '/') then ([], [])
      else if c = '"' then
        match stringFrom (n + 1) rest [] with
        | .ok r => take (.str r.1) r.2
        | .error e => ([e], [.hole])
      else if isWordChar c then
        match wordTok b (cs.takeWhile isWordChar) with
        | some t => take t (cs.dropWhile isWordChar)
        | none => skip (cs.dropWhile isWordChar)
      else if pairs.contains (cs.take 2) then take (.op (cs.take 2)) (rest.drop 1)
      else if marks.contains c then take (.op [c]) rest
      else skip rest

/-- The tokens of a line without its line feed; a carriage return before it is ignored (R19). -/
def tokens (line : Str) : List Code × List Tok :=
  let cs := if line.getLast? = some '\r' then line.dropLast else line
  lexFrom (cs.length + 1) .other cs

/-- The lines of a text (R19). -/
def linesOf : Str → List Str
  | [] => [[]]
  | '\n' :: cs => [] :: linesOf cs
  | c :: cs =>
    match linesOf cs with
    | [] => [[c]]
    | l :: ls => (c :: l) :: ls

/-! ### Expressions (R23, R33, R34) -/

inductive Un where
  | neg | inv | not
  deriving DecidableEq, Repr

inductive Bin where
  | or | xor | and | eq | ne | lt | le | gt | ge | shl | shr | add | sub | mul | div | rem
  deriving DecidableEq, Repr

inductive Expr where
  | num (v : Nat)
  | sym (s : Str)
  | here
  | un (o : Un) (e : Expr)
  | bin (o : Bin) (a b : Expr)
  | both (a b : Expr)
  | either (a b : Expr)
  | cond (c a b : Expr)
  | lo14 (e : Expr)
  | wordoff (e : Expr)
  | sizeof (s : Str)
  /-- tokens that are no expression, with their error -/
  | bad (c : Code)
  /-- a malformed token, or what cannot be read around one -/
  | hole
  deriving DecidableEq, Repr

/-- What an operator builds. -/
abbrev Build := Expr → Expr → Expr

/-- The levels of the grammar, from the loosest. -/
def levels : List (List (Str × Build)) :=
  [[("||".toList, .either)], [("&&".toList, .both)], [("|".toList, .bin .or)], [("^".toList, .bin .xor)],
   [("&".toList, .bin .and)], [("==".toList, .bin .eq), ("!=".toList, .bin .ne)],
   [("<".toList, .bin .lt), ("<=".toList, .bin .le), (">".toList, .bin .gt), (">=".toList, .bin .ge)],
   [("<<".toList, .bin .shl), (">>".toList, .bin .shr)], [("+".toList, .bin .add), ("-".toList, .bin .sub)],
   [("*".toList, .bin .mul), ("/".toList, .bin .div), ("%".toList, .bin .rem)]]

/-- An expression and the tokens after it. -/
abbrev Parsed := Option (Expr × List Tok)

/-- The mark at the head of some tokens. -/
def markIs (ts : List Tok) (s : String) : Bool := ts.head? == some (.op s.toList)

/-- More operands of a level, from the left. -/
def more (operand : List Tok → Parsed) (ops : List (Str × Build)) : Nat → Expr → List Tok → Parsed
  | 0, e, ts => some (e, ts)
  | n + 1, e, ts =>
    match ts with
    | .op s :: rest =>
      match ops.find? fun o => o.1 == s with
      | some o =>
        match operand rest with
        | some r => more operand ops n (o.2 e r.1) r.2
        | none => none
      | none => some (e, ts)
    | [] => some (e, ts)
    | .id _ :: _ => some (e, ts) | .num _ _ :: _ => some (e, ts) | .str _ :: _ => some (e, ts) | .hole :: _ => some (e, ts)

/-- One level over the next. -/
def level (n : Nat) (ops : List (Str × Build)) (operand : List Tok → Parsed) (ts : List Tok) : Parsed :=
  match operand ts with
  | some r => more operand ops n r.1 r.2
  | none => none

/-- A tightest part: an operator before its operand, or a primary; `expr` reads what stands in parentheses. The helper
operators are read in any capitals, as R21 reserves them [DESIGN CHOICE: its list of what is matched so does not name them]. -/
def unary (expr : List Tok → Parsed) : Nat → List Tok → Parsed
  | 0, _ => none
  | n + 1, ts =>
    let closed := fun (f : Expr → Expr) (rest : List Tok) =>
      match expr rest with
      | some (e, .op [')'] :: rest) => some (f e, rest)
      | some _ => none
      | none => none
    match ts with
    | .op ['-'] :: rest => (unary expr n rest).map fun r => (.un .neg r.1, r.2)
    | .op ['~'] :: rest => (unary expr n rest).map fun r => (.un .inv r.1, r.2)
    | .op ['!'] :: rest => (unary expr n rest).map fun r => (.un .not r.1, r.2)
    | .op ['('] :: rest => closed id rest
    | .op ['.'] :: rest => some (.here, rest)
    | .num _ v :: rest => some (.num v, rest)
    | .id s :: .op ['('] :: rest =>
      if spells s "lo14" then closed .lo14 rest
      else if spells s "wordoff" then closed .wordoff rest
      else if spells s "sizeof" then
        match rest with
        | .id t :: .op [')'] :: rest => some (.sizeof t, rest)
        | _ => none
      else some (.sym s, .op ['('] :: rest)
    | .id s :: rest => some (.sym s, rest)
    | .hole :: rest => some (.hole, rest)
    | .op _ :: _ => none | .str _ :: _ => none | [] => none

/-- An expression; `n` bounds its length. -/
def exprFrom : Nat → List Tok → Parsed
  | 0, _ => none
  | n + 1, ts =>
    let lor := levels.foldr (level (n + 1)) (unary (exprFrom n) (n + 1))
    match lor ts with
    | some (c, .op ['?'] :: rest) =>
      match exprFrom n rest with
      | some (a, .op [':'] :: rest) => (exprFrom n rest).map fun r => (.cond c a r.1, r.2)
      | some _ => none
      | none => none
    | r => r

/-- Tokens that are one expression. R47 has no row for text that the grammar does not allow: tokens that are no expression are
A08, an empty operand is A04, and a line that begins with no name is A01 [DESIGN CHOICE, log entry 53]. -/
def exprOf (ts : List Tok) : Expr :=
  match exprFrom (ts.length + 1) ts with
  | some (e, []) => e
  | some (_, _ :: _) => none_
  | none => none_
where
  none_ : Expr := if ts.contains .hole then .hole else .bad .a08

/-! ### Statements (R23) -/

/-- An operand of an instruction: a lone name, `#expr`, `=expr`, or an expression. -/
inductive Operand where
  | name (s : Str)
  | imm (e : Expr)
  | lit (e : Expr)
  | exp (e : Expr)
  deriving DecidableEq, Repr

/-- A part of a directive's operand: a lone name, or an expression. -/
inductive Elem where
  | name (s : Str)
  | exp (e : Expr)
  deriving DecidableEq, Repr

/-- An operand of a directive. -/
inductive Darg where
  | elem (e : Elem)
  | str (bs : List Byte)
  | keyed (k : Str) (e : Elem)
  | tuple (k : Str) (es : List Elem)
  deriving DecidableEq, Repr

inductive Stmt where
  | instr (mn : Str) (sfx : List Str) (ops : List Operand)
  | dir (name : Str) (args : List Darg)
  deriving DecidableEq, Repr

/-- A line: the column of its first character that is no blank, the errors of its tokens, its label, and its statement or the
errors that leave none. -/
structure Line where
  col   : Nat
  toks  : List Code
  label : Option Str
  stmt  : Checked Code (Option Stmt)

/-- The parts between commas outside parentheses. -/
def splitCommas : List Tok → Nat → List Tok → List (List Tok)
  | [], _, part => [part.reverse]
  | t :: ts, depth, part =>
    if t = .op [','] ∧ depth = 0 then part.reverse :: splitCommas ts 0 []
    else
      let depth := if t = .op ['('] then depth + 1 else if t = .op [')'] then depth - 1 else depth
      splitCommas ts depth (t :: part)

def partsOf (ts : List Tok) : List (List Tok) := if ts.isEmpty then [] else splitCommas ts 0 []

def operandOf (ts : List Tok) : Operand :=
  match ts with
  | [] => .exp (.bad .a04)
  | [.id s] => .name s
  | .op ['#'] :: rest => .imm (exprOf rest)
  | .op ['='] :: rest => .lit (exprOf rest)
  | ts => .exp (exprOf ts)

def elemOf (ts : List Tok) : Elem :=
  match ts with
  | [] => .exp (.bad .a04)
  | [.id s] => .name s
  | ts => .exp (exprOf ts)

/-- The keys whose value is a tuple (R43, R45). -/
def tupleKeys : List String := ["dims", "strides", "tile", "blocks", "args"]

def dargOf (ts : List Tok) : Darg :=
  match ts with
  | [.str bs] => .str bs
  | .id k :: .op ['='] :: rest =>
    let inner := rest.drop 1 |>.dropLast
    if tupleKeys.any (spells k) && rest.head? == some (.op ['(']) && rest.getLast? == some (.op [')']) && decide (2 ≤ rest.length) then
      .tuple k (if inner.isEmpty then [] else (splitCommas inner 0 []).map elemOf)
    else .keyed k (elemOf rest)
  | ts => .elem (elemOf ts)

/-- The suffixes after a mnemonic. -/
def suffixes : List Tok → List Str × List Tok
  | .op ['.'] :: .id s :: ts => ((s :: (suffixes ts).1), (suffixes ts).2)
  | .op ['.'] :: .num s _ :: ts => ((s :: (suffixes ts).1), (suffixes ts).2)
  | .op ['.'] :: .hole :: ts => (([] :: (suffixes ts).1), (suffixes ts).2)
  | ts => ([], ts)

def stmtOf (ts : List Tok) : Checked Code (Option Stmt) :=
  match ts with
  | [] => .ok none
  | .hole :: _ => .error []
  | .op ['.'] :: .hole :: _ => .error []
  | .op ['.'] :: .id d :: rest => .ok (some (.dir d ((partsOf rest).map dargOf)))
  | .id mn :: rest =>
    let r := suffixes rest
    .ok (some (.instr mn r.1 ((partsOf r.2).map operandOf)))
  | _ => .error [.a01]

/-- A line of source (R23); what stands beside a malformed token is read all the same (R46). -/
def lineOf (line : Str) : Line :=
  let r := tokens line
  let col := (line.takeWhile fun c => c == ' ' || c == '\t').length + 1
  match r.2 with
  | .id l :: .op [':'] :: ts => { col := col, toks := r.1, label := some l, stmt := stmtOf ts }
  | .hole :: .op [':'] :: ts => { col := col, toks := r.1, label := none, stmt := stmtOf ts }
  | ts => { col := col, toks := r.1, label := none, stmt := stmtOf ts }

end Sys2Proof.Machine.Chasm
end

