-- ==== Sys2Proof/Machine/ChasmExpr.lean ====
section
/-! DEFINITION. chasm, the assembler (chapter 02): values, symbols and the evaluation of expressions (R21, R33–R36). -/

namespace Sys2Proof.Machine.Chasm

/-- The two sections (R37). -/
inductive Sec where
  | text | data
  deriving DecidableEq, Repr

/-- A value: a signed 64-bit number, from the base of a section where it is relocatable (R33, R35). -/
structure Val where
  n   : Int
  sec : Option Sec
  deriving DecidableEq, Repr

/-- A number as a signed 64-bit value (R33). -/
def wrap (n : Int) : Int := (BitVec.ofInt 64 n).toInt

def Val.abs (n : Int) : Val := { n := wrap n, sec := none }

/-- Why a value is not known: an error, a symbol that a later line defines, or a malformed token, which its line reports. -/
inductive Stop where
  | err (c : Code)
  | later
  | told
  deriving DecidableEq, Repr

abbrev Ev (α : Type) := Checked Stop α

def fail {α : Type} (c : Code) : Ev α := .error [.err c]

/-- What stands in the way of a result. -/
def errs {α : Type} (x : Ev α) : List Stop :=
  match x with
  | .ok _ => []
  | .error e => e

/-- An error beside others. -/
def failWith {α : Type} (c : Code) (es : List Stop) : Ev α := .error (.err c :: es)

/-! ### Names (R21, R24) -/

/-- Decimal digits, at least one. -/
def allDigits (s : Str) : Bool := !s.isEmpty && s.all isDigit

/-- A name of register form (R21): one of V, S, K and B before decimal digits. -/
def registerForm (s : Str) : Bool :=
  match lower s with
  | 'v' :: ds => allDigits ds | 's' :: ds => allDigits ds | 'k' :: ds => allDigits ds | 'b' :: ds => allDigits ds
  | _ => false

/-- A number without leading zeros that is below a bound. -/
def indexBelow (n : Nat) (ds : Str) : Option Nat :=
  if allDigits ds && (ds.length == 1 || ds.head? != some '0') then
    match digits 10 ds 0 false with
    | some v => if v < n then some v else none
    | none => none
  else none

/-- The field value of a register name (R24). -/
def registerOf (s : Str) : Option (BitVec 7) :=
  match lower s with
  | 'v' :: ds => (indexBelow 64 ds).map (BitVec.ofNat 7)
  | 'k' :: ds => (indexBelow 8 ds).map fun n => BitVec.ofNat 7 (112 + n)
  | 's' :: ds => (indexBelow 48 ds).map fun n => BitVec.ofNat 7 (64 + n)
  | l =>
    ((["ZR", "LID", "WID", "EMASK", "TILE", "TSEQ", "RCNT", "TAG"].zipIdx).find? fun p => l == lower p.1.toList).map
      fun p => BitVec.ofNat 7 (120 + p.2)

/-- The number of a barrier name (R25). -/
def barrierOf (s : Str) : Option Nat :=
  match lower s with
  | 'b' :: ds => indexBelow 16 ds
  | _ => none

/-- A name of register form that names no register (R21). -/
def noRegister (s : Str) : Bool := registerForm s && (registerOf s).isNone && (barrierOf s).isNone

/-- A name that no symbol may have (R21). -/
def reserved (s : Str) : Bool :=
  registerForm s || (registerOf s).isSome || ["lo14", "wordoff", "sizeof"].any (spells s)

/-! ### Symbols -/

/-- Values by name. -/
abbrev Names (α : Type) := List (Str × α)

def find {α : Type} (t : Names α) (s : Str) : Option α := (t.find? fun e => e.1 == s).map Prod.snd

/-- A definition or a place whose value may change with others: a symbol, or a point of a section where what follows is moved
by an alignment or a pool. -/
inductive Node where
  | sym (s : Str)
  | point (sec : Sec) (k : Nat)
  deriving DecidableEq, Repr

/-- What a value needs (R36): where a relocatable one stands, by its section and the points before it; the nodes that it adds
up, with their factors; and the nodes that it reads otherwise. -/
structure Need where
  place : Option (Sec × Nat)
  sum   : List (Node × Int)
  on    : List Node
  deriving DecidableEq, Repr

/-- What an expression is evaluated in: the symbols met so far in this pass and all of the pass before, the sizes that
R34 gives, what each definition needs, the address of the statement and the points before it, and whether an instruction holds
the expression. -/
structure Env where
  now   : Names Val
  was   : Names Val
  sizes : Names Nat
  sizesWas : Names Nat
  final : Bool
  needs : Names Need
  here  : Val
  point : Nat
  instr : Bool

/-- The value of a symbol. -/
def Env.symbol (v : Env) (s : Str) : Ev Val :=
  if noRegister s then fail .a01
  else if reserved s then fail .a07
  else
    match find v.now s, find v.was s with
    | some x, _ => .ok x
    | none, some x => .ok x
    | none, none => if v.final then fail .a07 else .error [.later]

/-- sizeof(s), R34. -/
def Env.sizeOf (v : Env) (s : Str) : Ev Val :=
  match find v.sizes s, find v.sizesWas s with
  | some n, _ => .ok (.abs n)
  | none, some n => .ok (.abs n)
  | none, none =>
    match v.symbol s with
    | .ok _ => fail .a08
    | .error e => .error e

/-! ### Evaluation (R33–R35) -/

/-- The number of an absolute value; a relocatable one is misused (R35). -/
def absolute (v : Val) : Ev Int := if v.sec.isNone then .ok v.n else fail .a08

def ofBool (b : Bool) : Int := if b then 1 else 0

/-- The operators on numbers (R33). The quotient -2^63 / -1 wraps to -2^63 with no error [DESIGN CHOICE, log entry 53: R33's list of
what wraps does not name division]. -/
def arith (o : Bin) (a b : Int) : Ev Int :=
  let bits := fun (f : BitVec 64 → BitVec 64 → BitVec 64) => (f (BitVec.ofInt 64 a) (BitVec.ofInt 64 b)).toInt
  match o with
  | .or => .ok (bits (· ||| ·)) | .xor => .ok (bits (· ^^^ ·)) | .and => .ok (bits (· &&& ·))
  | .eq => .ok (ofBool (a == b)) | .ne => .ok (ofBool (a != b))
  | .lt => .ok (ofBool (decide (a < b))) | .le => .ok (ofBool (decide (a ≤ b)))
  | .gt => .ok (ofBool (decide (b < a))) | .ge => .ok (ofBool (decide (b ≤ a)))
  | .shl => if 0 ≤ b ∧ b ≤ 63 then .ok (a * 2 ^ b.toNat) else fail .a08
  | .shr => if 0 ≤ b ∧ b ≤ 63 then .ok (a / 2 ^ b.toNat) else fail .a08
  | .add => .ok (a + b) | .sub => .ok (a - b) | .mul => .ok (a * b)
  | .div => if b = 0 then fail .a08 else .ok (a.tdiv b)
  | .rem => if b = 0 then fail .a08 else .ok (a.tmod b)

/-- An operator on values: a relocatable value takes an absolute one more or less, and two of one section have a
difference (R35). -/
def operate (o : Bin) (a b : Val) : Ev Val :=
  match a.sec, b.sec with
  | none, none => (arith o a.n b.n).map .abs
  | some s, none =>
    if o = .add ∨ o = .sub then (arith o a.n b.n).map fun n => { n := wrap n, sec := some s } else fail .a08
  | none, some s => if o = .add then .ok { n := wrap (a.n + b.n), sec := some s } else fail .a08
  | some s, some t => if o = .sub ∧ s = t then .ok (.abs (a.n - b.n)) else fail .a08

/-- The names in an expression that no expression may hold, evaluated or not (R21, R24). -/
def misnamed : Expr → List Stop
  | .num _ => [] | .here => [] | .bad _ => [] | .hole => []
  | .sym s => name s
  | .sizeof s => name s
  | .un _ e => misnamed e
  | .bin _ a b => misnamed a ++ misnamed b
  | .both a b => misnamed a ++ misnamed b
  | .either a b => misnamed a ++ misnamed b
  | .cond c a b => misnamed c ++ misnamed a ++ misnamed b
  | .lo14 e => misnamed e
  | .wordoff e => misnamed e
where
  name (s : Str) : List Stop := if noRegister s then [.err .a01] else if reserved s then [.err .a07] else []

/-- A value that leaves some operands without evaluation: their names are held against R21 all the same. -/
def spared (x : Ev Val) (es : List Expr) : Ev Val := (pair x (errors (es.flatMap misnamed))).map Prod.fst
where
  errors (es : List Stop) : Ev Unit := if es.isEmpty then .ok () else .error es

/-- The value of an expression; `&&`, `||` and `?:` evaluate what they need, and give no relocatable value (R35). -/
def eval (v : Env) : Expr → Ev Val
  | .num n => .ok (.abs n)
  | .sym s => v.symbol s
  | .here => .ok v.here
  | .un o e => do
    let n ← absolute (← eval v e)
    return .abs (match o with
      | .neg => -n
      | .inv => -n - 1
      | .not => ofBool (n == 0))
  | .bin o a b => do
    let p ← pair (eval v a) (eval v b)
    operate o p.1 p.2
  | .both a b =>
    match do absolute (← eval v a) with
    | .error e => spared (.error e) [b]
    | .ok n => if n = 0 then spared (.ok (.abs 0)) [b] else do return .abs (ofBool ((← absolute (← eval v b)) != 0))
  | .either a b =>
    match do absolute (← eval v a) with
    | .error e => spared (.error e) [b]
    | .ok n => if n ≠ 0 then spared (.ok (.abs 1)) [b] else do return .abs (ofBool ((← absolute (← eval v b)) != 0))
  | .cond c a b =>
    match do absolute (← eval v c) with
    | .error e => spared (.error e) [a, b]
    | .ok n =>
      if n ≠ 0 then spared (do return .abs (← absolute (← eval v a))) [b]
      else spared (do return .abs (← absolute (← eval v b))) [a]
  | .lo14 e => do return .abs ((← absolute (← eval v e)) % 16384)
  | .wordoff e => do
    let x ← eval v e
    let d := x.n - v.here.n
    if v.instr ∧ x.sec = v.here.sec ∧ d % 4 = 0 then return .abs (d / 4) else fail .a08
  | .sizeof s => v.sizeOf s
  | .bad c => fail c
  | .hole => .error [.told]

/-! ### What a value needs (R36) -/

def Need.none : Need := { place := Option.none, sum := [], on := [] }

/-- Every node that a value reads. -/
def Need.nodes (x : Need) : List Node := x.on ++ x.sum.map Prod.fst

/-- A value that reads others in a way that is no sum. -/
def mixed (xs : List Need) : Need := { place := Option.none, sum := [], on := xs.flatMap Need.nodes }

/-- The points between two places of a section, which a distance adds up. -/
def between (sec : Sec) (i j : Nat) : List (Node × Int) :=
  (List.range (max i j - min i j)).map fun k => (.point sec (min i j + k), if i ≤ j then 1 else -1)

/-- The difference of two values. -/
def Need.minus (x y : Need) : Need :=
  let sum := x.sum ++ y.sum.map fun e => (e.1, -e.2)
  match x.place, y.place with
  | some p, some q => { place := Option.none, sum := sum ++ between p.1 q.2 p.2, on := x.on ++ y.on }
  | some p, Option.none => { place := some p, sum := sum, on := x.on ++ y.on }
  | Option.none, _ => { place := Option.none, sum := sum, on := x.on ++ y.on }

/-- The nodes of a sum that do not cancel. -/
def net (es : List (Node × Int)) : List Node :=
  (es.map Prod.fst).filter fun n => ((es.filter fun e => e.1 == n).map Prod.snd).sum != 0

/-- The need of a statement's own place. -/
def Env.place (v : Env) : Need := { Need.none with place := v.here.sec.map fun sec => (sec, v.point) }

/-- The need of an expression, as far as it is evaluated. The size that sizeof gives depends on no other value. -/
def needOf (v : Env) : Expr → Need
  | .num _ => .none | .sizeof _ => .none | .bad _ => .none | .hole => .none
  | .here => v.place
  | .sym s =>
    match (find v.needs s).bind Need.place with
    | some p => { place := some p, sum := [], on := [.sym s] }
    | Option.none => { place := Option.none, sum := [(.sym s, 1)], on := [] }
  | .un .neg e => Need.none.minus (needOf v e)
  | .un .inv e => Need.none.minus (needOf v e)
  | .un .not e => mixed [needOf v e]
  | .bin o a b =>
    let x := needOf v a
    let y := needOf v b
    if o = .sub then x.minus y
    else if o = .add then { place := x.place.or y.place, sum := x.sum ++ y.sum, on := x.on ++ y.on }
    else mixed [x, y]
  | .both a b => mixed (needOf v a :: if zero a then [] else [needOf v b])
  | .either a b => mixed (needOf v a :: if zero a then [needOf v b] else [])
  | .cond c a b => mixed [needOf v c, if zero c then needOf v b else needOf v a]
  | .lo14 e => mixed [needOf v e]
  | .wordoff e => mixed [(needOf v e).minus v.place]
where
  zero (e : Expr) : Bool :=
    match eval v e with
    | .ok x => x.n == 0
    | .error _ => false

/-- An expression reads the place of its statement. -/
def placed : Expr → Bool
  | .num _ => false | .sizeof _ => false | .bad _ => false | .hole => false | .sym _ => false
  | .here => true
  | .un _ e => placed e
  | .bin _ a b => placed a || placed b
  | .both a b => placed a || placed b
  | .either a b => placed a || placed b
  | .cond c a b => placed c || placed a || placed b
  | .lo14 e => placed e
  | .wordoff _ => true

/-- The nodes that decide whether two values are equal, relocation and all (R31): the same expression has one value, and a
relocatable value equals none of another section and no absolute one. -/
def equalOn (x y : Expr × Need) : List Node :=
  if (x.1 == y.1 && !placed x.1) || x.2.place.map Prod.fst != y.2.place.map Prod.fst then []
  else net (x.2.minus y.2).sum ++ x.2.on ++ y.2.on

/-- The number of an absolute expression. -/
def evalAbs (v : Env) (e : Expr) : Ev Int := do absolute (← eval v e)

/-- The number of an absolute expression within a range; else the code. -/
def evalIn (v : Env) (c : Code) (lo hi : Int) (e : Expr) : Ev Int := do
  let n ← evalAbs v e
  if lo ≤ n ∧ n ≤ hi then return n else fail c

end Sys2Proof.Machine.Chasm
end

