-- ==== Sys2Proof/Machine/ChasmWords.lean ====
section
/-! DEFINITION. chasm, the assembler (chapter 02): the word of an instruction statement (R24–R30), by the rows of
R58–R63. -/

namespace Sys2Proof.Machine.Chasm

/-- The three positions of a word (R48). -/
inductive Pos where
  | d | a | b
  deriving DecidableEq, Repr

/-- What a register position is to its word: a destination, one that the entry gives as an S or K register alone, one whose old
value is read too, a source, the V position of RDFL, VOTE and CKEY, a block of V registers that is read, and a list of V
registers that is read and written. -/
inductive Role where
  | dst | only | upd | src | anyV | block | list
  deriving DecidableEq, Repr

/-- How far a label operand reaches, in words (R30). -/
inductive Reach where
  | far | near | ahead
  deriving DecidableEq, Repr

/-- An operand of a row. -/
inductive Slot where
  | reg (p : Pos) (r : Role)
  | imm (p : Pos) (lo hi : Nat)
  | bar (p : Pos)
  | target (r : Reach)
  | pool (bytes : Nat)
  deriving DecidableEq, Repr

/-- A row of the map: its first suffixes, none or one per opcode, and its operands. -/
structure Row where
  mn    : String
  first : List String
  op    : Nat
  slots : List Slot
  deriving DecidableEq, Repr

def D : Slot := .reg .d .dst
def Sd : Slot := .reg .d .only
def U : Slot := .reg .d .upd
def DS : Slot := .reg .d .src
def A : Slot := .reg .a .src
def B : Slot := .reg .b .src

/-- Suffixes of a width family and of a type family (R57). -/
def widths : List String := ["64", "32", "16", "8"]
def types : List String := ["f32", "bf16", "f16"]

/-- The control opcodes (R58). -/
def controlRows : List Row :=
  [⟨"NOP", [], 0x00, []⟩, ⟨"BR", [], 0x01, [.target .far]⟩, ⟨"BRZ", [], 0x02, [DS, .target .near]⟩,
   ⟨"BRNZ", [], 0x03, [DS, .target .near]⟩, ⟨"CALL", [], 0x04, [.target .far]⟩, ⟨"CALLX", [], 0x05, [A]⟩,
   ⟨"JX", [], 0x06, [A]⟩, ⟨"CKEY", [], 0x07, [.reg .a .anyV, .imm .b 0 15]⟩, ⟨"CLASS", [], 0x08, [D, .target .ahead]⟩,
   ⟨"CNEXT", [], 0x09, []⟩, ⟨"CBRK", [], 0x0A, [.imm .b 1 8]⟩, ⟨"RDFL", [], 0x0B, [D, .reg .a .anyV]⟩,
   ⟨"EXIT", [], 0x0C, []⟩, ⟨"YIELD", [], 0x0D, []⟩, ⟨"TRAP", [], 0x0E, [.imm .b 0 127]⟩,
   ⟨"BKPT", [], 0x0F, [.imm .b 0 127]⟩, ⟨"WIN", [], 0x10, [.imm .b 0 15]⟩, ⟨"SETS", [], 0x11, [.imm .b 0 3]⟩,
   ⟨"LDL", [], 0x12, [Sd, .pool 8]⟩, ⟨"LDLW", [], 0x13, [Sd, .pool 4]⟩, ⟨"SYSR", [], 0x14, [Sd, .imm .b 0 127]⟩,
   ⟨"SYSW", [], 0x15, [A, .imm .b 0 127]⟩, ⟨"ICINV", [], 0x16, [A, B]⟩, ⟨"GOV", [], 0x17, [A]⟩,
   ⟨"QSYNC", [], 0x18, []⟩, ⟨"TSPAWN", [], 0x19, [A, B]⟩, ⟨"TSUCC", [], 0x1A, [A, B]⟩,
   ⟨"CPOL", [], 0x1B, [.imm .b 0 3]⟩, ⟨"ERET", [], 0x1C, [.imm .b 0 1]⟩, ⟨"MBANK", [], 0x1D, [D, A, .imm .b 0 3]⟩,
   ⟨"COLL", [], 0x1E, [.bar .d, A, B]⟩, ⟨"MSTORE", [], 0x1F, [.imm .d 0 127, A, B]⟩]

/-- Rows of one operand list whose opcodes follow at a step. -/
def run (first : List String) (slots : List Slot) (step : Nat) : Nat → List String → List Row
  | _, [] => []
  | op, mn :: mns => ⟨mn, first, op, slots⟩ :: run first slots step (op + step) mns

/-- The integer opcodes (R59). -/
def integerRows : List Row :=
  run widths [D, A, B] 4 0x20 ["ADD", "SUB", "MUL", "MIN", "MAX", "MINU", "MAXU", "ADDS", "ADDSU", "SUBS", "SHL", "SHR",
    "SRA", "CEQ", "CLT", "CLTU"]
  ++ run [] [D, A, B] 1 0x60 ["AND", "OR", "XOR", "ANDN"]
  ++ [⟨"MOV", [], 0x64, [D, A]⟩, ⟨"BSEL", [], 0x65, [U, A, B]⟩, ⟨"MULH", ["64"], 0x66, [D, A, B]⟩,
      ⟨"MULHU", ["64"], 0x67, [D, A, B]⟩, ⟨"MULH", ["32"], 0x68, [D, A, B]⟩, ⟨"MULHU", ["32"], 0x69, [D, A, B]⟩,
      ⟨"MAD", ["32", "64"], 0x6A, [U, A, B]⟩]
  ++ run [] [D, A] 1 0x6C ["POPC", "CLZ", "BREV"]
  ++ [⟨"BFX", [], 0x6F, [D, A, B]⟩, ⟨"BFI", [], 0x70, [U, A, B]⟩, ⟨"SHUFB", [], 0x71, [U, A, B]⟩]

/-- The floating-point and special-function opcodes (R60). CVT and CVTSR have their code in B, from two suffixes (R160,
R162). -/
def floatRows : List Row :=
  run types [D, A, B] 3 0x72 ["FADD", "FSUB", "FMUL"] ++ [⟨"FFMA", types, 0x7B, [U, A, B]⟩]
  ++ run types [D, A, B] 3 0x7E ["FMIN", "FMAX", "FCEQ", "FCLT", "FCLE"]
  ++ [⟨"FSCL", ["f32"], 0x8D, [D, A, .imm .b 0 127]⟩, ⟨"FFRC", ["f32"], 0x8E, [D, A, .imm .b 0 1]⟩,
      ⟨"FRND", ["f32"], 0x8F, [D, A, .imm .b 0 3]⟩, ⟨"FDOT2", ["bf16"], 0x90, [U, A, B]⟩, ⟨"CVT", [], 0x91, [D, A]⟩,
      ⟨"CVTSR", [], 0x92, [D, A]⟩, ⟨"RAND", [], 0x93, [D]⟩, ⟨"RSEED", [], 0x94, [A]⟩]
  ++ run [] [D, A] 1 0x95 ["RCP", "RSQ", "SQRT", "EXP2", "LOG2", "SINT", "COST", "TANH", "SIGM"]
  ++ run ["f32"] [D, A] 1 0x95 ["RCP", "RSQ", "SQRT", "EXP2", "LOG2", "SINT", "COST", "TANH", "SIGM"]

/-- The memory, atomic, cross-lane and gate opcodes (R61). -/
def memoryRows : List Row :=
  [⟨"LD", widths, 0xA0, [D, A, B]⟩, ⟨"ST", widths, 0xA4, [DS, A, B]⟩, ⟨"LDS", widths, 0xA8, [D, A, B]⟩,
   ⟨"STS", widths, 0xAC, [DS, A, B]⟩, ⟨"LDP", ["64", "32"], 0xB0, [D, A, B]⟩, ⟨"STP", ["64", "32"], 0xB2, [DS, A, B]⟩,
   ⟨"PFTCH", [], 0xB4, [A, B]⟩, ⟨"FENCE", [], 0xB5, [.imm .b 0 2]⟩, ⟨"XFENCE", [], 0xB6, [.imm .b 1 31]⟩,
   ⟨"CFLUSH", [], 0xB7, [A, B]⟩, ⟨"CINV", [], 0xB8, [A, B]⟩, ⟨"CDEMOTE", [], 0xB9, [A, B]⟩,
   ⟨"LEASE", [], 0xBA, [Sd, A, B]⟩, ⟨"LREL", [], 0xBB, [A]⟩, ⟨"PGX", [], 0xBC, [A, B]⟩]
  ++ run ["64", "32"] [D, A, B] 2 0xC0 ["ATADD", "ATMIN", "ATMAX", "ATMAXU"]
  ++ run ["64"] [D, A, B] 1 0xC8 ["ATAND", "ATOR", "ATXOR"]
  ++ run ["64", "32"] [D, A, B] 2 0xCB ["ATXCH", "ATCAS"]
  ++ [⟨"ATFADD", ["f32"], 0xCF, [D, A, B]⟩, ⟨"XPERM", widths, 0xD0, [D, A, B]⟩, ⟨"XSWZ", [], 0xD4, [D, A, .imm .b 0 127]⟩,
      ⟨"XSUM", ["f32", "64"], 0xD5, [D, A]⟩, ⟨"XMAX", ["f32"], 0xD7, [D, A]⟩, ⟨"XSCAN", ["32"], 0xD8, [D, A]⟩,
      ⟨"VOTE", [], 0xD9, [D, .reg .a .anyV, .imm .b 0 4]⟩, ⟨"XBCAST", [], 0xDA, [D, A, B]⟩,
      ⟨"TKINS", ["2", "4", "8"], 0xDB, [.reg .d .list, A, B]⟩]

/-- The engine opcodes (R62) and the factory microcode (R63). -/
def engineRows : List Row :=
  run [] [.bar .d, A, B] 1 0xE0 ["CPY", "CPYG", "CPYX"]
  ++ [⟨"CPYC", [], 0xE3, [.bar .b]⟩, ⟨"BINIT", [], 0xE4, [.bar .d, A]⟩, ⟨"BARV", [], 0xE5, [.bar .b]⟩,
      ⟨"BWAIT", [], 0xE6, [.bar .b]⟩, ⟨"BTEST", [], 0xE7, [D, .bar .b]⟩, ⟨"CHAIN", [], 0xE8, [.bar .d, A, B]⟩,
      ⟨"TDEF", [], 0xE9, [.imm .d 0 63, A]⟩, ⟨"MLOAD", [], 0xEA, [.imm .d 0 3, A, B]⟩,
      ⟨"MMA", [], 0xEB, [.imm .d 0 127, .reg .a .block, B]⟩, ⟨"MGRAD", [], 0xEC, [.imm .d 0 127, .reg .a .block, B]⟩,
      ⟨"MCLOSE", [], 0xED, [D]⟩, ⟨"MWAIT", [], 0xEE, [A]⟩, ⟨"MBATON", [], 0xEF, [D, .imm .b 0 2]⟩]
  ++ run ["32", "64"] [D, A, B] 2 0xF0 ["IDIV", "IREM"] ++ [⟨"FDIV", ["f32"], 0xF4, [D, A, B]⟩]

def rows : List Row := controlRows ++ integerRows ++ floatRows ++ memoryRows ++ engineRows

/-! ### Suffixes (R26) -/

/-- The formats by their codes (R26, R270). -/
def formats : List String := ["f32", "bf16", "f16", "e4m3", "e5m2", "c4", "i32", "ui32", "i8", "ui8"]

/-- The conversion code of a target and a source type (R161). -/
def conversion (td ts : Str) : Option Nat :=
  let num := fun (l : List String) (s : Str) => (l.zipIdx.find? fun p => spells s p.1).map Prod.snd
  let targets := ["f32", "bf16", "f16", "e4m3", "e5m2", "i32", "ui32", "i8", "ui8"]
  match num targets td, num formats ts with
  | some j, some i => (convCodes[i]?.bind fun l => l[j]?).join
  | some _, none => none
  | none, _ => none
where
  /-- One list per source, in the order of its format code; one code per target. -/
  convCodes : List (List (Option Nat)) := 
    [[none, some 0x00, some 0x01, some 0x02, some 0x03, some 0x04, some 0x05, some 0x06, some 0x07],
     [some 0x08, none, some 0x09, some 0x0A, some 0x0B, some 0x0C, some 0x0D, some 0x0E, some 0x0F],
     [some 0x10, some 0x11, none, some 0x12, some 0x13, some 0x14, some 0x15, some 0x16, some 0x17],
     [some 0x18, some 0x19, some 0x1A, none, some 0x1B, none, none, none, none],
     [some 0x1C, some 0x1D, some 0x1E, some 0x1F, none, none, none, none, none],
     [some 0x20, some 0x21, some 0x22, none, none, none, none, none, none],
     [some 0x23, some 0x24, some 0x25, none, none, none, none, none, none],
     [some 0x26, some 0x27, some 0x28, none, none, none, none, none, none],
     [some 0x29, some 0x2A, some 0x2B, none, none, none, none, none, none],
     [some 0x2C, some 0x2D, some 0x2E, none, none, none, none, none, none]]

/-- The suffixes of an instruction as they are understood. -/
structure Suffixes where
  op    : Nat
  slots : List Slot
  code  : Option Nat
  scope : Option Scope
  wt    : Bool
  deriving DecidableEq, Repr

/-- The scope that a suffix names. -/
def scopeNamed (s : Str) : Option Scope :=
  if spells s "ln" then some .lane else if spells s "wp" then some .warp else if spells s "st" then some .set
  else if spells s "bk" then some .block else none

/-- The option, the scope and the wait mark; what stands after them is an error. -/
def tails (row : Row) (op : Nat) (code : Option Nat) (ss : List Str) : Ev Suffixes :=
  let sat := row.op == 0x91 && (ss.head?.any fun s => spells s "sat")
  let ss := if sat then ss.drop 1 else ss
  let scope := ss.head?.bind scopeNamed
  let ss := if scope.isSome then ss.drop 1 else ss
  let wt := ss.head?.any fun s => spells s "wt"
  let ss := if wt then ss.drop 1 else ss
  if ss.isEmpty then .ok { op := op, slots := row.slots, code := code.map (· + if sat then 64 else 0), scope := scope, wt := wt }
  else fail .a02

/-- The row of a mnemonic and its first suffix; CVT and CVTSR take two types (R160, R162). -/
def suffixesOf (mn : Str) (ss : List Str) : Ev Suffixes :=
  let named := rows.filter fun r => spells mn r.mn
  let withFirst := named.findSome? fun r =>
    (r.first.zipIdx.find? fun p => ss.head?.any fun s => spells s p.1).map fun p => (r, p.2)
  match named, withFirst with
  | [], _ => fail .a01
  | _ :: _, some (r, k) => tails r (r.op + k) none (ss.drop 1)
  | _ :: _, none =>
    match named.find? fun r => r.first.isEmpty with
    | none => fail .a02
    | some r =>
      if r.op = 0x91 ∨ r.op = 0x92 then
        match ss with
        | td :: ts :: ss =>
          match conversion td ts with
          | some c => if r.op = 0x92 ∧ ¬ [0, 1, 2, 3, 9, 10, 11].contains c then fail .a02 else tails r r.op (some c) ss
          | none => fail .a02
        | [_] => fail .a02
        | [] => fail .a02
      else tails r r.op none ss

/-! ### Operands (R24, R25, R28–R30) -/

/-- What is wrong with an operand whatever it stands for (R46). -/
def faultsOf (v : Env) : Operand → List Stop
  | .name s =>
    if noRegister s then [.err .a01] else if (registerOf s).isSome || (barrierOf s).isSome then [] else errs (v.symbol s)
  | .imm e => errs (eval v e)
  | .lit e => errs (eval v e)
  | .exp e => errs (eval v e)

/-- An operand of a wrong kind. -/
def wrongKind {α : Type} (v : Env) (o : Operand) : Ev α :=
  match o with
  | .exp (.bad c) => fail c
  | .exp .hole => .error [.told]
  | o => failWith .a04 (faultsOf v o)

/-- A register operand. -/
def regOperand (v : Env) (o : Operand) : Ev (BitVec 7) :=
  match o with
  | .name s =>
    if noRegister s then fail .a01
    else
      match registerOf s with
      | some x => .ok x
      | none => wrongKind v o
  | .imm _ => wrongKind v o | .lit _ => wrongKind v o | .exp _ => wrongKind v o

/-- An immediate; a barrier name where `named` (R25). -/
def immOperand (v : Env) (named : Bool) (lo hi : Nat) (o : Operand) : Ev (BitVec 7) :=
  match o with
  | .imm e => (evalIn v .a05 lo hi e).map (BitVec.ofInt 7)
  | .name s =>
    if noRegister s then fail .a01
    else
      match barrierOf s with
      | some n => if named then .ok (BitVec.ofNat 7 n) else fail .a04
      | none => wrongKind v o
  | .lit _ => wrongKind v o | .exp _ => wrongKind v o

/-- The least and the greatest offset (R30). -/
def Reach.range : Reach → Int × Int
  | .far => (-1048576, 1048575)
  | .near => (-8192, 8191)
  | .ahead => (1, 8191)

/-- The word offset from the statement to a target of its section (R30). -/
def offsetTo (v : Env) (r : Reach) (x : Val) : Ev Int :=
  let off := (x.n - v.here.n) / 4
  if x.sec = v.here.sec ∧ (x.n - v.here.n) % 4 = 0 ∧ r.range.1 ≤ off ∧ off ≤ r.range.2 then .ok off else fail .a06

/-- A label operand. -/
def targetOperand (v : Env) (r : Reach) (o : Operand) : Ev Int :=
  match o with
  | .name s =>
    if noRegister s then fail .a01
    else if (registerOf s).isSome || (barrierOf s).isSome then fail .a04
    else do offsetTo v r (← v.symbol s)
  | .exp e => do offsetTo v r (← eval v e)
  | .imm _ => wrongKind v o | .lit _ => wrongKind v o

/-- The fields that an operand fills. -/
structure Fields where
  d   : BitVec 7
  a   : BitVec 7
  b   : BitVec 7
  off : Option Int
  deriving DecidableEq, Repr

def Fields.put (f : Fields) (p : Pos) (x : BitVec 7) : Fields :=
  match p with
  | .d => { f with d := x }
  | .a => { f with a := x }
  | .b => { f with b := x }

def Fields.get (f : Fields) (p : Pos) : BitVec 7 :=
  match p with
  | .d => f.d
  | .a => f.a
  | .b => f.b

/-- One operand; `entry` is the address of the pool entry of an `=expr`, where it is known (R31). -/
def fill (v : Env) (entry : Option Int) (f : Fields) (s : Slot) (o : Operand) : Ev Fields :=
  match s with
  | .reg p _ => (regOperand v o).map (f.put p)
  | .imm p lo hi => (immOperand v false lo hi o).map (f.put p)
  | .bar p => (immOperand v true 0 15 o).map (f.put p)
  | .target r => (targetOperand v r o).map fun n => { f with off := some n }
  | .pool _ =>
    match o with
    | .lit _ =>
      match entry with
      | some n => (offsetTo v .near { n := n, sec := some .text }).map fun n => { f with off := some n }
      | none => .error [.later]
    | .name _ => (targetOperand v .near o).map fun n => { f with off := some n }
    | .exp _ => (targetOperand v .near o).map fun n => { f with off := some n }
    | .imm _ => wrongKind v o

/-- What operands have filled: the fields, the slots filled, and what was wrong. -/
structure Filled where
  fields : Fields
  good   : List Slot
  wrong  : List Stop
  deriving DecidableEq, Repr

/-- All operands, each to its slot (R28). -/
def fillAll (v : Env) (entry : Option Int) : Fields → List Slot → List Operand → Filled
  | f, [], [] => { fields := f, good := [], wrong := [] }
  | f, s :: ss, o :: os =>
    match fill v entry f s o with
    | .ok g =>
      let r := fillAll v entry g ss os
      { r with good := s :: r.good }
    | .error e =>
      let r := fillAll v entry f ss os
      { r with wrong := e ++ r.wrong }
  | f, [], o :: os => { fields := f, good := [], wrong := .err .a04 :: (o :: os).flatMap (faultsOf v) }
  | f, _ :: _, [] => { fields := f, good := [], wrong := [.err .a04] }

/-! ### Scope and classes (R27, R55) -/

/-- A register may stand in a position at a scope. R27 names some refusals and A03 all of them; the model refuses whatever
R55 gives as illegal, so also LID and TAG read outside lane scope, TAG written at warp scope, and K at set or block scope
[DEDUCED]. -/
def classOk (sc : Scope) (role : Role) (r : Reg) : Bool :=
  let isV := match r with
    | .v _ => true
    | .s _ => false | .k _ => false | .zr => false | .lid => false | .wid => false | .emask => false | .tile => false
    | .tseq => false | .rcnt => false | .tag => false
  let isTag := r == .tag
  let isK := match r with
    | .k _ => true
    | .v _ => false | .s _ => false | .zr => false | .lid => false | .wid => false | .emask => false | .tile => false
    | .tseq => false | .rcnt => false | .tag => false
  let isS := match r with
    | .s _ => true
    | .v _ => false | .k _ => false | .zr => false | .lid => false | .wid => false | .emask => false | .tile => false
    | .tseq => false | .rcnt => false | .tag => false
  let together := sc == .set || sc == .block
  let writes := r == .zr || (if sc == .lane then isV || isTag else isS || (isK && !together))
  let reads := sc == .lane || !(isV || isTag || r == .lid || (isK && together))
  match role with
  | .dst => writes | .upd => writes
  | .only => writes && r != .zr
  | .src => reads
  | .anyV => isV || reads
  | .block => true
  | .list => true

/-- The register pair that B of ATCAS.64 names (R261). -/
def pairOk (x : BitVec 7) : Bool :=
  match Reg.dec x with
  | .v n => decide (n.toNat ≤ 62)
  | .s n => decide (n.toNat ≤ 46)
  | .k n => decide (n.toNat ≤ 6)
  | .zr => false | .lid => false | .wid => false | .emask => false | .tile => false | .tseq => false | .rcnt => false | .tag => false

/-- A block and a list are named by a V register, and the pair of ATCAS.64 by a register that another follows. -/
def kindsOk (op : Nat) (f : Fields) (ss : List Slot) : Bool :=
  ss.all fun s =>
    match s with
    | .reg .b .src => op != 0xCD || pairOk f.b
    | .reg p .block => decide ((f.get p).toNat < 64)
    | .reg p .list => decide ((f.get p).toNat < 64)
    | .reg _ .dst => true | .reg _ .only => true | .reg _ .upd => true | .reg _ .src => true | .reg _ .anyV => true
    | .imm _ _ _ => true | .bar _ => true | .target _ => true | .pool _ => true

/-- The scope of a statement (R27). -/
def scopeOf (sf : Suffixes) (d : BitVec 7) : Scope :=
  match sf.scope with
  | some sc => sc
  | none =>
    let x := d.toNat
    let inD := sf.slots.any fun s =>
      match s with
      | .reg .d _ => true
      | .reg .a _ => false | .reg .b _ => false | .imm _ _ _ => false | .bar _ => false | .target _ => false
      | .pool _ => false
    if inD && decide (x < 64) then .lane
    else if inD && decide (x < 120) then .warp
    else if (legalScopes (BitVec.ofNat 8 sf.op)).contains .lane then .lane
    else .warp

/-- Every register of the statement is of a class of its position. -/
def classesOk (sc : Scope) (f : Fields) (ss : List Slot) : Bool :=
  ss.all fun s =>
    match s with
    | .reg p role => classOk sc role (Reg.dec (f.get p))
    | .imm _ _ _ => true | .bar _ => true | .target _ => true | .pool _ => true

/-- The positions before the operands fill them (R28, R53). -/
def blank (sf : Suffixes) : Fields :=
  let x := fixedFields (BitVec.ofNat 8 sf.op)
  { d := x.1.getD 0, a := x.2.1.getD 0, b := (sf.code.map (BitVec.ofNat 7)).getD (x.2.2.getD 0), off := none }

/-- The scope is known: it is written, or D holds what D was given. -/
def scopeKnown (sf : Suffixes) (good : List Slot) : Bool :=
  sf.scope.isSome || sf.slots.all fun s =>
    match s with
    | .reg .d _ => good.contains s
    | .reg .a _ => true | .reg .b _ => true | .imm _ _ _ => true | .bar _ => true | .target _ => true | .pool _ => true

/-- What is wrong with a statement beside its operands, as far as they are known (R27, R28). Where the scope is not known, a
register is wrong that no scope of the opcode takes. -/
def wordFaults (sf : Suffixes) (known : Bool) (r : Filled) : List Stop :=
  let legal := legalScopes (BitVec.ofNat 8 sf.op)
  let sc := scopeOf sf r.fields.d
  let scopes := if known then legal.filter (· == sc) else legal
  errs (sound [if kindsOk sf.op r.fields r.good then .ok () else fail .a04,
    if scopes.any fun sc => classesOk sc r.fields r.good then .ok () else fail .a03])

/-- The word of an instruction whose suffixes are known. -/
def wordFrom (v : Env) (entry : Option Int) (sf : Suffixes) (os : List Operand) : Ev (BitVec 32) := do
  let r := fillAll v entry (blank sf) sf.slots os
  let f := r.fields
  let sc := scopeOf sf f.d
  let wrong := r.wrong ++ wordFaults sf (scopeKnown sf r.good) r
  if !wrong.isEmpty then throw wrong
  let far := sf.slots == [.target .far]
  let off := BitVec.ofInt 21 (f.off.getD 0)
  let f := if f.off.isNone then f
    else { f with d := if far then off.extractLsb' 14 7 else f.d, a := off.extractLsb' 7 7, b := off.extractLsb' 0 7 }
  return mkWord sf.wt sc.enc (BitVec.ofNat 8 sf.op) f.d f.a f.b

/-- The bit of FEAT0 that an opcode's use needs (R42). -/
def featureOf (op : Nat) : Nat :=
  let bit := if op = 0x93 ∨ op = 0x94 ∨ op = 0x92 then some 17 else if 0xDB ≤ op ∧ op ≤ 0xDD then some 16
    else if 0xF0 ≤ op then some 13 else if op = 0xBA ∨ op = 0xBB then some 12 else if op = 0x1E then some 10
    else if op = 0xE2 then some 9 else if op = 0xE8 then some 8 else if op = 0xEC then some 4
    else if op = 0xEB ∨ op = 0xEA ∨ op = 0x1D ∨ op = 0x1F then some 2 else none
  (bit.map fun k => 2 ^ k).getD 0

/-! ### Registers that a word reads and writes (R98, A22) -/

/-- The field values of a position: the registers that follow in a list or a pair. -/
def span (x : BitVec 7) (n : Nat) : List Nat := (List.range n).map fun i => x.toNat + i

/-- How many registers TKINS lists. -/
def listLength (op : Nat) : Nat := if op = 0xDB then 2 else if op = 0xDC then 4 else 8

/-- How many registers the block of an MMA or MGRAD has, by its A format (R104, R320). -/
def blockLength (d : BitVec 7) : Nat := if d.extractLsb' 2 2 = 0 then 32 else 16

/-- The registers that a word reads; MMA and MGRAD with tagged rows read TAG too. -/
def readsOf (sf : Suffixes) (x : BitVec 32) : List Nat :=
  let at_ := fun (p : Pos) => match p with
    | .d => fieldD x | .a => fieldA x | .b => fieldB x
  (sf.slots.flatMap fun s =>
    match s with
    | .reg p .src => span (at_ p) (if p = .b ∧ sf.op = 0xCD then 2 else 1)
    | .reg p .upd => span (at_ p) 1
    | .reg p .anyV => span (at_ p) 1
    | .reg p .block =>
      (span (at_ p) (blockLength (fieldD x))).filter (fun r => decide (r < 64)) ++ if (fieldD x).getLsbD 4 then [] else [127]
    | .reg p .list => span (at_ p) (listLength sf.op)
    | .reg _ .dst => [] | .reg _ .only => [] | .imm _ _ _ => [] | .bar _ => [] | .target _ => [] | .pool _ => [])
    ++ (if sf.op = 0x8D ∧ 64 ≤ (fieldB x).toNat then span (fieldD x) 1 else [])

/-- The registers that a word writes. -/
def writesOf (sf : Suffixes) (x : BitVec 32) : List Nat :=
  (sf.slots.flatMap fun s =>
    match s with
    | .reg _ .dst => span (fieldD x) 1
    | .reg _ .only => span (fieldD x) 1
    | .reg _ .upd => span (fieldD x) 1
    | .reg _ .list => span (fieldD x) (listLength sf.op)
    | .reg _ .src => [] | .reg _ .anyV => [] | .reg _ .block => []
    | .imm _ _ _ => [] | .bar _ => [] | .target _ => [] | .pool _ => []).filter fun r => r != 120

/-- The results of an opcode are variable-latency (R98). -/
def lateOp (op : Nat) : Bool :=
  [0x0B, 0x12, 0x13, 0x14, 0xBA, 0xE7, 0xED].contains op || (decide (0x95 ≤ op) && decide (op ≤ 0x9D))
    || (decide (0xA0 ≤ op) && decide (op ≤ 0xA3)) || (decide (0xA8 ≤ op) && decide (op ≤ 0xAB)) || op == 0xB0 || op == 0xB1
    || (decide (0xC0 ≤ op) && decide (op ≤ 0xDD)) || decide (0xF0 ≤ op)

/-- After the word, control may go elsewhere. -/
def endsRun (op : Nat) : Bool := (decide (1 ≤ op) && decide (op ≤ 0x0C) && op != 0x07 && op != 0x0B) || op == 0x1C

end Sys2Proof.Machine.Chasm
end

