-- ==== Sys2Proof/Machine/ChasmData.lean ====
section
/-! DEFINITION. chasm, the assembler (chapter 02): the bytes of code headers (R40–R42), tensor descriptors (R43, R270),
chains (R44, R289–R291) and task records (R45, R326). -/

namespace Sys2Proof.Machine.Chasm

/-- The low bytes of a number, the lowest first. -/
def le (n : Nat) (v : Int) : List Byte := (List.range n).map fun i => BitVec.ofInt 8 (v / 256 ^ i)

/-- Bytes, and the relocatable values to be added to quads at offsets in them (R35). -/
structure Out where
  bytes : List Byte
  rel   : List (Nat × Val)
  deriving DecidableEq, Repr

/-- The expression of a part of an operand. -/
def Elem.expr : Elem → Expr
  | .name s => .sym s
  | .exp e => e

/-- What is wrong with parts of operands whatever they stand for (R46). -/
def elemFaults (v : Env) (es : List Elem) : List Stop := es.flatMap fun e => errs (eval v e.expr)

/-- The parts of an operand. -/
def Darg.elems : Darg → List Elem
  | .elem e => [e]
  | .keyed _ e => [e]
  | .tuple _ es => es
  | .str _ => []

/-- What is wrong with operands that nothing reads. -/
def argFaults (v : Env) (as : List Darg) : List Stop := elemFaults v (as.flatMap Darg.elems)

/-- The same where a lone name may be a key word or the name of a definition (R21). -/
def wordyFaults (v : Env) (as : List Darg) : List Stop :=
  elemFaults v ((as.flatMap Darg.elems).filter fun e => match e with
    | .name _ => false
    | .exp _ => true)

/-- A wrong number or kind of operands. -/
def miscount {α : Type} (v : Env) (as : List Darg) : Ev α :=
  match as with
  | [.elem (.exp (.bad c))] => fail c
  | [.elem (.exp .hole)] => .error [.told]
  | as => failWith .a04 (argFaults v as)

def exprArg (v : Env) (a : Darg) : Ev Expr :=
  match a with
  | .elem e => .ok e.expr
  | .str _ => miscount v [a] | .keyed _ _ => miscount v [a] | .tuple _ _ => miscount v [a]

def nameArg (v : Env) (a : Darg) : Ev Str :=
  match a with
  | .elem (.name s) => .ok s
  | .elem (.exp _) => miscount v [a] | .str _ => miscount v [a] | .keyed _ _ => miscount v [a] | .tuple _ _ => miscount v [a]

/-! ### The code header (R40, R41) -/

/-- FEAT0 bits by number (R14). -/
def features : List String :=
  ["DETM", "CONC", "BANKS", "TAGMMA", "MGRAD", "FP8", "CB4", "BLKMAP", "FLUME", "CPYX", "COLL", "HDRACE", "LEASE",
   "MCODE", "CHKMODE", "SFCR", "TKINS", "RNDSR"]

/-- What the header directives of a block have given; `given` names the directives met. -/
structure Head where
  name     : Str
  place    : Nat
  given    : List Str
  isa      : Int × Int
  needs    : List Nat
  warps    : Int
  lanes    : Int
  regs     : Int
  split    : Int
  scratch  : Int
  priv     : Int
  governor : Int
  rights   : Option Int
  sets     : List (Int × Int)
  trap     : Option Val
  estimate : Int
  determ   : Bool
  deriving DecidableEq, Repr

/-- A block that has just been opened at a place. -/
def Head.start (name : Str) (place : Nat) : Head :=
  { name := name, place := place, given := [], isa := (6, 1), needs := [], warps := 1, lanes := 32, regs := 16, split := 0,
    scratch := 0, priv := 0, governor := 0, rights := none, sets := [], trap := none, estimate := 0, determ := false }

/-- One operand, an absolute number within limits (R41); outside them it is A10, though the table of R47 cites R41 under A05 too
[DESIGN CHOICE]. -/
def limited (v : Env) (lo hi step : Int) (as : List Darg) : Ev Int :=
  match as with
  | [a] => do
    let n ← evalIn v .a10 lo hi (← exprArg v a)
    if n % step = 0 then return n else fail .a10
  | [] => fail .a04
  | _ :: _ :: _ => miscount v as

def twoArgs (v : Env) (as : List Darg) : Ev (Expr × Expr) :=
  match as with
  | [a, b] => pair (exprArg v a) (exprArg v b)
  | [] => miscount v as
  | [_] => miscount v as
  | _ :: _ :: _ :: _ => miscount v as

/-- A bit of FEAT0 by its name. -/
def featureArg (v : Env) (a : Darg) : Ev Nat := do
  let s ← nameArg v a
  match (features.zipIdx.find? fun p => spells s p.1) with
  | some p => return p.2
  | none => fail .a01

/-- The header directives. -/
def headerDirs : List String :=
  ["isa", "needs", "warps", "lanes", "regs", "split", "determ", "scratch", "priv" ++ "ate", "governor", "rights", "set", "trap",
   "estimate"]

/-- The value of a header directive (R41). -/
def headValue (v : Env) (h : Head) (d : String) (as : List Darg) : Ev Head :=
  if d = "isa" then do
    let p ← twoArgs v as
    return { h with isa := ← pair (evalIn v .a10 0 255 p.1) (evalIn v .a10 0 255 p.2) }
  else if d = "needs" then do
    if as.isEmpty then fail .a04 else return { h with needs := ← each (featureArg v) as }
  else if d = "warps" then do return { h with warps := ← limited v 1 32 1 as }
  else if d = "lanes" then do return { h with lanes := ← limited v 1 32 1 as }
  else if d = "regs" then do return { h with regs := ← limited v 16 256 16 as }
  else if d = "split" then do return { h with split := ← limited v 0 3 1 as }
  else if d = "determ" then if as.isEmpty then .ok { h with determ := true } else miscount v as
  else if d = "scratch" then do return { h with scratch := ← limited v 0 0xFFFFFFFF 256 as }
  else if d = "priv" ++ "ate" then do return { h with priv := ← limited v 0 65536 8 as }
  else if d = "governor" then do return { h with governor := ← limited v 0 65535 1 as }
  else if d = "rights" then do return { h with rights := some (← limited v 0 0xFFFFFFFF 1 as) }
  else if d = "estimate" then do return { h with estimate := ← limited v 0 0xFFFFFFFF 1 as }
  else if d = "set" then do
    let p ← twoArgs v as
    let r ← pair (evalIn v .a10 0 3 p.1) (evalIn v .a10 0 0xFFFFFFFF p.2)
    if h.sets.any fun e => e.1 == r.1 then fail .a10 else return { h with sets := r :: h.sets }
  else if d = "trap" then
    match as with
    | [a] => do return { h with trap := some (← eval v (← exprArg v a)) }
    | [] => fail .a04
    | _ :: _ :: _ => miscount v as
  else fail .a01

/-- A header directive; each may be given once in a block (R40), `.set` once for each index [DESIGN CHOICE, log entry 53: R41
gives `.set` an index and R40 says nothing of it]. -/
def headDir (v : Env) (h : Head) (d : Str) (as : List Darg) : Ev Head :=
  match headerDirs.find? fun s => spells d s with
  | none => fail .a01
  | some s =>
    if s != "set" && h.given.contains s.toList then failWith .a10 (errs (headValue v h s as))
    else (headValue v h s as).map fun h => { h with given := s.toList :: h.given }

/-- The offset of the handler from the entry (R41, R47). -/
def trapOffset (h : Head) : Ev Int :=
  match h.trap with
  | none => .ok 0
  | some x =>
    let off := x.n - (h.place + 64)
    if x.sec = some .text ∧ off % 4 = 0 ∧ -2147483648 ≤ off ∧ off ≤ 2147483647 then .ok off else fail .a06

/-- The 64 bytes of a header; `used` holds the bits that its code needs (R41, R42). -/
def headBytes (h : Head) (used : Nat) : Ev (List Byte) := do
  let low : Int := 2 ^ h.warps.toNat - 1
  let rights := h.rights.getD low
  let sets := (List.range 4).map fun i => ((h.sets.find? fun e => e.1 == Int.ofNat i).map Prod.snd).getD 0
  let upTo := fun (most n : Int) => if n ≤ most then .ok () else fail .a10
  sound ([upTo (Config.scratchOf h.split.toNat) h.scratch, upTo low rights, void (trapOffset h)] ++ sets.map (upTo low))
  let trap ← trapOffset h
  let needs : Nat := (h.needs ++ if h.determ then [0] else []).foldl (fun (n k : Nat) => n ||| 2 ^ k) used
  return le 2 0xC6A5 ++ le 2 1 ++ le 1 h.isa.2 ++ le 1 h.isa.1 ++ le 2 0 ++ le 8 needs ++ le 1 h.warps ++ le 1 h.lanes
    ++ le 1 (h.regs / 16) ++ le 1 (h.split + if h.determ then 128 else 0) ++ le 4 h.scratch ++ le 2 (h.priv / 8)
    ++ le 2 h.governor ++ le 4 rights ++ sets.flatMap (le 4) ++ le 4 trap ++ le 4 h.estimate ++ le 8 0

/-! ### Keyed operands (R43–R45) -/

/-- The key of an operand; a lone name is a key without a value. -/
def keyOf : Darg → Option Str
  | .keyed k _ => some (lower k)
  | .tuple k _ => some (lower k)
  | .elem (.name k) => some (lower k)
  | .elem (.exp _) => none
  | .str _ => none

/-- What reads the operand of a key. -/
abbrev Reader (α : Type) := Darg → Ev α

/-- Every key is known and has a value that its reader takes, or is written without one; none is repeated, and a repeated one is
read like the first. -/
def checkKeys (v : Env) (keys : List (String × Reader Unit)) (flags : List String) : List Str → List Darg → Ev Unit
  | _, [] => .ok ()
  | seen, a :: as =>
    let value := fun (k : Str) =>
      match keys.find? fun r => spells k r.1, a with
      | some r, a => r.2 a
      | none, .elem _ => if flags.any (spells k) then .ok () else fail .a11
      | none, a => failWith (if flags.any (spells k) then .a04 else .a11) (wordyFaults v [a])
    match keyOf a with
    | none => sound [miscount v [a], checkKeys v keys flags seen as]
    | some k => sound [if seen.contains k then fail .a11 else .ok (), value k, checkKeys v keys flags (k :: seen) as]

/-- The operand of a key. -/
def keyed (as : List Darg) (k : String) : Option Darg := as.find? fun a => keyOf a == some k.toList

/-- What a key gives, or what stands for it where it is left out. -/
def keyGives {α : Type} (as : List Darg) (k : String) (dflt : α) (r : Reader α) : Ev α :=
  match keyed as k with
  | none => .ok dflt
  | some a => r a

/-- A single value. -/
def valueOf (v : Env) : Reader Elem
  | .keyed _ e => .ok e
  | .elem _ => fail .a04
  | .tuple _ es => failWith .a04 (elemFaults v es)
  | .str _ => fail .a04

/-- A number within a range. -/
def numberOf (v : Env) (lo hi : Int) : Reader Int := fun a => do evalIn v .a11 lo hi (← valueOf v a).expr

/-- A key word by its number in a list. -/
def wordIn (v : Env) (names : List String) (e : Elem) : Ev Int :=
  match e with
  | .name s =>
    match names.zipIdx.find? fun p => spells s p.1 with
    | some p => .ok p.2
    | none => fail .a01
  | .exp .hole => .error [.told]
  | .exp e => failWith .a11 (errs (eval v e))

def wordOf (v : Env) (names : List String) : Reader Int := fun a => do wordIn v names (← valueOf v a)

/-- The elements of a tuple. -/
def tupleOf (v : Env) : Reader (List Elem)
  | .tuple _ es => .ok es
  | .keyed _ e => failWith .a04 (elemFaults v [e])
  | .elem _ => fail .a04
  | .str _ => fail .a04

/-- The numbers of a tuple, each within a range. -/
def numbersOf (v : Env) (lo hi : Int) : Reader (List Int) := fun a => do
  each (fun e => evalIn v .a11 lo hi e.expr) (← tupleOf v a)

/-- An address of some bits, absolute or relocatable. -/
def address (v : Env) (bits : Nat) (e : Elem) : Ev Val := do
  let x ← eval v e.expr
  if x.sec.isSome || (decide (0 ≤ x.n) && decide (x.n < 2 ^ bits)) then return x else fail .a11

def addressOf (v : Env) (bits : Nat) : Reader Val := fun a => do address v bits (← valueOf v a)

/-- A rule about values that are known; what is wrong with the others is said elsewhere. -/
def fits {α : Type} (x : Ev α) (good : α → Bool) : Ev Unit :=
  match x with
  | .ok a => if good a then .ok () else fail .a11
  | .error _ => .ok ()

/-- A quad of an address and what its other bits hold. -/
def quadOf (x : Val) (others : Int) : List Byte := le 8 ((if x.sec.isNone then x.n else 0) + others)

/-- The relocations of addresses at offsets. -/
def relsOf (xs : List (Nat × Val)) : List (Nat × Val) := xs.filter fun p => p.2.sec.isSome

/-! ### Tensors (R43, R270) -/

def spaces : List String := ["device", "scratch", "binfloor", "lease"]

/-- The block geometry: GEOM, the bitmap, L and T. -/
def blocksOf (v : Env) : Reader (Int × Val × Int × Int) := fun a => do
  match ← tupleOf v a with
  | [] => fail .a11
  | g :: es =>
    match wordIn v ["none", "fixed", "bitmap"] g, es with
    | .error e, es => .error (e ++ elemFaults v es)
    | .ok 0, [] => return (0, .abs 0, 0, 0)
    | .ok 1, [l] => return (1, .abs 0, ← evalIn v .a11 1 64 l.expr, 0)
    | .ok 2, [m, l, t] =>
      (pair (address v 56 m) (pair (evalIn v .a11 1 64 l.expr) (evalIn v .a11 0 255 t.expr))).map fun r => (2, r)
    | .ok _, es => failWith .a11 (elemFaults v es)

/-- Numbers of some bytes each, with zeros up to a count. -/
def padded (count width : Nat) (ns : List Int) : List Byte :=
  (List.range count).flatMap fun i => le width (ns[i]?.getD 0)

/-- A tensor descriptor. `tile=` or `strides=` without `dims=` is held against one dimension, which the zero bytes of a key left
out give [DEDUCED]. -/
def tensorOf (v : Env) (as : List Darg) : Ev Out := do
  let has := fun k => (keyed as k).isSome
  let address := addressOf v 56
  let sizes := numbersOf v 0 0xFFFFFFFF
  let extents := numbersOf v 1 256
  let space := keyGives as "space" 0 (wordOf v spaces)
  let fmt := keyGives as "fmt" 0 (wordOf v formats)
  let dims := keyGives as "dims" [] sizes
  let strides := keyGives as "strides" [] sizes
  let tile := keyGives as "tile" [] extents
  let rank := fun (dims : List Int) => max 1 dims.length
  sound [checkKeys v [("space", void ∘ wordOf v spaces), ("base", void ∘ address), ("fmt", void ∘ wordOf v formats),
      ("dims", void ∘ sizes), ("strides", void ∘ sizes), ("tile", void ∘ extents), ("blocks", void ∘ blocksOf v),
      ("scale", void ∘ address), ("codebook", void ∘ address)] [] [] as,
    fits fmt fun f => (f == 5) == has "codebook",
    fits dims fun d => decide (d.length ≤ 4) && !(has "dims" && d.isEmpty),
    fits (pair strides dims) fun p => !has "strides" || (p.1.length == rank p.2 && p.1.head? == some 1),
    fits (pair tile dims) fun p => decide (p.1.length ≤ rank p.2)]
  let base ← keyGives as "base" (.abs 0) address
  let scale ← keyGives as "scale" (.abs 0) address
  let codebook ← keyGives as "codebook" (.abs 0) address
  let g ← keyGives as "blocks" (0, .abs 0, 0, 0) (blocksOf v)
  return {
    bytes := quadOf base ((← fmt) * 2 ^ 56 + (← space) * 2 ^ 60)
      ++ quadOf scale (g.1 * 2 ^ 56 + (rank (← dims) - 1 : Int) * 2 ^ 58)
      ++ quadOf g.2.1 (g.2.2.1 * 2 ^ 56) ++ quadOf codebook (g.2.2.2 * 2 ^ 56) ++ padded 4 4 (← dims)
      ++ padded 3 4 ((← strides).drop 1) ++ padded 4 1 ((← tile).map (· - 1))
    rel := relsOf [(0, base), (8, scale), (16, g.2.1), (24, codebook)] }

/-! ### Chains (R44, R289–R291) -/

def stepNames : List String :=
  ["add", "mul", "fma", "min", "max", "scale", "relu", "silu", "exp2", "convert", "quantise", "amax", "sum"]

/-- What an open chain has so far: its place, IN0, IN1, OUT and COUNT, and its steps' bytes. -/
structure Links where
  name  : Str
  place : Nat
  head  : List Int
  count : Int
  steps : List (List Byte)
  deriving DecidableEq, Repr

def chainOf (v : Env) (name : Str) (place : Nat) (as : List Darg) : Ev Links := do
  let ident := numberOf v 0 63
  let count := numberOf v 0 (2 ^ 40)
  sound [checkKeys v [("in0", void ∘ ident), ("in1", void ∘ ident), ("out", void ∘ ident), ("count", void ∘ count)] [] [] as]
  return { name := name, place := place, head := ← each (fun k => keyGives as k 0 ident) ["in0", "in1", "out"],
           count := ← keyGives as "count" 0 count, steps := [] }

/-- A `.step` (R290). -/
def stepOf (v : Env) (as : List Darg) : Ev (List Byte) :=
  match as with
  | [.elem op, .elem ty, a, b, k] =>
    let ns := each (fun a => do evalIn v .a11 0 255 (← exprArg v a)) [a, b, k]
    (pair (wordIn v stepNames op) (pair (wordIn v formats ty) ns)).map fun r => (r.1 :: r.2.1 :: r.2.2).flatMap (le 1) ++ le 3 0
  | as => failWith .a04 (argFaults v (as.drop 2))

def chainBytes (c : Links) : Ev (List Byte) :=
  if 1 ≤ c.steps.length ∧ c.steps.length ≤ 8 then
    .ok (c.head.flatMap (le 1) ++ le 1 c.steps.length ++ le 4 0 ++ le 8 c.count ++ c.steps.flatten)
  else fail .a11

/-! ### Records (R45, R326) -/

def kinds : List String := ["compute", "cond", "loop", "join"]

/-- A task record; `task` says whether a name is a `.task` name. -/
def recordOf (v : Env) (task : Str → Bool) (as : List Darg) : Ev Out := do
  let has := fun k => (keyed as k).isSome
  let address := addressOf v 48
  let kindWord := wordOf v kinds
  let kind := keyGives as "kind" 0 kindWord
  let tile := keyGives as "tile" [] (numbersOf v 0 65535)
  let args := keyGives as "args" [] (numbersOf v (-2147483648) 0xFFFFFFFF)
  let named := fun k => match keyed as "entry" with
    | none => true
    | some (.keyed _ (.name s)) => k == 0 && task s
    | some _ => false
  sound [checkKeys v [("entry", void ∘ address), ("kind", void ∘ kindWord), ("prio", void ∘ numberOf v 0 15),
      ("die", void ∘ numberOf v 0 1), ("succ", void ∘ address), ("dec", void ∘ numberOf v 1 65536),
      ("tile", void ∘ numbersOf v 0 65535), ("ws", void ∘ address), ("args", void ∘ numbersOf v (-2147483648) 0xFFFFFFFF)]
      ["idem", "determ"] [] as,
    fits (pair kind (keyGives as "entry" (.abs 0) address)) fun p => named p.1,
    fits kind fun k => !(k == 3 && has "ws"),
    fits tile fun t => !has "tile" || t.length == 4,
    fits args fun l => decide (l.length ≤ 8)]
  let die ← keyGives as "die" 0 (numberOf v 0 1)
  let entry ← keyGives as "entry" (.abs 0) address
  let succ ← keyGives as "succ" (.abs 0) address
  let ws ← keyGives as "ws" (.abs 0) address
  let bit := fun (k : String) (i : Nat) => if has k then (2 : Int) ^ i else 0
  return {
    bytes := quadOf entry ((← kind) * 2 ^ 48 + (← keyGives as "prio" 0 (numberOf v 0 15)) * 2 ^ 52 + bit "idem" 56
        + bit "determ" 57 + bit "die" 58 + die * 2 ^ 59)
      ++ quadOf succ (((← keyGives as "dec" 1 (numberOf v 1 65536)) - 1) * 2 ^ 48) ++ padded 4 2 (← tile) ++ quadOf ws 0
      ++ padded 8 4 (← args)
    rel := relsOf [(0, entry), (8, succ), (24, ws)] }

end Sys2Proof.Machine.Chasm
end

