-- ==== Sys2Proof/Machine/Chasm.lean ====
section
/-! DEFINITION. chasm, the assembler (chapter 02): passes over a source, sections, pools, blocks, diagnostics and the image
(R31, R32, R36–R47). No step of the machine uses it; log entry 53 says how the rules are read. -/

namespace Sys2Proof.Machine.Chasm

/-- The bytes of a section so far, the last piece first. -/
structure Sect where
  len    : Nat
  pieces : List (List Byte)
  deriving DecidableEq, Repr

def Sect.empty : Sect := { len := 0, pieces := [] }
def Sect.add (x : Sect) (bs : List Byte) : Sect := { len := x.len + bs.length, pieces := bs :: x.pieces }
def Sect.bytes (x : Sect) : List Byte := x.pieces.reverse.flatten

/-- A literal that waits for a pool (R31): its number, its bytes, its value where it is known, its expression and what that
needs. -/
structure Pending where
  ref   : Nat
  bytes : Nat
  value : Option Val
  what  : Expr × Need
  deriving DecidableEq, Repr

/-- The block that is open (R40, R44). -/
inductive Block where
  | none
  | header (h : Head)
  | chain (c : Links)
  deriving DecidableEq, Repr

/-- A point of a section, where what follows is moved by an amount that may depend on other nodes (R36): the location after it
is a multiple of `mod`, and it moves what follows by a multiple of `step` more or less. -/
structure Point where
  mod  : Nat
  step : Nat
  on   : List Node
  deriving DecidableEq, Repr

/-- What one pass learns for the next: symbols, sizes (R34), task names, pool places by literal, what each definition needs
(R36), the points of the two sections, headers, and the features that each task's code uses (R42). -/
structure Known where
  syms  : Names Val
  sizes : Names Nat
  tasks : List Str
  lits  : Table Nat
  needs : Names Need
  textPts : List Point
  dataPts : List Point
  heads : List (List Byte)
  used  : List Nat
  deriving DecidableEq, Repr

def Known.none : Known :=
  { syms := [], sizes := [], tasks := [], lits := [], needs := [], textPts := [], dataPts := [], heads := [], used := [] }

/-- What chasm says of a condition: R47's own words, shortened [DESIGN CHOICE: R46 gives no texts]. -/
def Code.text : Code → String
  | .a01 => "unknown mnemonic, directive, key word or register name"
  | .a02 => "suffix unknown for the mnemonic, out of order, repeated or missing"
  | .a03 => "scope not allowed, or register class illegal at the scope"
  | .a04 => "wrong number or kind of operands"
  | .a05 => "immediate or data value out of range"
  | .a06 => "target out of reach, misaligned or in another section"
  | .a07 => "symbol undefined, defined twice, self-dependent or spelled as a reserved name"
  | .a08 => "illegal expression"
  | .a09 => "statement in the wrong section, or instruction at a location not a multiple of 4"
  | .a10 => "header block malformed or header value out of limits"
  | .a11 => "descriptor or record key unknown, repeated or out of range, or chain step count outside 1-8"
  | .a12 => "malformed token"
  | .a20 => "pool placed where control can fall through"
  | .a21 => "data value not naturally aligned"
  | .a22 => "register read before a wait mark covers its result"
  | .a23 => "V register above the allotment, before the first WIN"

/-- The name of a code in a diagnostic. -/
def Code.name : Code → String
  | .a01 => "A01" | .a02 => "A02" | .a03 => "A03" | .a04 => "A04" | .a05 => "A05" | .a06 => "A06" | .a07 => "A07"
  | .a08 => "A08" | .a09 => "A09" | .a10 => "A10" | .a11 => "A11" | .a12 => "A12" | .a20 => "A20" | .a21 => "A21"
  | .a22 => "A22" | .a23 => "A23"

/-- A diagnostic (R46). Lines and columns count from 1, and the column is that of the line's first character that is no blank
[DESIGN CHOICE: R46 does not say which column]. -/
structure Diag where
  line : Nat
  col  : Nat
  code : Code
  deriving DecidableEq, Repr

/-- A diagnostic as it is reported: `file:line:column: code: text`. -/
def Diag.report (file : Str) (d : Diag) : Str :=
  file ++ [':'] ++ Nat.toDigits 10 d.line ++ [':'] ++ Nat.toDigits 10 d.col ++ [':', ' '] ++ d.code.name.toList
    ++ [':', ' '] ++ d.code.text.toList

/-- A pass at a statement. -/
structure Pass where
  was   : Known
  now   : Known
  final : Bool
  line  : Nat
  col   : Nat
  sec   : Sec
  text  : Sect
  data  : Sect
  rel   : List (Sec × Nat × Val)
  pend  : List Pending
  refs  : Nat
  block : Block
  diags : List Diag
  /-- The opcode of the last instruction of `.text`, 0 after a header, none after other bytes (R32). -/
  last  : Option Nat
  /-- The window base as the straight-line code shows it; a number past every register where it shows none (A22). -/
  base  : Nat
  /-- Registers with a result that no wait mark covers yet (A22), V registers by their place beyond the base. -/
  late  : List Nat
  /-- The `.regs` allotment until the task's first WIN (A23). -/
  regs  : Option Nat

/-- A base that the code does not show. -/
def noBase : Nat := 65536

/-- The start of a pass; a source that selects no section is in `.text` [DESIGN CHOICE: R37 does not say]. -/
def Pass.start (was : Known) (final : Bool) : Pass :=
  { was := was, now := Known.none, final := final, line := 0, col := 1, sec := .text, text := Sect.empty, data := Sect.empty, rel := [],
    pend := [], refs := 0, block := .none, diags := [], last := none, base := noBase, late := [], regs := none }

def Pass.say (p : Pass) (c : Code) : Pass := { p with diags := { line := p.line, col := p.col, code := c } :: p.diags }

/-- Why a statement has no value is reported in the last pass. -/
def Pass.stop (p : Pass) (es : List Stop) : Pass :=
  es.foldl (fun p e =>
    match e with
    | .err c => p.say c
    | .later => p.say .a07
    | .told => p) p

def Pass.loc (p : Pass) : Nat :=
  match p.sec with
  | .text => p.text.len
  | .data => p.data.len

def Pass.emit (p : Pass) (bs : List Byte) : Pass :=
  match p.sec with
  | .text => { p with text := p.text.add bs, last := none }
  | .data => { p with data := p.data.add bs }

def zeros (n : Nat) : List Byte := List.replicate n 0

/-! ### Dependence (R36) -/

/-- The points of a section so far. -/
def Known.points (k : Known) : Sec → List Point
  | .text => k.textPts
  | .data => k.dataPts

/-- A new point where the pass stands. -/
def Pass.point (p : Pass) (x : Point) : Pass :=
  match p.sec with
  | .text => { p with now := { p.now with textPts := p.now.textPts ++ [x] } }
  | .data => { p with now := { p.now with dataPts := p.now.dataPts ++ [x] } }

/-- The nodes that a node reads. -/
def Known.reads (k : Known) : Node → List Node
  | .sym s => ((find k.needs s).map Need.nodes).getD []
  | .point sec n => (((k.points sec)[n]?).map Point.on).getD []

/-- The nodes that some nodes reach, themselves among them. -/
def reached (k : Known) : Nat → List Node → List Node
  | 0, ns => ns
  | n + 1, ns =>
    let more := (ns ++ ns.flatMap k.reads).eraseDups
    if more.length = ns.length then ns else reached k n more

/-- The nodes that some nodes reach, as the pass before knew them. -/
def Pass.reached (p : Pass) (ns : List Node) : List Node :=
  Chasm.reached p.was (p.was.needs.length + p.was.textPts.length + p.was.dataPts.length) ns.eraseDups

/-- A value that these nodes decide is the same wherever points move things. -/
def Pass.fixed (p : Pass) (ns : List Node) : Bool :=
  (p.reached ns).all fun n =>
    match n with
    | .sym _ => true
    | .point _ _ => false

/-- The points that decide the location modulo n; all of them for 0. -/
def Pass.since (p : Pass) (n : Nat) : List Node :=
  ((((p.now.points p.sec).zipIdx.reverse.takeWhile fun e => e.1.mod % n != 0)).filter fun e => e.1.step % n != 0).map fun e =>
    .point p.sec e.2

/-- Zero bytes up to a multiple (R38) that some nodes decide: control falls through them as before. -/
def Pass.alignBy (p : Pass) (n : Nat) (by_ : List Node) : Pass :=
  let q := p.point (if p.fixed by_ then { mod := n, step := 1, on := by_ ++ p.since n } else { mod := 1, step := 1, on := by_ ++ p.since 0 })
  if p.loc % n = 0 then q else { q.emit (zeros (n - p.loc % n)) with last := p.last }

/-- The same for a number that the rules give. -/
def Pass.align (p : Pass) (n : Nat) : Pass := p.alignBy n []

/-- The points before what stands here. -/
def Pass.points (p : Pass) : Nat := (p.now.points p.sec).length

def Pass.env (p : Pass) (instr : Bool) : Env :=
  { now := p.now.syms, was := p.was.syms, sizes := p.now.sizes, sizesWas := p.was.sizes, final := p.final,
    needs := p.now.needs ++ p.was.needs, here := { n := p.loc, sec := some p.sec }, point := p.points, instr := instr }

/-- A definition depends on itself: its value on itself, or its place on a point before it that depends on itself and reads it
[DEDUCED, log entry 53: a distance depends on the points that it spans]. -/
def Pass.circular (p : Pass) (s : Str) (x : Need) : Bool :=
  match x.place with
  | none => (p.reached x.nodes).contains (.sym s)
  | some (sec, k) =>
    (List.range k).any fun i =>
      let r := p.reached (p.was.reads (.point sec i))
      r.contains (.point sec i) && r.contains (.sym s)

/-- A definition, with what it needs (R21, R36). -/
def Pass.define (p : Pass) (s : Str) (v : Val) (x : Need) : Pass :=
  let q := if p.final && p.circular s x then p.say .a07 else p
  if reserved s || (find p.now.syms s).isSome then q.say .a07
  else { q with now := { q.now with syms := (s, v) :: q.now.syms, needs := (s, x) :: q.now.needs } }

/-- A label at a location of the section, after all of its points so far. -/
def Pass.label (p : Pass) (s : Str) (n : Nat) : Pass :=
  p.define s { n := n, sec := some p.sec } { Need.none with place := some (p.sec, p.points) }

def Pass.size (p : Pass) (s : Str) (n : Nat) : Pass := { p with now := { p.now with sizes := (s, n) :: p.now.sizes } }

/-- Bytes with relocations at the present place. -/
def Pass.put (p : Pass) (o : Out) : Pass :=
  let rel := o.rel.map fun r => (p.sec, p.loc + r.1, r.2)
  { p.emit o.bytes with rel := p.rel ++ rel }

/-! ### Pools (R31, R32) -/

/-- Entries of one size at the aligned location: equal values share a place. -/
def placePool (bytes : Nat) : List Pending → List (Val × Nat) → Pass → Pass
  | [], _, p => p
  | e :: es, seen, p =>
    let at_ := fun (p : Pass) (n : Nat) => { p with now := { p.now with lits := tput p.now.lits e.ref n } }
    match e.value.bind fun x => seen.find? fun y => y.1 == x with
    | some y => placePool bytes es seen (at_ p y.2)
    | none =>
      let place := p.loc
      let q := match e.value with
        | some x =>
          if x.sec.isSome then p.put { bytes := zeros bytes, rel := [(0, x)] }
          else p.put { bytes := le bytes x.n, rel := [] }
        | none => p.emit (zeros bytes)
      placePool bytes es ((e.value.map fun x => [(x, place)]).getD [] ++ seen) (at_ q place)

/-- The nodes that decide which of some entries share a place. -/
def sharing : List Pending → List Node
  | [] => []
  | e :: es => es.flatMap (fun f => equalOn e.what f.what) ++ sharing es

/-- The entries of one size: the alignment and what they take are points (R36). -/
def Pass.poolOf (p : Pass) (bytes : Nat) : Pass :=
  let es := p.pend.filter fun e => e.bytes == bytes
  if es.isEmpty then p
  else (placePool bytes es [] (p.align bytes)).point { mod := bytes, step := bytes, on := (sharing es).eraseDups }

def Pass.pool (p : Pass) : Pass := { (p.poolOf 8).poolOf 4 with pend := [] }

/-- The value of a literal (R31, R35); an LDLW literal is kept as its 32 bits. -/
def literal (v : Env) (bytes : Nat) (e : Expr) : Ev Val :=
  if bytes = 8 then eval v e else (evalIn v .a05 (-2147483648) 4294967295 e).map fun n => .abs (n % 4294967296)

/-! ### Instructions -/

/-- The size of the pool entry that a row takes. -/
def poolBytes (ss : List Slot) : Option Nat :=
  ss.findSome? fun s =>
    match s with
    | .pool n => some n
    | .reg _ _ => none | .imm _ _ _ => none | .bar _ => none | .target _ => none

def litOf (os : List Operand) : Option Expr :=
  os.findSome? fun o =>
    match o with
    | .lit e => some e
    | .name _ => none | .imm _ => none | .exp _ => none

/-- The pass after the literal of a statement, if it has one, and the place of the literal in the pass before. -/
def Pass.takeLiteral (p : Pass) (sf : Suffixes) (os : List Operand) : Pass × Option Int :=
  match poolBytes sf.slots, litOf os with
  | some n, some e =>
    let r := literal (p.env true) n e
    let q := match r with
      | .ok _ => p
      | .error e => p.stop e
    let value := match r with
      | .ok x => some x
      | .error _ => none
    ({ q with pend := q.pend ++ [{ ref := q.refs, bytes := n, value := value, what := (e, needOf (p.env true) e) }], refs := q.refs + 1 },
      (tget? q.was.lits q.refs).map Int.ofNat)
  | some _, none => (p, none)
  | none, _ => (p, none)

/-- A register as `late` names it: a V register by its place. -/
def Pass.key (p : Pass) (r : Nat) : Nat := if r < 64 then 128 + p.base + r else r

/-- The warnings of a word and what follows from it (A22, A23, R42). -/
def Pass.after (p : Pass) (sf : Suffixes) (x : BitVec 32) : Pass :=
  let rs := readsOf sf x
  let ws := writesOf sf x
  let p := if rs.any fun r => p.late.contains (p.key r) then p.say .a22 else p
  let above := match p.regs with
    | some n => (rs ++ (if sf.slots.any fun s => s == D || s == U then [(fieldD x).toNat] else [])).any fun r =>
        decide (r < 64) && decide (n ≤ r)
    | none => false
  let p := if above then p.say .a23 else p
  let keys := ws.map p.key
  let late := if sf.wt || endsRun sf.op then [] else p.late.filter (fun r => !keys.contains r) ++ if lateOp sf.op then keys else []
  let base := if sf.op = 0x10 then 16 * (fieldB x).toNat else if endsRun sf.op then noBase else p.base
  let used := match p.now.used.reverse with
    | n :: ns => (n ||| featureOf sf.op) :: ns
    | [] => []
  { p with late := late, base := base, regs := if sf.op = 0x10 then none else p.regs, last := some sf.op,
           now := { p.now with used := used.reverse } }

/-- What is wrong with the operands of a statement whose suffixes are in error: they are held against the mnemonic's row, in the
scope that a suffix names or in any, or for themselves where there is none. -/
def Pass.strayOperands (p : Pass) (mn : Str) (ss : List Str) (os : List Operand) : Pass :=
  match rows.find? fun r => spells mn r.mn with
  | none => p.stop (os.flatMap (faultsOf (p.env true)))
  | some r =>
    let sf : Suffixes := { op := r.op, slots := r.slots, code := none, scope := ss.findSome? scopeNamed, wt := false }
    let q := p.takeLiteral sf os
    let f := fillAll (p.env true) q.2 (blank sf) sf.slots os
    q.1.stop (f.wrong ++ wordFaults sf sf.scope.isSome f)

/-- An instruction statement at its place (R37): its word takes four bytes, also where it is in error. -/
def Pass.word (p : Pass) (mn : Str) (ss : List Str) (os : List Operand) : Pass :=
  match suffixesOf mn ss with
  | .error e => ((p.stop e).strayOperands mn ss os).emit (zeros 4)
  | .ok sf =>
    let q := p.takeLiteral sf os
    match wordFrom (p.env true) q.2 sf os with
    | .error e => { (q.1.stop e).emit (zeros 4) with last := some sf.op }
    | .ok x => (q.1.emit (bytesOfWord x)).after sf x

/-- An instruction statement where none may stand, for the reason of a code: its other errors are reported too, but for
what turns on its place (R46). -/
def Pass.misplaced (p : Pass) (c : Code) (mn : Str) (ss : List Str) (os : List Operand) : Pass :=
  let new := ({ p with diags := [] }.word mn ss os).diags.filter fun d => !d.code.warns && d.code != Code.a06
  { p.say c with diags := new ++ (p.say c).diags }

/-- An instruction statement (R37). -/
def Pass.instr (p : Pass) (mn : Str) (ss : List Str) (os : List Operand) : Pass :=
  if p.sec ≠ .text ∨ p.loc % 4 ≠ 0 then p.misplaced .a09 mn ss os else p.word mn ss os

/-! ### Directives -/

/-- The data directives (R39): bytes a value, and its range. -/
def dataDirs : List (String × Nat × Int × Int) :=
  [("byte", 1, -128, 255), ("half", 2, -32768, 65535), ("word", 4, -2147483648, 4294967295),
   ("quad", 8, -9223372036854775808, 9223372036854775807)]

/-- One value of a data directive; `v` keeps the address of the statement. -/
def Pass.datum (p : Pass) (v : Env) (width : Nat) (lo hi : Int) (a : Darg) : Pass :=
  match a with
  | .str bs => if width = 1 then p.emit bs else (p.say .a04).emit (zeros width)
  | .elem e =>
    let p := if p.loc % width = 0 then p else p.say .a21
    match eval v e.expr with
    | .error e => (p.stop e).emit (zeros width)
    | .ok x =>
      if x.sec.isSome then
        if width = 8 then p.put { bytes := zeros 8, rel := [(0, x)] } else (p.say .a08).emit (zeros width)
      else if lo ≤ x.n ∧ x.n ≤ hi then p.emit (le width x.n)
      else (p.say .a05).emit (zeros width)
  | .keyed _ _ => (p.stop (errs (exprArg v a))).emit (zeros width)
  | .tuple _ _ => (p.stop (errs (exprArg v a))).emit (zeros width)

/-- An error of a directive, with what is wrong with its operands; those that are key words, names of definitions or of bits, and
those of an unknown directive, are no symbols. -/
def Pass.refuse (p : Pass) (c : Code) (d : Str) (as : List Darg) : Pass :=
  let values := dataDirs.any (fun x => spells d x.1) || spells d "align" || (headerDirs.any (spells d) && !spells d "needs")
  p.stop (.err c :: if values then argFaults (p.env false) as
    else if spells d "equ" then wordyFaults (p.env false) (as.take 1) ++ argFaults (p.env false) (as.drop 1)
    else wordyFaults (p.env false) as)

/-- No operand may stand. -/
def Pass.bare (p : Pass) (as : List Darg) : Pass := if as.isEmpty then p else p.stop (errs (miscount (α := Unit) (p.env false) as))

/-- A `.task`: the header's place, with the bytes that the pass before found (R40). -/
def Pass.task (p : Pass) (as : List Darg) : Pass :=
  if p.sec ≠ .text then
    match as with
    | [a] => (p.say .a09).stop (errs (nameArg (p.env false) a))
    | as => ((p.say .a09).say .a04).stop (wordyFaults (p.env false) as)
  else
    match as with
    | [a] =>
      match nameArg (p.env false) a with
      | .error e => p.stop e
      | .ok s =>
        let p := p.align 64
        let bytes := (p.was.heads[p.now.heads.length]?).getD (zeros 64)
        { p.emit bytes with block := .header (Head.start s p.loc), regs := none, late := [], base := noBase }
    | [] => p.say .a04
    | _ :: _ :: _ => (p.say .a04).stop (wordyFaults (p.env false) as)

/-- An `.endtask`: the entry's label, and the header for the next pass (R40–R42). -/
def Pass.endtask (p : Pass) (h : Head) (as : List Darg) : Pass :=
  let p := p.bare as
  let r := headBytes h ((p.was.used[p.now.heads.length]?).getD 0)
  let p := match r with
    | .ok _ => p
    | .error e => p.stop e
  let bytes := match r with
    | .ok bs => bs
    | .error _ => zeros 64
  let p := { p with now := { p.now with heads := p.now.heads ++ [bytes], used := p.now.used ++ [0], tasks := h.name :: p.now.tasks },
                    block := .none, last := some 0, regs := some h.regs.toNat, base := 0 }
  (p.label h.name (h.place + 64)).size h.name 64

/-- A `.tensor` or a `.record`: 64 bytes, aligned to 64, with a label (R43, R45). -/
def Pass.descriptor (p : Pass) (tensor : Bool) (as : List Darg) : Pass :=
  match as with
  | [] => p.say .a04
  | a :: as =>
    let p := p.align 64
    let v := p.env false
    let p := match nameArg v a with
      | .error e => p.stop e
      | .ok s => (p.label s p.loc).size s 64
    let task := fun s => p.now.tasks.contains s || p.was.tasks.contains s
    match if tensor then tensorOf v as else recordOf v task as with
    | .error e => (p.stop e).emit (zeros 64)
    | .ok o => p.put o

/-- A `.chain` (R44). -/
def Pass.chain (p : Pass) (as : List Darg) : Pass :=
  match as with
  | [] => p.say .a04
  | a :: as =>
    let p := p.align 64
    match nameArg (p.env false) a, chainOf (p.env false) ((nameArg (p.env false) a).toOption.getD []) p.loc as with
    | .error e, c => p.stop (e ++ errs c)
    | .ok s, .error e =>
      { p.stop e with block := .chain { name := s, place := p.loc, head := [0, 0, 0], count := 0, steps := [] } }
    | .ok _, .ok c => { p with block := .chain c }

/-- A line of a chain: only `.step` and `.endchain` may stand in it (R44). The address of a step is that of its own 8 bytes. -/
def Pass.inChain (p : Pass) (c : Links) (d : Str) (as : List Darg) : Pass :=
  let v := p.env false
  if spells d "step" then
    match stepOf { v with here := { v.here with n := c.place + 16 + 8 * c.steps.length } } as with
    | .error e => { p.stop e with block := .chain { c with steps := c.steps ++ [zeros 8] } }
    | .ok bs => { p with block := .chain { c with steps := c.steps ++ [bs] } }
  else if spells d "endchain" then
    let p := p.bare as
    let p := ({ p with block := .none }.label c.name c.place).size c.name (16 + 8 * c.steps.length)
    match chainBytes c with
    | .error e => (p.stop e).emit (zeros (16 + 8 * c.steps.length))
    | .ok bs => p.emit bs
  else p.refuse .a11 d as

/-- A line of a header block: only header directives and `.endtask` may stand in it (R40). -/
def Pass.inHeader (p : Pass) (h : Head) (d : Str) (as : List Darg) : Pass :=
  if spells d "endtask" then p.endtask h as
  else if headerDirs.any (spells d) then
    match headDir (p.env false) h d as with
    | .error e => p.stop e
    | .ok h => { p with block := .header h }
  else p.refuse .a10 d as

/-- The power of two from 1 to 65,536 (R38). -/
def alignOk (n : Int) : Bool := (List.range 17).any fun k => n == 2 ^ k

/-- A directive outside a block. An operand of `.align` that R38 does not allow is A05 [DESIGN CHOICE, log entry 53: no row of R47
cites R38]. -/
def Pass.dir (p : Pass) (label : Option Str) (d : Str) (as : List Darg) : Pass :=
  let bare := fun (q : Pass) => if as.isEmpty then q else p.bare as
  let v := p.env false
  if spells d "text" then bare { p with sec := .text }
  else if spells d "data" then bare { p with sec := .data }
  else if spells d "align" then
    match as with
    | [a] =>
      match (do pair (exprArg v a) (evalIn v .a05 1 65536 (← exprArg v a))) with
      | .error e => p.stop e
      | .ok (e, n) => if alignOk n then p.alignBy n.toNat (needOf v e).nodes else p.say .a05
    | [] => p.say .a04
    | _ :: _ :: _ => p.refuse .a04 d as
  else if spells d "equ" then
    match as with
    | [a, b] =>
      match pair (nameArg v a) (do pair (exprArg v b) (evalAbs v (← exprArg v b))) with
      | .ok (s, e, n) => p.define s (.abs n) (needOf v e)
      | .error e => p.stop e
    | [] => p.refuse .a04 d as
    | [_] => p.refuse .a04 d as
    | _ :: _ :: _ :: _ => p.refuse .a04 d as
  else if spells d "pool" then
    if p.sec ≠ .text then (p.say .a09).bare as
    else
      let falls := p.last.any fun op => !([0x01, 0x06, 0x0C, 0x1C].contains op)
      bare (if falls then p.say .a20 else p).pool
  else if spells d "task" then p.task as
  else if spells d "tensor" then p.descriptor true as
  else if spells d "record" then p.descriptor false as
  else if spells d "chain" then p.chain as
  else if spells d "step" then p.refuse .a11 d as
  else if spells d "endchain" then p.refuse .a11 d as
  else if spells d "endtask" || headerDirs.any (spells d) then p.refuse .a10 d as
  else
    match dataDirs.find? fun x => spells d x.1 with
    | none => p.refuse .a01 d as
    | some x =>
      let start := p.loc
      let q := as.foldl (fun q a => q.datum v x.2.1 x.2.2.1 x.2.2.2 a) p
      match label with
      | some s => q.size s (q.loc - start)
      | none => q

/-! ### Lines, passes and the image -/

/-- A line (R23): in a block no label may stand (R40, R44). A label names the place before the padding that a directive of its
line adds (`.task`, `.tensor`, `.chain`, `.record`, `.align`), while `.` in that statement is the place after it
[DESIGN CHOICE: R40 and R43 do not say]. -/
def Pass.take (p : Pass) (l : Line) : Pass :=
  let p := l.toks.foldl Pass.say { p with line := p.line + 1, col := l.col }
  let p := match l.label, p.block with
    | none, _ => p
    | some s, .none => { p.label s p.loc with late := [], base := noBase }
    | some _, .header _ => p.say .a10
    | some _, .chain _ => p.say .a11
  match l.stmt with
  | .error cs => cs.foldl Pass.say p
  | .ok none => p
  | .ok (some (.instr mn ss os)) =>
    match p.block with
    | .none => p.instr mn ss os
    | .header _ => p.misplaced .a10 mn ss os
    | .chain _ => p.misplaced .a11 mn ss os
  | .ok (some (.dir d as)) =>
    match p.block with
    | .none => p.dir l.label d as
    | .header h => p.inHeader h d as
    | .chain c => p.inChain c d as

/-- The end of the source: an open block is an error, and `.text` ends with a pool (R31, R40, R44). -/
def Pass.finish (p : Pass) : Pass :=
  let p := match p.block with
    | .none => p
    | .header _ => p.say .a10
    | .chain _ => p.say .a11
  { p with sec := .text }.pool

/-- One pass over the lines. -/
def pass (ls : List Line) (was : Known) (final : Bool) : Pass := (ls.foldl Pass.take (Pass.start was final)).finish

/-- Passes until one learns what the pass before knew; `n` bounds them. -/
def settle (ls : List Line) : Nat → Known → Known
  | 0, k => k
  | n + 1, k =>
    let k' := (pass ls k false).now
    if k' = k then k else settle ls n k'

/-- A loadable image (R37): its sections, the offset of `.data`, its relocations and its symbols. -/
structure Image where
  text    : List Byte
  data    : List Byte
  dataOff : Nat
  rel     : List (Sec × Nat × Val)
  syms    : Names Val
  deriving DecidableEq, Repr

/-- What chasm answers: its diagnostics in the order of the source, and the image where none is an error (R46). -/
structure Answer where
  diags : List Diag
  image : Option Image
  deriving DecidableEq, Repr

/-- The lines that chasm writes of a source in a file. -/
def Answer.reports (file : Str) (a : Answer) : List Str := a.diags.map (Diag.report file)

/-- The assembler. -/
def assemble (source : Str) : Answer :=
  let ls := (linesOf source).map lineOf
  let k := settle ls (ls.length + 8) Known.none
  let p := pass ls k true
  let p := if p.now = k then p else p.say .a07
  let diags := p.diags.reverse
  { diags := diags,
    image := if diags.all fun d => d.code.warns then
        some { text := p.text.bytes, data := p.data.bytes, dataOff := (p.text.len + 65535) / 65536 * 65536, rel := p.rel,
               syms := p.now.syms }
      else none }

/-- Where a section lies in an image. -/
def Image.offset (m : Image) (s : Option Sec) : Nat :=
  match s with
  | some .data => m.dataOff
  | some .text => 0
  | none => 0

/-- A number added to the quad at an offset of some bytes. -/
def addQuad (bs : List Byte) (off : Nat) (n : Int) : List Byte :=
  let q := (bs.drop off).take 8
  let old := q.reverse.foldl (fun (v : Nat) b => v * 256 + b.toNat) 0
  bs.take off ++ le 8 (old + n) ++ bs.drop (off + 8)

/-- The bytes of an image at a load base, its relocations resolved (R35). -/
def Image.load (m : Image) (base : Nat) : List Byte :=
  let whole := m.text ++ (if m.data.isEmpty then [] else zeros (m.dataOff - m.text.length) ++ m.data)
  m.rel.foldl (fun bs r => addQuad bs (m.offset (some r.1) + r.2.1) (base + m.offset r.2.2.sec + r.2.2.n)) whole

end Sys2Proof.Machine.Chasm
end

