-- ==== Sys2Proof/Tests/Slice0.lean ====
section
/-! SUPPORT. Tests: words written out from the spec's encodings, ill-formed terms, single steps against values worked by
hand from the rules, and for each statement a state and operands that meet its hypotheses. -/

namespace Sys2Proof.Tests

-- one proof at a time: each evaluates in the kernel
set_option Elab.async false

open Sys2Proof Sys2Proof.Machine Sys2Proof.Claim

/-! ### Words (the encodings of each chapter) -/

theorem test_word_idiv : decode 0x1E004103 = .instr (.idiv32 false .lane (.v 1) (.v 2) (.v 3)) := by decide
theorem test_word_mma : decode 0x5D649049 = .instr (.mma false .set 18 (.v 32) (.s 9)) := by decide
theorem test_word_coll : decode 0x23C0A245 = .instr (.coll false .warp 2 (.s 4) (.s 5)) := by decide
theorem test_word_br : decode 0x203FFFF0 = .instr (.br false 0x1FFFF0) := by decide
theorem test_word_ldl : decode 0xA25B4006 = .instr (.ldl true (.s 45) 6) := by decide
theorem test_word_shl : decode 0x0900BCED = .instr (.shl false .lane .w64 (.v 2) .lid (.s 45)) := by decide
theorem test_word_st : decode 0x14806002 = .instr (.st false .lane .w64 (.v 1) (.s 0) (.v 2)) := by decide
theorem test_word_exit : decode 0x01800000 = .instr (.exit false .lane) := by decide
theorem test_word_cvt : decode 0x1220C090 = .instr (.cvt false .lane (.v 3) (.v 1) false 16) := by decide
theorem test_word_ffma : decode 0x0F600184 = .instr (.ffmaF32 false .lane (.v 0) (.v 3) (.v 4)) := by decide
theorem test_word_ckey : decode 0x20FE0080 = .instr (.ckey false (.v 1) 0) := by decide
theorem test_word_class : decode 0x211C000E = .instr (.klass false (.k 0) 14) := by decide
theorem test_word_trap : decode 0x21C00005 = .instr (.trap false 5) := by decide
theorem test_word_rseed : decode 0x329E21F8 = .instr (.rseed false (.s 3)) := by decide
theorem test_word_fdiv : decode 0x1E810286 = .instr (.fdivF32 false .lane (.v 4) (.v 5) (.v 6)) := by decide
theorem test_word_irem : decode 0x3E70A1C4 = .instr (.irem64 false .warp (.s 2) (.s 3) (.s 4)) := by decide
theorem test_word_unassigned : decode 0x13C00000 = .reject .unassignedOpcode := by decide
theorem test_word_fixed : decode 0x01800001 = .reject .fixedPosition := by decide
theorem test_word_scope : decode 0x03800001 = .reject .illegalScope := by decide
theorem test_word_set_scope : decode 0x5E004103 = .reject .illegalScope := by decide
theorem test_word_truncated : (decodeBytes [0x00, 0x00, 0x80]).1 = .reject .truncated := by decide

/-! ### Ill-formed terms: a scope that the row's words cannot hold, another opcode, and an event -/

theorem test_ill_formed_lane_or_warp : WellFormed (.add false .set .w64 (.v 1) (.v 2) (.v 3)) = false := by decide
theorem test_ill_formed_set_or_block : WellFormed (.mma false .lane 0 (.v 0) (.s 0)) = false := by decide
theorem test_ill_formed_microcode : WellFormed (.microcoded 0x1E004103) = false := by decide
theorem test_ill_formed_event : WellFormed (.taskComplete 0 0) = false := by decide
theorem test_well_formed : WellFormed (.add false .lane .w64 (.v 1) (.v 2) (.v 3)) = true := by decide

/-! ### States -/

/-- The stream of warp 0 of slot 0 of core 0. -/
def me : Who := mainOf 0 0 0

/-- A warp of 32 lanes in a workgroup with a handler at its entry + 256, at its first word, in context 0. -/
def base : State :=
  let s := placed State.reset []
  updWgOf { s with turns := [] } me fun g => { g with hdr := { g.hdr with trap := 256, priv := 64 }, record := List.replicate 64 0 }

/-- Its warp changed, or its workgroup, or its core. -/
def warped (f : Warp → Warp) : State := updWarpOf base me f
def grouped (f : Wg → Wg) : State := updWgOf base me f
def cored (f : Core → Core) : State := updCore base 0 f

/-- The same with one active lane, and values in S and V registers. -/
def withRegs (ss : List (Nat × Word)) (vs : List (Nat × Word)) : State :=
  warped fun w => { w with s := ss.foldl (fun t e => tput t e.1 e.2) w.s,
                           v := vs.foldl (fun t e => tput t (e.1 * 32) e.2) w.v,
                           main := { w.main with emask := 1 } }

theorem issues_of (s : State) (h : (s.cur == { who := me, mode := .issue }) = true) (hs : (warpOf s me).step = none) :
    Issues s me := by
  have h := of_decide_eq_true h
  exact ⟨by rw [h], by rw [h], (fun k hk => nomatch hk), hs⟩

theorem settled_of (s : State) (rs : List Reg) (h : (wgOf s me).check = false) : Settled s me rs := by
  intro hc
  rw [h] at hc
  cases hc

theorem on_lanes {m : Mask} {p : Nat → Prop} (h : ∀ l, l < 32 → m.getLsbD l = true → p l) : ∀ l, m.getLsbD l = true → p l :=
  fun l hl => h l (BitVec.lt_of_getLsbD hl) hl

theorem base_issues : Issues base me := issues_of _ (by decide +kernel) (by decide +kernel)

/-- No MISS of a TAG is open in the warp of `base`: it has no batches and no commands (R136). -/
theorem base_no_miss (l : Nat) : missOpen base me l = false := by
  have hb : (wgOf base me).batches = [] := by decide +kernel
  have ho : (getCore base me.core).ops = [] := by decide +kernel
  simp [missOpen, hb, ho]

/-! ### Single steps -/

/-- What a step of a word leaves, read by `f`. -/
def ran {α : Type} (s : State) (i : Instr) (f : State → α) : Option α :=
  match exec i s with
  | .next t => some (f t)
  | .fault _ => none
  | .refused _ => none

/-- R142: ADD.32 wraps in each half, with no carry between them. -/
theorem test_add_wraps :
    ran (withRegs [] [(2, 0xFFFFFFFF80000000), (3, 0x0000000180000000)]) (.add false .lane .w32 (.v 1) (.v 2) (.v 3))
      (fun t => rd t me (.v 1) 0) = some 0 := by decide +kernel

/-- R146: −1 × 1 has the high half 0xFFFF… signed and 0 unsigned. -/
theorem test_mulh_signed :
    ran (withRegs [] [(2, 0xFFFFFFFFFFFFFFFF), (3, 1)]) (.mulh64 false .lane (.v 1) (.v 2) (.v 3)) (fun t => rd t me (.v 1) 0)
      = some 0xFFFFFFFFFFFFFFFF := by decide +kernel
theorem test_mulhu :
    ran (withRegs [] [(2, 0xFFFFFFFFFFFFFFFF), (3, 1)]) (.mulhu64 false .lane (.v 1) (.v 2) (.v 3)) (fun t => rd t me (.v 1) 0)
      = some 0 := by decide +kernel

/-- R391's example: −7 / 2 = −3 and −2³¹ / −1 = −2³¹. -/
theorem test_idiv_example :
    ran (withRegs [] [(2, 0x80000000FFFFFFF9), (3, 0xFFFFFFFF00000002)]) (.idiv32 false .lane (.v 1) (.v 2) (.v 3))
      (fun t => held (settle t me) me (.v 1) 0) = some 0x80000000FFFFFFFD := by decide +kernel
theorem test_irem_example :
    ran (withRegs [] [(2, 0x80000000FFFFFFF9), (3, 0xFFFFFFFF00000002)]) (.irem32 false .lane (.v 1) (.v 2) (.v 3))
      (fun t => held (settle t me) me (.v 1) 0) = some 0x00000000FFFFFFFF := by decide +kernel

/-- R175's example: the second candidate ties on score and wins on its lower load. -/
theorem test_tkins_example :
    ran (withRegs [] [(10, 0x3FC0000000030007), (11, 0xFF800000FFFFFFFF), (2, 0x3FC00000), (3, 0x00020009)])
      (.tkins2 false (.v 10) (.v 2) (.v 3)) (fun t => (held (settle t me) me (.v 10) 0, held (settle t me) me (.v 11) 0))
      = some (0x3FC0000000020009, 0x3FC0000000030007) := by decide +kernel

/-- R112: a branch of −1 word; R113: CALL links to the word after it. -/
theorem test_branch_back : ran base (.br false 0x1FFFFF) (fun t => (streamOf t me).pc) = some 0x1003C := by decide +kernel
theorem test_call_links :
    ran base (.call false 2) (fun t => ((streamOf t me).pc, rdS t me (.s 47))) = some (0x10048, 0x10044) := by decide +kernel

/-- R363: TRAP #5 enters the handler with cause 0x1F, TADDR 5 and TPC its own address; RCNT does not count it (R134). -/
theorem test_trap_enters :
    ran base (.trap false 5) (fun t => ((warpOf t me).trap.tcause, (warpOf t me).trap.taddr, (warpOf t me).trap.tpc,
      (streamOf t me).pc, (warpOf t me).rcnt)) = some (0x1F, 5, 0x10040, 0x10140, 0) := by decide +kernel

/-- R64, R67: an unprivileged task's SYSW to register 80 takes cause 0x04. -/
theorem test_sysw_privileged :
    ran base (.sysw false (.s 0) 80) (fun t => (warpOf t me).trap.tcause) = some 0x04 := by decide +kernel

/-- R133, R134: reading RCNT sees the count before the word; a word counts once. -/
theorem test_rcnt :
    ran base (.mov false .warp (.s 3) .rcnt) (fun t => (rdS t me (.s 3), rdS t me .rcnt)) = some (0, 1) := by decide +kernel

/-- R1, R218: STS.32 of 0x11223344 puts the low byte at the lowest address. -/
theorem test_sts_little_endian :
    ran (withRegs [] [(1, 0x11223344), (2, 8)]) (.sts false .lane .w32 (.v 1) (.v 2) .zr)
      (fun t => (wgOf t me).scratch.rdN 8 4) = some [0x44, 0x33, 0x22, 0x11] := by decide +kernel

/-- R201: a scratchpad access past the allotment takes cause 0x0C. -/
theorem test_lds_bounds :
    ran (withRegs [] [(2, 256)]) (.lds false .lane .w64 (.v 1) (.v 2) .zr) (fun t => (warpOf t me).trap.tcause)
      = some 0x0C := by decide +kernel

/-- R177, R180: keys 7 in lanes 0 and 1: CLASS begins with both under key 7. -/
theorem test_class_begins :
    ran (warped fun w => { w with main := { w.main with emask := 3 },
                                  pending := some { lanes := 3, keys := [(0, 7), (1, 7)], mode := 0 } })
      (.klass false (.k 0) 4) (fun t => ((streamOf t me).emask, rdS t me (.k 0), (streamOf t me).pc)) = some (3, 7, 0x10044) := by
  decide +kernel

/-- R400: a cap of 1,199 W is discarded, one of 1,200 W is taken. -/
theorem test_pwr_low : ran base (.pwr 1199) State.cap = some 2600 := by decide +kernel
theorem test_pwr_taken : ran base (.pwr 1200) State.cap = some 1200 := by decide +kernel

/-- R411: the counter rises to 64 and not beyond. -/
theorem test_svraise_bound : ran base (.svraise 0x5A41) State.secver = some 0 := by decide +kernel
theorem test_svraise : ran base (.svraise 0x5A40) State.secver = some 64 := by decide +kernel

/-- R408: the CRC of "123456789". -/
theorem test_crc16 : crc16 [0x31, 0x32, 0x33, 0x34, 0x35, 0x36, 0x37, 0x38, 0x39] = 0xD0DB := by decide +kernel

/-- R410: the SHA-384 of "abc", as the standard gives it. -/
theorem test_sha384 : sha384 [0x61, 0x62, 0x63] =
    [0xCB, 0x00, 0x75, 0x3F, 0x45, 0xA3, 0x5E, 0x8B, 0xB5, 0xA0, 0x3D, 0x69, 0x9A, 0xC6, 0x50, 0x07, 0x27, 0x2C, 0x32, 0xAB, 0x0E, 0xDE, 0xD1, 0x63,
     0x1A, 0x8B, 0x60, 0x5A, 0x43, 0xFF, 0x5B, 0xED, 0x80, 0x86, 0x07, 0x2B, 0xA1, 0xE7, 0xCC, 0x23, 0x58, 0xBA, 0xEC, 0xA1, 0x34, 0xC8, 0x25, 0xA7] := by decide +kernel

/-- R345's example: under 4,000 drain, under 2,500 save, and an idempotent task under 200 flush. -/
def exampleWg (idem : Bool) : Wg :=
  { Wg.init with hdr := { Header.init with warps := 8, regs := 64, scratch := 131072, estimate := 40 }, earlier := 38000,
                 record := if idem then (List.replicate 64 0).set 7 1 else List.replicate 64 0 }
theorem test_choose_drain : choose State.reset (exampleWg false) 4000 = .drain := by decide +kernel
theorem test_choose_save : choose State.reset (exampleWg false) 2500 = .save := by decide +kernel
theorem test_choose_flush : choose State.reset (exampleWg true) 200 = .flush := by decide +kernel

/-- Log entry 3: the host's word runs as the first instruction. -/
theorem test_with_fetch_word :
    (match step (State.reset.withFetchWord 32 0x01800000) with
     | .next t => (warpOf t me).live
     | .fault _ => 1
     | .refused _ => 1) = 0 := by decide +kernel

/-! ### For each statement, states and operands that meet its hypotheses -/

theorem test_hyp_IntegerArithmetic : ∃ s o i p, arithmetic i = some p ∧ Issues s o ∧ Settled s o p.srcs ∧
    dstOk s o p.sc p.d = true ∧ srcOk s o p.sc p.a = true ∧ srcOk s o p.sc p.b = true ∧ p.sc = .lane :=
  ⟨base, me, .mad32 true .lane (.v 1) .lid (.v 3), _, rfl, base_issues, settled_of _ _ (by decide +kernel), by decide +kernel,
    by decide +kernel, by decide +kernel, rfl⟩

theorem test_hyp_IntegerArithmetic_warp : ∃ s o i p, arithmetic i = some p ∧ Issues s o ∧ Settled s o p.srcs ∧
    dstOk s o p.sc p.d = true ∧ srcOk s o p.sc p.a = true ∧ srcOk s o p.sc p.b = true ∧ p.sc = .warp ∧
    (isS p.d = true → inConc s o = false) :=
  ⟨base, me, .add true .warp .w8 (.s 47) (.k 7) (.s 0), _, rfl, base_issues, settled_of _ _ (by decide +kernel), by decide +kernel,
    by decide +kernel, by decide +kernel, rfl, by decide +kernel⟩

theorem test_hyp_IntegerOrderAndFields : (∃ i p, ordering i = some p ∧ Settled base me p.srcs ∧ dstOk base me p.sc p.d = true ∧
      srcOk base me p.sc p.a = true ∧ srcOk base me p.sc p.b = true ∧ p.sc = .lane) ∧
    ∃ i p, fields i = some p ∧ Settled base me p.srcs ∧ dstOk base me p.sc p.d = true ∧ srcOk base me p.sc p.a = true ∧
      srcOk base me p.sc p.b = true ∧ p.sc = .warp :=
  ⟨⟨.shl false .lane .w16 (.v 0) (.v 15) (.v 2), _, rfl, settled_of _ _ (by decide +kernel), by decide +kernel, by decide +kernel,
      by decide +kernel, rfl⟩,
   ⟨.bfi false .warp (.k 0) (.s 1) (.s 2), _, rfl, settled_of _ _ (by decide +kernel), by decide +kernel, by decide +kernel,
      by decide +kernel, rfl⟩⟩

/-- A finite nonzero sum, an exact zero one, a finite product and a zero one of f32, at the edges of its range. -/
theorem test_hyp_FloatWords_rounds :
    (∀ x ∈ [0x7F7FFFFF, 0x80000001, 0x80000000, 0], finite fmtF32 x) ∧
    unitsOf fmtF32 0x7F7FFFFF + unitsOf fmtF32 0x80000001 ≠ 0 ∧ unitsOf fmtF32 0x80000000 + unitsOf fmtF32 0 = 0 ∧
    unitsOf fmtF32 0x80000001 - unitsOf fmtF32 0 ≠ 0 ∧ unitsOf fmtF32 0x80000000 - unitsOf fmtF32 0 = 0 ∧
    unitsOf fmtF32 0x80000001 * unitsOf fmtF32 0x80000001 ≠ 0 ∧ unitsOf fmtF32 0x80000000 * unitsOf fmtF32 0x7F7FFFFF = 0 ∧
    unitsOf fmtF32 0 * perUnit fmtF32 + unitsOf fmtF32 0x80000001 * unitsOf fmtF32 0x80000001 ≠ 0 ∧
    unitsOf fmtF32 0 * perUnit fmtF32 + unitsOf fmtF32 0 * unitsOf fmtF32 0 = 0 := by
  unfold finite; decide +kernel

theorem test_hyp_FloatWords : (∃ i p, floatArith i = some p ∧ FloatRuns base me p ∧ p.sc = .lane) ∧
    (∃ i p, floatShape i = some p ∧ FloatRuns base me p ∧ p.sc = .warp) ∧
    ∃ i p, floatShape i = some p ∧ FloatRuns base me p ∧ p.sc = .lane :=
  ⟨⟨.ffmaF32 false .lane (.v 1) (.v 2) (.v 3), _, rfl,
      ⟨rfl, base_issues, settled_of _ _ (by decide +kernel), by decide +kernel, by decide +kernel, by decide +kernel, by decide⟩, rfl⟩,
   ⟨.frnd false .warp (.s 1) (.s 2) 3, _, rfl,
      ⟨by decide, base_issues, settled_of _ _ (by decide +kernel), by decide +kernel, by decide +kernel, by decide +kernel,
        fun _ _ => by decide +kernel⟩, rfl⟩,
   ⟨.fscl false .lane (.v 1) (.v 2) 64, _, rfl,
      ⟨rfl, base_issues, settled_of _ _ (by decide +kernel), by decide +kernel, by decide +kernel, by decide +kernel, by decide⟩,
      rfl⟩⟩

theorem test_hyp_LateResults : (∃ i p, lateWords i = some p ∧ FloatRuns base me p ∧ p.sc = .lane) ∧
    ∃ i p, lateWords i = some p ∧ FloatRuns base me p ∧ p.sc = .warp :=
  ⟨⟨.rcp false .lane (.v 1) (.v 2), _, rfl,
      ⟨rfl, base_issues, settled_of _ _ (by decide +kernel), by decide +kernel, by decide +kernel, by decide +kernel, by decide⟩, rfl⟩,
   ⟨.irem64 false .warp (.s 2) (.s 3) (.s 4), _, rfl,
      ⟨rfl, base_issues, settled_of _ _ (by decide +kernel), by decide +kernel, by decide +kernel, by decide +kernel,
        fun _ _ => by decide +kernel⟩, rfl⟩⟩

/-- −2, the least number, and the zeros. -/
theorem test_hyp_LateResults_finite :
    (∀ x ∈ [0xC0000000, 1, 0x80000000, 0], finite fmtF32 x) ∧ unitsOf fmtF32 0xC0000000 < 0 ∧ 0 < unitsOf fmtF32 1 ∧
    unitsOf fmtF32 0x80000000 = 0 ∧ unitsOf fmtF32 0 = 0 := by
  unfold finite; decide +kernel

theorem test_hyp_RandomDraws : (∃ i p, drawWord i = some p ∧ Settled base me p.srcs ∧ p.ok = true ∧
      srcOk base me p.sc p.a = true ∧ dstOk base me p.sc p.d = true ∧ p.sc = .lane) ∧
    ∃ i p, drawWord i = some p ∧ Settled base me p.srcs ∧ p.ok = true ∧ srcOk base me p.sc p.a = true ∧
      dstOk base me p.sc p.d = true ∧ p.sc = .warp ∧ (isS p.d = true → inConc base me = false) :=
  ⟨⟨.cvtsr false .lane (.v 1) (.v 2) 2, _, rfl, settled_of _ _ (by decide +kernel), by decide, by decide +kernel,
      by decide +kernel, rfl⟩,
   ⟨.rand false .warp (.s 1), _, rfl, settled_of _ _ (by decide +kernel), rfl, by decide +kernel, by decide +kernel, rfl,
      by decide +kernel⟩⟩

theorem test_hyp_CrossLaneWords : ∃ i p, crossLane i = some p ∧ Issues base me ∧ allOuts (warpOf base me) = [] ∧
    (p.a = .tag ∨ p.b = .tag) ∧ (∀ l, missOpen base me l = false) ∧
    laneDst base me p.d = true ∧ laneSrc base me p.a = true ∧ laneSrc base me p.b = true :=
  ⟨.xperm false .w8 (.v 1) .tag (.s 3), _, rfl, base_issues, by decide +kernel, Or.inl rfl, base_no_miss, by decide +kernel⟩

theorem test_hyp_Votes : Issues base me ∧ allOuts (warpOf base me) = [] ∧ (4 : BitVec 7).toNat ≤ 4 ∧ scalarDst (.s 1) = true ∧
    anyV base me (.v 15) = true ∧ (isS (.s 1) = true → inConc base me = false) :=
  ⟨base_issues, by decide +kernel, by decide, by decide, by decide +kernel, by decide +kernel⟩

theorem test_hyp_GateInsertion : ∃ i m k n a b, gateWord i = some (m, k, .v n, a, b) ∧ Issues base me ∧
    allOuts (warpOf base me) = [] ∧ n.val + k ≤ 64 ∧ (∀ j, j < k → vInside base me (n.val + j) = true) ∧
    laneSrc base me a = true ∧ laneSrc base me b = true ∧ (a = .tag ∨ b = .tag) ∧ ∀ l, missOpen base me l = false :=
  ⟨.tkins8 false (.v 8) (.v 2) .tag, _, 8, 8, _, _, rfl, base_issues, by decide +kernel, by decide, by decide +kernel,
    by decide +kernel, by decide +kernel, Or.inr rfl, base_no_miss⟩

theorem test_hyp_Branches : (∃ i m d off tk, condBranch i = some (m, d, off, tk) ∧ scalarSrc d = true ∧ Settled base me [d]) ∧
    inConc base me = false ∧ ∃ i m a link, jumpWord i = some (m, a, link) ∧ scalarSrc a = true ∧ Settled base me [a] ∧
      (rdS (reading base me [a]) me a).toNat < 2 ^ 56 ∧ (rdS (reading base me [a]) me a).toNat % 4 = 0 :=
  ⟨⟨.brnz false (.s 0) 0x2000, _, _, _, _, rfl, by decide, settled_of _ _ (by decide +kernel)⟩, by decide +kernel,
   ⟨.callx false (.s 47), _, _, _, rfl, by decide, settled_of _ _ (by decide +kernel), by decide +kernel, by decide +kernel⟩⟩

theorem test_hyp_WarpControls : ∀ i ∈ [Instr.nop true .lane, .win true 15, .sets true 0, .gov true (.s 0), .rseed true (.s 0),
      .qsync true, .cpol true 3],
    ∃ p, controlWord i = some p ∧ Settled base me p.srcs ∧ p.ok base me (p.value base me) ∧
      (p.conc = true → inConc base me = false) := by
  intro i hi
  simp only [List.mem_cons, List.not_mem_nil, or_false] at hi
  have hc : inConc base me = false := by decide +kernel
  have hs : ∀ rs, Settled base me rs := fun rs => settled_of _ _ (by decide +kernel)
  rcases hi with rfl | rfl | rfl | rfl | rfl | rfl | rfl
  · exact ⟨_, rfl, hs _, Or.inl rfl, fun _ => hc⟩
  · exact ⟨_, rfl, hs _, by decide, fun _ => hc⟩
  · exact ⟨_, rfl, hs _, by decide +kernel, fun _ => hc⟩
  · exact ⟨_, rfl, hs _, ⟨rfl, by decide +kernel⟩, fun _ => hc⟩
  · exact ⟨_, rfl, hs _, rfl, fun _ => hc⟩
  · exact ⟨_, rfl, hs _, by decide +kernel, fun _ => hc⟩
  · exact ⟨_, rfl, hs _, by decide, fun _ => hc⟩

theorem test_hyp_YieldAndQsync : Issues (grouped fun g => { g with det := true }) me ∧
    (wgOf (grouped fun g => { g with det := true }) me).det = true :=
  ⟨issues_of _ (by decide +kernel) (by decide +kernel), by decide +kernel⟩

theorem test_hyp_LiteralLoads : ∃ s1 ws, literalWord (.ldl false (.s 1) 2) = some (false, .s 1, 2, 2) ∧ sdOk (.s 1) = true ∧
    inConc base me = false ∧
    ((streamOf base me).pc + 4 * (2 : BitVec 14).signExtend 56).toNat % (4 * 2) = 0 ∧
    fetchWords base me ((streamOf base me).pc + 4 * (2 : BitVec 14).signExtend 56) 2 .read = (s1, .inl ws) ∧ ws = [0, 0] := by
  have h : (match (fetchWords base me ((streamOf base me).pc + 4 * (2 : BitVec 14).signExtend 56) 2 .read).2 with
    | .inl ws => ws | .inr _ => []) = [0, 0] := by decide +kernel
  revert h
  cases hx : fetchWords base me ((streamOf base me).pc + 4 * (2 : BitVec 14).signExtend 56) 2 .read with
  | mk s1 r =>
    cases r with
    | inl ws => intro h; exact ⟨s1, ws, rfl, rfl, by decide +kernel, by decide +kernel, rfl, h⟩
    | inr e => intro h; cases h

theorem test_hyp_SystemReads : sdOk (.k 0) = true ∧ sysRead base me 4 = some 0 ∧ registerValue base me 0 = some 0x60601 ∧
    registerValue base me 103 = some 0 ∧
    (48 ≤ (90 : BitVec 7).toNat → (wgOf (grouped fun g => { g with sys := true }) me).sys = true) ∧
    sysRead (grouped fun g => { g with sys := true }) me 90 = some 0 := by decide +kernel

theorem test_hyp_SystemWrites : scalarSrc (.s 0) = true ∧ (rdS base me (.s 0)).toNat < 32 ∧ inConc base me = false ∧
    48 ≤ (66 : BitVec 7).toNat ∧ writable 66 = true ∧ (66 : BitVec 7).toNat ≠ 68 ∧ (wgOf (grouped fun g => { g with sys := true }) me).sys = true ∧
    ((privWrite (grouped fun g => { g with sys := true }) (some me) 66 0).map fun s => (warpOf s me).step) = some none := by
  decide +kernel

/-- Each register that holds its value whole takes one, at an end of a field's range. -/
theorem test_hyp_SystemWrites_values : (wgOf (grouped fun g => { g with sys := true }) me).sys = true ∧
    (∀ x ∈ ([(66, 0x0000FFFFFFFF0000), (82, 0x800000), (83, 0x1000), (84, 0x200000), (91, 0xFFFFFFFFF00F)] : List (Nat × Word)),
      fitsRegister base x.1 x.2) ∧
    (∀ x ∈ ([(100, 4), (101, 4), (102, 4), (103, 0xBFFFFFFFFFFFFFFC)] : List (Nat × Word)), fitsRegister base x.1 x.2) ∧
    fitsRegister base 98 0x807F ∧ fitsRegister base 80 63 ∧ fitsRegister base 81 0x1000 ∧ fitsRegister base 86 1 ∧ fitsRegister base 87 0xFFFFFFFFFFFF0000 ∧
    fitsRegister base 89 0x1FF ∧ fitsRegister base 96 0x9F0000 ∧ fitsRegister base 98 0 := by
  refine ⟨by decide +kernel, ?_, ?_, ⟨by decide, by decide, by decide⟩, ?_, ⟨by decide, by decide, by decide, by decide⟩, trivial, ?_, ⟨by decide, by decide +kernel⟩,
    ⟨by decide, by decide, by decide, by decide⟩, ⟨by decide, by decide, by decide⟩⟩
  · intro x h
    simp only [List.mem_cons, List.not_mem_nil, or_false] at h
    rcases h with rfl | rfl | rfl | rfl | rfl <;> exact ⟨by decide, by decide⟩
  · intro x h
    simp only [List.mem_cons, List.not_mem_nil, or_false] at h
    rcases h with rfl | rfl | rfl | rfl <;> exact ⟨by decide, by decide⟩
  · show _ = _
    decide
  · show _ = _
    decide

/-- The registers that command, and the commands of the debugger. -/
theorem test_hyp_SystemWrites_commands :
    Commanded base 64 1 (.shoot 1) base ∧ Commanded base 85 0x9F0000000000 (.preemptRequest base.ctxsel 0x9F0000000000) base ∧
    Commanded base 99 5 (.dbgdata 0 0 0 base.dbgreg 5) base ∧
    ∀ x ∈ ([(1, .haltCore 0), (2, .resumeCore 0), (3, .haltWarp 0 0 0), (4, .resumeWarp 0 0 0), (5, .stepSplit 0 0 0 0),
        (6, .inject 0 0 0 base.dbgdata)] : List (Word × Instr)),
      Commanded base 97 x.1 x.2 (updCore base 0 fun c => { c with attach := x.1.getLsbD 8 }) := by
  refine ⟨⟨rfl, rfl, by decide +kernel⟩, ⟨rfl, rfl, by decide +kernel⟩, ⟨rfl, rfl⟩, ?_⟩
  intro x h
  simp only [List.mem_cons, List.not_mem_nil, or_false] at h
  rcases h with rfl | rfl | rfl | rfl | rfl | rfl <;>
    exact ⟨by decide, by decide, by decide, by decide, by decide, rfl, rfl⟩

/-- A store of the warp that is not yet performed. -/
def storing : State :=
  { withRegs [(2, 128)] [] with pend := [{ who := me, ctx := 0, pa := 0x40000, old := [0], atDev := false, wb := false }] }

theorem test_hyp_InstructionCacheInvalidation :
    Issues storing me ∧ Settled storing me [.s 1, .s 2] ∧ (rdS storing me (.s 1)).toNat + (rdS storing me (.s 2)).toNat ≤ 2 ^ 56 ∧
    rdS storing me (.s 2) ≠ 0 ∧ storesDone storing me = false ∧ storesDone base me = true ∧
    (streamOf (updStream base me fun st => { st with wait := .icinv 0 128 true }) me).wait = .icinv 0 128 true ∧
    storesDone (updStream base me fun st => { st with wait := .icinv 0 128 true }) me = true :=
  ⟨issues_of _ (by decide +kernel) (by decide +kernel), settled_of _ _ (by decide +kernel), by decide +kernel⟩

theorem base_handler : HasHandler base me 0x10140 :=
  ⟨by decide +kernel, by decide +kernel, by decide +kernel⟩

theorem test_hyp_TrapEntry : HasHandler base me 0x10140 ∧ ∀ k, me.split = some k → (findSplit (warpOf base me) k).isSome = true :=
  ⟨base_handler, fun _ h => nomatch h⟩

theorem test_hyp_TrapAndBreakpoint : Issues base me ∧ HasHandler base me 0x10140 ∧ (getCore base 0).attach = false ∧
    (streamOf base me).skipBp = false ∧ (getCore (cored fun c => { c with attach := true }) 0).attach = true ∧
    (streamOf (cored fun c => { c with attach := true }) me).skipBp = false ∧
    (streamOf (updStream (cored fun c => { c with attach := true }) me fun st => { st with skipBp := true }) me).skipBp = true ∧
    (streamOf (updStream base me fun st => { st with skipBp := true }) me).skipBp = true :=
  ⟨base_issues, base_handler, by decide +kernel⟩

/-- The warp runs its handler. -/
def handling : State :=
  warped fun w => { w with main := { w.main with frame := some { pc := 0x10040, mask := 1, depth := 0, latch := none } } }

theorem test_hyp_ReturnFromTrap : Issues handling me ∧ (1 : BitVec 7).toNat ≤ 1 ∧
    -- the frame's latch is none
    (streamOf handling me).frame = some { pc := 0x10040, mask := 1, depth := 0, latch := none } :=
  ⟨issues_of _ (by decide +kernel) (by decide +kernel), by decide, by decide +kernel⟩

theorem test_hyp_KeysAndFirstLane : Issues base me ∧ anyV base me (.v 1) = true ∧ Settled base me [.v 1] ∧
    (15 : BitVec 7).toNat ≤ 15 ∧ inConc base me = false ∧ scalarDst (.k 7) = true :=
  ⟨base_issues, by decide +kernel, settled_of _ _ (by decide +kernel), by decide, by decide +kernel, by decide⟩

/-- A warp with keys ready, under a mode. -/
def keyed (mode : BitVec 4) (det : Bool) : State :=
  let s := warped fun w => { w with pending := some { lanes := 3, keys := [(0, 7), (1, 9)], mode := mode },
                                    main := { w.main with emask := 3 } }
  updWgOf s me fun g => { g with det := det }

/-- A level of the class stack. -/
def level (p : Mask) (mode : BitVec 4) : ClassEntry :=
  { m := 7, p := p, a := 0, keys := [(0, 1), (1, 2), (2, 3)], body := 0x10044, cn := 0x10040, sd := .k 0, mode := mode, c := 1,
    serial := none }

/-- A warp at the end of a class's body. -/
def inLoop (p : Mask) : State := warped fun w => { w with stack := [level p 0], main := { w.main with emask := 1 } }

theorem level_sequential (p : Mask) : Sequential (level p 0) := ⟨by show (0 : BitVec 4).getLsbD 3 = false; decide, rfl, rfl⟩

/-- One level of a sequential loop is a nest that its own CNEXT action ends at. -/
theorem level_unwinds (p : Mask) : Unwinds [level p 0] [] (level p 0) [] :=
  ⟨rfl, fun x h => by rw [List.mem_singleton.mp h]; exact level_sequential p, fun x h => absurd h (List.not_mem_nil)⟩

/-- Two nested loops: the inner one has no lane pending and none left. -/
def emptyLevel : ClassEntry := { level 0 0 with a := 7 }

def inNest : State := warped fun w => { w with stack := [emptyLevel, level 6 0], main := { w.main with emask := 1 } }

theorem nest_unwinds : Unwinds [emptyLevel, level 6 0] [emptyLevel] (level 6 0) [] :=
  ⟨rfl, fun x h => by
      rcases List.mem_cons.mp h with rfl | h
      · exact level_sequential 0
      · rw [List.mem_singleton.mp h]; exact level_sequential 6,
    fun x h => by rw [List.mem_singleton.mp h]; decide⟩

/-- The split of a number. -/
def splitMe (n : Nat) : Who := { me with split := some n }

/-- A concurrent loop with splits, at the end of split 0's class. -/
def splitLoop (p : Mask) (ns : List Nat) : State :=
  let st : Stream := { Stream.init with pc := 0x10040, emask := 1 }
  { warped fun w => { w with
      stack := [level p 8], conc := some { k0 := [], started := 2, lastOrd := 0, lastK := [], lastSd := 0 },
      splits := ns.map fun n => { num := n, ord := n, st := st, sd := 0 } } with
    cur := { who := splitMe 0, mode := .issue } }

theorem splitLoop_issues (p : Mask) (ns : List Nat) (hc : (splitLoop p ns).cur = { who := splitMe 0, mode := .issue })
    (hf : (findSplit (warpOf (splitLoop p ns) (splitMe 0)) 0).isSome = true)
    (hs : (warpOf (splitLoop p ns) (splitMe 0)).step = none) : Issues (splitLoop p ns) (splitMe 0) :=
  ⟨by rw [hc], by rw [hc], fun k hk => by cases hk; exact hf, hs⟩

/-- Split 0 is at the end of its class, under what the kernel evaluates of the state. -/
theorem splitLoop_ends (p : Mask) (ns : List Nat)
    (h : (splitLoop p ns).cur = { who := splitMe 0, mode := .issue } ∧
      (findSplit (warpOf (splitLoop p ns) (splitMe 0)) 0).isSome = true ∧ (warpOf (splitLoop p ns) (splitMe 0)).step = none)
    (r : (streamOf (splitLoop p ns) (splitMe 0)).frame = none ∧ (warpOf (splitLoop p ns) (splitMe 0)).main.frame = none ∧
      (warpOf (splitLoop p ns) (splitMe 0)).stack = [level p 8] ∧ (warpOf (splitLoop p ns) (splitMe 0)).conc.isSome = true ∧
      (streamOf (splitLoop p ns) (splitMe 0)).pc = (level p 8).cn ∧ ScalarsNumbered (warpOf (splitLoop p ns) (splitMe 0))) :
    let s := splitLoop p ns
    Issues s (splitMe 0) ∧ (streamOf s (splitMe 0)).frame = none ∧ (warpOf s (splitMe 0)).main.frame = none ∧
      (warpOf s (splitMe 0)).stack = [level p 8] ∧ (warpOf s (splitMe 0)).conc.isSome = true ∧
      endsClass s (splitMe 0) (level p 8) false (.cnext false) ∧ ScalarsNumbered (warpOf s (splitMe 0)) :=
  ⟨splitLoop_issues _ _ h.1 h.2.1 h.2.2, r.1, r.2.1, r.2.2.1, r.2.2.2.1, Or.inl ⟨rfl, r.2.2.2.2.1⟩, r.2.2.2.2.2⟩

theorem test_hyp_ClassLoops :
    (∀ d : Fin 2, Issues (keyed (if d = 0 then 0 else 8) (d = 0)) me) ∧
    (∀ md : Fin 2, ∀ dt : Bool, let s := keyed (if md = 0 then 0 else 8) dt
      (warpOf s me).pending = some { lanes := 3, keys := [(0, 7), (1, 9)], mode := if md = 0 then 0 else 8 } ∧
      inConc s me = false ∧ (warpOf s me).stack.length < 8 ∧ (streamOf s me).emask ≠ 0 ∧ (wgOf s me).det = dt ∧
      (streamOf s me).out = [] ∧ (warpOf s me).splits = []) ∧
    (∀ p : Fin 2, let p : Mask := if p = 0 then 6 else 0
      InNest (inLoop p) me [level p 0] ∧ Unwinds [level p 0] [] (level p 0) [] ∧
        (streamOf (inLoop p) me).pc = (level p 0).cn ∧ (level p 0).m &&& ~~~(level p 0).a ≠ 0) ∧
    (InNest inNest me [emptyLevel, level 6 0] ∧ Unwinds [emptyLevel, level 6 0] [emptyLevel] (level 6 0) [] ∧
      (streamOf inNest me).pc = emptyLevel.cn) ∧
    (∀ d : Fin 3, let s := splitLoop (if d = 0 then 6 else 0) (if d = 1 then [0, 1] else [0])
      Issues s (splitMe 0) ∧ (streamOf s (splitMe 0)).frame = none ∧ (warpOf s (splitMe 0)).main.frame = none ∧
      (warpOf s (splitMe 0)).stack = [level (if d = 0 then 6 else 0) 8] ∧ (warpOf s (splitMe 0)).conc.isSome = true ∧
      endsClass s (splitMe 0) (level (if d = 0 then 6 else 0) 8) false (.cnext false) ∧ ScalarsNumbered (warpOf s (splitMe 0))) ∧
    endsClass base me (level 0 8) false (.cbrk false 1) := by
  refine ⟨?_, by decide +kernel, ?_, ⟨⟨rfl, by decide +kernel, by decide +kernel⟩, nest_unwinds, by decide +kernel⟩, ?_, Or.inr rfl⟩
  · intro d
    match d with
    | 0 => exact issues_of _ (by decide +kernel) (by decide +kernel)
    | 1 => exact issues_of _ (by decide +kernel) (by decide +kernel)
  · intro p
    match p with
    | 0 => exact ⟨⟨rfl, by decide +kernel, by decide +kernel⟩, level_unwinds 6, by decide +kernel, by decide⟩
    | 1 => exact ⟨⟨rfl, by decide +kernel, by decide +kernel⟩, level_unwinds 0, by decide +kernel, by decide⟩
  · intro d
    match d with
    | 0 => exact splitLoop_ends _ _ (by decide +kernel) (by decide +kernel)
    | 1 => exact splitLoop_ends _ _ (by decide +kernel) (by decide +kernel)
    | 2 => exact splitLoop_ends _ _ (by decide +kernel) (by decide +kernel)

/-- Outstanding scalar results of different numbers in two splits, and lane results of one number. -/
theorem test_hyp_ClassLoops_numbers :
    let out := fun n (d : Dst) => ({ num := n, dst := d, vals := [], flags := 0 } : OutRes)
    let s := splitLoop 6 [0, 1]
    let s := updStream s (splitMe 0) fun st => { st with out := [out 3 (.s 5), out 7 (.lane 2)] }
    let s := updStream s (splitMe 1) fun st => { st with out := [out 4 (.k 1), out 7 (.lane 2)] }
    ScalarsNumbered (warpOf s (splitMe 0)) ∧ (warpOf s (splitMe 0)).splits.length = 2 := by decide +kernel

/-- CBRK #2 out of a loop whose class has every lane left of it: it pops, and the outer loop goes on; and the same for an EXIT of
those lanes. -/
def lastClass : ClassEntry := { level 0 0 with m := 1 }

def breaking : State := warped fun w => { w with stack := [lastClass, level 6 0], main := { w.main with emask := 1 } }

theorem break_unwinds (f : ClassEntry → ClassEntry) (h : Sequential (f lastClass)) (h6 : Sequential (level 6 0))
    (hp : (f lastClass).p = 0 ∧ (f lastClass).m &&& ~~~(f lastClass).a = 0) :
    Unwinds [f lastClass, level 6 0] [f lastClass] (level 6 0) [] :=
  ⟨rfl, fun x hx => by
      rcases List.mem_cons.mp hx with rfl | hx
      · exact h
      · rw [List.mem_singleton.mp hx]; exact h6,
    fun x hx => by rw [List.mem_singleton.mp hx]; exact hp⟩

theorem test_hyp_BreaksAndExits :
    (Issues (inLoop 6) me ∧ InNest (inLoop 6) me [level 6 0] ∧ Unwinds [level 6 0] [] (level 6 0) [] ∧
      (1 : BitVec 7).toNat ≤ [level 6 0].length) ∧
    (Issues breaking me ∧ InNest breaking me [lastClass, level 6 0] ∧ inConc breaking me = false ∧
      Unwinds (([lastClass, level 6 0].take 1).map (fun e => { e with a := e.a ||| (streamOf breaking me).emask }) ++
        [lastClass, level 6 0].drop 1) [{ lastClass with a := 1 }] (level 6 0) []) ∧
    (warpOf breaking me).live &&& ~~~(streamOf breaking me).emask ≠ 0 ∧
    Unwinds ([lastClass, level 6 0].map fun e =>
      { e with m := e.m &&& ~~~(streamOf breaking me).emask, p := e.p &&& ~~~(streamOf breaking me).emask,
               a := e.a &&& ~~~(streamOf breaking me).emask, c := e.c &&& ~~~(streamOf breaking me).emask })
      [{ lastClass with m := 0, c := 0 }] { level 6 0 with m := 6, c := 0 } [] ∧
    (warpOf base me).live &&& ~~~(streamOf base me).emask = 0 := by
  have hm : (streamOf breaking me).emask = 1 := by decide +kernel
  refine ⟨⟨issues_of _ (by decide +kernel) (by decide +kernel), ⟨rfl, by decide +kernel, by decide +kernel⟩, level_unwinds 6,
    by decide⟩, ⟨issues_of _ (by decide +kernel) (by decide +kernel), ⟨rfl, by decide +kernel, by decide +kernel⟩,
    by decide +kernel, ?_⟩, by decide +kernel, ?_, by decide +kernel⟩
  · rw [hm]
    exact break_unwinds (fun e => { e with a := e.a ||| 1 }) (level_sequential 0) (level_sequential 6) (by decide)
  · rw [hm]
    refine ⟨by decide, fun x hx => ?_, fun x hx => by rw [List.mem_singleton.mp hx]; decide⟩
    rcases List.mem_cons.mp hx with rfl | hx
    · exact level_sequential 0
    · rw [List.mem_singleton.mp hx]; exact level_sequential 6

/-- One active lane, with a window address of scratchpad byte 8 in V2, 8 in V3, and a virtual address in V4. -/
def lane1 : State := withRegs [(1, 8), (2, 0x00FFFFFF00000008), (4, 0x20000)] [(2, 0x00FFFFFF00000008), (3, 8), (4, 0x20000)]

theorem lane1_issues : Issues lane1 me := issues_of _ (by decide +kernel) (by decide +kernel)
theorem lane1_mask : activeMask lane1 me = 1 := by decide +kernel
theorem lane1_settled (rs : List Reg) : Settled lane1 me rs := settled_of _ _ (by decide +kernel)

/-- Lane 0 is the one active lane of a mask of 1. -/
theorem lane_zero {l : Nat} (h : (1 : Mask).getLsbD l = true) : l = 0 := by
  have all : ∀ l, l < 32 → (1 : Mask).getLsbD l = true → l = 0 := by decide
  exact all l (BitVec.lt_of_getLsbD h) h

theorem lane1_acts {l : Nat} (h : actsFor lane1 me .lane l) : l = 0 := by
  have h : (activeMask lane1 me).getLsbD l = true := h
  rw [lane1_mask] at h
  exact lane_zero h

theorem test_hyp_ScratchpadLoads : Runs lane1 me .lane ∧ Settled lane1 me [.v 3, .zr] ∧ dstOk lane1 me .lane (.v 1) = true ∧
    srcOk lane1 me .lane (.v 3) = true ∧ srcOk lane1 me .lane .zr = true ∧
    ∀ l, actsFor lane1 me .lane l → ScratchFree lane1 me (sumOf (reading lane1 me [.v 3, .zr]) me .lane (.v 3) .zr l).toNat 8 false := by
  refine ⟨lane1_issues, lane1_settled _, by decide +kernel, by decide +kernel, by decide +kernel, fun l hl => ?_⟩
  cases lane1_acts hl
  constructor <;> decide +kernel

/-- The same at the scratchpad's last bytes, at warp scope, and in deterministic mode. -/
theorem test_hyp_ScratchpadStores : ∀ d : Bool, let s := updWgOf (withRegs [(1, 248)] []) me fun g => { g with det := d }
    dataOk s me .warp (.s 1) = true ∧ srcOk s me .warp (.s 1) = true ∧ (wgOf s me).det = d ∧ (wgOf s me).check = false ∧ (warpOf s me).step = none ∧
    (sumOf (reading s me [.s 1, .s 1, .zr]) me .warp (.s 1) .zr 0).toNat = 248 ∧ 248 % 8 = 0 ∧ 248 + 8 ≤ (wgOf s me).hdr.scratch ∧
    badCoreSector s 0 (some 0) (wgOf s me).scratch 248 8 = none ∧ sbBlocks s 0 0 248 256 true = false := by decide +kernel

/-- A core without first-level lines. -/
theorem lines_sound {s : State} {core : Nat} (h : (getCore s core).l1 = []) : LinesSound s core := by
  constructor <;> simp [h]

theorem test_hyp_PrivateMemory : (tgetD 0 (wgOf lane1 me).priv 0 % 256 = 0 ∧
      tgetD 0 (wgOf lane1 me).priv 0 + 32 * (wgOf lane1 me).hdr.priv ≤ Config.deviceEnd ∧ LinesSound lane1 0 ∧ lane1.checks = []) ∧
    privateWord (.ldp64 false (.v 1) (.v 3) .zr) = some (true, false, .v 1, .v 3, .zr, 8) ∧
    Issues lane1 me ∧ laneSrc lane1 me (.v 3) = true ∧ laneDst lane1 me (.v 1) = true ∧
    (∀ l, (activeMask lane1 me).getLsbD l = true →
      PrivateFree lane1 me (sumOf (reading lane1 me [.v 3, .zr]) me .lane (.v 3) .zr l).toNat 8) ∧
    privateWord (.stp32 false (.v 1) (.v 3) .zr) = some (false, false, .v 1, .v 3, .zr, 4) ∧
    ∀ l, (activeMask lane1 me).getLsbD l = true →
      PrivateFree lane1 me (sumOf (reading lane1 me [.v 1, .v 3, .zr]) me .lane (.v 3) .zr l).toNat 4 := by
  refine ⟨⟨by decide +kernel, by decide +kernel, lines_sound (by decide +kernel), by decide +kernel⟩, rfl, lane1_issues,
    by decide +kernel, by decide +kernel, fun l hl => ?_, rfl, fun l hl => ?_⟩ <;>
    cases lane1_acts hl <;> exact ⟨by decide +kernel, by decide +kernel⟩

theorem lane1_window (k : AccKind) (h : access lane1 me k 8 0x00FFFFFF00000008 = (lane1, .ok (.scratch 8)))
    (hb : sbBlocks lane1 0 0 8 16 (k != .load) = false) : Reaches lane1 me k 8 0x00FFFFFF00000008 (.scratch 8) := ⟨h, hb⟩

theorem test_hyp_VirtualLoads : Runs lane1 me .lane ∧ dstOk lane1 me .lane (.v 1) = true ∧ srcOk lane1 me .lane (.v 2) = true ∧
    (∀ l, actsFor lane1 me .lane l →
      Reaches (reading lane1 me [.v 2, .zr]) me .load 8 (sumOf (reading lane1 me [.v 2, .zr]) me .lane (.v 2) .zr l) (.scratch 8)) := by
  refine ⟨lane1_issues, by decide +kernel, by decide +kernel, fun l hl => ?_⟩
  cases lane1_acts hl
  exact ⟨by decide +kernel, by decide +kernel⟩

/-- The translation of 0x20000 is at hand: of a coherent page, or of a software-managed one. -/
def warm (wb : Bool) : State :=
  (access { lane1 with mem := if wb then lane1.mem.wrN 0x800000 (bytesOfNat 8 0xD003000000000004) else lane1.mem } me .store 8
    0x20000).1

theorem warm_issues (wb : Bool) : Issues (warm wb) me := by cases wb <;> exact issues_of _ (by decide +kernel) (by decide +kernel)

theorem warm_mask : ∀ wb, activeMask (warm wb) me = 1 := by decide +kernel

theorem warm_lane (wb : Bool) {l : Nat} (h : actsFor (warm wb) me .lane l) : l = 0 := by
  have h : (activeMask (warm wb) me).getLsbD l = true := h
  rw [warm_mask wb] at h
  exact lane_zero h

theorem warm_sound (wb : Bool) : LinesSound (warm wb) 0 ∧ (warm wb).checks = [] := by
  cases wb <;> exact ⟨lines_sound (by decide +kernel), by decide +kernel⟩

theorem test_hyp_VirtualLoads_memory : ∀ wb : Bool, Runs (warm wb) me .lane ∧ srcOk (warm wb) me .lane (.v 4) = true ∧
    (∀ l, actsFor (warm wb) me .lane l →
      Reaches (reading (warm wb) me [.v 4, .zr]) me .load 8 (sumOf (reading (warm wb) me [.v 4, .zr]) me .lane (.v 4) .zr l)
        (.phys 0x20000 wb)) ∧ (wgOf (warm wb) me).det = false ∧ LinesSound (warm wb) 0 ∧ 0x20000 % 8 = 0 ∧
    0x20000 + 8 ≤ Config.deviceEnd := by
  refine fun wb => ⟨warm_issues wb, by revert wb; decide +kernel, fun l hl => ?_, by revert wb; decide +kernel, (warm_sound wb).1,
    by decide, by decide⟩
  cases warm_lane wb hl
  clear hl
  exact ⟨by revert wb; decide +kernel, trivial⟩

/-- The core's own line of 0x20000 with eight stored bytes, on a software-managed page. -/
def storedLine : L1Line :=
  { line := 0x400, ctx := 0, prio := 1, used := 0, lease := none, data := some (List.replicate 8 0x5A ++ List.replicate 120 0),
    dirty := 0xFF }

def stored : State := updCore (warm true) 0 fun c => { c with l1 := [storedLine] }

theorem stored_sound : LinesSound stored 0 := by
  have hl : (getCore stored 0).l1 = [storedLine] := by decide +kernel
  have hc : ∀ i, i < 128 → storedLine.dirty.getLsbD i = false →
      (List.replicate 8 0x5A ++ List.replicate 120 0 : List Byte).getD i 0 = stored.mem.rd (128 * 0x400 + i) := by decide +kernel
  constructor <;> rw [hl]
  · exact List.pairwise_singleton _ _
  · intro e he d hd
    cases List.mem_singleton.mp he
    cases hd
    rfl
  · intro e he d i hd hi hz _
    cases List.mem_singleton.mp he
    cases hd
    exact hc i hi hz
  · intro e he
    cases List.mem_singleton.mp he
    rfl
  · intro e he
    cases List.mem_singleton.mp he
    exact .inr (by decide)

/-- LD of bytes that the core's own line alone holds. -/
theorem test_hyp_VirtualLoads_stored : Issues stored me ∧ (getCore stored 0).l1.any (fun e => e.dirty != 0) = true ∧
    LinesSound stored 0 ∧ stored.checks = [] ∧ (activeMask stored me) = 1 ∧
    Reaches (reading stored me [.v 4, .zr]) me .load 8 (sumOf (reading stored me [.v 4, .zr]) me .lane (.v 4) .zr 0)
      (.phys 0x20000 true) ∧ ownByte stored 0 0x20000 = 0x5A ∧ stored.mem.rd 0x20000 = 0 :=
  ⟨issues_of _ (by decide +kernel) (by decide +kernel), by decide +kernel, stored_sound, by decide +kernel, by decide +kernel,
    ⟨by decide +kernel, trivial⟩, by decide +kernel, by decide +kernel⟩

theorem test_hyp_VirtualStores : ∀ wb : Bool, Runs (warm wb) me .lane ∧ dataOk (warm wb) me .lane (.v 3) = true ∧ srcOk (warm wb) me .lane (.v 4) = true ∧
    (wgOf (warm wb) me).det = false ∧ (∀ l, actsFor (warm wb) me .lane l →
      Reaches (reading (warm wb) me [.v 3, .v 4, .zr]) me .store 8
        (sumOf (reading (warm wb) me [.v 3, .v 4, .zr]) me .lane (.v 4) .zr l) (.phys 0x20000 wb) ∧
      0x20000 % 8 = 0 ∧ 0x20000 + 8 ≤ Config.deviceEnd) ∧ LinesSound (warm wb) 0 ∧ (warm wb).checks = [] := by
  refine fun wb => ⟨warm_issues wb, by revert wb; decide +kernel, by revert wb; decide +kernel, by revert wb; decide +kernel,
    fun l hl => ?_, warm_sound wb⟩
  cases warm_lane wb hl
  clear hl
  exact ⟨⟨by revert wb; decide +kernel, trivial⟩, by decide, by decide⟩

theorem test_hyp_VirtualStores_window : ∀ l, actsFor lane1 me .lane l →
    Reaches (reading lane1 me [.v 3, .v 2, .zr]) me .store 8 (sumOf (reading lane1 me [.v 3, .v 2, .zr]) me .lane (.v 2) .zr l)
      (.scratch 8) := by
  intro l hl
  cases lane1_acts hl
  exact ⟨by decide +kernel, by decide +kernel⟩

theorem test_hyp_Atomics : ∀ d : Bool, let s := updWgOf lane1 me fun g => { g with det := d }
    atomicWords (.atadd64 false .warp (.s 3) (.s 2) (.s 1)) = some (atom .add false .warp (.s 3) (.s 2) (.s 1) 64 fun x y => x + y) ∧
    dstOk s me .warp (.s 3) = true ∧ srcOk s me .warp (.s 2) = true ∧ srcOk s me .warp (.s 1) = true ∧ inConc s me = false ∧
    (wgOf s me).det = d ∧ access (reading s me [.s 2, .s 1]) me .atomic 8 (valueOf (reading s me [.s 2, .s 1]) me .warp (.s 2) 0)
      = (reading s me [.s 2, .s 1], .ok (.scratch 8)) ∧ sbBlocks (reading s me [.s 2, .s 1]) 0 0 8 16 true = false := by
  intro d
  refine ⟨rfl, ?_⟩
  revert d
  decide +kernel

/-- The same on a word of device memory, on a coherent and on a software-managed page. -/
theorem test_hyp_Atomics_memory : ∀ wb d : Bool, let s := updWgOf (warm wb) me fun g => { g with det := d }
    dstOk s me .warp (.s 3) = true ∧ srcOk s me .warp (.s 4) = true ∧ (wgOf s me).det = d ∧
    access (reading s me [.s 4, .s 1]) me .atomic 8 (valueOf (reading s me [.s 4, .s 1]) me .warp (.s 4) 0)
      = (reading s me [.s 4, .s 1], .ok (.phys 0x20000 wb)) ∧ 0x20000 % 8 = 0 ∧ 0x20000 + 8 ≤ Config.deviceEnd ∧
    reducing (.atadd64 false .warp .zr (.s 4) (.s 1)) = true ∧ s.checks = [] ∧ (getCore s 0).l1 = [] := by decide +kernel

theorem test_hyp_CacheMaintenance : LinesSound lane1 0 ∧ lane1.checks = [] ∧ srcOk lane1 me .warp (.s 1) = true ∧ Settled lane1 me [.s 1, .s 1] ∧ Runs lane1 me .warp ∧
    cacheLines (.cinv false .warp (.s 1) (.s 1)) = some (true, false, .warp, .s 1, .s 1) ∧
    (rdS (reading lane1 me [.s 1, .s 1]) me (.s 1)).toNat + (rdS (reading lane1 me [.s 1, .s 1]) me (.s 1)).toNat ≤ 2 ^ 56 ∧
    ∀ e ∈ (getCore lane1 0).l1, e.dirty = 0 :=
  ⟨lines_sound (by decide +kernel), by decide +kernel, by decide +kernel, lane1_settled _, lane1_issues, rfl, by decide +kernel,
    by decide +kernel⟩

theorem test_hyp_DemotionAndLeaseExpiry : Issues lane1 me ∧ Settled lane1 me [.s 1, .s 1] ∧
    (rdS (reading lane1 me [.s 1, .s 1]) me (.s 1)).toNat * 2 ≤ 2 ^ 56 ∧
    (getCore (cored fun c => { c with demotes := [(0, 0, 128)] }) 0).demotes = [(0, 0, 128)] :=
  ⟨lane1_issues, lane1_settled _, by decide +kernel, by decide +kernel⟩

theorem test_hyp_Leases : Runs lane1 me .warp ∧ dstOk lane1 me .warp (.s 3) = true ∧ sdOk (.s 3) = true ∧ srcOk lane1 me .warp (.s 4) = true ∧
    (rdS (reading lane1 me [.s 4, .s 1]) me (.s 1)).toNat ≠ 0 ∧
    (leasePages (reading lane1 me [.s 4, .s 1]) me 0x20000 0x20008 2).2.2 = none ∧
    tget? (wgOf (updWgOf (withRegs [(1, 255)] []) me fun g => { g with leases := [(255, [(1024, 1025)])] }) me).leases 255
      = some [(1024, 1025)] ∧
    rdS (withRegs [(1, 255)] []) me (.s 1) = BitVec.ofNat 64 255 :=
  ⟨lane1_issues, by decide +kernel, by decide, by decide +kernel⟩

/-- A privileged task, and one with a page-state change under way. -/
def pgxing : State :=
  { base with pgx := [{ who := me, ctx := 0, va := 0x20000, level := 1, pteAt := 0x800000, state := 1, owner := 0 }] }

theorem test_hyp_PageStateChange :
    (let s := updWgOf (withRegs [(1, 2 + 256 * 159), (4, 0x20000)] []) me fun g => { g with sys := true }
     (wgOf s me).sys = true ∧ rdS (reading s me [.s 4, .s 1]) me (.s 1) = BitVec.ofNat 64 (2 + 256 * (159 : BitVec 8).toNat) ∧
     (rdS (reading s me [.s 4, .s 1]) me (.s 4)).toNat < Config.windowBase ∧
     walkBad s (wgOf s me).ctx 0x20000 = none ∧ walk s (wgOf s me).ctx 0x20000 = .leaf 1 0xC003000000000004 0x800000 ∧ inAperture (pteAddr 0xC003000000000004) = false) ∧
    (∃ p, pgxing.pgx[0]? = some p ∧ pgxing.pend = [] ∧ p.pteAt + 8 ≤ Config.deviceEnd ∧ badSector pgxing p.pteAt 8 = none) ∧
    (∀ g ∈ allWgs pgxing, ∀ w ∈ g.warps, w.2.buf = []) ∧ ∀ e ∈ pgxing.cores, ∀ l ∈ e.2.l1, l.dirty = 0 :=
  ⟨by decide +kernel, ⟨_, rfl, by decide +kernel⟩, by decide +kernel⟩

/-- The block's latch fires a word in the warp. -/
def firing (s : State) : State :=
  let s := setLatch s 0 0 4 (some { addr := 0x10040, instr := .nop false .block, eager := false, parked := 1, firing := true, wait := .none,
                                    suspended := false })
  { updStream s me fun st => { st with wait := .latch 4 } with cur := { who := me, mode := .fire } }

theorem firing_fires (s : State) (h : (firing s).cur = { who := me, mode := .fire }) : Fires (firing s) me .block := ⟨h, rfl, rfl⟩

/-- At block scope in deterministic mode: a store and an atomic word that its latch fires. -/
theorem test_hyp_ScratchpadStores_block : let s := firing (updWgOf (withRegs [(1, 248)] []) me fun g => { g with det := true })
    Runs s me .block ∧ (wgOf s me).det = true ∧ (wgOf s me).check = false ∧ dataOk s me .block (.s 1) = true ∧
    srcOk s me .block (.s 1) = true ∧ srcOk s me .block .zr = true := ⟨firing_fires _ rfl, by decide +kernel⟩

theorem test_hyp_Atomics_block : let s := firing (updWgOf lane1 me fun g => { g with det := true })
    Runs s me .block ∧ (atomicWords (.atcas64 false .block (.s 3) (.s 2) (.s 1))).map AtomOp.sc = some .block ∧
    (wgOf s me).det = true ∧ (wgOf s me).check = false ∧ dstOk s me .block (.s 3) = true ∧ srcOk s me .block (.s 2) = true ∧
    srcOk s me .block (.s 1) = true ∧ inConc s me = false := ⟨firing_fires _ rfl, by decide +kernel⟩

theorem test_hyp_Fences : Runs base me .warp ∧ (2 : BitVec 7).toNat ≤ 2 ∧ (wgOf base me).det = false ∧
    (∀ q ∈ targets base me .warp, Performed base 2 q) ∧ (∃ q ∈ targets storing me .warp, ¬ Performed storing 1 q) ∧
    (let s := grouped fun g => { g with det := true }
     (wgOf s me).det = true ∧ (streamOf s me).wait = .none ∧
     (streamOf (updStream s me fun st => { st with wait := .fence 2 }) me).wait = .fence 2) ∧ Fires (firing base) me .block ∧
    (getLatch (firing base) 0 0 4).map Latch.wait = some .none ∧ PathsClear (firing base) me 31 [] ∧
    (getCore (firing base) 0).ops = [] ∧ ¬ PathsClear (firing storing) me 1 [] :=
  ⟨base_issues, by decide, by decide +kernel, by unfold Performed; decide +kernel, by unfold Performed; decide +kernel,
    by decide +kernel, firing_fires _ rfl, by decide +kernel, by unfold PathsClear; decide +kernel, by decide +kernel,
    by unfold PathsClear; decide +kernel⟩

/-- Two results of one instruction and one of another, outstanding. -/
def returning : List OutRes :=
  [{ num := 3, dst := .k 7, vals := [(0, 5)], flags := 16 }, { num := 3, dst := .lane 15, vals := [(31, 6), (0, 2)], flags := 1 },
   { num := 4, dst := .tag, vals := [(1, 7)], flags := 0 }]

/-- A write that overlaps the one under way. -/
def overlapping : State := { storing with pend := storing.pend ++ storing.pend }

theorem test_hyp_ResultsAndStoresReturn :
    (let s := updStream base me fun st => { st with out := returning, marked := true }
     (streamOf s me).out[0]? = some { num := 3, dst := .k 7, vals := [(0, 5)], flags := 16 } ∧
     (streamOf s me).out[2]? = some { num := 4, dst := .tag, vals := [(1, 7)], flags := 0 } ∧
     (∀ n ∈ [3, 4], let now := (streamOf s me).out.filter fun e => e.num == n
       (∀ e ∈ now, (∀ v ∈ e.vals, v.1 < 32) ∧ (e.vals.map Prod.fst).Nodup) ∧ (now.map OutRes.dst).Nodup)) ∧
    (storing.pend[0]?.map fun p => inAperture p.pa) = some false ∧
    ((({ storing with pend := storing.pend.map fun p => { p with pa := 0x800000000000 } } : State).pend[0]?).map
      fun p => (inAperture p.pa, p.atDev)) = some (true, false) ∧
    ∃ p q, overlapping.pend[1]? = some p ∧ q ∈ overlapping.pend.take 1 ∧ Overlapping p q ∧ q.atDev = false := by
  refine ⟨by decide +kernel, by decide +kernel, by decide +kernel, _, _, rfl, List.Mem.head _, ?_, rfl⟩
  unfold Overlapping; decide +kernel

/-- Barrier register 15 of the workgroup. -/
def barred (r : Barrier) : State := withRegs [(1, 65535)] [] |> fun s => updWgOf s me fun g => { g with bars := [(15, r)] }

theorem test_hyp_BarrierArrivals : Runs (barred Barrier.reset) me .warp ∧ (15 : BitVec 7).toNat ≤ 15 ∧
    (wgOf (barred Barrier.reset) me).det = false ∧ srcOk (barred Barrier.reset) me .warp (.s 1) = true ∧
    (rdS (reading (barred Barrier.reset) me [.s 1]) me (.s 1)).toNat = 65535 ∧
    (getBar (barred Barrier.reset) 0 0 15).pend = 0 ∧
    (let r := getBar (barred { Barrier.reset with init := true, exp := 65535, cnt := 65534 }) 0 0 15
     r.init = true ∧ r.cnt + 1 = r.exp) ∧
    (let r := getBar (barred { Barrier.reset with init := true, exp := 2 }) 0 0 15
     r.init = true ∧ r.cnt + 1 ≠ r.exp) :=
  ⟨issues_of _ (by decide +kernel) (by decide +kernel), by decide, by decide +kernel⟩

/-- A completed phase with a record. -/
def faulted : Barrier :=
  { Barrier.reset with
    init := true, exp := 1, phase := true,
    crec := some { pc := 0x10000, opcode := 0xE0, fault := { cause := 0x09, addr := 0, done := 0, malf := false, level := 4 } } }

theorem test_hyp_BarrierWaits :
    (streamOf (updStream base me fun st => { st with wait := .bret none }) me).wait = .bret none ∧
    (∀ b : Bool, let r := getBar (barred { Barrier.reset with init := true, phase := b }) 0 0 15
      r.init = true ∧ initBuffered (barred { Barrier.reset with init := true, phase := b }) me 15 = false ∧ r.phase = b ∧ r.crec = none ∧
      (warpOf (barred { Barrier.reset with init := true, phase := b }) me).seen.getLsbD 15 = false) ∧
    (getBar (barred faulted) 0 0 15).crec.isSome = true ∧ HasHandler (barred faulted) me 0x10140 :=
  ⟨by decide +kernel, by decide +kernel, by decide +kernel, ⟨by decide +kernel, by decide +kernel, by decide +kernel⟩⟩

/-- What accepting a command answers. -/
def answer (op : EngOp) (s : State) : Nat :=
  match ((acceptOp op).run s).1 with
  | .ok () => 0
  | .error (.inr _) => 1
  | .error (.inl _) => 2

/-- A tensor of one row of eight f32 elements in the scratchpad, at an offset (R270). -/
def rowTensor (off : Nat) : List Byte :=
  bytesOfNat 7 off ++ [0x10] ++ List.replicate 24 0 ++ bytesOfNat 4 8 ++ List.replicate 24 0 ++ [7, 0, 0, 0]

/-- A workgroup with two tensors and an initialised barrier register 1. -/
def copying : State :=
  updWgOf (withRegs [(6, 0), (7, 1)] []) me fun g =>
    { g with tensors := [(0, rowTensor 0), (1, rowTensor 64)], bars := [(1, { Barrier.reset with init := true, exp := 2 })] }


theorem test_hyp_EngineCommands :
    commandWord (.cpy false .warp 1 (.s 6) (.s 7)) = some (.cpy, false, .warp, 1, 15, .s 6, .s 7) ∧ Runs copying me .warp ∧
    Settled copying me [.s 6, .s 7] ∧ srcOk copying me .warp (.s 6) = true ∧ srcOk copying me .warp (.s 7) = true ∧
    (let op := newOp (reading copying me [.s 6, .s 7]) me .cpy .warp (encode (.cpy false .warp 1 (.s 6) (.s 7))) 1
       (rdS copying me (.s 6)) (rdS copying me (.s 7))
     answer op copying = 0 ∧ answer op (updCore copying 0 fun c => { c with halting := true }) = 1) ∧
    (wgOf (updWgOf copying me fun g => { g with det := true }) me).det = true ∧
    (commandWord (.mstore false .warp 2 (.s 6) (.s 7)) = some (.mstore, false, .warp, 2, 63, .s 6, .s 7) ∧ (2 : BitVec 7).toNat ≤ 63 ∧
      (2 : BitVec 7).toNat % 2 = 0 ∧ (2 : BitVec 7).toNat / 8 % 4 = 0) :=
  ⟨rfl, issues_of _ (by decide +kernel) (by decide +kernel), settled_of _ _ (by decide +kernel), by decide +kernel, by decide +kernel,
    by decide +kernel, by decide +kernel, rfl, by decide, by decide, by decide⟩

/-- A block of two warps whose latch fires an untagged MMA, with the baton and bank 0 resident; and the command it issues. -/
def multiplying : State :=
  updCore (firing (updWgOf base me fun g => { g with warps := [(0, warpOf base me), (1, warpOf base me)] })) 0 fun c =>
    setBank { c with baton := some { slot := 0, g := 4 }, batonCtx := some 0 } 0
      { Bank.reset with state := .resident, key := 5, wcls := 0 }
def mmaOp : EngOp :=
  { newOp multiplying me .mma .block (encode (.mma false .block 16 (.v 0) (.s 0))) 16 0 0 with
    count := 64, rows := captureRows multiplying (targets multiplying me .block) 0 (aRegs 16) }

theorem test_hyp_EngineCommands_rows :
    rowsCommand (.mma false .block 16 (.v 0) (.s 0)) = some (.mma, false, .block, 16, .v 0, .s 0) ∧ Fires multiplying me .block ∧
    (targets multiplying me .block).length = 2 ∧ mmaOp.rows.length = 64 ∧ answer mmaOp multiplying = 0 ∧
    answer mmaOp (updCore multiplying 0 fun c => { c with halting := true }) = 1 ∧ (wgOf multiplying me).det = false :=
  ⟨rfl, ⟨by decide +kernel, rfl, rfl⟩, by decide +kernel⟩

/-- The command that CPY issues there, waiting and accepted. -/
def copyOp : EngOp := newOp copying me .cpy .warp (encode (.cpy false .warp 1 (.s 6) (.s 7))) 1 0 1
def queueing : State := updCore copying 0 fun c => { c with waiting := [copyOp] }

theorem test_hyp_EngineCommands_waiting : (getCore queueing 0).waiting[0]? = some copyOp ∧
    answer copyOp (setCore queueing 0 { getCore queueing 0 with waiting := (getCore queueing 0).waiting.eraseIdx 0 }) = 0 ∧
    copyOp.latch = none ∧ copyOp.who.core = 0 ∧ (wgOf queueing copyOp.who).batonWait = false := by decide +kernel

/-- The same row in the bin floor, in tensor slot 2, with a share write of the context in progress. -/
def sharing : State :=
  { updWgOf copying me (fun g => { g with tensors := (2, (rowTensor 0).set 7 0x20) :: g.tensors }) with bfloorOps := [(0x30004, none)] }

theorem test_hyp_QueuePlaces_share :
    (parseDesc (tgetD [] (wgOf sharing me).tensors 2) false).map Desc.space = some 2 ∧
    (∃ q ∈ sharing.bfloorOps, q.1.extractLsb' 40 6 = BitVec.ofNat 6 copyOp.ctx) ∧ copyOp.ctx < 64 ∧ copyOp.who = me := by
  decide +kernel

theorem test_hyp_QueuePlaces :
    (match ((enterQueue copyOp []).run copying).1 with | .ok _ => true | .error _ => false) = true ∧
    (match ((enterQueue copyOp []).run (updCore copying 0 fun c => { c with halting := true })).1 with
      | .ok _ => false | .error (.inr _) => true | .error (.inl _) => false) = true := by decide +kernel

/-- A workgroup with two batches, the first complete. -/
def batched : State :=
  updWgOf (withRegs [(1, 1), (2, 2), (3, 0x00FFFFFF00000040)] []) me fun g =>
    { g with closedTo := 2,
             batches := [{ num := 1, closed := true, running := 0, recs := [], missed := [31], done := true, marked := false },
                         { num := 2, closed := true, running := 1, recs := [], missed := [], done := false, marked := false }] }

theorem test_hyp_EngineControls : Runs batched me .warp ∧ (wgOf batched me).det = false ∧
    access (reading batched me [.s 3]) me .load 64 0x00FFFFFF00000040 = (reading batched me [.s 3], .ok (.scratch 64)) ∧
    rdS (reading batched me [.s 3]) me (.s 3) = 0x00FFFFFF00000040 ∧
    sbBlocks (reading batched me [.s 3]) 0 0 64 128 false = false ∧
    (wgOf copying me).hdr.rights.getLsbD 0 = true ∧ (getBar copying 0 0 1).init = true ∧
    (rdS batched me .zr).toNat ≤ (wgOf batched me).awaited ∧ (wgOf batched me).awaited < 2 ∧ 2 ≤ (wgOf batched me).closedTo ∧
    (∃ x ∈ (wgOf batched me).batches, x.num ≤ 2 ∧ x.done = false) ∧
    (∀ x ∈ (wgOf batched me).batches, x.num ≤ 1 → x.done = true ∧ x.recs = []) ∧
    ∃ x ∈ (wgOf batched me).batches, x.done = true ∧ x.marked = false ∧ 31 ∈ x.missed ∧
      tget? (wgOf batched me).warps (31 / 32) ≠ none :=
  ⟨issues_of _ (by decide +kernel) (by decide +kernel), by decide +kernel⟩

/-- MCLOSE with an open batch, and with none; TDEF from device memory; and deterministic mode. -/
theorem test_hyp_EngineControls_closing :
    (let b : Batch := { num := 3, closed := false, running := 1, recs := [], missed := [], done := false, marked := false }
     let g := { wgOf batched me with batches := (wgOf batched me).batches ++ [b] }
     ∃ bs, Closing g b bs ∧ (bs.map Batch.num).Nodup) ∧
    (∃ x bs, Closing (wgOf batched me) x bs ∧ x.num = 3 ∧ (bs.map Batch.num).Nodup) ∧
    (∀ wb : Bool, rdS (reading (warm wb) me [.s 4]) me (.s 4) = 0x20000 ∧
      Reaches (reading (warm wb) me [.s 4]) me .load 64 0x20000 (.phys 0x20000 wb) ∧ LoadsWhole (warm wb) me (.phys 0x20000 wb) 64) ∧
    (wgOf (updWgOf batched me fun g => { g with det := true }) me).det = true := by
  refine ⟨⟨_, Or.inl ⟨by decide +kernel, rfl⟩, by decide +kernel⟩,
    ⟨_, _, Or.inr ⟨by decide +kernel, by decide +kernel, rfl, rfl⟩, by decide +kernel, by decide +kernel⟩,
    fun wb => ⟨by revert wb; decide +kernel, ⟨by revert wb; decide +kernel, trivial⟩,
      fun _ => ⟨(warm_sound wb).1, by decide, by decide⟩⟩, by decide +kernel⟩

/-- The warp's current set is set 0, and a group holds the baton. -/
def batoned (h : Option Group) : State :=
  updCore (warped fun w => { w with curSet := some 0 }) 0 fun c => { c with baton := h }

theorem test_hyp_BatonWords : (∀ h ∈ [none, some ({ slot := 0, g := 0 } : Group), some { slot := 1, g := 4 }],
      (getCore (batoned h) 0).baton = h ∧ dstOk (batoned h) me .warp (.s 1) = true ∧ (warpOf (batoned h) me).curSet = some 0 ∧
      (warpOf (batoned h) me).step = none ∧ inConc (batoned h) me = false) ∧
    issuing (batoned none) me .warp { slot := 0, g := 0 } ∧ Runs (batoned none) me .warp :=
  ⟨by decide +kernel, ⟨rfl, by show (warpOf (batoned none) me).curSet = some 0; decide +kernel⟩,
    issues_of _ (by decide +kernel) (by decide +kernel)⟩

theorem test_hyp_BankWords :
    (let s := updCore (withRegs [(1, 3)] []) 0 fun c => setBank c 3 { Bank.reset with state := .resident, key := 5 }
     bankWords (.mbankPin false (.s 2) (.s 1)) = some (1, false, .s 2, .s 1) ∧ rdS (reading s me [.s 1]) me (.s 1) = BitVec.ofNat 64 3 ∧
     (getBank (getCore s 0) 3).ctx = (wgOf s me).ctx ∧ (wgOf s me).check = false ∧ inConc s me = false) ∧
    bankTable 1 (.resident, false) = some (.pinned, false) ∧ bankTable 3 (.pinned, true) = none := by decide +kernel

/-- Core 0 holds accepted commands. -/
def engined (ops : List EngOp) : State := updCore copying 0 fun c => { c with ops := ops }

/-- A command of a kind, cancelled. -/
def stopped (k : EngKind) : EngOp := { copyOp with kind := k, cancelled := true, id := 7 }

/-- A collective of two members: ranks 0 and 1 of chips 0 and 5. -/
def gathering : EngOp :=
  { copyOp with kind := .coll, id := 9, aux := List.replicate 64 0 |>.set 8 2, record := [0, 0, 0, 0, 5, 0, 0, 0], src := rowTensor 0,
                dst := rowTensor 64 }

/-- An MLOAD that has failed. -/
def failedLoad : EngOp :=
  { copyOp with kind := .mload, id := 8, imm := 3, batch := 1,
                fault := some { cause := 0x09, addr := 0, done := 0, malf := false, level := 4 } }

theorem test_hyp_EngineCompletions_peer :
    let op := { copyOp with kind := .cpyx, pos := 1 }
    (getCore (engined [op]) 0).ops[0]? = some op ∧ op.who.core = 0 ∧ op.cancelled = false ∧ op.fault = none ∧ op.pos ≠ 0 := by
  decide +kernel

theorem test_hyp_EngineCompletions :
    (arrivalEvent (.copyComplete 0 0) = some (0, 0, [.cpy, .cpyg]) ∧ (getCore (engined [stopped .cpy]) 0).ops[0]? = some (stopped .cpy) ∧
      (stopped .cpy).who.core = 0 ∧ opDone (stopped .cpy) = true) ∧
    (getCore (engined [{ copyOp with kind := .cpyx }]) 0).ops[0]? = some { copyOp with kind := .cpyx } ∧
    ((getCore (engined [failedLoad]) 0).ops.find? (fun p => isMatrix p.kind) = some failedLoad ∧ opDone failedLoad = true) ∧
    base.chip.getLsbD 8 = false ∧ ({ engined [gathering] with chip := 0x100 } : State).chip.getLsbD 8 = true ∧
    (∀ x ∈ (getCore (engined [stopped .cpy, gathering]) 0).ops, x.id = gathering.id → x = gathering) ∧
    ((getCore (engined [gathering]) 0).ops[0]? = some gathering ∧ opDone gathering = false ∧ collRank gathering = 0 ∧
      1 < (collMembers gathering).length ∧ tget? gathering.got 1 = none ∧ (collMembers gathering).any (fun m => m.1 == 5) = true) ∧
    (let s := updCore (engined [stopped .cpy]) 0 fun c =>
        { c with sb := [{ op := 7, slot := 0, floor := false, list := false, write := true, lo := 0, hi := 32 }] }
     (getCore s 0).sb[0]? = some { op := 7, slot := 0, floor := false, list := false, write := true, lo := 0, hi := 32 } ∧
     getOp? s 0 7 = some (stopped .cpy)) ∧
    16 ≤ (getCore (cored fun c => { c with bankReq := 16 }) 0).bankReq ∧
    gathering.got = [] ∧ ((collDigest gathering == 0) = false) := by decide +kernel

/-! ### Units of engine commands -/

/-- The command goes on by a unit in the state. -/
def advances (s : State) (op : EngOp) : Bool :=
  match (getCore (progressOp s 0 0 1) 0).ops[0]? with
  | some q => q.fault == none && (q.pos == op.pos + 1 || decide (q.row.length < op.row.length))
  | none => false

theorem advances_of (s : State) (op : EngOp) (ho : decide ((getCore s 0).ops = [op]) = true) (hc : op.who.core = 0)
    (hp : (s.pend.all fun p => p.atDev) = true) (ha : advances s op = true) : ∃ t q, Advances s t 0 0 op q := by
  have ho := of_decide_eq_true ho
  unfold advances at ha
  split at ha
  · next q hq =>
    simp only [Bool.and_eq_true, Bool.or_eq_true, beq_iff_eq, decide_eq_true_eq] at ha
    refine ⟨_, q, by rw [ho]; rfl, hc, ?_, List.all_eq_true.mp hp, rfl, hq, ha.1, ha.2⟩
    intro m x hx _
    rw [ho] at hx
    match m with
    | 0 => rfl
    | m + 1 => cases hx
  · cases ha

/-- A command of a kind at a unit, from the first row in the scratchpad to the second. -/
def unitOp (k : EngKind) (pos : Nat) : EngOp :=
  { copyOp with kind := k, id := 9, a := 0, b := 0, pos := pos, src := rowTensor 0, dst := rowTensor 64, idx := rowTensor 128 }

/-- A chain over eight elements, its constant an address in the scratchpad window. -/
def chaining (steps : List (List Byte)) (pos : Nat) (row : List FVal) : EngOp :=
  { unitOp .chain pos with
    aux := [0, 0, 0, BitVec.ofNat 8 steps.length, 0, 0, 0, 0, 8, 0, 0, 0, 0, 0, 0, 0] ++ steps.flatten,
    consts := [(0, 0x00FFFFFF00000080)], row := row }
def summing : List (List Byte) := [[0, 0, 0, 1, 0, 0, 0, 0], [12, 0, 3, 0, 0, 0, 0, 0]]
def quantising : List (List Byte) := [[0, 0, 0, 1, 0, 0, 0, 0], [10, 3, 3, 0, 0, 0, 0, 0]]

/-- The collective with every contribution, at its first element; the MMA with its rows routed to bank 0, and an MGRAD of them; and a
store with its amax. -/
def gathered : EngOp := { gathering with pos := 1, got := [(0, []), (1, []), (2, []), (3, [])] }
def routed : EngOp := { mmaOp with rows := mmaOp.rows.map fun r => { r with bank := some 0 } }
def grading : EngOp := { routed with kind := .mgrad, src := rowTensor 0 }
def draining (pos : Nat) : EngOp := { unitOp .mstore pos with imm := 2, b := 0x00FFFFFF00000080 }

theorem test_hyp_QueuePlaces_units :
    (∀ op ∈ [unitOp .cpy 0, unitOp .cpyg 0, { unitOp .cpyx 0 with aux := (List.replicate 64 0).set 0 5 }, gathering, gathered,
        chaining summing 0 [], chaining summing 8 [], chaining quantising 0 [], chaining quantising 8 [.fin false 0 0]],
      ∃ t q, Advances { engined [op] with chip := 0x100 } t 0 0 op q) ∧
    (∀ b ∈ [summing, quantising], ∃ ts, StepsFit (chaining b 0 []) ts) := by
  constructor
  · intro op h
    simp only [List.mem_cons, List.not_mem_nil, or_false] at h
    rcases h with rfl | rfl | rfl | rfl | rfl | rfl | rfl | rfl | rfl <;>
      exact advances_of _ _ (by decide +kernel) (by decide +kernel) (by decide +kernel) (by decide +kernel)
  · intro b h
    simp only [List.mem_cons, List.not_mem_nil, or_false] at h
    rcases h with rfl | rfl
    · exact ⟨_, rfl, by decide +kernel, fun i t hi =>
        (by decide +kernel : ∀ i ∈ List.range 2, ∀ t ∈ (stepsOf (chaining summing 0 []).aux)[i]?, stepOk 2 i t = true) i
          (List.mem_range.mpr (List.getElem?_eq_some_iff.mp hi).1) t hi⟩
    · exact ⟨_, rfl, by decide +kernel, fun i t hi =>
        (by decide +kernel : ∀ i ∈ List.range 2, ∀ t ∈ (stepsOf (chaining quantising 0 []).aux)[i]?, stepOk 2 i t = true) i
          (List.mem_range.mpr (List.getElem?_eq_some_iff.mp hi).1) t hi⟩

/-- The elements of a row of eight lie in the scratchpad, if each of the eight does. -/
theorem row_fits {d : Desc} {n : Nat} (hd : (List.range 4).map (dimOf d) = [8, 1, 1, 1])
    (h : ((List.range 8).all fun x => byteAt d (elemOff d { x := x, y := 0, z := 0, w := 0 }) + elBytes d.ty ≤ n) = true) (c : Coord)
    (hc : inside d c = true) : byteAt d (elemOff d c) + elBytes d.ty ≤ n := by
  obtain ⟨x, y, z, w⟩ := c
  simp only [List.range, List.range.loop, List.map_cons, List.map_nil, List.cons.injEq, and_true] at hd
  simp only [inside, Bool.and_eq_true, decide_eq_true_eq, hd] at hc
  obtain ⟨⟨⟨hx, hy⟩, hz⟩, hw⟩ := hc
  obtain ⟨rfl, rfl, rfl⟩ : y = 0 ∧ z = 0 ∧ w = 0 := by omega
  exact of_decide_eq_true (List.all_eq_true.mp h x (List.mem_range.mpr hx))

theorem test_hyp_QueuePlaces_goOn :
    (∀ op ∈ [unitOp .cpy 0, draining 0], opDone op = false ∧ opBlocked (engined [op]) op = false ∧ (engined [op]).coreChecks = [] ∧
      (descAt op.src).ty = (descAt op.dst).ty ∧ (descAt op.dst).ty ≠ .c4 ∧ ∀ d ∈ [descAt op.src, descAt op.dst], d.space = 1 ∧
        ∀ c, inside d c = true → byteAt d (elemOff d c) + elBytes d.ty ≤ (wgOf (engined [op]) op.who).hdr.scratch) ∧
    opDone routed = false ∧ (∀ r ∈ routed.rows, r.failed = false) ∧
    opBlocked (updCore multiplying 0 fun c => { c with ops := [routed] }) routed = false := by
  refine ⟨?_, by decide +kernel⟩
  intro op h
  simp only [List.mem_cons, List.not_mem_nil, or_false] at h
  rcases h with rfl | rfl
  all_goals
    refine ⟨by decide +kernel, by decide +kernel, by decide +kernel, by decide +kernel, by decide +kernel, ?_⟩
    intro d hd
    simp only [List.mem_cons, List.not_mem_nil, or_false] at hd
    rcases hd with rfl | rfl <;> exact ⟨by decide +kernel, row_fits (by decide +kernel) (by decide +kernel)⟩

/-- A core of which no matrix row has been written has whole rows. -/
theorem rowsWhole_of (s : State) (op : EngOp)
    (h : (getCore s op.who.core).weights = [] ∧ (getCore s op.who.core).acc = [] ∧ (getCore s op.who.core).accOld = [] ∧
      (getCore s op.who.core).grad = []) : RowsWhole s op := by
  obtain ⟨hw, ha, ho, hg⟩ := h
  exact ⟨fun b k => by simp [weightRow, hw, tgetD, tget?], fun i => by simp [accOf, ho, ha, tgetD, tget?, zeroRow],
    fun i => by simp [hg, tgetD, tget?, zeroRow]⟩

theorem test_hyp_BankWords_units :
    (∀ op ∈ [unitOp .mload 0, draining 0, draining 128], (∃ t q, Advances (engined [op]) t 0 0 op q) ∧ RowsWhole (engined [op]) op) ∧
    (∀ op ∈ [routed, grading], let s := updCore multiplying 0 fun c => { c with ops := [op] }
      (∃ t q, Advances s t 0 0 op q) ∧ RowsWhole s op ∧ (op.rows.map MatRow.row).Nodup) := by
  constructor
  · intro op h
    simp only [List.mem_cons, List.not_mem_nil, or_false] at h
    rcases h with rfl | rfl | rfl <;>
      exact ⟨advances_of _ _ (by decide +kernel) (by decide +kernel) (by decide +kernel) (by decide +kernel),
        rowsWhole_of _ _ (by decide +kernel)⟩
  · intro op h
    simp only [List.mem_cons, List.not_mem_nil, or_false] at h
    rcases h with rfl | rfl <;>
      exact ⟨advances_of _ _ (by decide +kernel) (by decide +kernel) (by decide +kernel) (by decide +kernel),
        rowsWhole_of _ _ (by decide +kernel), by decide +kernel⟩

/-- What a computation over the state returned, if it returned. -/
def okOf {ε α σ : Type} (x : Except ε α × σ) : Option α :=
  match x.1 with
  | .ok a => some a
  | .error _ => none

theorem okOf_run {ε α σ : Type} {x : Except ε α × σ} {a : α} {t : σ} (h : okOf x = some a) (ht : x.2 = t) : x = (.ok a, t) := by
  obtain ⟨e, u⟩ := x
  cases e with
  | ok b => cases h; cases ht; rfl
  | error b => exact nomatch h

/-- A record of KIND k and a priority with affinity to a die, given its quads 1 and 3. -/
def taskRecord (kind prio die succ ws : Nat) (args : List Byte := List.replicate 32 0) : List Byte :=
  bytesOfNat 6 0x10040 ++ bytesOfNat 1 (kind + 16 * prio) ++ bytesOfNat 1 (4 + 8 * die) ++ bytesOfNat 8 succ ++ bytesOfNat 8 0
    ++ bytesOfNat 8 ws ++ args

/-- S1 and S2 hold 0x20000 and 1, the translation of 0x20000 is at hand, and a successor block of count c stands there. -/
def spawning (c : Nat) (bs : List Byte := []) : State :=
  let s := (access (withRegs [(1, 0x20000), (2, 1)] []) me .store 8 0x20000).1
  { s with mem := s.mem.wrN 0x20000 (if bs.isEmpty then bytesOfNat 8 c ++ List.replicate 56 0 else bs) }

theorem spawning_issues (c : Nat) (bs : List Byte) (h : ((spawning c bs).cur == { who := me, mode := .issue }) = true)
    (hs : (warpOf (spawning c bs) me).step = none) : Issues (spawning c bs) me := issues_of _ h hs

theorem spawning_block : ∀ core, core = none ∨ core = some 0 → Block (spawning 9) core 0 0x20000 0x20000 := by
  intro core h
  rcases h with rfl | rfl <;> exact
  ⟨by decide, okOf_run (by decide +kernel) (by decide +kernel), by decide, by decide +kernel⟩

theorem test_hyp_SpawnsAndSuccessors :
    (Issues (spawning 9) me ∧ scalarSrc (.s 1) = true ∧ Settled (spawning 9) me [.s 1, .s 2] ∧ (wgOf (spawning 9) me).det = false ∧
      rdS (reading (spawning 9) me [.s 1, .s 2]) me (.s 1) = 0x20000 ∧ rdS (reading (spawning 9) me [.s 1, .s 2]) me (.s 2) = 1) ∧
    (let s := spawning 0 (taskRecord 0 3 0 0 0)
     let s2 := ((coreRead me 0x20000 64).run s).2
     (coreRead me 0x20000 64).run s = (.ok (taskRecord 0 3 0 0 0), s2) ∧ badRecord (taskRecord 0 3 0 0 0) = false ∧
      warpOf s2 me = warpOf s me ∧ pendDone s2 me = true ∧ SpawnFits s2 me (taskRecord 0 3 0 0 0) true ∧
      SpawnFits s2 me (taskRecord 0 3 1 0 0) true) ∧
    translate (spawning 9) 0 0 0x20000 .both (refusedTo (spawning 9) me 0x20000) = (spawning 9, .ok 0x20000 false) ∧
    Block (spawning 9) none 0 0x20000 0x20000 ∧ Block (spawning 9) (some 0) 0 0x20000 0x20000 ∧ NoOwnCopy (spawning 9) 0 0x20000 ∧
    pendDone storing me = false ∧ ¬ fires (spawning 9) 0x20000 1 ∧ fires (spawning 1) 0x20000 65536 ∧ (spawning 9).deferred = [] ∧
    (let s := updStream (spawning 9) me fun st => { st with wait := .tspawn (taskRecord 0 3 0 0 0) 0x20000 false true }
     pendDone s me = true ∧ (warpOf s me).step = none ∧ SpawnFits s me (taskRecord 0 3 0 0 0) false) ∧
    Block (updStream (spawning 9) me fun st => { st with wait := .tsucc 0x20000 4 true }) (some 0) 0 0x20000 0x20000 := by
  refine ⟨⟨spawning_issues _ _ (by decide +kernel) (by decide +kernel), rfl, settled_of _ _ (by decide +kernel), by decide +kernel⟩,
    ⟨okOf_run (by decide +kernel) rfl, by decide +kernel, by decide +kernel, by decide +kernel, ?_, ?_⟩, by decide +kernel,
    spawning_block _ (.inl rfl), spawning_block _ (.inr rfl), by decide +kernel, by decide +kernel, ?_,
    ⟨by decide +kernel, by decide +kernel⟩, by decide +kernel,
    ⟨by decide +kernel, by decide +kernel, ?_⟩,
    ⟨by decide, okOf_run (by decide +kernel) (by decide +kernel), by decide, by decide +kernel⟩⟩
  · unfold SpawnFits; rw [if_pos ⟨rfl, by decide +kernel⟩]; decide +kernel
  · unfold SpawnFits; rw [if_neg (by decide +kernel)]; exact ⟨1, by decide +kernel, by decide +kernel⟩
  · exact fun h => absurd h.2 (by decide +kernel)
  · unfold SpawnFits; rw [if_neg (by decide +kernel)]; exact ⟨0, by decide +kernel, by decide +kernel⟩

/-- In deterministic mode: the record as memory holds it, and as a warp with no buffered stores sees it. -/
theorem test_hyp_SpawnsAndSuccessors_det : ∃ s2 s3,
    let s := updWgOf (spawning 0 (taskRecord 0 3 0 0 0)) me fun g => { g with det := true }
    Issues s me ∧ (wgOf s me).det = true ∧ Settled s me [.s 1, .zr] ∧ rdS (reading s me [.s 1, .zr]) me (.s 1) = 0x20000 ∧
    rdS (reading s me [.s 1, .zr]) me .zr = 0 ∧
    (coreRead me 0x20000 64).run (reading s me [.s 1, .zr]) = (.ok (taskRecord 0 3 0 0 0), s2) ∧
    (coreRead me 0x20000 64).run (ownView (reading s me [.s 1, .zr]) me) = (.ok (taskRecord 0 3 0 0 0), s3) ∧
    badRecord (taskRecord 0 3 0 0 0) = false ∧ warpOf s2 me = warpOf s me :=
  ⟨_, _, issues_of _ (by decide +kernel) (by decide +kernel), by decide +kernel, settled_of _ _ (by decide +kernel),
    by decide +kernel, by decide +kernel, okOf_run (by decide +kernel) rfl, okOf_run (by decide +kernel) rfl, by decide +kernel,
    by decide +kernel⟩

/-- An entry of the pond or of a local queue. -/
def entry (r : List Byte) (checked : Option (Header × List WsEntry) := none) : PondEnt :=
  { level := recPrio r, oldest := some 0, aged := false, ctx := 0, record := r, addr := 0, tseq := 5, saved := none, checked := checked }

/-- The pond of die 0 holds entries; a record for die 1 stands at 0x20040. -/
def ponded (es : List PondEnt) : State :=
  { base with ponds := [(0, es)], mem := base.mem.wrN 0x20040 (taskRecord 0 2 1 0 0), cycle := 65536,
              ctxs := [(0, { getCtx base 0 with ctl := 0xC01, intake := [taskRecord 0 2 0 0 0] })] }

/-- A cond node whose word at 0x20000 is 0, with the record at `a` for its choice. -/
def condRecord (a : Nat) : List Byte :=
  taskRecord 1 0 0 0 0x20000 (List.replicate 8 0 ++ bytesOfNat 4 0 ++ bytesOfNat 4 a ++ List.replicate 16 0)

theorem test_hyp_PondEntries :
    (intakeOpen (ponded []) 0 = true ∧ intakeOpen base 1 = false ∧ (getCtx (ponded []) 0).intake.length < 256) ∧
    (let s := { (ponded []) with ctxs := [(0, { getCtx (ponded []) 0 with intake := List.replicate 256 [] })] }
     256 ≤ (getCtx s 0).intake.length) ∧
    ((getCtx (ponded []) 0).intake = [taskRecord 0 2 0 0 0] ∧ (ponded []).deferred = [] ∧ badRecord (taskRecord 0 2 0 0 0) = false ∧
      recAff (taskRecord 0 2 0 0 0) = some 0 ∧ (pondOf (ponded []) 0).length < 8192) ∧
    (taskRecord 0 2 1 0 0 ≠ [] ∧ recAff (taskRecord 0 2 1 0 0) = some 1) ∧
    (nodeOf (ponded [entry (taskRecord 3 0 0 0 0)]) 0 3 = some (entry (taskRecord 3 0 0 0 0)) ∧ recSucc (taskRecord 3 0 0 0 0) = 0) ∧
    (let s := ponded [entry (condRecord 0x20040)]
     nodeOf s 0 1 = some (entry (condRecord 0x20040)) ∧ recSucc (condRecord 0x20040) = 0 ∧
     (pondRead 0 (recWs (condRecord 0x20040)) 8).run s = (.ok (some (List.replicate 8 0)), s) ∧
     recArg (condRecord 0x20040) 2 * 2 ^ 32 + recArg (condRecord 0x20040) 3 = 0x20040 ∧
     (pondRead 0 0x20040 64).run s = (.ok (some (taskRecord 0 2 1 0 0)), s)) ∧
    (let s := ponded [entry (condRecord 0)]
     nodeOf s 0 1 = some (entry (condRecord 0)) ∧ (pondRead 0 (recWs (condRecord 0)) 8).run s = (.ok (some (List.replicate 8 0)), s) ∧
     recArg (condRecord 0) 2 * 2 ^ 32 + recArg (condRecord 0) 3 = 0) ∧
    (let s := ponded [entry (taskRecord 0 7 0 0 0)]
     (pondOf s 0).find? (fun x => x.level == 7) = some (entry (taskRecord 0 7 0 0 0)) ∧ (0 : Nat) + 65536 ≤ s.cycle ∧
     (entry (taskRecord 0 7 0 0 0)).aged = false ∧ (entry (taskRecord 0 7 0 0 0)).oldest = some 0) := by
  refine ⟨by decide +kernel, by decide +kernel, by decide +kernel, by decide +kernel, by decide +kernel,
    ⟨by decide +kernel, by decide +kernel, okOf_run (by decide +kernel) (by decide +kernel), by decide +kernel,
      okOf_run (by decide +kernel) (by decide +kernel)⟩,
    ⟨by decide +kernel, okOf_run (by decide +kernel) (by decide +kernel), by decide +kernel⟩, by decide +kernel⟩

/-- A header of one warp of 32 lanes and 64 registers. -/
def small : Header := { Header.init with warps := 1, lanes := 32, regs := 64 }

/-- An entry of KIND 0 that has been checked. -/
def ready : PondEnt := entry (taskRecord 0 2 0 0 0) (some (small, []))

/-- A workgroup stands in slot 1 of core 0. -/
def second (g : Wg) : State := cored fun c => { putWg c 1 (some g) with shadow := [1] }

theorem test_hyp_TaskLife :
    (candidates (ponded [ready]) 0 = [ready] ∧ ready.saved = none ∧ recKind ready.record = 0 ∧
      ready.checked = some (small, []) ∧
      coreFor (ponded [ready]) 0 small (leaseLines (ponded [ready]) ready.ctx []) = some 0) ∧
    (let s := cored fun c => { c with split := 4, localQ := [ready] }
     let h := (wgOf base me).hdr
     pondOf s 0 = [] ∧ highest (getCore s 0).localQ = some (ready, 0) ∧ leaseLines s 0 [] = [] ∧
     fits (updCore base 0 fun c => { c with localQ := [ready] }) 0 { small with split := h.split } [] = true) ∧
    (let s := second { Wg.init with phase := .staged, hdr := { small with warps := 4 } }
     (getCore s 0).halting = false ∧ (getCore s 0).shadow = [1] ∧ canDispatch s 0 1 = true) ∧
    (let f : EngFault := { cause := 0x09, addr := 0x20000, done := 0, malf := false, level := 4 }
     (getWg (second { Wg.init with stageFault := some f }) 0 1).stageFault = some f) ∧
    Finished (second { Wg.init with phase := .ended, record := taskRecord 0 2 0 0 0 }) 0 1
      { Wg.init with phase := .ended, record := taskRecord 0 2 0 0 0 } := by
  refine ⟨by decide +kernel, by decide +kernel, by decide +kernel, by decide +kernel,
    by constructor <;> decide +kernel⟩

/-- Cores 1 and 2 ask core 0 for its queue's entry, core 1 before core 2. -/
def stealing : State :=
  { cored fun c => { c with localQ := [ready] } with steals := [(1, { stamp := 4, tried := 0 }), (2, { stamp := 5, tried := 0 })] }

/-- Core 0 is the first victim of core 1 and of core 2, whose queues are empty. -/
theorem stealing_reaching (c : Nat) (q : StealReq) (h : (c, q) ∈ stealing.steals) : Reaching stealing c q 0 := by
  have hq : ∀ u, u ≠ 0 → (getCore stealing u).localQ = [] := fun u hu => by
    have ho : getCore stealing u = getCore base u :=
      Laws.getCore_updCore_other base 0 u (fun c => { c with localQ := [ready] }) (Ne.symm hu)
    have hc : base.cores = [(0, getCore base 0)] := by decide +kernel
    rw [ho, getCore, hc]
    simp [tgetD, tget?, Ne.symm hu, Core.init]
  have hs : stealing.steals = [(1, { stamp := 4, tried := 0 }), (2, { stamp := 5, tried := 0 })] := rfl
  rw [hs] at h
  have h0 : (getCore stealing 0).localQ ≠ [] := by decide +kernel
  refine ⟨?_, h0, fun u _ hf => hq u fun hu => ?_⟩
  · rcases List.mem_cons.mp h with h | h
    · cases h; decide
    · rcases List.mem_cons.mp h with h | h
      · cases h; decide
      · cases h
  · subst hu; exact absurd hf (Nat.lt_irrefl _)

theorem test_hyp_TaskLife_steals :
    (Idle State.reset 159 ∧ tget? State.reset.steals 159 = none) ∧
    (Idle stealing 1 ∧ tget? stealing.steals 1 = some { stamp := 4, tried := 0 } ∧ Reaching stealing 1 { stamp := 4, tried := 0 } 0 ∧
      (∀ c q, c ≠ 1 → (c, q) ∈ stealing.steals → Reaching stealing c q 0 → Wins { stamp := 4, tried := 0 } 1 q c) ∧
      highest (getCore stealing 0).localQ = some (ready, 0) ∧ stealing.deferred = [] ∧ recKind ready.record = 0 ∧
      fits stealing 1 small (leaseLines stealing ready.ctx []) = true) ∧
    (Idle stealing 2 ∧ ∃ c q, c ≠ 2 ∧ (c, q) ∈ stealing.steals ∧ Idle stealing c ∧ Reaching stealing c q 0 ∧ Wins q c { stamp := 5, tried := 0 } 2) ∧
    ∀ v, ¬ Reaching { stealing with steals := [(1, { stamp := 4, tried := 79 })] } 1 { stamp := 4, tried := 79 } v := by
  refine ⟨⟨by unfold Idle; decide +kernel, rfl⟩,
    ⟨by unfold Idle; decide +kernel, rfl, stealing_reaching 1 _ (List.Mem.head _), fun c q hc hm _ => ?_, by decide +kernel⟩,
    ⟨by unfold Idle; decide +kernel, 1, _, by decide, List.Mem.head _, by unfold Idle; decide +kernel,
      stealing_reaching 1 _ (List.Mem.head _), Or.inl (by decide)⟩,
    fun v h => ?_⟩
  · rcases List.mem_cons.mp hm with h | h
    · cases h; exact absurd rfl hc
    · rcases List.mem_cons.mp h with h | h
      · cases h; exact Or.inl (by decide)
      · cases h
  · have hd : 79 < (v + 80 - 1) % 80 := h.1.2.2
    have : (v + 80 - 1) % 80 < 80 := Nat.mod_lt _ (by decide)
    exact absurd hd (by omega)

/-- The warp in a concurrent body. -/
def concurrent : State :=
  warped fun w => { w with stack := [level 0 8], conc := some { k0 := [], started := 1, lastOrd := 0, lastK := [], lastSd := 0 } }

/-- Opcode 0xF5 has an entry of a format whose words may have lane and warp scope. -/
def patched : State := { base with micro := [(0xF5, { svn := 0, fmt := 0, scopes := 3, fixed := 7, bytes := [] })] }

theorem test_hyp_WordsRefused :
    (Issues base me ∧ HasHandler base me 0x10140 ∧ (wgOf base me).sys = false) ∧
    ((decode 0x13C00000 = .reject .unassignedOpcode ∧ refusal base me 0x13C00000 = 0x01) ∧
      refusal base me 0x01800001 = 0x01 ∧ refusal base me 0x03800001 = 0x02) ∧
    privilegedWord (.sysr false (.s 0) 48) = true ∧ groupWord (.xfence false 1) = some .block ∧
    (Issues (inLoop 6) me ∧ (warpOf (inLoop 6) me).stack ≠ [] ∧ HasHandler (inLoop 6) me 0x10140) ∧ 15 < (16 : BitVec 7).toNat ∧
    (let s := updWgOf (updStream base me fun st => { st with out := [{ num := 0, dst := .s 3, vals := [(0, 5)], flags := 0 }] }) me fun g =>
        { g with check := true }
     (wgOf s me).check = true ∧ outstanding s me (.s 3) = true) ∧
    (Issues concurrent me ∧ HasHandler concurrent me 0x10140 ∧ inConc concurrent me = true ∧ forbidden (.win false 15) = true) ∧
    (tget? base.micro (fieldOP 0x7EA00000).toNat = none ∧ 0xF5 ≤ (fieldOP 0x3EA00000).toNat) ∧
    (Issues patched me ∧ (let e : MicroEnt := { svn := 0, fmt := 0, scopes := 3, fixed := 7, bytes := [] }
      tget? patched.micro (fieldOP 0x3EA00000).toNat = some e ∧
      microFixedBad e 0x3EA00001 = true ∧ microFixedBad e 0x3EA00000 = false ∧ microFixedBad e 0x7EA00000 = false ∧
      e.scopes.getLsbD (Scope.dec (fieldSC 0x3EA00000)).enc.toNat = true ∧
      e.scopes.getLsbD (Scope.dec (fieldSC 0x7EA00000)).enc.toNat = false ∧ inConc patched me = false ∧ microOperands e 0x3EA00000 .warp patched me = true)) := by
  refine ⟨⟨base_issues, base_handler, by decide +kernel⟩, by decide +kernel, rfl, rfl,
    ⟨issues_of _ (by decide +kernel) (by decide +kernel), by decide +kernel, ⟨by decide +kernel, by decide +kernel, by decide +kernel⟩⟩,
    by decide, by decide +kernel,
    ⟨issues_of _ (by decide +kernel) (by decide +kernel), ⟨by decide +kernel, by decide +kernel, by decide +kernel⟩, by decide +kernel,
      by decide⟩, by decide +kernel, issues_of _ (by decide +kernel) (by decide +kernel), by decide +kernel⟩

/-- Two warps in the block, warp 1 like warp 0; the latch of the block as given. -/
def paired (l : Option Latch) : State :=
  setLatch (updWgOf base me fun g => { g with warps := [(0, warpOf base me), (1, warpOf base me)] }) 0 0 4 l

/-- A latch at an address with a warp parked. -/
def latchAt (a : Addr) (m : Mask) : Latch :=
  { addr := a, instr := .nop true .block, eager := true, parked := m, firing := false, wait := .none, suspended := false }

/-- In deterministic mode, and with a member halted, all members are parked at the word when warp 0 comes to it. -/
theorem test_hyp_Latches_held : ∀ d : Bool,
    let s := if d then updWgOf (paired (some (latchAt 0x10040 2))) me fun g => { g with det := true }
             else updWarp (paired (some (latchAt 0x10040 2))) 0 0 1 fun w => { w with stop := 2 }
    (s.cur == { who := me, mode := .issue }) = true ∧ (warpOf s me).step = none ∧ (wgOf s me).det = d ∧
    members (wgOf s me) 4 = [0, 1] ∧ getLatch s 0 0 4 = some (latchAt 0x10040 2) ∧
    (∀ w ∈ [0, 1], (getWarp s 0 0 w).step = none) ∧ ((getWarp s 0 0 1).stop ≠ 0 ↔ d = false) := by decide +kernel

theorem test_hyp_Latches :
    (∀ l ∈ [none, some (latchAt 0x10040 2), some (latchAt 0x10044 2)], Issues (paired l) me) ∧
    (∀ l ∈ [none, some (latchAt 0x10040 2), some (latchAt 0x10044 2)],
      latchOf (paired l) me .block = some 4 ∧ (warpOf (paired l) me).stack = [] ∧ members (wgOf (paired l) me) 4 = [0, 1] ∧
      getLatch (paired l) 0 0 4 = l ∧ (streamOf (paired l) me).pc = 0x10040 ∧
      (∀ w ∈ [0, 1], (getWarp (paired l) 0 0 w).step = none ∧ (getWarp (paired l) 0 0 w).stop = 0) ∧ (wgOf (paired l) me).det = false ∧
      (wgOf (paired l) me).phase ≠ .aborted ∧ ∀ x ∈ l, x.suspended = false ∧ x.firing = false ∧ x.parked ≠ 0) ∧
    (∀ w ∈ members (wgOf (paired none) me) 4, HasHandler (paired none) (mainOf 0 0 w) 0x10140) ∧ Fires (firing base) me .block := by
  refine ⟨fun l hl => issues_of _ ?_ ?_, by decide +kernel, fun w hw => ?_, firing_fires _ rfl⟩
  · revert l; decide +kernel
  · revert l; decide +kernel
  · rw [show members (wgOf (paired none) me) 4 = [0, 1] by decide +kernel] at hw
    cases hw with
    | head => exact ⟨by decide +kernel, by decide +kernel, by decide +kernel⟩
    | tail _ h =>
      cases h with
      | head => exact ⟨by decide +kernel, by decide +kernel, by decide +kernel⟩
      | tail _ h => exact nomatch h

theorem test_hyp_AbortsAndRecords :
    inHandler handling me = true ∧ (wgOf (grouped fun g => { g with hdr := { g.hdr with trap := 0 } }) me).hdr.trap = 0 ∧
    (∀ n ∈ [0, 3], let s : State := { base with mem := base.mem.wrN 0x40000 (bytesOfNat 8 n) }
      badSector s 0x40000 24 = none ∧ bits 0x40000 47 12 * 4096 = 0x40000 ∧ 0x40000 + 64 * 2 ^ (bits 0x40000 3 0 + 2) ≤ Config.deviceEnd ∧
      leValue (s.mem.rdN 0x40000 8) = n ∧ leValue (s.mem.rdN (0x40000 + 8) 8) = 0) ∧
    2 ^ (bits 0x40000 3 0 + 2) - 1 = 3 ∧ (∀ e ∈ (getCore handling 0).sb, e.slot ≠ 0) ∧
    (wgOf handling me).warps.Pairwise (fun v w => v.1 ≠ w.1) := by decide +kernel

/-- R6, R358: READ above WRITTEN leaves room for the record. -/
theorem test_record_room :
    (let t := postRecord { base with mem := base.mem.wrN 0x40008 (bytesOfNat 8 1) } 0x40000 (trapRecord base me 0 .init 0 [])
     (leValue (t.mem.rdN 0x40000 8), leValue (t.mem.rdN 0x40010 8))) = (1, 0) := by decide +kernel

/-- A warp that has used its budget. -/
def spent : State := warped fun w => { w with budget := 1, gcount := 1024 }

/-- A warp whose one wait is that its command is accepted. -/
def turned : State :=
  updCore (updStream spent me fun st => { st with wait := .accept, held := some 0xE0000000 }) 0 fun c => { c with waiting := [copyOp] }

/-- The governor has found the whole warp of a state with no page service under way. -/
theorem budget_used {s : State} (hb : (warpOf s me).budget = 1) (hc : (warpOf s me).gcount = 1024) (hl : (warpOf s me).live ≠ 0)
    (hr : (warpOf s me).stop = 0 ∧ (warpOf s me).suspended = false) (hf : (warpOf s me).main.frame = none)
    (hs : (warpOf s me).splits = []) (hw : ∀ va, (warpOf s me).main.wait ≠ .pageFault va) (hg : (wgOf s me).latches = [])
    (hp : (wgOf s me).phase = .running ∧ (wgOf s me).batonWait = false ∧ (wgOf s me).preempt = none) : BudgetUsed s me :=
  { budget := by rw [hb]; decide, count := by rw [hb, hc]; decide, live := hl, runs := hr, handler := ⟨hf, by simp [hs]⟩,
    service := fun va => ⟨hw va, by simp [hs], by simp [hg]⟩, placed := ⟨hp.1, hp.2.1, by simp [hp.2.2], by simp [hp.2.2]⟩ }

theorem whole_lowest {s : State} (h : (warpOf s me).splits = []) : Lowest s me := ⟨by simp [h], by simp [h], Or.inl ⟨rfl, h⟩⟩

theorem spent_at : AtWord spent me 0 := by
  have hw : (streamOf spent me).wait = .none := by decide +kernel
  refine ⟨by decide +kernel, by decide +kernel, ?_⟩
  rw [hw]
  exact ⟨by decide +kernel, [], by decide +kernel⟩

theorem turned_at : AtWord turned me 0xE0000000 := by
  have hw : (streamOf turned me).wait = .accept := by decide +kernel
  refine ⟨by decide +kernel, by decide +kernel, ?_⟩
  rw [hw]
  decide +kernel

/-- The governor's trap: at a word to fetch, and at a command that waits for acceptance. -/
theorem test_hyp_GovernorAndQuanta_governor :
    (BudgetUsed spent me ∧ Lowest spent me ∧ AtWord spent me 0 ∧ HasHandler spent me 0x10140) ∧
    (BudgetUsed turned me ∧ Lowest turned me ∧ AtWord turned me 0xE0000000 ∧ HasHandler turned me 0x10140) := by
  refine ⟨⟨budget_used ?_ ?_ ?_ ?_ ?_ ?_ (fun va => ?_) ?_ ?_, whole_lowest ?_, spent_at, ?_, ?_, ?_⟩,
    ⟨budget_used ?_ ?_ ?_ ?_ ?_ ?_ (fun va => ?_) ?_ ?_, whole_lowest ?_, turned_at, ?_, ?_, ?_⟩⟩
  case refine_7 => rw [show (warpOf spent me).main.wait = .none by decide +kernel]; exact fun h => nomatch h
  case refine_20 => rw [show (warpOf turned me).main.wait = .accept by decide +kernel]; exact fun h => nomatch h
  all_goals decide +kernel

/-- A deterministic workgroup whose one warp has ended its quantum, with a wait, a commit buffer, an arrival of a command at
barrier register 1, and that register short of two arrivals. -/
def rounded (w : Wait) (b : List BufEntry) : State :=
  updWgOf (warped fun x => { x with qended := true, buf := b, main := { x.main with wait := w } }) me fun g =>
    { g with det := true, arrivals := [(1, none)], bars := [(1, { Barrier.reset with init := true, exp := 2, pend := 1 })] }

/-- A buffered BARV, and stores of five bytes at scratchpad byte 8 and of eight in device memory. -/
def bufOf (e : BufEffect) : BufEntry := { who := me, pc := 0x10040, word := 0, latch := none, before := false, effect := e }
def bufStore : BufEntry := bufOf (.store 1 [(.scratch 8, 5, 0x1122334455), (.phys 0x30000 false, 8, 1)])
def bufBoth : List BufEntry := [bufOf (.barv 1), bufStore]

theorem rounded_ends (k : Wait) (h : getWg? (rounded k bufBoth) 0 0 = some (wgOf (rounded k bufBoth) me))
    (hd : (wgOf (rounded k bufBoth) me).det = true ∧ (wgOf (rounded k bufBoth) me).phase = .running ∧
      (wgOf (rounded k bufBoth) me).firing = false ∧ (wgOf (rounded k bufBoth) me).latches = [] ∧
      (getCore (rounded k bufBoth) 0).halting = false ∧ (wgOf (rounded k bufBoth) me).batonWait = false)
    (hw : (wgOf (rounded k bufBoth) me).warps.map Prod.fst = [0])
    (he : ∀ w ∈ (wgOf (rounded k bufBoth) me).warps, w.2.qended = true ∧ w.2.splits = [] ∧ w.2.step = none ∧ w.1 = 0 ∧
      w.2.buf = bufBoth)
    (hb : sbBlocks (rounded k bufBoth) 0 0 8 13 true = false) :
    RoundEnds (rounded k bufBoth) 0 0 (wgOf (rounded k bufBoth) me) := by
  refine { here := h, det := hd.1, phase := hd.2.1, fresh := ⟨hd.2.2.1, hd.2.2.2.1⟩, runs := hd.2.2.2.2.1, owed := hd.2.2.2.2.2, order := ?_, ended := fun w m => Or.inr (he w m).1,
           whole := fun w m => ⟨(he w m).2.1, (he w m).2.2.1, ?_⟩, plain := ?_ }
  · generalize (wgOf (rounded k bufBoth) me).warps = ws at hw
    match ws with
    | [] => exact .nil
    | [_] => exact List.pairwise_singleton _ _
    | _ :: _ :: _ => simp at hw
  · rw [(he w m).2.2.2.2, (he w m).2.2.2.1]
    decide
  · intro b hm
    obtain ⟨w, m, hm⟩ := List.mem_flatMap.mp hm
    rw [(he w m).2.2.2.2] at hm
    cases hm with
    | head => exact Or.inl ⟨1, rfl⟩
    | tail _ hm =>
      cases hm with
      | head =>
        refine Or.inr ⟨1, _, rfl, fun l hl => ?_⟩
        cases hl with
        | head => exact ⟨by decide, Or.inl ⟨8, rfl, hb⟩⟩
        | tail _ hl =>
          cases hl with
          | head => exact ⟨by decide, Or.inr ⟨0x30000, rfl, by decide⟩⟩
          | tail _ hl => exact nomatch hl
      | tail _ hm => exact nomatch hm

theorem test_hyp_GovernorAndQuanta :
    (let s := updStream base me fun st => { st with pc := 0x00FFFFFF00000000 }
     ∃ s1 tr, fetchWords s me (streamOf s me).pc 1 .fetch = (s1, .inr (.inl tr)) ∧ HasHandler s1 me 0x10140 ∧
      (warpOf s1 me).step = none ∧ inWindow (streamOf s me).pc.toNat = true) ∧
    (let s := grouped fun g => { g with det := true, qlog := 8 }
     (wgOf s me).det = true ∧ 2 ^ (wgOf (updWarpOf s me fun w => { w with qcount := 256 }) me).qlog
        ≤ (warpOf (updWarpOf s me fun w => { w with qcount := 256 }) me).qcount ∧
      512 ≤ bufCount (warpOf (updWarpOf s me fun w => { w with buf := List.replicate 512 bufStore }) me)) ∧
    ∀ w ∈ [Wait.none, .qsync true, .barrier 1, .barrier 3],
      RoundEnds (rounded w bufBoth) 0 0 (wgOf (rounded w bufBoth) me) ∧ bits (wgOf (rounded w bufBoth) me).farea 47 12 = 0 ∧
      arrivalsAt (wgOf (rounded w bufBoth) me) 1 = [(none, false), (none, true)] ∧ arrivalsAt (wgOf (rounded w bufBoth) me) 3 = [] := by
  refine ⟨⟨updStream base me fun st => { st with pc := 0x00FFFFFF00000000 }, _, rfl,
      ⟨by decide +kernel, by decide +kernel, by decide +kernel⟩, by decide +kernel, by decide +kernel⟩, by decide +kernel,
    fun w hw => ⟨rounded_ends _ ?_ ?_ ?_ ?_ ?_, ?_, ?_, ?_⟩⟩ <;> revert w <;> decide +kernel

/-- Context 0 maps the page at 2^36 by the level-4 entry at 0x15000, and the others as `base` does. -/
def paged (pte : Nat) : State :=
  let v := 2 ^ 63
  { base with mem := (((base.mem.wrN 0x800008 (bytesOfNat 8 (v + 0x13000))).wrN 0x13000 (bytesOfNat 8 (v + 0x14000))).wrN 0x14000
      (bytesOfNat 8 (v + 0x15000))).wrN 0x15000 (bytesOfNat 8 pte) }

/-- A demand entry, which a frame of the pool at 0x50000 serves. -/
def demanding : State :=
  { paged 0x1000000000005 with pgpool := 0x50000, pf := [{ ctx := 0, va := 2 ^ 36, host := false, pond := false }] }

/-- The host has been asked for the page, for which the warp waits. -/
def hostAsked : State :=
  { updStream demanding me (fun st => { st with wait := .pageFault 0x1000000008 }) with
    pf := [{ ctx := 0, va := 2 ^ 36, host := true, pond := false }] }

/-- A shootdown with no write under way, with and without a buffered store from before it. -/
def shot (b : List BufEntry) : State :=
  { warped fun w => { w with buf := b } with shootOp := some { ctx := 0, lo := 0, hi := 1, all := false, pend := 0 } }

theorem shot_held : HeldBefore (shot [{ bufStore with before := true }]) := by
  have hc : (shot [{ bufStore with before := true }]).cores = [(0, getCore (shot [{ bufStore with before := true }]) 0)] := by
    decide +kernel
  refine ⟨{ bufStore with before := true }, rfl, Or.inl ⟨_, by rw [hc]; exact List.Mem.head _, ?_⟩,
    Or.inl ⟨1, _, rfl, (.phys 0x30000 false, 8, 1), .tail _ (.head _), rfl⟩⟩
  exact ⟨(0, some (wgOf (shot [{ bufStore with before := true }]) me)), by decide +kernel, _, rfl,
    (0, warpOf (shot [{ bufStore with before := true }]) me), by decide +kernel, by decide +kernel⟩

theorem shot_free : ¬ HeldBefore (shot []) := by
  rintro ⟨b, -, ⟨c, hc, g, hg, x, hx, w, hw, hb⟩ | ⟨v, hv, -⟩, -⟩
  · have all : ∀ c ∈ (shot []).cores, ∀ g ∈ c.2.wgs, ∀ x ∈ g.2, ∀ w ∈ x.warps, w.2.buf = [] := by decide +kernel
    rw [all c hc g hg x hx w hw] at hb
    exact nomatch hb
  · exact nomatch hv

/-- The SYSW that waits for the share write of number 5. -/
def shareWaits : State := { updStream base me (fun st => { st with wait := .bfloor true 5 }) with bfloorOps := [(0x30004, some 5)] }

theorem test_hyp_PagesAndShares_waiter : ListedOnce shareWaits ∧ (getWg? shareWaits 0 0).isSome = true ∧
    (tget? (wgOf shareWaits me).warps 0).isSome = true ∧ (streamOf shareWaits me).wait = .bfloor true 5 ∧
    (∀ c ∈ shareWaits.cores, ∀ p ∈ c.2.ops, p.ctx = 0 → namesFloor p = false) ∧
    ∀ c ∈ shareWaits.cores, ∀ g ∈ c.2.wgs, ∀ x ∈ g.2, x.warps.map Prod.fst = [0] := by
  refine ⟨⟨by decide +kernel, fun c hc => ⟨?_, fun g hg x hx => ?_⟩⟩, by decide +kernel⟩
  · revert c; decide +kernel
  · have all : ∀ c ∈ shareWaits.cores, ∀ g ∈ c.2.wgs, ∀ x ∈ g.2, (x.warps.map Prod.fst).Nodup := by decide +kernel
    exact all c hc g hg x hx

/-- Nothing is held where no write is under way and no commit buffer holds anything. -/
theorem unheld_of {s : State} {ctx va : Nat} (h : s.pend = [] ∧ (allWgs s).all (fun g => g.warps.all fun w => w.2.buf.isEmpty) = true) :
    Unheld s ctx va :=
  ⟨fun _ _ _ x hx => (by rw [h.1] at hx; exact nomatch hx), fun g hg w hw =>
    List.isEmpty_iff.mp (List.all_eq_true.mp (List.all_eq_true.mp h.2 g hg) w hw)⟩

/-- A service that has its frame and waits for a write under way through an old translation of the page, and one that waits for none. -/
def answeredService (wait : Bool) : State :=
  let e : TlbEnt := { ctx := 0, page := 2 ^ 20, level := 4, pte := 0x60005 }
  { cored fun c => { c with tlb := [e] } with
    pf := [{ ctx := 0, va := 2 ^ 36, host := true, pond := false, answered := !wait }]
    pend := if wait then [{ who := me, ctx := 0, pa := 0x60040, old := [0], atDev := false, wb := false }] else [] }

theorem test_hyp_PagesAndShares_answered :
    ((answeredService false).pf[0]? = some { ctx := 0, va := 2 ^ 36, host := true, pond := false, answered := true } ∧
      Unheld (answeredService false) 0 (2 ^ 36)) ∧
    ∃ e x, (∃ c ∈ (answeredService true).cores, e ∈ c.2.tlb) ∧ Translates 0 (2 ^ 36) e ∧ x ∈ (answeredService true).pend ∧
      pteAddr e.pte ≤ x.pa ∧ x.pa < pteAddr e.pte + 2 ^ pageBits e.level :=
  ⟨⟨rfl, unheld_of (by decide +kernel)⟩, { ctx := 0, page := 2 ^ 20, level := 4, pte := 0x60005 }, _, by decide +kernel,
    by decide +kernel, List.Mem.head _, by decide +kernel⟩

theorem test_hyp_PagesAndShares :
    (([(0x20000 : Word), 0x20001, 0xFFFFFFFFFF3F00].all fun v => v.extractLsb' 56 7 == 0 && v.extractLsb' 1 7 == 0) = true ∧ demanding.shootOp = none ∧
      ∀ st ∈ [BankState.empty, .resident], let s := cored fun c => setBank c 3 { Bank.reset with src := [(0x20000, 2 ^ 56)], state := st }
       tget? (getCore s 0).banks 3 = some { Bank.reset with src := [(0x20000, 2 ^ 56)], state := st }) ∧
    HeldBefore (shot [{ bufStore with before := true }]) ∧ ¬ HeldBefore (shot []) ∧
    (∀ n ∈ [0, 1], (({ base with shootOp := some { ctx := 0, lo := 0, hi := 1, all := false, pend := n } } : State).shootOp.map
      ShootOp.pend) = some n) ∧
    (demanding.pf[0]? = some { ctx := 0, va := 2 ^ 36, host := false, pond := false } ∧
      DemandStop demanding 0 (2 ^ 36) 0x1000000000005 0x15000 ∧ walkBad demanding 0 (2 ^ 36) = none ∧
      Unheld demanding 0 (2 ^ 36) ∧ badSector demanding 0x50000 8 = none ∧
      (demanding.pgpool.extractLsb' 16 32).toNat * 0x10000 = 0x50000 ∧ 0x15000 + 8 ≤ 0x50000) ∧
    (hostAsked.pf = [{ ctx := 0, va := 2 ^ 36, host := true, pond := false }] ∧ Unheld hostAsked 0 (2 ^ 36) ∧
      ([(0x1000000001 : Word), 0x1000000000].all fun v => (v.extractLsb' 8 6).toNat == 0 &&
        (v.extractLsb' 16 40).toNat * 0x10000 == 2 ^ 36) = true ∧
      (getWg? hostAsked 0 0).isSome = true ∧ (wgOf hostAsked me).latches = [] ∧
      (streamOf hostAsked me).wait = .pageFault 0x1000000008 ∧ (0x1000000008 : Word).toNat / 0x10000 * 0x10000 = 2 ^ 36 ∧
      (tget? (wgOf hostAsked me).warps 0).isSome = true) ∧
    ([(0x5B0001 : Word), 0x5C].all fun v => v.extractLsb' 46 18 == 0 && v.extractLsb' 23 17 == 0 && v.extractLsb' 7 9 == 0 &&
      decide ((v.extractLsb' 16 7).toNat ≤ 91) && decide ((v.extractLsb' 16 7).toNat + (v.extractLsb' 0 7).toNat ≤ 92)) = true ∧
    (∀ c, c < 64 → (getCtx base c).shareSize = 0) ∧ base.bfloorOps = [] ∧
    (let s : State := { updCtx base 0 (fun c => { c with shareBase := 2, shareSize := 3 }) with bfloorOps := [(0x30004, none)] }
     (∀ c ∈ s.cores, ∀ p ∈ c.2.ops, p.ctx = 0 → namesFloor p = false) ∧ s.bfloorOps = [(0x30004, none)] ∧ (getCtx s 0).shareBase = 2 ∧
     (getCtx s 0).shareSize = 3) := by
  refine ⟨by decide +kernel, shot_held, shot_free, by decide +kernel,
    ⟨by decide +kernel, ⟨by decide +kernel, by decide +kernel⟩, by decide +kernel, unheld_of (by decide +kernel), by decide +kernel⟩,
    ⟨by decide +kernel, unheld_of (by decide +kernel), by decide +kernel⟩, by decide +kernel⟩

/-- The workgroup of `base`, with a save frame at 2 MiB × 3, under a request of a state. -/
def preempting (p : PreReq) (f : Wg → Wg) : State :=
  let s := updWgOf base me f
  { s with ctxs := [(0, { getCtx base 0 with savea := 0x600000, pre := p })] }

def noRequest : PreReq := { busy := false, opt := 0, val := 0, slot := 0, ask := false }

theorem preempting_running (b : Bool) : Running { preempting noRequest id with dsplit := if b then 2 else 0 } 0 0 0 (wgOf base me) := by
  cases b <;> exact ⟨by decide +kernel, by decide +kernel, by decide +kernel, by decide +kernel, by decide⟩

/-- A request for a shadow task in workgroup slot 1 of core 0, to move it or to cancel it. -/
def shadowed (cancel : Bool) : State :=
  { second { Wg.init with record := taskRecord 0 2 0 0 0 } with
    ctxs := [(0, { getCtx base 0 with pre := { busy := true, opt := 0, val := if cancel then 0x8000000600000000 else 0x8000000400000000,
                                               slot := 1, ask := false } })] }

/-- Parts of a frame written one after another, each by its offset. -/
def written (m : DevMemory) (a : Nat) (ps : List (Nat × List Byte)) : DevMemory := ps.foldl (fun m p => m.wrN (a + p.1) p.2) m

theorem written_outside (a x : Nat) : ∀ (ps : List (Nat × List Byte)) (m : DevMemory),
    (∀ p ∈ ps, x < a + p.1 ∨ a + p.1 + p.2.length ≤ x) → (written m a ps).rd x = m.rd x
  | [], _, _ => rfl
  | p :: ps, m, h => by
    rw [written, List.foldl_cons, ← written, written_outside a x ps _ fun q hq => h q (List.mem_cons_of_mem _ hq),
      Laws.dev_rd_wrN_outside _ _ _ _ (h p List.mem_cons_self)]

theorem rdN_congr (m m' : DevMemory) (a n : Nat) (h : ∀ i, i < n → m.rd (a + i) = m'.rd (a + i)) : m.rdN a n = m'.rdN a n := by
  induction n generalizing a with
  | zero => rfl
  | succ n ih =>
    have h0 : m.rd a = m'.rd a := h 0 (Nat.zero_lt_succ n)
    show m.rd a :: m.rdN (a + 1) n = m'.rd a :: m'.rdN (a + 1) n
    rw [h0, ih (a + 1) fun i hi => by
      have := h (i + 1) (Nat.succ_lt_succ hi)
      rwa [← Nat.add_assoc, Nat.add_right_comm] at this]

/-- Each of them reads back where none overlaps a later one. -/
theorem written_reads (a : Nat) : ∀ (ps : List (Nat × List Byte)) (m : DevMemory),
    ps.Pairwise (fun p q => p.1 + p.2.length ≤ q.1) → ∀ p ∈ ps, (written m a ps).rdN (a + p.1) p.2.length = p.2
  | [], _, _, _, h => nomatch h
  | q :: ps, m, hs, p, hp => by
    obtain ⟨hq, hs⟩ := List.pairwise_cons.mp hs
    rw [written, List.foldl_cons, ← written]
    cases hp with
    | head =>
      refine (rdN_congr _ _ _ _ fun i hi => written_outside a _ ps _ fun r hr => ?_).trans (Laws.dev_rdN_wrN_same m (a + q.1) q.2)
      have := hq r hr
      omega
    | tail _ hp => exact written_reads a ps _ hs p hp

@[simp] theorem length_own (id a n : Nat) : (ownBytes id a n).length = n := by simp [ownBytes]

/-- The closed parts of a frame of one warp, with no accumulator rows, follow one another. -/
theorem closed_ordered (id : Nat) (g : Wg) (hw : g.hdr.warps = 1) (ha : g.accSaved = []) :
    (closedParts id g).Pairwise fun p q => p.1 + p.2.length ≤ q.1 := by
  simp only [closedParts, hw, ha, accBytes, tget?, List.cons_append, List.pairwise_cons, List.pairwise_append, List.pairwise_map,
    List.mem_append, List.mem_map, List.mem_range, List.mem_singleton, length_own]
  refine ⟨fun q hq => ?_, ⟨by simp [List.range_succ], ?_, fun p hp q hq => ?_⟩, by simp, fun p hp q hq => ?_⟩
  · rcases hq with (⟨w, h, rfl⟩ | ⟨j, h, rfl⟩) | rfl <;> simp <;> omega
  · exact List.pairwise_lt_range.imp fun h => by omega
  · obtain ⟨w, h, rfl⟩ := hp
    obtain ⟨j, h, rfl⟩ := hq
    simp; omega
  · subst hq
    rcases hp with ⟨w, h, rfl⟩ | ⟨j, h, rfl⟩ <;> simp <;> omega

/-- The save of the warp of `base`, and the entry that names it; memory as `base` has it, with the closed parts of the frame. -/
def savedWg : SavedWg := { id := 1, frame := 0x600000, wg := wgOf base me, die := 0, baton := none, waits := [] }
def savedEnt : PondEnt := { ready with saved := some 1 }
def resuming : State :=
  { ponded [savedEnt] with mem := written base.mem 0x600000 (closedParts 1 savedWg.wg), saved := [savedWg] }

theorem resuming_good : frameGood resuming savedWg = true := by
  have hb : (badSector resuming 0x600000 frameSize).isNone = true := by
    simp only [badSector, show resuming.checks = [] by decide +kernel, List.find?_nil, Option.map_none, ite_self]
    cases devAddr resuming 0x600000 <;> rfl
  have hm : resuming.mem = written base.mem 0x600000 (closedParts 1 savedWg.wg) := by simp only [resuming]
  have hr := written_reads 0x600000 _ base.mem (closed_ordered 1 savedWg.wg (by decide +kernel) (by decide +kernel))
  rw [← hm] at hr
  rw [frameGood, show savedWg.frame = 0x600000 from rfl, hb, Bool.true_and, List.all_eq_true]
  intro p hp
  rw [devRead, hr p hp]
  exact beq_self_eq_true p.2

theorem test_hyp_PreemptionAndSaves :
    (∀ b : Bool, Running { preempting noRequest id with dsplit := if b then 2 else 0 } 0 0 0 (wgOf base me)) ∧
    (let s := preempting { busy := true, opt := 0, val := 0x8000000000000000, slot := 0, ask := true } id
     getWg? s 0 0 = some (wgOf base me) ∧ (getCtx s 0).pre.ask = true ∧ bits (getCtx s 0).pre.val 47 40 = 0 ∧
     s.ctxs = [(0, getCtx s 0)] ∧ ∀ o ∈ [PreOpt.drain, .save, .flush], bits (BitVec.ofNat 64 (code o * 2 ^ 61)) 62 61 = code o ∧
       bits (getCtx s 0).pre.val 47 35 = bits (BitVec.ofNat 64 (code o * 2 ^ 61)) 47 35) ∧
    (∀ c : Bool, let s := shadowed c
     (getWg? s 0 1).isSome = true ∧ 1 ∈ (getCore s 0).shadow ∧ s.ctxs = [(0, getCtx s 0)] ∧ (getCtx s 0).pre.val.getLsbD 34 = true ∧
     (wgOf base me).started = true ∧ (getWg s 0 1).started = false ∧ PondRoom s 0 ∧ (getCtx s 0).pre.opt = 0 ∧
     (getCtx s 0).pre.val.getLsbD 33 = c ∧ bits (getCtx s 0).pre.val 47 40 = 0 ∧ bits (getCtx s 0).pre.val 35 35 = 0) ∧
    ¬ PondRoom { shadowed false with ponds := [(0, List.replicate 8192 ready)] } 0 ∧
    (let s := updWg (shadowed false) 0 1 fun g => { g with started := true, phase := .running, record := List.replicate 64 0 }
     (getWg s 0 1).started = true ∧ (getWg s 0 1).phase = .running ∧ s.dsplit.getLsbD 1 = false) ∧
    (∀ p ∈ [PreOpt.flush, .save], let s := updCore (preempting noRequest fun g => { g with preempt := some p, accRows := [191] }) 0 fun c =>
         { c with acc := [(191, List.replicate 128 0x3F800000)] }
     PondRoom s 0 ∧ (wgOf s me).saveNo = (getCtx s 0).saveNo ∧ (wgOf s me).accSaved = [] ∧ (wgOf s me).batonWait = false ∧
     (∀ r ∈ (getCore s 0).acc, r.2.length = 128) ∧ 191 ∈ (wgOf s me).accRows ∧
     (wgOf s me).preempt = some p ∧ (wgOf s me).phase = .running ∧ (getCore s 0).ops = [] ∧ (getCore s 0).waiting = [] ∧ s.pend = [] ∧
     (getCore s 0).l1 = [] ∧ (getCore s 0).baton = none ∧ (getCore s 0).waiters = [] ∧
     (∀ w ∈ (wgOf s me).warps, w.2.main.out = [] ∧ w.2.splits = []) ∧ ((wgOf s me).warps.map Prod.fst).Nodup ∧
     (wgOf s me).record.length = 64 ∧ (wgOf s me).hdr.warps = 1 ∧ (wgOf s me).hdr.regs = 16 ∧ (wgOf s me).hdr.scratch ≤ 0xA0000 ∧
     frameOf s 0 = 0x600000 ∧ badSector s 0x600000 8 = none) ∧
    ((candidates resuming 0).head? = some savedEnt ∧ resuming.saved.find? (fun x => x.id == 1) = some savedWg ∧
     coreForSaved resuming 0 savedWg.wg = some 0 ∧ freeWgSlot (getCore resuming 0) = some 1 ∧
     (getCore resuming 0).split = savedWg.wg.hdr.split ∧ savedWg.wg.withdrawn = [] ∧ (savedWg.wg.warps.map Prod.fst).Nodup ∧
     savedWg.wg.saveNo = (getCtx resuming savedWg.wg.ctx).saveNo) ∧ frameGood resuming savedWg = true := by
  refine ⟨preempting_running, by decide +kernel, ?_, ?_, by decide +kernel, ?_, by decide +kernel, resuming_good⟩ <;>
    unfold PondRoom <;> decide +kernel

/-- The warp stands halted by CMD 2. -/
def halted : State := warped fun w => { w with stop := 2 }

theorem test_hyp_DebuggerCommands :
    ((getCore (cored fun c => { c with halting := true }) 0).ops = [] ∧
      (getCore (updCore (engined [copyOp]) 0 fun c => { c with halting := true }) 0).ops ≠ []) ∧
    ((getWarp base 0 0 0).live ≠ 0 ∧ (getWarp base 0 0 0).stop = 0 ∧ Halted halted 0 0 0 ∧ (getWarp halted 0 0 0).splits = []) ∧
    (halted.dbgBusy = false ∧ injectable (getWarp halted 0 0 0) 0x09004103 0xFFFFFFFF ∧
      ¬ injectable (getWarp halted 0 0 0) 0x1C000000 1 ∧ ¬ injectable (getWarp halted 0 0 0) 0x00200000 1) ∧
    (let s := { withRegs [] [] with cur := { who := me, mode := .inject 5 } }
     dstOk s me .lane (.v 1) = true ∧ srcOk s me .lane (.v 2) = true ∧ srcOk s me .lane .zr = true ∧ Settled s me [.v 2, .zr] ∧
     openReads s me [.v 2, .zr] = false ∧ (warpOf s me).splits = []) ∧
    decode 0x13C00000 = .reject .unassignedOpcode ∧
    ((getWarp halted 0 0 0).main.out = [] ∧ (0x1F000F : Word).getLsbD 15 = false ∧ ((0x1F000F : Word).extractLsb' 0 8).toNat = 15 ∧
      (getWg halted 0 0).hdr.regs = 16 ∧ ((0x10 : Word).extractLsb' 0 8).toNat = 16 ∧ (0x8079 : Word).getLsbD 15 = true ∧
      ((0x8079 : Word).extractLsb' 0 8).toNat = 121 ∧ ((0x806F : Word).extractLsb' 0 8).toNat = 64 + (47 : Fin 48).val) ∧
    ¬ Halted base 0 0 0 ∧
    (let s : State := { base with bps := [(3, (0x8000000000010040, 0))] }
     tget? s.bps 3 = some (0x8000000000010040, me.core) ∧ (0x8000000000010040 : Word).getLsbD 63 = true ∧
     ((0x8000000000010040 : Word).extractLsb' 56 6).toNat = (wgOf s me).ctx ∧
     ((0x8000000000010040 : Word).extractLsb' 2 54).toNat * 4 = (streamOf s me).pc.toNat ∧ (warpOf s me).stop = 0 ∧
     (warpOf s me).live ≠ 0 ∧ (streamOf s me).skipBp = false ∧
     (streamOf (updStream s me fun st => { st with skipBp := true }) me).skipBp = true) ∧
    (let s : State := { halted with dbgBusy := true }
     s.dbgBusy = true ∧ injectable (getWarp halted 0 0 0) 0x13C00000 0) := by
  refine ⟨by decide +kernel, ⟨by decide +kernel, by decide +kernel, ⟨by decide +kernel, by decide +kernel⟩, by decide +kernel⟩,
    ⟨by decide +kernel, ?_, ?_, ?_⟩, ⟨by decide +kernel, by decide +kernel, by decide +kernel, settled_of _ _ (by decide +kernel),
      by decide +kernel, by decide +kernel⟩, by decide, by decide +kernel, fun h => absurd h.2 (by decide +kernel), by decide +kernel, rfl, ?_⟩
  · unfold injectable; decide +kernel
  · unfold injectable; decide +kernel
  · unfold injectable; decide +kernel
  · unfold injectable; decide +kernel

/-- An injection that waits for the halted warp, or for one that a core halt stopped; and none. -/
theorem test_hyp_DebuggerCommands_injection : ∀ k : Nat,
    (∀ i : Bool, let s : State := { warped (fun w => { w with stop := k }) with inject := if i then some (me, 0x1C000000, 1) else none }
      (i = true ↔ InjectsInto s fun o => o.core = 0 ∧ o.slot = 0 ∧ o.warp = 0) ∧
      (k = 1 → (i = true ↔ InjectsInto s fun o => o.core = 0 ∧ (getWarp s o.core o.slot o.warp).stop = 1))) := by
  intro k i
  cases i
  · exact ⟨⟨nofun, fun ⟨_, h, _⟩ => nomatch h⟩, fun _ => ⟨nofun, fun ⟨_, h, _⟩ => nomatch h⟩⟩
  · refine ⟨⟨fun _ => ⟨_, rfl, rfl, rfl, rfl⟩, fun _ => rfl⟩, fun hk => ⟨fun _ => ⟨_, rfl, rfl, ?_⟩, fun _ => rfl⟩⟩
    subst hk
    decide +kernel

/-- An expert location table at 0x100000, its slot 0 as given and slot 1 empty. -/
def experts (slot0 : Nat) : State :=
  { base with eltb := 0x100000, mem := (base.mem.wrN 0x100000 (bytesOfNat 8 slot0)).wrN 0x100008 (bytesOfNat 8 0xFFFF) }

/-- A value of ELTB that the window takes, and one with a reserved bit. -/
theorem test_hyp_HostSide_table : (91 : Nat) < 128 ∧ (0x100000 : Word).extractLsb' 48 16 = 0 ∧ (0x100000 : Word).extractLsb' 4 8 = 0 ∧
    (0x100000 : Word) ≠ base.eltb ∧ base.dsplit.getLsbD 6 = false ∧ Sound base ∧ 0x100000 + 8 * 1024 ≤ Config.deviceEnd ∧
    (0x100010 : Word).extractLsb' 4 8 ≠ 0 := by unfold Sound; decide +kernel

theorem test_hyp_HostSide :
    (tgetD 0 base.links 1 ≠ 0 ∧ Sound base ∧ ([0xAA] : List Byte) ≠ [] ∧ 1023 + 1 ≤ Config.deviceEnd) ∧
    (let s : State := { base with checks := [(2, 1)], dsplit := 0x10 }
     homeOf 64 = .device ∧ s.checks = [(64 / 32, 1)] ∧ (1 : BitVec 16) ≠ crc16 (s.mem.rdN (32 * (64 / 32)) 32) ∧
     s.dsplit.getLsbD 4 = true ∧ tgetD 0 s.links 0 ≠ 0) ∧
    (2600 : Word).extractLsb' 12 4 = 0 ∧ (2600 : Word).extractLsb' 28 36 = 0 ∧ ((2601 : Word).extractLsb' 0 12).toNat = 2601 ∧
    ((1200 : Word).extractLsb' 0 12).toNat = 1200 ∧ ((1199 : Word).extractLsb' 0 12).toNat = 1199 ∧
    base.attBusy = false ∧ (let s : State := { base with attBusy := true, nonce := List.replicate 48 0 }
      s.attBusy = true ∧ s.nonce.length = 48) ∧
    ((experts 0).dsplit.getLsbD 6 = false ∧ Sound (experts 0) ∧ ((experts 0).eltb.extractLsb' 12 36).toNat * 4096 = 0x100000 ∧
      2 ^ (((experts 0).eltb.extractLsb' 0 4).toNat + 10) = 1024 ∧ 0 * 0x9E37 % 1024 = 0 ∧ 0x100000 + 8 * 1024 ≤ Config.deviceEnd ∧
      eltSlot (experts 0) 0x100000 0 % 65536 = 0 ∧ eltSlot (experts 0xFFFF) 0x100000 0 % 65536 = 0xFFFF ∧
      eltSlot (experts 0xFFFF) 0x100000 1 % 65536 = 0xFFFF ∧ (∃ i, i < 1024 ∧ eltSlot (experts 0) 0x100000 i % 65536 = 0xFFFF)) ∧
    (∀ i, i < 1024 → eltSlot base 0x100000 i % 65536 ≠ 0xFFFF) ∧
    ∀ i, i < 1024 → i ≠ 0 →
      eltSlot { experts 0xFFFF with mem := base.mem.wrN 0x100000 (bytesOfNat 8 0xFFFF) } 0x100000 i % 65536 ≠ 0xFFFF := by
  refine ⟨⟨?_, rfl, by decide, by decide⟩, ?_, ?_, ?_, ?_, ?_, ?_, ?_, ?_,
    ⟨?_, rfl, ?_, ?_, by decide, by decide, ?_⟩, ?_⟩ <;> decide +kernel

/-- A whole patch of a body of four bytes for opcode 0xF5, but for its signature. -/
def patchBytes : List Byte :=
  bytesOfNat 2 0xC6AC ++ [1, 0xF5, 0, 1, 3, 7] ++ bytesOfNat 8 0 ++ bytesOfNat 4 4 ++ List.replicate 12 0 ++ List.replicate 132 0

theorem test_hyp_PatchesAndTrust :
    ((0xFFFFFFFFFFC0 : Word).extractLsb' 48 12 = 0 ∧ (0xFFFFFFFFFFC0 : Word).extractLsb' 0 6 = 0 ∧ base.mcload.busy = false ∧
      base.dsplit.getLsbD 3 = false ∧ (8 : BitVec 7).getLsbD 3 = true) ∧
    (let s : State := { base with mcload := { busy := true, res := 0, addr := 0x40000, ctx := 0 }, mem := base.mem.wrN 0x40000 patchBytes }
     s.mcload.busy = true ∧ Sound s ∧ (Config.patchSigned patchBytes = true → GoodPatch s 0x40000 patchBytes)) ∧
    ((0x5A40 : Word).extractLsb' 8 8 = 0x5A ∧ (0x5A40 : Word).extractLsb' 16 48 = 0 ∧ (0x5A40 : Word).getLsbD 7 = false ∧
      base.secver < ((0x5A40 : Word).extractLsb' 0 7).toNat ∧ ((0x5A40 : Word).extractLsb' 0 7).toNat ≤ 64) ∧
    64 < ((0x5A41 : Word).extractLsb' 0 7).toNat :=
  ⟨by decide +kernel, ⟨by decide +kernel, rfl, fun h => by constructor <;> first | assumption | decide +kernel⟩, by decide +kernel⟩

/-- A StORUN object of one value and no records, 65 bytes long (R374, R382). -/
def objectBytes : List Byte :=
  bytesOfNat 2 0xC65E ++ bytesOfNat 4 1 ++ [1, 1] ++ bytesOfNat 8 0 ++ bytesOfNat 16 1 ++ bytesOfNat 24 64 ++ bytesOfNat 4 65
    ++ bytesOfNat 4 0x0FC14A49 ++ [0]

/-- A translation request: an object, 16 lane registers, a buffer of 4,096 bytes at 2^36 + 4,096, the status at 2^36 + 256. -/
def requestBytes (obj : Nat) : List Byte :=
  bytesOfNat 8 obj ++ bytesOfNat 4 65 ++ [1, 0, 0, 0] ++ bytesOfNat 8 (2 ^ 36 + 4096) ++ bytesOfNat 8 4096 ++ bytesOfNat 8 (2 ^ 36 + 256)
    ++ List.replicate 24 0

/-- Peer traffic is accepted, context 0 maps the page at 2^36 to 0x50000, with the object at 0x50400, and a translation is under
way. -/
def mapped : State :=
  let s := paged 0xC001000000050004
  { s with chip := 0x100, mem := s.mem.wrN 0x50400 objectBytes, ctxs := [(0, { getCtx s 0 with ctl := 0xC01 })] }
def peered (q : XlateOp) : State := { mapped with xlateOps := [q] }

def asked : XlateOp := { ctx := 0, addr := 2 ^ 36, req := none }

/-- A level of a walk that goes down, and one that ends at a leaf. -/
theorem walk_down {m : DevMemory} {va k level table : Nat} {e : Word}
    (h : BitVec.ofNat 64 (natOfBytes (m.rdN (table + 8 * (va / 2 ^ pageBits level % 2 ^ indexBits level)) 8)) = e)
    (hv : pteValid e = true) (hm : malformed level e = false) (hl : pteLeaf e = false) :
    walkFrom m va (k + 1) level table = walkFrom m va k (level + 1) (pteAddr e) := by simp [walkFrom, h, hv, hm, hl]
theorem walk_leaf {m : DevMemory} {va k level table : Nat} {e : Word}
    (h : BitVec.ofNat 64 (natOfBytes (m.rdN (table + 8 * (va / 2 ^ pageBits level % 2 ^ indexBits level)) 8)) = e)
    (hv : pteValid e = true) (hm : malformed level e = false) (hl : pteLeaf e = true) :
    walkFrom m va (k + 1) level table = .leaf level e (table + 8 * (va / 2 ^ pageBits level % 2 ^ indexBits level)) := by
  simp [walkFrom, h, hv, hm, hl]

/-- What a state that differs in memory alone keeps, of what a walk reads. -/
theorem rest_of {u v : State} {m : DevMemory} (h : { u with mem := m } = v) : u.ctxs = v.ctxs ∧ u.pgx = v.pgx := by
  subst h; exact ⟨rfl, rfl⟩
theorem ctxs_of (s : State) (xs : List XlateOp) : ({ s with xlateOps := xs } : State).ctxs = s.ctxs := rfl
theorem mem_of (s : State) (xs : List XlateOp) : ({ s with xlateOps := xs } : State).mem = s.mem := rfl
theorem peered_same (q : XlateOp) : { peered q with mem := (peered q).mem } = peered q := by
  generalize peered q = s; rfl

/-- The page at 2^36, as long as the table entries stay as they are. -/
theorem peered_page (q : XlateOp) (u : State) (d : Nat) (h : d < 65536) (hu : { u with mem := (peered q).mem } = peered q)
    (hm : ∀ a, a < 0x50000 ∨ 0x60000 ≤ a → u.mem.rd a = (peered q).mem.rd a) : PlainPage u 0 (2 ^ 36 + d) (0x50000 + d) := by
  have hp : (peered q).mem = mapped.mem := mem_of mapped [q]
  rw [hp] at hm
  have rd : ∀ a, (a + 8 ≤ 0x50000 ∨ 0x60000 ≤ a) → u.mem.rdN a 8 = mapped.mem.rdN a 8 :=
    fun a ha => rdN_congr _ _ _ _ fun i hi => hm _ (by omega)
  obtain ⟨hc, hg⟩ := rest_of hu
  have hc : u.ctxs = mapped.ctxs := hc.trans (ctxs_of mapped [q])
  have hr : bits (getCtx u 0).root 47 23 * 2 ^ 23 = 0x800000 := by rw [getCtx, hc]; decide +kernel
  have i1 : (2 ^ 36 + d) / 2 ^ pageBits 1 % 2 ^ indexBits 1 = 1 := by simp [pageBits, indexBits]; omega
  have i2 : (2 ^ 36 + d) / 2 ^ pageBits 2 % 2 ^ indexBits 2 = 0 := by simp [pageBits, indexBits]; omega
  have i3 : (2 ^ 36 + d) / 2 ^ pageBits 3 % 2 ^ indexBits 3 = 0 := by simp [pageBits, indexBits]; omega
  have i4 : (2 ^ 36 + d) / 2 ^ pageBits 4 % 2 ^ indexBits 4 = 0 := by simp [pageBits, indexBits]; omega
  have hw : walk u 0 (2 ^ 36 + d) = .leaf 4 0xC001000000050004 0x15000 := by
    rw [walk, hr, walk_down (e := 0x8000000000013000) (by rw [i1, rd _ (by decide)]; decide +kernel) (by decide) (by decide +kernel)
      (by decide), walk_down (e := 0x8000000000014000) (by rw [i2, rd _ (by decide +kernel)]; decide +kernel) (by decide)
      (by decide +kernel) (by decide), walk_down (e := 0x8000000000015000) (by rw [i3, rd _ (by decide +kernel)]; decide +kernel)
      (by decide) (by decide +kernel) (by decide), walk_leaf (e := 0xC001000000050004)
      (by rw [i4, rd _ (by decide +kernel)]; decide +kernel) (by decide) (by decide +kernel) (by decide), i4]
    decide +kernel
  refine ⟨by omega, ?_, ?_, ⟨_, _, hw, by decide +kernel, by decide +kernel, by decide +kernel, ?_⟩, ?_⟩
  · simp [inWindow, Config.windowBase]; omega
  · rw [pgxHolds, hg]; rfl
  · rw [show pteAddr 0xC001000000050004 = 0x50000 by decide +kernel]; omega
  · simp [homeOf, Config.deviceEnd]; omega

theorem peered_here (q : XlateOp) (d : Nat) (h : d < 65536) : PlainPage (peered q) 0 (2 ^ 36 + d) (0x50000 + d) :=
  peered_page q (peered q) d h (peered_same q) fun a _ => Eq.refl ((peered q).mem.rd a)

theorem test_hyp_PeersAndTranslation :
    (base.chip.getLsbD 8 = false ∧ (peered asked).chip.getLsbD 8 = true ∧ Sound (peered asked)) ∧
    PlainPage (peered asked) 0 (2 ^ 36 + 65535) (0x50000 + 65535) ∧ ((2 ^ 36 + 65535) % 65536 + ([1] : List Byte).length ≤ 65536) ∧
    ((peered asked).booted = true ∧ (getCtx (peered asked) 0).ctl.getLsbD 0 = true ∧ (getCtx (peered asked) 0).intake.length < 256) ∧
    (0x3FFFFFFFFF : BitVec 38).toNat + 1 ≤ 2 ^ 38 ∧ (0x40 : BitVec 38).toNat + 8 ≤ Config.deviceEnd ∧
    ((0x40 : Word).extractLsb' 56 7 = 0 ∧ (0x40 : Word).extractLsb' 0 6 = 0 ∧ base.xlateOps = [] ∧
      ∃ q ∈ (peered asked).xlateOps, q.ctx = (peered asked).ctxselW ∧ q.req = none) ∧
    (PlainPage (peered asked) asked.ctx asked.addr 0x50000 ∧ asked.addr % 64 = 0) ∧
    (let r := requestBytes (2 ^ 56)
     2 ^ 56 ≤ field r 0 7 ∧ field r 32 39 = 2 ^ 36 + 256 ∧ field r 32 39 % 8 = 0 ∧
     PlainPage (peered { asked with req := some r }) 0 (2 ^ 36 + 256) (0x50000 + 256)) :=
  ⟨⟨by decide +kernel, by decide +kernel, rfl⟩, peered_here _ _ (by decide), by decide, by decide +kernel, by decide, by decide,
    ⟨by decide, by decide, by decide +kernel, asked, List.Mem.head _, by decide +kernel, rfl⟩, ⟨peered_here _ 0 (by decide), by decide⟩,
    by decide +kernel, by decide +kernel, by decide +kernel, peered_here _ _ (by decide)⟩

/-- The object parses, and translates to a header and one word. -/
theorem test_hyp_PeersAndTranslation_object : ∃ o c img, parseObject objectBytes 0 = .inl o ∧
    requestConfig (requestBytes (2 ^ 36 + 0x400)) = some c ∧ translateObj c o = .inl img ∧ img.length = 68 := by
  have h : (match parseObject objectBytes 0, requestConfig (requestBytes (2 ^ 36 + 0x400)) with
    | .inl o, some c => match translateObj c o with
      | .inl img => img.length == 68
      | .inr _ => false
    | .inl _, none => false
    | .inr _, _ => false) = true := by decide +kernel
  split at h
  · next o c ho hc =>
    split at h
    · next img hi => exact ⟨o, c, img, ho, hc, hi, eq_of_beq h⟩
    · cases h
  · cases h
  · cases h

theorem test_hyp_PeersAndTranslation_translated :
    let r := requestBytes (2 ^ 36 + 0x400)
    let s := peered { asked with req := some r }
    (PlainPage s 0 (field r 0 7) 0x50400 ∧ 64 ≤ field r 8 11 ∧ field (s.mem.rdN 0x50400 64) 56 59 ≤ field r 8 11 ∧
      objectBytes = s.mem.rdN 0x50400 (field (s.mem.rdN 0x50400 64) 56 59) ∧
      field r 0 7 % 65536 + (64 + objectBytes.length) ≤ 65536) ∧ s.secver = 0 ∧ 68 ≤ field r 24 27 ∧
    field r 16 23 % 65536 + 68 ≤ 65536 ∧ field r 32 39 % 8 = 0 ∧ PlainPage s 0 (field r 16 23) 0x51000 ∧
    0x50100 + 8 ≤ 0x51000 ∧ ∀ u : State, { u with mem := s.mem } = s →
      (∀ a, a < 0x51000 ∨ 0x51000 + 68 ≤ a → u.mem.rd a = s.mem.rd a) → PlainPage u 0 (field r 32 39) 0x50100 := by
  intro r s
  have f0 : field r 0 7 = 2 ^ 36 + 0x400 := by decide +kernel
  have f1 : field r 16 23 = 2 ^ 36 + 0x1000 := by decide +kernel
  have f2 : field r 32 39 = 2 ^ 36 + 0x100 := by decide +kernel
  rw [f0, f1, f2]
  exact ⟨⟨peered_here _ _ (by decide), by decide +kernel⟩, by decide +kernel,
    by decide +kernel, by decide, by decide, peered_here _ _ (by decide), by decide,
    fun u hu hm => peered_page _ u 0x100 (by decide) hu fun a ha => hm a (by omega)⟩

theorem test_hyp_StepRunsTheWord :
    (let s := State.reset.withFetchWord 32 0x09004103
     ∃ t, TakesChance s 0 0 [] me t 0x09004103 ∧ decode 0x09004103 = .instr (.shl false .lane .w64 (.v 1) (.v 2) (.v 3))) ∧
    (let s := State.reset.withFetchWord 32 0x13C00000
     ∃ t, TakesChance s 0 0 [] me t 0x13C00000 ∧ decode 0x13C00000 = .reject .unassignedOpcode) ∧
    (let l : Latch := { latchAt 0x10040 1 with firing := true }
     let s : State := { updStream (setLatch base 0 0 4 (some l)) me (fun st => { st with wait := .latch 4 }) with turns := [.issue 0 0] }
     s.inject = none ∧ governed { s with turns := [] } me = false ∧ pickOf { s with turns := [] } 0 0 = some me ∧
      (streamOf s me).wait = .latch 4 ∧ getLatch s 0 0 4 = some l) ∧
    (let s : State := { updStream base me (fun st => { st with wait := .scoreboard 0 8 false, held := some 0x09004103 }) with turns := [.issue 0 0] }
     s.inject = none ∧ governed { s with turns := [] } me = false ∧ pickOf { s with turns := [] } 0 0 = some me ∧
      (∀ g, g < 5 → (streamOf s me).wait ≠ .latch g) ∧ (streamOf s me).wait ≠ .none ∧ (streamOf s me).held = some 0x09004103) ∧
    (let s : State := { spent with turns := [.issue 0 0] }
     s.inject = none ∧ governed { s with turns := [] } me = true ∧ pickOf { s with turns := [] } 0 0 = some me) ∧
    (let s : State := { base with turns := [.event (.pwr 1200)] }
     s.inject = none ∧ s.turns = [.event (.pwr 1200)] ∧ isEvent (.pwr 1200) = true) ∧
    (let s : State := { halted with inject := some (me, 0x09004103, 1) }
     s.inject = some (me, 0x09004103, 1) ∧
      ran (actAs s me (.inject 1)) (.shl false .lane .w64 (.v 1) (.v 2) (.v 3)) State.inject = some none) := by
  refine ⟨⟨_, ⟨?_, ?_, ?_, ?_, ?_, ?_, ?_, _, rfl, rfl⟩, ?_⟩, ⟨_, ⟨?_, ?_, ?_, ?_, ?_, ?_, ?_, _, rfl, rfl⟩, ?_⟩, ?_⟩ <;>
    decide +kernel

theorem test_hyp_CountersKept : CounterInRange base ∧ CapInRange base ∧
    (match step base with | .next _ => true | .fault _ => false | .refused _ => false) = true :=
  ⟨by unfold CounterInRange; decide +kernel, ⟨by decide +kernel, by decide +kernel⟩, by decide +kernel⟩

theorem test_hyp_DecodeEncode : WellFormed (.shl true .warp .w64 (.s 47) .lid .zr) = true ∧
    decode 0x09004103 = .instr (.shl false .lane .w64 (.v 1) (.v 2) (.v 3)) := by decide

/-! ### The assembler (chapter 02) -/

/-- The task of chapter 02, "A task as chasm lays it out". -/
def fillSource : List String :=
  ["        .text", "        .task   fill            ; header at 0x000", "        .warps  1", "        .lanes  32", "        .regs   16",
   "        .endtask                ; fill = 0x040", "        LDL.wt  S45, =3         ; S45 := 3",
   "        SHL.64  V2, LID, S45    ; V2 := lane", "        LDL.wt  S8, =0x100      ; S8 := 0x100",
   "        ADD.64  V1, LID, S8     ; V1 := 0x100 + lane", "        ST.64   V1, S0, V2      ; quadword at ARG0 + lane",
   "        EXIT", "        .pool                   ; 3 at 0x058, 0x100 at 0x060"]

/-- The lines of a source as one text. -/
def sourceOf (ls : List String) : Chasm.Str := ls.flatMap fun l => l.toList ++ ['\n']

/-- The quad at an offset of an image without relocations. -/
def quadAt (bs : List Byte) (n : Nat) : Nat := (((bs.drop n).take 8).zipIdx.map fun b => b.1.toNat * 256 ^ b.2).foldl (· + ·) 0

/-- Chapter 02: the header's nonzero bytes, the six words and the pool of `fill`. -/
theorem test_chasm_fill :
    ((Chasm.assemble (sourceOf fillSource)).image.map fun m =>
      (m.text.length, m.data.isEmpty, [0, 8, 16, 24, 32, 64, 72, 80, 88, 96].map (quadAt (m.load 0x1000000)))) =
    some (0x68, true, [0x000006010001C6A5, 0, 0x012001, 0x0000000100000000, 0, 0x0900BCEDA25B4006, 0x04007CC8A2520006,
      0x0180000014806002, 3, 0x100]) := by decide +kernel

/-- Chapter 02: `fill` has no diagnostics. -/
theorem test_chasm_fill_diags : (Chasm.assemble (sourceOf fillSource)).diags = [] := by decide +kernel

/-- R36, R46, R47: a symbol defined twice and a division by zero are reported, each on its line, and no image is written. -/
theorem test_chasm_errors :
    (Chasm.assemble (sourceOf ["a: NOP", "a: NOP", " .quad 1/0", " ADD.64 S1, V2, S3"])).diags.map
      (fun d => (d.line, d.code)) = [(2, .a07), (3, .a08), (4, .a03)] ∧
    (Chasm.Diag.report "f.s".toList { line := 3, col := 8, code := .a08 }).take 12 = "f.s:3:8: A08".toList ∧
    (Chasm.assemble (sourceOf ["a: NOP", "a: NOP"])).image = none := by decide +kernel

/-- R21, R24: a register's name is an error in an expression, evaluated or not. R36: a literal whose value is the distance to a
label behind the pool it stands in depends on itself. -/
theorem test_chasm_register_names :
    (Chasm.assemble (sourceOf [" .byte 1 || V64", " .byte 0 && V07"])).diags.map (fun d => (d.line, d.code)) =
      [(1, .a01), (2, .a01)] := by decide +kernel
theorem test_chasm_pool_cycle :
    ((Chasm.assemble (sourceOf ["a: LDL S1, =n", " LDL S2, =24", " EXIT", " .pool", "b:", " .equ n, b-a"])).diags.any
      fun d => d.code == .a07) = true := by decide +kernel

/-- R407: every slot of the table that reset leaves holds expert 0xFFFF. -/
theorem test_reset_table : (State.reset.mem.rdN 0 10).map BitVec.toNat = [0xFF, 0xFF, 0, 0, 0, 0, 0, 0, 0xFF, 0xFF] ∧
    (State.reset.mem.rdN 8184 9).map BitVec.toNat =
      [0xFF, 0xFF, 0, 0, 0, 0, 0, 0, 0] := by decide +kernel

end Sys2Proof.Tests
end

section
/-! A trap that aborts its task (R355, R356) performs the buffered stores of the workgroup's warps. Whether the scoreboard holds
one back (R216) is asked for the workgroup that the entry itself names, and in a state at large that need not be the one
whose warp holds the entry. -/

namespace Sys2Proof.Proofs

open Sys2Proof.Machine

/-- The stream that traps: warp 0 of slot 0, in a task without a handler. -/
def trapping : Who := mainOf 0 0 0

/-- A buffered store to scratchpad bytes 0 to 3, issued in the name of slot 1. -/
def strayStore : BufEntry :=
  { who := mainOf 0 1 0, pc := 0, word := 0, latch := none, before := false, effect := .store 0 [(.scratch 0, 4, 0)] }

/-- A command of slot 1 holds bytes 0 to 31 of its own workgroup's scratchpad (R212). -/
def otherHold : SbEntry := { op := 0, slot := 1, floor := false, list := false, write := true, lo := 0, hi := 32 }

/-- The scoreboard holds an entry of slot 1 alone, and the one warp of slot 0 has the stray store in its commit buffer. -/
def strayState : State :=
  updWarpOf (updCore State.reset 0 fun c => { c with sb := [otherHold] }) trapping fun w => { w with buf := [strayStore] }

theorem strayState_without_handler : (wgOf strayState trapping).hdr.trap = 0 := by decide

theorem strayState_sb : (getCore strayState trapping.core).sb = [otherHold] := by decide

theorem strayState_warps : (wgOf strayState trapping).warps = [(0, { Warp.init with buf := [strayStore] })] := by decide

/-- The entry of slot 1 holds the store back, so after the abort it is still in the buffer of slot 0's warp. -/
theorem strayStore_kept :
    (wgOf (takeTrap strayState trapping (trapOf 0) 0 0 none) trapping).warps.map (fun w => w.2.buf) = [[strayStore]] := by
  decide

/-- Refutes O47, in its claim that no buffered word is left where the scoreboard has no entry of the trapping slot: a store
buffered there in the name of slot 1 waits for slot 1's entry, and the abort leaves it (R216, R356 step 2). -/
theorem not_abortsAndRecords : ¬ Obligations.AbortsAndRecords := by
  unfold Obligations.AbortsAndRecords
  rintro ⟨aborts, -⟩
  obtain ⟨-, -, -, buffersEmpty, -⟩ :=
    aborts strayState trapping (trapOf 0) 0 0 none (.inr strayState_without_handler)
  have noneOfSlot : ∀ e ∈ (getCore strayState trapping.core).sb, e.slot ≠ trapping.slot := by
    rw [strayState_sb]; decide
  have distinct : (wgOf strayState trapping).warps.Pairwise (fun v w => v.1 ≠ w.1) := by
    rw [strayState_warps]; exact List.pairwise_singleton _ _
  have empty := buffersEmpty noneOfSlot distinct
  have kept : [strayStore] ∈ (wgOf (takeTrap strayState trapping (trapOf 0) 0 0 none) trapping).warps.map (fun w => w.2.buf) := by
    rw [strayStore_kept]; exact List.mem_singleton_self _
  obtain ⟨w, hw, hbuf⟩ := List.mem_map.mp kept
  rw [empty w hw] at hbuf
  exact absurd hbuf (List.cons_ne_nil _ _).symm

end Sys2Proof.Proofs
end

section
/-! A scalar variable-latency result (R98): the word that leaves it outstanding changes no register, and when the stream's results
return it is the last that its register takes. -/

namespace Sys2Proof.Proofs

open Sys2Proof.Machine Sys2Proof.Laws

/-! ### Where a stream's registers stand -/

/-- What an S register reads as in a stream: its split's copy, or the warp's register (R189). -/
def scalarIn (w : Warp) (sp : Option Nat) (n : Nat) : Word := (sdCopy w sp n).getD (tgetD 0 w.s n)

/-- What the registers of one stream are read from stands alike in two warps, RCNT and the register `d` aside (ZR for none). -/
structure SamePlaces (sp : Option Nat) (d : Reg) (w w' : Warp) : Prop where
  v      : w'.v = w.v
  tag    : w'.tag = w.tag
  window : w'.window = w.window
  emask  : (streamIn w' sp).emask = (streamIn w sp).emask
  sreg   : ∀ n, .s n ≠ d → scalarIn w' sp n.val = scalarIn w sp n.val
  k      : ∀ n, .k n ≠ d → tgetD 0 (streamIn w' sp).k n.val = tgetD 0 (streamIn w sp).k n.val

theorem SamePlaces.refl (sp : Option Nat) (d : Reg) (w : Warp) : SamePlaces sp d w w :=
  ⟨rfl, rfl, rfl, rfl, fun _ _ => rfl, fun _ _ => rfl⟩

theorem SamePlaces.trans {sp : Option Nat} {d : Reg} {w1 w2 w3 : Warp} (h : SamePlaces sp d w1 w2) (g : SamePlaces sp d w2 w3) :
    SamePlaces sp d w1 w3 :=
  ⟨g.v.trans h.v, g.tag.trans h.tag, g.window.trans h.window, g.emask.trans h.emask,
    fun n hn => (g.sreg n hn).trans (h.sreg n hn), fun n hn => (g.k n hn).trans (h.k n hn)⟩

/-- A register whose place a change of a warp leaves alone holds what it held. -/
theorem held_updWarpOf (s : State) (o : Who) (f : Warp → Warp) {d : Reg} (h : SamePlaces o.split d (warpOf s o) (f (warpOf s o)))
    {r : Reg} (hd : r ≠ d ∨ d = .zr) (hr : r ≠ .rcnt) (l : Nat) : held (updWarpOf s o f) o r l = held s o r l := by
  have hf := warpOf_updWarpOf s o f
  have view : SameView s (updWarpOf s o f) o :=
    { cur := rfl
      record := wgOf_updWarpOf_record s o f
      tseq := wgOf_updWarpOf_tseq s o f
      window := by rw [hf, h.window]
      emask := by rw [streamOf, streamOf, hf, h.emask] }
  refine held_congr view r l ?_ ?_ ?_ ?_ hr
  · intro n _; rw [hf, h.v]
  · rintro n rfl; rw [hf]; exact h.sreg n (hd.elim id fun e => by rw [e]; nofun)
  · rintro n rfl; rw [streamOf, streamOf, hf]; exact h.k n (hd.elim id fun e => by rw [e]; nofun)
  · intro _; rw [hf]; simp only [tagOf, h.tag]

/-- A warp whose fields but its streams stand alike, and in this stream EMASK and the K registers, has the same places. -/
theorem samePlaces_of_streams {sp : Option Nat} {d : Reg} {w w' : Warp}
    (fields : ∃ main splits, w' = { w with main := main, splits := splits })
    (emask : (streamIn w' sp).emask = (streamIn w sp).emask)
    (k : ∀ n, .k n ≠ d → tgetD 0 (streamIn w' sp).k n.val = tgetD 0 (streamIn w sp).k n.val)
    (sd : ∀ n, (findSplit w' n).map Split.sd = (findSplit w n).map Split.sd) : SamePlaces sp d w w' := by
  obtain ⟨main, splits, rfl⟩ := fields
  refine ⟨rfl, rfl, rfl, emask, fun n _ => ?_, k⟩
  rw [scalarIn, scalarIn, sdCopy_congr w { w with main := main, splits := splits } sp n.val rfl fun k _ => sd k]

theorem samePlaces_putStream {w : Warp} {sp : Option Nat} (d : Reg) {f : Stream → Stream} (h : hasStream w sp)
    (he : ∀ st, (f st).emask = st.emask) (hk : ∀ st n, .k n ≠ d → tgetD 0 (f st).k n.val = tgetD 0 st.k n.val) :
    SamePlaces sp d w (putStream w sp f) := by
  have hst := streamIn_putStream w sp f h
  refine samePlaces_of_streams (putStream_fields w sp f) ?_ ?_ (sd_putStream w sp f)
  · rw [hst, he]
  · intro n hn; rw [hst, hk _ n hn]

theorem samePlaces_discardIn {w : Warp} {sp : Option Nat} (d : Reg) (dst : Machine.Dst) (ls : List Nat) (h : hasStream w sp) :
    SamePlaces sp d w (discardIn w sp dst ls) := by
  have hst := streamIn_discardIn w sp dst ls h
  refine samePlaces_of_streams (discardIn_fields w sp dst ls) ?_ ?_ (sd_discardIn w sp dst ls)
  · rw [hst]
  · intro n _; rw [hst]

theorem samePlaces_retireW (o : Who) (d : Reg) (mark : Bool) (pc : Addr) {w : Warp} (h : hasStream w o.split) :
    SamePlaces o.split d w (retireW o mark pc w) := by
  have counted : SamePlaces o.split d w { w with rcnt := w.rcnt + 1, qcount := w.qcount + 1 } :=
    ⟨rfl, rfl, rfl, rfl, fun _ _ => rfl, fun _ _ => rfl⟩
  refine counted.trans ?_
  unfold retireW retireIn
  exact samePlaces_putStream d h (fun _ => rfl) fun _ _ _ => rfl

/-! ### Splits under a change of each -/

theorem findSplit_mapAll (w : Warp) (f : Split → Split) (hf : ∀ p, (f p).num = p.num) (k : Nat) :
    findSplit { w with splits := w.splits.map f } k = (findSplit w k).map f := by
  simp only [findSplit, List.find?_map, Function.comp_def, hf]

theorem hasStream_of_findSplit {w w' : Warp} {sp : Option Nat} (f : Split → Split)
    (h : ∀ k, findSplit w' k = (findSplit w k).map f) (hw : hasStream w sp) : hasStream w' sp := by
  intro k hk
  rw [h, Option.isSome_map]
  exact hw k hk

/-- A split whose conditions of result `n` have been reported. -/
def reportedSplit (n : Nat) (p : Split) : Split :=
  { p with st := { p.st with out := p.st.out.map fun e => if e.num = n then { e with flags := 0 } else e } }

theorem findSplit_reported (n : Nat) (w : Warp) (k : Nat) :
    findSplit (reported n w) k = (findSplit w k).map (reportedSplit n) :=
  findSplit_mapAll w (reportedSplit n) (fun _ => rfl) k

theorem samePlaces_reported (sp : Option Nat) (d : Reg) (n : Nat) (w : Warp) : SamePlaces sp d w (reported n w) := by
  obtain ⟨emask, k⟩ :
      (streamIn (reported n w) sp).emask = (streamIn w sp).emask ∧ (streamIn (reported n w) sp).k = (streamIn w sp).k := by
    cases sp with
    | none => exact ⟨rfl, rfl⟩
    | some k => simp only [streamIn, findSplit_reported]; cases findSplit w k <;> exact ⟨rfl, rfl⟩
  refine samePlaces_of_streams ⟨_, _, rfl⟩ emask (fun m _ => by rw [k]) fun j => ?_
  rw [findSplit_reported, Option.map_map]; rfl

/-! ### A result becomes outstanding -/

/-- A scalar result of a word, as it stands outstanding. -/
def scalarRes (n : Nat) (d : Machine.Dst) (v : Word) (fl : BitVec 5) : OutRes :=
  { num := n, dst := d, vals := if d = .none then [] else [(0, v)], flags := fl }

/-- The stream with one more result outstanding. -/
def addOut (e : OutRes) (st : Stream) : Stream := { st with out := st.out ++ [e] }

/-- The warp in which an earlier outstanding result of the scalar register is discarded (R100). -/
def supersede (o : Who) (d : Reg) (w : Warp) : Warp :=
  if regDst w d = .none then w else discardIn w o.split (regDst w d) [0]

theorem wrLate_scalar (o : Who) (d : Reg) (v : Word) (fl : BitVec 5) (w : Warp) :
    wrLate o d [(0, v)] fl w = putStream (supersede o d w) o.split (addOut (scalarRes (nextOut w) (regDst w d) v fl)) := rfl

theorem wrote_supersede (o : Who) (d : Reg) {w : Warp} (h : hasStream w o.split) : Wrote o d [0] w (supersede o d w) := by
  unfold supersede
  split
  · exact ⟨⟨_, _, _, _, _, rfl⟩, ⟨_, _, rfl⟩, fun _ => rfl, fun _ _ => rfl, h⟩
  · let w' := discardIn w o.split (regDst w d) [0]
    exact wrote_discard o (regDst w d) d [0] w h w'.v w'.tag

/-- An outstanding scalar result changes nothing but outstanding results. -/
theorem wrote_wrLate (o : Who) (d : Reg) (v : Word) (fl : BitVec 5) {w : Warp} (h : hasStream w o.split) :
    Wrote o d [0] w (wrLate o d [(0, v)] fl w) := by
  have hs := wrote_supersede o d h
  rw [wrLate_scalar]
  refine ⟨?_, ?_, ?_, ?_, hasStream_putStream _ _ _ _ hs.has⟩
  · obtain ⟨v', r, tag, _, _, e⟩ := hs.fields
    obtain ⟨main, splits, e2⟩ := putStream_fields (supersede o d w) o.split (addOut (scalarRes (nextOut w) (regDst w d) v fl))
    exact ⟨v', r, tag, main, splits, by rw [e2, e]⟩
  · obtain ⟨k, out, e⟩ := hs.stream
    exact ⟨k, _, by rw [streamIn_putStream _ _ _ hs.has, e]; rfl⟩
  · intro hsp
    obtain ⟨n, hn⟩ := Option.isSome_iff_exists.mp hsp
    have := hs.main hsp
    rw [hn]
    exact this
  · intro k hk
    exact (findSplit_putStream_other _ _ _ k hk).trans (hs.splits k hk)

theorem samePlaces_wrLate (o : Who) (d d' : Reg) (v : Word) (fl : BitVec 5) {w : Warp} (h : hasStream w o.split) :
    SamePlaces o.split d' w (wrLate o d [(0, v)] fl w) := by
  have dropped : SamePlaces o.split d' w (supersede o d w) := by
    unfold supersede
    split
    · exact SamePlaces.refl o.split d' w
    · exact samePlaces_discardIn d' _ _ h
  rw [wrLate_scalar]
  exact dropped.trans (samePlaces_putStream d' (wrote_supersede o d h).has (fun _ => rfl) fun _ _ _ => rfl)

/-- The new result is the last one outstanding, and the only one where none was. -/
theorem out_wrLate (o : Who) (d : Reg) (v : Word) (fl : BitVec 5) {w : Warp} (h : hasStream w o.split) :
    ∃ olds, (streamIn (wrLate o d [(0, v)] fl w) o.split).out = olds ++ [scalarRes (nextOut w) (regDst w d) v fl] ∧
      ((streamIn w o.split).out = [] → olds = []) := by
  refine ⟨(streamIn (supersede o d w) o.split).out, ?_, fun none => ?_⟩
  · rw [wrLate_scalar, streamIn_putStream _ _ _ (wrote_supersede o d h).has]; rfl
  · unfold supersede
    split
    · exact none
    · rw [streamIn_discardIn _ _ _ _ h, none]; rfl

/-! ### Writing an S register -/

/-- A stream's copy of an S register is that of a split in a concurrent body whose Sd it is (R189, R191). -/
theorem sdCopy_isSome {w : Warp} {sp : Option Nat} {n : Nat} (h : (sdCopy w sp n).isSome = true) :
    ∃ k m p, sp = some k ∧ splitSd w = some (.s m) ∧ m.val = n ∧ findSplit w k = some p ∧ p.num = k := by
  cases sp with
  | none => cases h
  | some k =>
    simp only [sdCopy] at h
    split at h
    next m hm =>
      split at h
      next hn =>
        obtain ⟨p, hp⟩ := Option.isSome_iff_exists.mp ((Option.isSome_map).symm.trans h)
        exact ⟨k, m, p, rfl, hm, hn, hp, by simpa using List.find?_some hp⟩
      next => cases h
    next => cases h

/-- A split whose copy of Sd is written, where it is the stream's. -/
def putSd (sp : Option Nat) (v : Word) (p : Split) : Split := if some p.num == sp then { p with sd := v } else p

theorem num_putSd (sp : Option Nat) (v : Word) (p : Split) : (putSd sp v p).num = p.num := by
  unfold putSd; split <;> rfl

theorem st_putSd (sp : Option Nat) (v : Word) (p : Split) : (putSd sp v p).st = p.st := by
  unfold putSd; split <;> rfl

/-- A write of an S register goes to the split's copy where there is one, and to the warp's register otherwise (R191). -/
theorem putS_cases (w : Warp) (sp : Option Nat) (n : Nat) (v : Word) :
    ((sdCopy w sp n).isSome = true ∧ putS w sp n v = { w with splits := w.splits.map (putSd sp v) }) ∨
      (sdCopy w sp n = none ∧ putS w sp n v = { w with s := tput w.s n v }) := by
  unfold putS
  split
  next h => exact .inl ⟨h, rfl⟩
  next h => exact .inr ⟨Option.not_isSome_iff_eq_none.mp h, rfl⟩

theorem hasStream_putS {w : Warp} {sp sp' : Option Nat} (n : Nat) (v : Word) (h : hasStream w sp') :
    hasStream (putS w sp n v) sp' := by
  obtain ⟨-, e⟩ | ⟨-, e⟩ := putS_cases w sp n v <;> rw [e]
  · exact hasStream_of_findSplit (putSd sp v) (findSplit_mapAll w _ (num_putSd sp v)) h
  · exact h

theorem scalarIn_putS_same (w : Warp) (sp : Option Nat) (n : Nat) (v : Word) : scalarIn (putS w sp n v) sp n = v := by
  obtain ⟨h, e⟩ | ⟨h, e⟩ := putS_cases w sp n v <;> rw [e]
  · obtain ⟨k, m, p, rfl, hm, hn, hp, hk⟩ := sdCopy_isSome h
    have hm' : splitSd { w with splits := w.splits.map (putSd (some k) v) } = some (.s m) := hm
    simp only [scalarIn, sdCopy, hm', if_pos hn, findSplit_mapAll w _ (num_putSd (some k) v), hp, Option.map_some, Option.getD_some]
    simp [putSd, hk]
  · have h' : sdCopy { w with s := tput w.s n v } sp n = none := h
    rw [scalarIn, h']
    exact tgetD_tput_same 0 w.s n v

theorem samePlaces_putS (w : Warp) (sp : Option Nat) (n : Fin 48) (v : Word) : SamePlaces sp (.s n) w (putS w sp n.val v) := by
  have ne : ∀ m, Reg.s m ≠ .s n → n.val ≠ m.val := fun m hm h => hm (congrArg Reg.s (Fin.ext h.symm))
  obtain ⟨h, e⟩ | ⟨-, e⟩ := putS_cases w sp n.val v <;> rw [e]
  · obtain ⟨k, j, p, rfl, hj, hn, -, -⟩ := sdCopy_isSome h
    have st : streamIn { w with splits := w.splits.map (putSd (some k) v) } (some k) = streamIn w (some k) := by
      simp only [streamIn, findSplit_mapAll w _ (num_putSd (some k) v), Option.map_map, Function.comp_def, st_putSd]
    refine ⟨rfl, rfl, rfl, by rw [st], fun m hm => ?_, fun m _ => by rw [st]⟩
    have hj' : splitSd { w with splits := w.splits.map (putSd (some k) v) } = some (.s j) := hj
    have hjm : j.val ≠ m.val := hn ▸ ne m hm
    simp only [scalarIn, sdCopy, hj, hj', if_neg hjm]
  · refine ⟨rfl, rfl, rfl, rfl, fun m hm => ?_, fun _ _ => rfl⟩
    show (sdCopy w sp m.val).getD (tgetD 0 (tput w.s n.val v) m.val) = _
    rw [tgetD_tput_other _ _ _ _ _ (ne m hm)]; rfl

/-! ### The results of a stream return -/

theorem hasStream_returnOut (o : Who) (e : OutRes) {w : Warp} (h : hasStream w o.split) :
    hasStream (returnOut o w e) o.split := by
  have applied : hasStream (applyOut o w e) o.split := by
    unfold applyOut
    split
    · exact h
    · exact h
    · exact List.foldlRecOn e.vals _ (motive := fun u => hasStream u o.split) h fun u hu x _ => hasStream_putS _ _ hu
    · exact hasStream_putStream _ _ _ _ h
    · exact h
  exact hasStream_of_findSplit (reportedSplit e.num) (findSplit_reported e.num _) applied

theorem hasStream_returnOuts (o : Who) (es : List OutRes) {w : Warp} (h : hasStream w o.split) :
    hasStream (es.foldl (returnOut o) w) o.split :=
  List.foldlRecOn es _ (motive := fun u => hasStream u o.split) h fun _ hu e _ => hasStream_returnOut o e hu

/-- Once a stream's results have returned, its registers hold what the last of them left. -/
theorem held_settle (t : State) (o : Who) (olds : List OutRes) (e : OutRes) (has : hasStream (warpOf t o) o.split)
    (hout : (streamOf t o).out = olds ++ [e]) {r : Reg} (hr : r ≠ .rcnt) (l : Nat) :
    held (settle t o) o r l = held (updWarpOf t o fun w => applyOut o (olds.foldl (returnOut o) w) e) o r l := by
  have hout : (streamIn (warpOf t o) o.split).out = olds ++ [e] := hout
  have after : settle t o = updWarpOf (updWarpOf t o fun w => applyOut o (olds.foldl (returnOut o) w) e) o
      fun _ => settleWarp o (warpOf t o) := by
    rw [updWarpOf_updWarpOf]
    exact updWarpOf_congr t o rfl
  rw [after]
  refine held_updWarpOf _ o _ (d := .zr) ?_ (.inr rfl) hr l
  simp only [warpOf_updWarpOf, settleWarp, hout, List.foldl_append, List.foldl_cons, List.foldl_nil]
  exact (samePlaces_reported o.split .zr e.num _).trans
    (samePlaces_putStream .zr (hasStream_returnOut o e (hasStream_returnOuts o olds has)) (fun _ => rfl) fun _ _ _ => rfl)

/-- What a returning scalar result does to the warp, by its register (R98, R153). -/
theorem applyOut_scalarRes (o : Who) (w : Warp) (n : Nat) (d : Machine.Dst) (v : Word) (fl : BitVec 5) :
    applyOut o w (scalarRes n d v fl) =
      match d with
      | .s m => putS { w with fflags := w.fflags ||| fl } o.split m v
      | .k m => putStream { w with fflags := w.fflags ||| fl } o.split fun st => { st with k := tput st.k m v }
      | .lane i => { w with fflags := w.fflags ||| fl, v := tput w.v (i * 32) v }
      | .tag => { w with fflags := w.fflags ||| fl, tag := tput w.tag 0 (v.setWidth 16 &&& 0x0FFF) }
      | .none => { w with fflags := w.fflags ||| fl } := by
  cases d <;> rfl

theorem samePlaces_fflags (sp : Option Nat) (d : Reg) (w : Warp) (fl : BitVec 5) : SamePlaces sp d w { w with fflags := fl } :=
  ⟨rfl, rfl, rfl, rfl, fun _ _ => rfl, fun _ _ => rfl⟩

/-- A scalar destination is an S or K register or ZR (R55). -/
theorem scalarDst_cases : ∀ {d : Reg}, scalarDst d = true → (∃ n, d = .s n) ∨ (∃ n, d = .k n) ∨ d = .zr
  | .s n, _ => .inl ⟨n, rfl⟩
  | .k n, _ => .inr (.inl ⟨n, rfl⟩)
  | .zr, _ => .inr (.inr rfl)

theorem scalarDst_of_sdOk : ∀ {d : Reg}, sdOk d = true → scalarDst d = true
  | .s _, _ => rfl
  | .k _, _ => rfl

theorem samePlaces_applyOut (o : Who) {d : Reg} (hd : scalarDst d = true) (n : Nat) (u : Warp) (v : Word) (fl : BitVec 5)
    {w : Warp} (has : hasStream w o.split) : SamePlaces o.split d w (applyOut o w (scalarRes n (regDst u d) v fl)) := by
  refine (samePlaces_fflags o.split d w (w.fflags ||| fl)).trans ?_
  rw [applyOut_scalarRes]
  obtain ⟨m, rfl⟩ | ⟨m, rfl⟩ | rfl := scalarDst_cases hd
  · exact samePlaces_putS _ o.split m v
  · refine samePlaces_putStream (.k m) has (fun _ => rfl) fun st j hj => ?_
    exact tgetD_tput_other 0 st.k m.val j.val v fun h => hj (congrArg Reg.k (Fin.ext h.symm))
  · exact SamePlaces.refl o.split .zr _

/-- A scalar result that returns stands in its register. -/
theorem held_applyOut (t : State) (o : Who) (f : Warp → Warp) {d : Reg} (hd : scalarDst d = true) (n : Nat) (u : Warp) (v : Word)
    (fl : BitVec 5) (has : hasStream (f (warpOf t o)) o.split) :
    held (updWarpOf t o fun w => applyOut o (f w) (scalarRes n (regDst u d) v fl)) o d 0 = landed d v := by
  obtain ⟨m, rfl⟩ | ⟨m, rfl⟩ | rfl := scalarDst_cases hd
  · simp only [held, warpOf_updWarpOf, applyOut_scalarRes]
    exact scalarIn_putS_same _ o.split m.val v
  · have hst := streamIn_putStream { f (warpOf t o) with fflags := (f (warpOf t o)).fflags ||| fl } o.split
      (fun st => { st with k := tput st.k m.val v }) has
    simp only [held, warpOf_updWarpOf, applyOut_scalarRes, regDst]
    exact (congrArg (fun st => tgetD 0 st.k m.val) hst).trans (tgetD_tput_same 0 _ m.val v)
  · rfl

/-! ### A word whose result is a scalar outstanding -/

/-- The warp after a word that leaves a scalar result outstanding and completes. -/
def lateW (o : Who) (d : Reg) (v : Word) (fl : BitVec 5) (mark : Bool) (pc : Addr) (w : Warp) : Warp :=
  retireW o mark pc (wrLate o d [(0, v)] fl w)

theorem samePlaces_lateW (o : Who) (d d' : Reg) (v : Word) (fl : BitVec 5) (mark : Bool) (pc : Addr) {w : Warp}
    (h : hasStream w o.split) : SamePlaces o.split d' w (lateW o d v fl mark pc w) :=
  (samePlaces_wrLate o d d' v fl h).trans (samePlaces_retireW o d' mark pc (wrote_wrLate o d v fl h).has)

theorem hasStream_lateW (o : Who) (d : Reg) (v : Word) (fl : BitVec 5) (mark : Bool) (pc : Addr) {w : Warp}
    (h : hasStream w o.split) : hasStream (lateW o d v fl mark pc w) o.split :=
  hasStream_putStream _ _ _ _ (wrote_wrLate o d v fl h).has

/-- The word's result is a late scalar one (R98). -/
theorem lateScalar_lateW (s : State) (o : Who) {d : Reg} (hd : scalarDst d = true) (v : Word) (fl : BitVec 5) (mark : Bool)
    (pc : Addr) (h : hasStream (warpOf s o) o.split) : LateScalar s (updWarpOf s o (lateW o d v fl mark pc)) o d v fl := by
  have pending : ∀ r l, r ≠ .rcnt → held (updWarpOf s o (lateW o d v fl mark pc)) o r l = held s o r l := fun r l hr =>
    held_updWarpOf s o _ (samePlaces_lateW o d .zr v fl mark pc h) (.inr rfl) hr l
  have hw := warpOf_updWarpOf s o (lateW o d v fl mark pc)
  generalize updWarpOf s o (lateW o d v fl mark pc) = t at pending hw ⊢
  have has : hasStream (warpOf t o) o.split := by rw [hw]; exact hasStream_lateW o d v fl mark pc h
  obtain ⟨olds, hout, hnone⟩ := out_wrLate o d v fl h
  have hout : (streamOf t o).out = olds ++ [scalarRes (nextOut (warpOf s o)) (regDst (warpOf s o) d) v fl] := by
    rw [streamOf, hw, lateW, streamIn_retireW o mark pc _ (wrote_wrLate o d v fl h).has]
    exact hout
  refine ⟨?_, fun r l _ hr _ => pending r l hr, ?_, fun none r l _ hr hrd => ?_⟩
  · rw [hout, List.getLast?_append]; rfl
  · have hdr : d ≠ .rcnt := by rintro rfl; cases hd
    rw [held_settle _ o olds _ has hout hdr]
    exact held_applyOut _ o _ hd _ _ v fl (hasStream_returnOuts o olds has)
  · have hrd : r ≠ d := hrd.elim id nofun
    obtain rfl := hnone none
    rw [held_settle _ o [] _ has hout hr, held_updWarpOf _ o _ (samePlaces_applyOut o hd _ _ v fl has) (.inl hrd) hr l]
    exact pending r l hr

/-- The word changes nothing but registers of its warp. -/
theorem computes_lateW (s : State) (o : Who) (d : Reg) (v : Word) (fl : BitVec 5) (mark : Bool)
    (h : hasStream (warpOf s o) o.split) :
    Computes s (updWarpOf s o (lateW o d v fl mark ((streamOf s o).pc + 4))) o mark (warpOf s o) :=
  computes_of_wrote s o s.free mark (wrLate o d [(0, v)] fl) d [0] (wrote_wrLate o d v fl h)

/-- A warp-scope word that leaves a scalar result outstanding completes so. -/
theorem finishOwn_lateScalar (s : State) (o : Who) (x : BitVec 32) (d : Reg) (v : Word) (hstep : (warpOf s o).step = none)
    (h : hasStream (warpOf s o) o.split) :
    finishOwn o x (.done (lateScalar s o .warp d v)) = updWarpOf s o (lateW o d v 0 (fieldW x) ((streamOf s o).pc + 4)) := by
  have late : lateScalar s o .warp d v = updWarpOf s o (wrLate o d [(0, v)] 0) := rfl
  have hw := warpOf_updWarpOf s o (wrLate o d [(0, v)] 0)
  have wrote := wrote_wrLate o d v 0 h
  have step : (warpOf (updWarpOf s o (wrLate o d [(0, v)] 0)) o).step = none := by
    obtain ⟨_, _, _, _, _, e⟩ := wrote.fields
    rw [hw, e, hstep]
  have pc : (streamOf (updWarpOf s o (wrLate o d [(0, v)] 0)) o).pc = (streamOf s o).pc := by
    obtain ⟨_, _, e⟩ := wrote.stream
    rw [streamOf, hw, e]; rfl
  rw [late, finishOwn_done o x _ step, pc, retire_eq, updWarpOf_updWarpOf]
  rfl

end Sys2Proof.Proofs
end

section
/-! SYSR (R120, R121): a system register's value as a late scalar result. -/

namespace Sys2Proof.Proofs

open Sys2Proof.Machine Sys2Proof.Laws Sys2Proof.Claim

/-- A word without sources reads nothing that is not specified (R100). -/
theorem freshReads_nil (s : State) (o : Who) : freshReads s o [] = s := by simp [freshReads, openReads]

theorem encode_sysr (m : Bool) (d : Reg) (i : BitVec 7) : encode (.sysr m d i) = mkWord m 1 0x14 d.enc 120 i := rfl

/-- SYSR is privileged for the numbers 48 to 127 (R64, R120). -/
theorem privileged_sysr (m : Bool) (d : Reg) (i : BitVec 7) : privileged (encode (.sysr m d i)) = decide (48 ≤ i.toNat) := by
  simp [privileged, encode_sysr, fieldOP_mkWord, fieldB_mkWord]

theorem scopesOf_sysr (s : State) (m : Bool) (d : Reg) (i : BitVec 7) : scopesOf s (fieldOP (encode (.sysr m d i))) = [.warp] := by
  rw [encode_sysr, fieldOP_mkWord]; rfl

theorem fieldW_sysr (m : Bool) (d : Reg) (i : BitVec 7) : fieldW (encode (.sysr m d i)) = m := by
  rw [encode_sysr, fieldW_mkWord]

/-- SYSR of a register that reads `v` completes with `v` outstanding in its destination. -/
theorem exec_sysr {s : State} {o : Who} (m : Bool) {d : Reg} {i : BitVec 7} {v : Word} (hi : Issues s o) (hd : sdOk d = true)
    (hc : isS d = true → inConc s o = false) (hp : 48 ≤ i.toNat → (wgOf s o).sys = true) (hv : sysRead s o i.toNat = some v) :
    exec (.sysr m d i) s = .next (updWarpOf s o (lateW o d v 0 m ((streamOf s o).pc + 4))) := by
  obtain ⟨rfl, mode, stream, step⟩ := hi
  have checks : decodeTrap s s.cur.who (encode (.sysr m d i)) .warp (sdOk d && (sysRead s s.cur.who i.toNat).isSome) [] (isS d) =
      none :=
    decodeTrap_none s s.cur.who _ .warp _ [] (isS d) (fun h => hp (by simpa [privileged_sysr] using h))
      (by rw [scopesOf_sysr]; rfl) (.inr rfl) (by rw [hd, hv]; rfl) (fun _ r hr => nomatch hr) hc
  have run : exec (.sysr m d i) s = execSysr m d i s := rfl
  rw [run, execSysr, runWord_issue _ .warp _ [] (isS d) false _ s mode checks (.inr rfl), freshReads_nil, hv, Option.getD_some,
    finishOwn_lateScalar s s.cur.who _ d v step stream, fieldW_sysr]

/-- DETQ: bit 63 for deterministic mode beside the quantum (R264). -/
theorem detqWord_eq (det : Bool) (q : Nat) :
    detqWord det q = (if det then 0x8000000000000000 else 0) + BitVec.ofNat 64 (2 ^ q) := by
  rw [detqWord, BitVec.ofNat_add]
  cases det <;> rfl

/-- Every register that holds a value whole reads as written out from the spec (R120). -/
theorem sysRead_of_registerValue {s : State} {o : Who} {n : Nat} {v : Word} (h : registerValue s o n = some v) :
    sysRead s o n = some v := by
  unfold registerValue at h
  split at h
  case h_6 => rw [← h, ← detqWord_eq]; rfl
  case h_32 => cases h
  all_goals exact h

/-- Settles O13: SYSR leaves the value that it reads outstanding as a late scalar result, and each value that the spec writes out
is the one it reads. -/
theorem systemReads : Obligations.SystemReads := by
  unfold Obligations.SystemReads
  intro s o m d i v hi hd hc hp hv
  have read : sysRead s o i.toNat = some v := hv.elim sysRead_of_registerValue id
  have has : hasStream (warpOf s o) o.split := hi.stream
  exact ⟨_, exec_sysr m hi hd hc hp read, computes_lateW s o d v 0 m has,
    lateScalar_lateW s o (scalarDst_of_sdOk hd) v 0 m _ has⟩

end Sys2Proof.Proofs
end
